-- ==== Sys2Proof/Word.lean ====
section
/-! DEFINITION. The word types of NES-CORE: 8-bit data (R31, R94) and 16-bit CPU addresses (R33, R80). -/

namespace Sys2Proof

/-- One byte: every register but `PC`, and every memory cell (R31, R80). -/
abbrev Byte := BitVec 8

/-- A 16-bit CPU address (R33, R80). -/
abbrev Addr := BitVec 16

end Sys2Proof
end

