-- ==== Sys2Proof/Config.lean ====
section
/-! DEFINITION. What an implementation fixes: the parameters of R6 and the one value the spec leaves open. -/

namespace Sys2Proof

/-- One RGB triple: 8-bit red, green and blue, in the palette file's order (R489, R664). -/
structure Rgb where
  red   : Byte
  green : Byte
  blue  : Byte
deriving DecidableEq, Repr, Inhabited

namespace Config

/-- CPU ticks of one `run_frame` (R6, R663). -/
def cyclesPerFrame : Nat := 29781

/-- Scanlines of one PPU frame (R6, R451). -/
def scanlines : Nat := 262

/-- Dots of one scanline (R6, R450). -/
def dots : Nat := 341

/-- The dot at which the PPU calls the mapper's scanline counter (R6, R465). -/
def scanlineIrqDot : Nat := 260

/-- `SCANLINE_IRQ_REQUIRES_RENDERING` of R6, with the value the spec takes (D35, D45). Log entry 6. -/
def scanlineIrqRequiresRendering : Bool := false

/-- Work RAM size (R6, R39). -/
def ramSize : Nat := 0x800

/-- Nametable RAM size (R6, R41). -/
def ntRamSize : Nat := 0x800

/-- Palette RAM size (R6, R41). -/
def palRamSize : Nat := 0x20

/-- OAM size (R6, R41). -/
def oamSize : Nat := 0x100

/-- Size of a palette file in bytes (R489, R604). -/
def paletteSize : Nat := 192

/-- Frame width in pixels (R6, R48). -/
def frameWidth : Nat := 256

/-- Frame height in pixels (R6, R48). -/
def frameHeight : Nat := 240

/-- `EmphasisRGB(m, rgb)` for `m` in 1..7, which the spec leaves OPEN (R489, D49): no value is known.
Free value, log entry 3. -/
opaque emphasisRgb : BitVec 3 → Rgb → Rgb

end Config
end Sys2Proof
end

