-- ==== Sys2Proof/Syntax.lean ====
section
/-! DEFINITION. The abstract syntax of NES-CORE's instructions: one constructor per mnemonic of
spec/opcode_table.json (the rows a rule of its own describes, `SBC` at $EB and the four groups of unofficial
`NOP`, have their own), with the addressing mode and the operand bytes as operand (R130 to R133, R140 to R143). -/

namespace Sys2Proof

/-- The modes of a `ReadOp` (R161), with the operand bytes of the encoding (R132). `abx`, `aby` and `izy` pay the
page-cross tick only when a page is crossed (R133). -/
inductive ReadOperand
  | imm (v : Byte)      -- `#$nn`, R146
  | zp  (z : Byte)      -- `$nn`, R147
  | zpx (z : Byte)      -- `$nn,X`, R148
  | zpy (z : Byte)      -- `$nn,Y`, R149
  | abs (a : Addr)      -- `$nnnn`, R150
  | abx (a : Addr)      -- `$nnnn,X`, R151
  | aby (a : Addr)      -- `$nnnn,Y`, R153
  | izx (z : Byte)      -- `($nn,X)`, R155
  | izy (z : Byte)      -- `($nn),Y`, R156
deriving DecidableEq, Repr

/-- The modes of a `WriteOp` (R161): the indexed ones are the always-pay variants (R133). -/
inductive WriteOperand
  | zp   (z : Byte)     -- R147
  | zpx  (z : Byte)     -- R148
  | zpy  (z : Byte)     -- R149
  | abs  (a : Addr)     -- R150
  | abxe (a : Addr)     -- R152
  | abye (a : Addr)     -- R154
  | izx  (z : Byte)     -- R155
  | izye (z : Byte)     -- R157
deriving DecidableEq, Repr

/-- The memory modes of an `RmwOp` (R161). -/
inductive RmwOperand
  | zp   (z : Byte)     -- R147
  | zpx  (z : Byte)     -- R148
  | abs  (a : Addr)     -- R150
  | abxe (a : Addr)     -- R152
  | abye (a : Addr)     -- R154
  | izx  (z : Byte)     -- R155
  | izye (z : Byte)     -- R157
deriving DecidableEq, Repr

/-- A shift works on `A` (R145) or on memory. -/
inductive ShiftOperand
  | acc
  | mem (m : RmwOperand)
deriving DecidableEq, Repr

/-- The two forms of `JMP` (R279). -/
inductive JumpOperand
  | abs (a : Addr)      -- R150
  | ind (a : Addr)      -- R158
deriving DecidableEq, Repr

/-- An instruction of NES-CORE. -/
inductive Instr
  -- loads, stores and transfers, R200 to R211
  | lda (m : ReadOperand)
  | ldx (m : ReadOperand)
  | ldy (m : ReadOperand)
  | sta (m : WriteOperand)
  | stx (m : WriteOperand)
  | sty (m : WriteOperand)
  | tax
  | tay
  | txa
  | tya
  | tsx
  | txs
  -- arithmetic and logic, R230 to R247
  | adc (m : ReadOperand)
  | sbc (m : ReadOperand)
  | and (m : ReadOperand)
  | ora (m : ReadOperand)
  | eor (m : ReadOperand)
  | cmp (m : ReadOperand)
  | cpx (m : ReadOperand)
  | cpy (m : ReadOperand)
  | bit (m : ReadOperand)
  | inc (m : RmwOperand)
  | dec (m : RmwOperand)
  | inx
  | iny
  | dex
  | dey
  -- shifts and rotates, R260 to R264
  | asl (m : ShiftOperand)
  | lsr (m : ShiftOperand)
  | rol (m : ShiftOperand)
  | ror (m : ShiftOperand)
  -- control flow, R270 to R284
  | bcc (off : Byte)
  | bcs (off : Byte)
  | beq (off : Byte)
  | bne (off : Byte)
  | bmi (off : Byte)
  | bpl (off : Byte)
  | bvc (off : Byte)
  | bvs (off : Byte)
  | jmp (m : JumpOperand)
  | jsr (target : Addr)
  | rts
  | rti
  | brk
  -- stack, flags, official NOP, R300 to R311
  | pha
  | php
  | pla
  | plp
  | clc
  | sec
  | cli
  | sei
  | cld
  | sed
  | clv
  | nop
  -- unofficial, R320 to R335
  | lax (m : ReadOperand)
  | sax (m : WriteOperand)
  | dcp (m : RmwOperand)
  | isb (m : RmwOperand)
  | slo (m : RmwOperand)
  | rla (m : RmwOperand)
  | sre (m : RmwOperand)
  | rra (m : RmwOperand)
  | aac (op : Byte) (v : Byte)              -- R328: two opcode bytes, one behaviour
  | asr (v : Byte)
  | arr (v : Byte)
  | atx (v : Byte)
  | axs (v : Byte)
  | sya (base : Addr)
  | sxa (base : Addr)
  | sbcDuplicate (v : Byte)                 -- R335, opcode $EB
  -- the unofficial NOP encodings; `op` is the opcode byte, since several share one behaviour
  | nopImplied (op : Byte)                  -- R336
  | nopImmediate (op : Byte) (v : Byte)     -- R337
  | nopZeroPage (op : Byte) (m : ReadOperand)   -- R338
  | nopAbsolute (op : Byte) (m : ReadOperand)   -- R339
  -- the 17 undecodable opcode bytes, R340
  | undecodable (op : Byte)
deriving DecidableEq, Repr

/-- The mnemonic of an instruction, as spec/opcode_table.json spells it. -/
def Instr.mnemonic : Instr → String
  | .lda _ => "LDA" | .ldx _ => "LDX" | .ldy _ => "LDY"
  | .sta _ => "STA" | .stx _ => "STX" | .sty _ => "STY"
  | .tax => "TAX" | .tay => "TAY" | .txa => "TXA" | .tya => "TYA" | .tsx => "TSX" | .txs => "TXS"
  | .adc _ => "ADC" | .sbc _ => "SBC" | .and _ => "AND" | .ora _ => "ORA" | .eor _ => "EOR"
  | .cmp _ => "CMP" | .cpx _ => "CPX" | .cpy _ => "CPY" | .bit _ => "BIT"
  | .inc _ => "INC" | .dec _ => "DEC" | .inx => "INX" | .iny => "INY" | .dex => "DEX" | .dey => "DEY"
  | .asl _ => "ASL" | .lsr _ => "LSR" | .rol _ => "ROL" | .ror _ => "ROR"
  | .bcc _ => "BCC" | .bcs _ => "BCS" | .beq _ => "BEQ" | .bne _ => "BNE"
  | .bmi _ => "BMI" | .bpl _ => "BPL" | .bvc _ => "BVC" | .bvs _ => "BVS"
  | .jmp _ => "JMP" | .jsr _ => "JSR" | .rts => "RTS" | .rti => "RTI" | .brk => "BRK"
  | .pha => "PHA" | .php => "PHP" | .pla => "PLA" | .plp => "PLP"
  | .clc => "CLC" | .sec => "SEC" | .cli => "CLI" | .sei => "SEI" | .cld => "CLD" | .sed => "SED" | .clv => "CLV"
  | .nop => "NOP"
  | .lax _ => "LAX" | .sax _ => "SAX" | .dcp _ => "DCP" | .isb _ => "ISB" | .slo _ => "SLO" | .rla _ => "RLA"
  | .sre _ => "SRE" | .rra _ => "RRA" | .aac _ _ => "AAC" | .asr _ => "ASR" | .arr _ => "ARR" | .atx _ => "ATX"
  | .axs _ => "AXS" | .sya _ => "SYA" | .sxa _ => "SXA" | .sbcDuplicate _ => "SBC"
  | .nopImplied _ => "NOP" | .nopImmediate _ _ => "NOP" | .nopZeroPage _ _ => "NOP" | .nopAbsolute _ _ => "NOP"
  | .undecodable _ => "UNDECODABLE"

end Sys2Proof
end

