-- ==== Sys2Proof/Machine/State.lean ====
section
/-! DEFINITION. The state of NES-CORE as plain data (R30 to R60), the reasons it can stop, and the state after
`power_on`. -/

namespace Sys2Proof.Machine

/-! ## Containers -/

/-- A memory: the bytes that differ from 0, by rising address. An unlisted address reads 0, what the spec puts there at
power-on or load (R55, R56, R57, R502, R503). -/
abbrev Memory := List Host.Cell

/-- A 256 x 240 array of 9-bit entries `emph:colour` (R48), as rows by `y` of columns by `x`; what is not listed is 0. -/
abbrev Frame := List (Nat × List (Nat × BitVec 9))

/-- A 256 x 240 array of RGB triples (R48), as rows by `y` of columns by `x`; what is not listed is black. -/
abbrev RgbFrame := List (Nat × List (Nat × Rgb))

/-! ## PPU -/

/-- How the two physical nametables serve the four logical ones (R49). -/
inductive Mirroring
  | horizontal
  | vertical
  | oneScreenLow
  | oneScreenHigh
  | fourScreen
deriving DecidableEq, Repr

/-- The phase of a scanline (R45, R451). -/
inductive Phase
  | visible
  | postRender
  | vblank
  | preRender
deriving DecidableEq, Repr

/-- One slot of the sprite buffers (R47); `id` = 64 marks an empty slot. -/
structure SpriteInfo where
  id     : Nat
  y      : Byte
  tile   : Byte
  attr   : Byte
  x      : Byte
  dataLo : Byte
  dataHi : Byte
deriving DecidableEq, Repr

/-- An empty slot (R56, R470). -/
def SpriteInfo.empty : SpriteInfo :=
  { id := 64, y := 0xFF, tile := 0xFF, attr := 0xFF, x := 0xFF, dataLo := 0, dataHi := 0 }

/-- The background pipeline (R46). -/
structure Background where
  fetchAddr : Addr
  ntByte    : Byte
  atByte    : Byte
  bgLo      : Byte
  bgHi      : Byte
  bgShiftLo : BitVec 16
  bgShiftHi : BitVec 16
  atShiftLo : Byte
  atShiftHi : Byte
  atLatchLo : Bool
  atLatchHi : Bool
deriving DecidableEq, Repr

/-- The PPU (R41 to R48). -/
structure Ppu where
  ntRam      : Memory           -- 0x800 bytes, R41
  palRam     : Memory           -- 0x20 bytes, R41
  oam        : Memory           -- 0x100 bytes, R41
  ctrl       : Byte             -- R42, R402
  mask       : Byte             -- R42, R404
  status     : Byte             -- R42, R406: bits 4:0 are 0
  v          : BitVec 15        -- R43
  t          : BitVec 15        -- R43
  fineX      : BitVec 3         -- R43
  w          : Bool             -- R43, R411: false = the next write is the first
  oamAddr    : Byte             -- R43
  busLatch   : Byte             -- R44
  readBuffer : Byte             -- R44
  scanline   : Nat              -- R45: 0..261
  dot        : Nat              -- R45: 0..340
  frameOdd   : Bool             -- R45
  phase      : Phase            -- R45
  bg         : Background       -- R46
  secOam     : List SpriteInfo  -- R47: eight slots
  spr        : List SpriteInfo  -- R47: eight slots
  work       : Frame            -- R48
  front      : Frame            -- R48
  rgb        : RgbFrame         -- R48
deriving DecidableEq, Repr

/-! ## Cartridge, mapper, controller -/

/-- The cartridge arrays and the parameters fixed at load (R7, R50). `prgSize` = 0 says that no cartridge is present
(a loaded one has at least 16 KB, R500). -/
structure Cart where
  prg              : Memory
  prgSize          : Nat
  chr              : Memory
  chrSize          : Nat
  chrIsRam         : Bool
  prgRam           : Memory
  prgRamSize       : Nat
  initialMirroring : Mirroring
deriving DecidableEq, Repr

/-- The registers of MMC1 (R52, R526): `regs[0..3]` under their names. -/
structure Mmc1 where
  shift   : BitVec 5
  writeN  : Nat            -- 0..4
  control : BitVec 5
  chr0    : BitVec 5
  chr1    : BitVec 5
  prg     : BitVec 5
deriving DecidableEq, Repr

/-- The registers of MMC3 (R52, R542). -/
structure Mmc3 where
  bankSelect : Byte
  regs       : List Byte   -- eight
  mirrorBit  : Bool
  irqPeriod  : Byte
  irqCounter : Byte
  irqEnabled : Bool
deriving DecidableEq, Repr

/-- The mapper: one of the five variants, each with its registers (R2, R52). -/
inductive Mapper
  | nrom
  | mmc1 (r : Mmc1)
  | unrom (bank : Byte)
  | mmc3 (r : Mmc3)
  | axrom (bank : Byte)
deriving DecidableEq, Repr

/-- The bank-map tables (R51): byte offsets into `cart.prg`, one per 8 KB slot, and into `cart.chr`, one per 1 KB slot. -/
structure BankMaps where
  prg : List Nat           -- four
  chr : List Nat           -- eight
deriving DecidableEq, Repr

/-- The controller (R53). -/
structure Controller where
  shift0   : Byte
  shift1   : Byte
  buttons0 : Byte
  buttons1 : Byte
  strobe   : Bool
deriving DecidableEq, Repr

/-! ## Stops -/

/-- The files whose short read is fatal (R605). -/
inductive FileKind
  | rom
  | snapshot
deriving DecidableEq, Repr

/-- The closed list of fatal conditions (R15, R600 to R605). -/
inductive FatalReason
  | undecodableOpcode (op : Byte) (pc : Addr)
  | unmappedWrite (addr : Addr) (v : Byte)
  | romRegionWrite (mapper : Nat) (addr : Addr) (v : Byte)
  | unsupportedMapper (n : Nat)
  | badPaletteSize (n : Nat)
  | shortFile (kind : FileKind)
deriving DecidableEq, Repr

/-- The machine states of R660; `halted` is R15's and R40's `Halted(reason)`. -/
inductive RunState
  | noCartridge
  | loaded
  | running
  | halted (reason : FatalReason)
deriving DecidableEq, Repr

/-- Why a step faults. -/
inductive Fault
  /-- Raised by `step` on a machine that a fatal condition has halted: `Halted(reason)` "has no further step" (R15).
  Safe: the hardware does not go on either. Log entry 1. -/
  | halted (reason : FatalReason)
deriving DecidableEq, Repr

/-- Why the model refuses. -/
inductive Refusal
  /-- Raised by `exec` for an instruction with no meaning yet; none is left. Safe. -/
  | notModelled (mnemonic : String)
  /-- Raised by `step` and by the host operations before `power_on` has succeeded (R652, R660, U8). Safe. -/
  | notPoweredOn
  /-- Raised by `power_on` when no cartridge is loaded (R650, R652). Safe. -/
  | noCartridge
  /-- Raised by the host operations that a halted machine refuses (R662). Safe. -/
  | machineHalted
  /-- Raised by `load_snapshot` for bytes that no machine with this cartridge can have saved (R586, R671, U3). Safe. -/
  | foreignSnapshot
  /-- Raised by `step` if the decoder rejected the bytes it fetched; no state reaches it, since the fetch supplies every
  byte the opcode asks for. Safe. -/
  | rejectedBytes (e : String)
deriving DecidableEq, Repr

/-! ## The machine -/

/-- The state of NES-CORE (R30). -/
structure State where
  a          : Byte        -- R31
  x          : Byte        -- R31
  y          : Byte        -- R31
  sp         : Byte        -- R32
  p          : Byte        -- R34, R35
  pc         : Addr        -- R33
  cycleCount : Nat         -- R37
  nmiFlag    : Bool        -- R38
  irqFlag    : Bool        -- R38
  run        : RunState    -- R40, R660
  ram        : Memory      -- R39: 0x800 bytes
  ppu        : Ppu         -- R41 to R48
  mirroring  : Mirroring   -- R49
  cart       : Cart        -- R50
  mapper     : Mapper      -- R52
  banks      : BankMaps    -- R51
  ctl        : Controller  -- R53
  palette    : Memory      -- R489: the 192 bytes last given to set_palette
deriving DecidableEq, Repr

/-- The background pipeline after `power_on` (R56). -/
def Background.powerOn : Background :=
  { fetchAddr := 0, ntByte := 0, atByte := 0, bgLo := 0, bgHi := 0, bgShiftLo := 0, bgShiftHi := 0,
    atShiftLo := 0, atShiftHi := 0, atLatchLo := false, atLatchHi := false }

/-- The PPU after `power_on` (R56). -/
def Ppu.powerOn : Ppu :=
  { ntRam := [], palRam := [], oam := [], ctrl := 0, mask := 0, status := 0, v := 0, t := 0, fineX := 0, w := false,
    oamAddr := 0, busLatch := 0, readBuffer := 0, scanline := 0, dot := 0, frameOdd := false, phase := .visible,
    bg := .powerOn, secOam := List.replicate 8 .empty, spr := List.replicate 8 .empty,
    work := [], front := [], rgb := [] }

/-- The controller after `power_on` (R58). -/
def Controller.powerOn : Controller :=
  { shift0 := 0, shift1 := 0, buttons0 := 0, buttons1 := 0, strobe := false }

/-- The cartridge of `State.reset`: the NROM cartridge of 95_test_vectors.md (32 KB PRG, 8 KB CHR-ROM, 8 KB PRG-RAM,
Horizontal) with every byte 0. DESIGN CHOICE, log entry 2: the spec takes the ROM image as a launch parameter (R7). -/
def Cart.blank : Cart :=
  { prg := [], prgSize := 0x8000, chr := [], chrSize := 0x2000, chrIsRam := false, prgRam := [], prgRamSize := 0x2000,
    initialMirroring := .horizontal }

/-- The machine right after `load_rom` of the blank cartridge and `power_on` (R55 to R58, R650). `PC` is the word at
$FFFC of that cartridge, 0. -/
def State.reset : State :=
  { a := 0, x := 0, y := 0, sp := 0xFD, p := 0x34, pc := 0, cycleCount := 0, nmiFlag := false, irqFlag := false,
    run := .running, ram := [], ppu := .powerOn, mirroring := .horizontal, cart := .blank, mapper := .nrom,
    banks := { prg := [0, 0x2000, 0x4000, 0x6000],
               chr := [0, 0x400, 0x800, 0xC00, 0x1000, 0x1400, 0x1800, 0x1C00] },
    ctl := .powerOn, palette := [] }

end Sys2Proof.Machine
end

