-- ==== Sys2Proof/Machine/Controller.lean ====
section
/-! DEFINITION. The controller (49_controller_snapshot.md, R560 to R564). -/

namespace Sys2Proof.Machine

/-- The two ports: port 0 is read at $4016, port 1 at $4017 (R560). -/
inductive Port
  | port0
  | port1
deriving DecidableEq, Repr

/-- `ctl.shift[port]` (R53). -/
def Controller.shift (c : Controller) : Port → Byte
  | .port0 => c.shift0
  | .port1 => c.shift1

/-- `ctl.buttons[port]` (R53). -/
def Controller.buttons (c : Controller) : Port → Byte
  | .port0 => c.buttons0
  | .port1 => c.buttons1

/-- `ctl.shift[port] <- v`. -/
def Controller.setShift (c : Controller) (port : Port) (v : Byte) : Controller :=
  match port with
  | .port0 => { c with shift0 := v }
  | .port1 => { c with shift1 := v }

/-- `ctl.buttons[port] <- v` (R561). -/
def Controller.setButtons (c : Controller) (port : Port) (v : Byte) : Controller :=
  match port with
  | .port0 => { c with buttons0 := v }
  | .port1 => { c with buttons1 := v }

/-- `CtlWrite(s)`: both ports latch on the high to low edge of the strobe (R562). -/
def Controller.write (c : Controller) (strobe : Bool) : Controller :=
  let c' := if c.strobe && !strobe then { c with shift0 := c.buttons0, shift1 := c.buttons1 } else c
  { c' with strobe := strobe }

/-- The byte `CtlRead(port)` and `CtlPeek(port)` return: 0 or 1 (R563, R564). -/
def Controller.peek (c : Controller) (port : Port) : Byte :=
  (BitVec.ofBool (if c.strobe then (c.buttons port).getLsbD 0 else (c.shift port).getLsbD 0)).setWidth 8

/-- The controller after `CtlRead(port)`: while the strobe is low the register shifts right, a 1 entering at bit 7
(R563). -/
def Controller.afterRead (c : Controller) (port : Port) : Controller :=
  if c.strobe then c else c.setShift port ((c.shift port >>> 1) ||| 0x80)

/-- `CtlRead(port)` on the whole state (R563). -/
def ctlRead (port : Port) (s : State) : Byte × State := (s.ctl.peek port, { s with ctl := s.ctl.afterRead port })

/-- `CtlWrite(s)` on the whole state (R562). -/
def ctlWrite (strobe : Bool) (s : State) : State := { s with ctl := s.ctl.write strobe }

end Sys2Proof.Machine
end

