-- ==== Sys2Proof/WellFormed.lean ====
section
/-! DEFINITION. Which instructions have an encoding: the modes each mnemonic's rule lists (R200 to R340), and the
opcode bytes of the constructors that carry one. -/

namespace Sys2Proof

/-- The eight modes of `LDA ADC SBC AND ORA EOR CMP` (R200, R231 to R235, R237). -/
def ReadOperand.isAccumulatorMode : ReadOperand → Bool
  | .imm _ | .zp _ | .zpx _ | .abs _ | .abx _ | .aby _ | .izx _ | .izy _ => true
  | .zpy _ => false

/-- The modes of `LDX` (R201). -/
def ReadOperand.isLdxMode : ReadOperand → Bool
  | .imm _ | .zp _ | .zpy _ | .abs _ | .aby _ => true
  | .zpx _ | .abx _ | .izx _ | .izy _ => false

/-- The modes of `LDY` (R202). -/
def ReadOperand.isLdyMode : ReadOperand → Bool
  | .imm _ | .zp _ | .zpx _ | .abs _ | .abx _ => true
  | .zpy _ | .aby _ | .izx _ | .izy _ => false

/-- The modes of `CPX` and `CPY` (R238, R239). -/
def ReadOperand.isCompareIndexMode : ReadOperand → Bool
  | .imm _ | .zp _ | .abs _ => true
  | .zpx _ | .zpy _ | .abx _ | .aby _ | .izx _ | .izy _ => false

/-- The modes of `BIT` (R240). -/
def ReadOperand.isBitMode : ReadOperand → Bool
  | .zp _ | .abs _ => true
  | .imm _ | .zpx _ | .zpy _ | .abx _ | .aby _ | .izx _ | .izy _ => false

/-- The modes of `LAX` (R320). -/
def ReadOperand.isLaxMode : ReadOperand → Bool
  | .zp _ | .zpy _ | .abs _ | .aby _ | .izx _ | .izy _ => true
  | .imm _ | .zpx _ | .abx _ => false

/-- The modes of `STA` (R203). -/
def WriteOperand.isStaMode : WriteOperand → Bool
  | .zp _ | .zpx _ | .abs _ | .abxe _ | .abye _ | .izx _ | .izye _ => true
  | .zpy _ => false

/-- The modes of `STX` (R204). -/
def WriteOperand.isStxMode : WriteOperand → Bool
  | .zp _ | .zpy _ | .abs _ => true
  | .zpx _ | .abxe _ | .abye _ | .izx _ | .izye _ => false

/-- The modes of `STY` (R205). -/
def WriteOperand.isStyMode : WriteOperand → Bool
  | .zp _ | .zpx _ | .abs _ => true
  | .zpy _ | .abxe _ | .abye _ | .izx _ | .izye _ => false

/-- The modes of `SAX` (R321). -/
def WriteOperand.isSaxMode : WriteOperand → Bool
  | .zp _ | .zpy _ | .abs _ | .izx _ => true
  | .zpx _ | .abxe _ | .abye _ | .izye _ => false

/-- The memory modes of `INC DEC ASL LSR ROL ROR` (R241, R242, R261 to R264). -/
def RmwOperand.isOfficialMode : RmwOperand → Bool
  | .zp _ | .zpx _ | .abs _ | .abxe _ => true
  | .abye _ | .izx _ | .izye _ => false

/-- The modes of the four official shifts (R261 to R264). -/
def ShiftOperand.isOfficialMode : ShiftOperand → Bool
  | .acc => true
  | .mem m => m.isOfficialMode

/-- The 17 undecodable opcode bytes (R143, R340). -/
def undecodableOpcodes : List Byte :=
  [0x02, 0x12, 0x22, 0x32, 0x42, 0x52, 0x62, 0x72, 0x92, 0xB2, 0xD2, 0xF2, 0x8B, 0x93, 0x9F, 0x9B, 0xBB]

/-- The six implied unofficial `NOP` bytes (R336). -/
def nopImpliedOpcodes : List Byte := [0x1A, 0x3A, 0x5A, 0x7A, 0xDA, 0xFA]

/-- The five immediate unofficial `NOP` bytes (R337). -/
def nopImmediateOpcodes : List Byte := [0x80, 0x82, 0x89, 0xC2, 0xE2]

/-- The zero-page unofficial `NOP` bytes of each mode (R338). -/
def nopZeroPageOpcodes : ReadOperand → List Byte
  | .zp _  => [0x04, 0x44, 0x64]
  | .zpx _ => [0x14, 0x34, 0x54, 0x74, 0xD4, 0xF4]
  | .imm _ | .zpy _ | .abs _ | .abx _ | .aby _ | .izx _ | .izy _ => []

/-- The absolute unofficial `NOP` bytes of each mode (R339). -/
def nopAbsoluteOpcodes : ReadOperand → List Byte
  | .abs _ => [0x0C]
  | .abx _ => [0x1C, 0x3C, 0x5C, 0x7C, 0xDC, 0xFC]
  | .imm _ | .zp _ | .zpx _ | .zpy _ | .aby _ | .izx _ | .izy _ => []

/-- An instruction that has an encoding in the opcode map (R142). -/
def Instr.wf : Instr → Bool
  | .lda m | .adc m | .sbc m | .and m | .ora m | .eor m | .cmp m => m.isAccumulatorMode
  | .ldx m => m.isLdxMode
  | .ldy m => m.isLdyMode
  | .sta m => m.isStaMode
  | .stx m => m.isStxMode
  | .sty m => m.isStyMode
  | .cpx m | .cpy m => m.isCompareIndexMode
  | .bit m => m.isBitMode
  | .inc m | .dec m => m.isOfficialMode
  | .asl m | .lsr m | .rol m | .ror m => m.isOfficialMode
  | .lax m => m.isLaxMode
  | .sax m => m.isSaxMode
  | .dcp _ | .isb _ | .slo _ | .rla _ | .sre _ | .rra _ => true      -- all seven modes, R322 to R327
  | .aac op _ => op == 0x0B#8 || op == 0x2B#8                        -- R328
  | .nopImplied op => nopImpliedOpcodes.contains op
  | .nopImmediate op _ => nopImmediateOpcodes.contains op
  | .nopZeroPage op m => (nopZeroPageOpcodes m).contains op
  | .nopAbsolute op m => (nopAbsoluteOpcodes m).contains op
  | .undecodable op => undecodableOpcodes.contains op
  | .tax | .tay | .txa | .tya | .tsx | .txs | .inx | .iny | .dex | .dey => true
  | .bcc _ | .bcs _ | .beq _ | .bne _ | .bmi _ | .bpl _ | .bvc _ | .bvs _ => true
  | .jmp _ | .jsr _ | .rts | .rti | .brk => true
  | .pha | .php | .pla | .plp | .clc | .sec | .cli | .sei | .cld | .sed | .clv | .nop => true
  | .asr _ | .arr _ | .atx _ | .axs _ | .sya _ | .sxa _ | .sbcDuplicate _ => true

end Sys2Proof
end

