-- ==== Sys2Proof/Decode.lean ====
section
/-! DEFINITION. The decoder, total on any bytes (R130, R131, R142, R162), and after it the encoder, written from the
per-instruction encoding tables of 40_load_store_transfer.md to 45_unofficial.md. -/

namespace Sys2Proof

/-! ## Byte order (R91, R132) -/

/-- `hi:lo`, the 16-bit value of two bytes, the low one at the lower address (R91). -/
def addrOf (lo hi : Byte) : Addr := hi ++ lo

/-- Bits 7:0 of an address. -/
def lowByte (a : Addr) : Byte := a.extractLsb' 0 8

/-- Bits 15:8 of an address. -/
def highByte (a : Addr) : Byte := a.extractLsb' 8 8

/-! ## The opcode map (R142) -/

/-- What follows the opcode byte (R130): nothing (F1), one operand byte `nn` (F2), or the two bytes `ll hh` of a
16-bit operand (F3). -/
inductive Layout
  | f1 (i : Instr)
  | f2 (build : Byte → Instr)
  | f3 (build : Addr → Instr)

/-- Row 0x of the opcode map (R142). -/
def opcodeRow0 : List Layout := [
  .f1 .brk, .f2 fun n => .ora (.izx n), .f1 (.undecodable 0x02), .f2 fun n => .slo (.izx n),
  .f2 fun n => .nopZeroPage 0x04 (.zp n), .f2 fun n => .ora (.zp n), .f2 fun n => .asl (.mem (.zp n)), .f2 fun n => .slo (.zp n),
  .f1 .php, .f2 fun n => .ora (.imm n), .f1 (.asl .acc), .f2 fun n => .aac 0x0B n,
  .f3 fun a => .nopAbsolute 0x0C (.abs a), .f3 fun a => .ora (.abs a), .f3 fun a => .asl (.mem (.abs a)), .f3 fun a => .slo (.abs a)]

/-- Row 1x of the opcode map (R142). -/
def opcodeRow1 : List Layout := [
  .f2 fun n => .bpl n, .f2 fun n => .ora (.izy n), .f1 (.undecodable 0x12), .f2 fun n => .slo (.izye n),
  .f2 fun n => .nopZeroPage 0x14 (.zpx n), .f2 fun n => .ora (.zpx n), .f2 fun n => .asl (.mem (.zpx n)), .f2 fun n => .slo (.zpx n),
  .f1 .clc, .f3 fun a => .ora (.aby a), .f1 (.nopImplied 0x1A), .f3 fun a => .slo (.abye a),
  .f3 fun a => .nopAbsolute 0x1C (.abx a), .f3 fun a => .ora (.abx a), .f3 fun a => .asl (.mem (.abxe a)), .f3 fun a => .slo (.abxe a)]

/-- Row 2x of the opcode map (R142). -/
def opcodeRow2 : List Layout := [
  .f3 fun a => .jsr a, .f2 fun n => .and (.izx n), .f1 (.undecodable 0x22), .f2 fun n => .rla (.izx n),
  .f2 fun n => .bit (.zp n), .f2 fun n => .and (.zp n), .f2 fun n => .rol (.mem (.zp n)), .f2 fun n => .rla (.zp n),
  .f1 .plp, .f2 fun n => .and (.imm n), .f1 (.rol .acc), .f2 fun n => .aac 0x2B n,
  .f3 fun a => .bit (.abs a), .f3 fun a => .and (.abs a), .f3 fun a => .rol (.mem (.abs a)), .f3 fun a => .rla (.abs a)]

/-- Row 3x of the opcode map (R142). -/
def opcodeRow3 : List Layout := [
  .f2 fun n => .bmi n, .f2 fun n => .and (.izy n), .f1 (.undecodable 0x32), .f2 fun n => .rla (.izye n),
  .f2 fun n => .nopZeroPage 0x34 (.zpx n), .f2 fun n => .and (.zpx n), .f2 fun n => .rol (.mem (.zpx n)), .f2 fun n => .rla (.zpx n),
  .f1 .sec, .f3 fun a => .and (.aby a), .f1 (.nopImplied 0x3A), .f3 fun a => .rla (.abye a),
  .f3 fun a => .nopAbsolute 0x3C (.abx a), .f3 fun a => .and (.abx a), .f3 fun a => .rol (.mem (.abxe a)), .f3 fun a => .rla (.abxe a)]

/-- Row 4x of the opcode map (R142). -/
def opcodeRow4 : List Layout := [
  .f1 .rti, .f2 fun n => .eor (.izx n), .f1 (.undecodable 0x42), .f2 fun n => .sre (.izx n),
  .f2 fun n => .nopZeroPage 0x44 (.zp n), .f2 fun n => .eor (.zp n), .f2 fun n => .lsr (.mem (.zp n)), .f2 fun n => .sre (.zp n),
  .f1 .pha, .f2 fun n => .eor (.imm n), .f1 (.lsr .acc), .f2 fun n => .asr n,
  .f3 fun a => .jmp (.abs a), .f3 fun a => .eor (.abs a), .f3 fun a => .lsr (.mem (.abs a)), .f3 fun a => .sre (.abs a)]

/-- Row 5x of the opcode map (R142). -/
def opcodeRow5 : List Layout := [
  .f2 fun n => .bvc n, .f2 fun n => .eor (.izy n), .f1 (.undecodable 0x52), .f2 fun n => .sre (.izye n),
  .f2 fun n => .nopZeroPage 0x54 (.zpx n), .f2 fun n => .eor (.zpx n), .f2 fun n => .lsr (.mem (.zpx n)), .f2 fun n => .sre (.zpx n),
  .f1 .cli, .f3 fun a => .eor (.aby a), .f1 (.nopImplied 0x5A), .f3 fun a => .sre (.abye a),
  .f3 fun a => .nopAbsolute 0x5C (.abx a), .f3 fun a => .eor (.abx a), .f3 fun a => .lsr (.mem (.abxe a)), .f3 fun a => .sre (.abxe a)]

/-- Row 6x of the opcode map (R142). -/
def opcodeRow6 : List Layout := [
  .f1 .rts, .f2 fun n => .adc (.izx n), .f1 (.undecodable 0x62), .f2 fun n => .rra (.izx n),
  .f2 fun n => .nopZeroPage 0x64 (.zp n), .f2 fun n => .adc (.zp n), .f2 fun n => .ror (.mem (.zp n)), .f2 fun n => .rra (.zp n),
  .f1 .pla, .f2 fun n => .adc (.imm n), .f1 (.ror .acc), .f2 fun n => .arr n,
  .f3 fun a => .jmp (.ind a), .f3 fun a => .adc (.abs a), .f3 fun a => .ror (.mem (.abs a)), .f3 fun a => .rra (.abs a)]

/-- Row 7x of the opcode map (R142). -/
def opcodeRow7 : List Layout := [
  .f2 fun n => .bvs n, .f2 fun n => .adc (.izy n), .f1 (.undecodable 0x72), .f2 fun n => .rra (.izye n),
  .f2 fun n => .nopZeroPage 0x74 (.zpx n), .f2 fun n => .adc (.zpx n), .f2 fun n => .ror (.mem (.zpx n)), .f2 fun n => .rra (.zpx n),
  .f1 .sei, .f3 fun a => .adc (.aby a), .f1 (.nopImplied 0x7A), .f3 fun a => .rra (.abye a),
  .f3 fun a => .nopAbsolute 0x7C (.abx a), .f3 fun a => .adc (.abx a), .f3 fun a => .ror (.mem (.abxe a)), .f3 fun a => .rra (.abxe a)]

/-- Row 8x of the opcode map (R142). -/
def opcodeRow8 : List Layout := [
  .f2 fun n => .nopImmediate 0x80 n, .f2 fun n => .sta (.izx n), .f2 fun n => .nopImmediate 0x82 n, .f2 fun n => .sax (.izx n),
  .f2 fun n => .sty (.zp n), .f2 fun n => .sta (.zp n), .f2 fun n => .stx (.zp n), .f2 fun n => .sax (.zp n),
  .f1 .dey, .f2 fun n => .nopImmediate 0x89 n, .f1 .txa, .f1 (.undecodable 0x8B),
  .f3 fun a => .sty (.abs a), .f3 fun a => .sta (.abs a), .f3 fun a => .stx (.abs a), .f3 fun a => .sax (.abs a)]

/-- Row 9x of the opcode map (R142). -/
def opcodeRow9 : List Layout := [
  .f2 fun n => .bcc n, .f2 fun n => .sta (.izye n), .f1 (.undecodable 0x92), .f1 (.undecodable 0x93),
  .f2 fun n => .sty (.zpx n), .f2 fun n => .sta (.zpx n), .f2 fun n => .stx (.zpy n), .f2 fun n => .sax (.zpy n),
  .f1 .tya, .f3 fun a => .sta (.abye a), .f1 .txs, .f1 (.undecodable 0x9B),
  .f3 fun a => .sya a, .f3 fun a => .sta (.abxe a), .f3 fun a => .sxa a, .f1 (.undecodable 0x9F)]

/-- Row Ax of the opcode map (R142). -/
def opcodeRowA : List Layout := [
  .f2 fun n => .ldy (.imm n), .f2 fun n => .lda (.izx n), .f2 fun n => .ldx (.imm n), .f2 fun n => .lax (.izx n),
  .f2 fun n => .ldy (.zp n), .f2 fun n => .lda (.zp n), .f2 fun n => .ldx (.zp n), .f2 fun n => .lax (.zp n),
  .f1 .tay, .f2 fun n => .lda (.imm n), .f1 .tax, .f2 fun n => .atx n,
  .f3 fun a => .ldy (.abs a), .f3 fun a => .lda (.abs a), .f3 fun a => .ldx (.abs a), .f3 fun a => .lax (.abs a)]

/-- Row Bx of the opcode map (R142). -/
def opcodeRowB : List Layout := [
  .f2 fun n => .bcs n, .f2 fun n => .lda (.izy n), .f1 (.undecodable 0xB2), .f2 fun n => .lax (.izy n),
  .f2 fun n => .ldy (.zpx n), .f2 fun n => .lda (.zpx n), .f2 fun n => .ldx (.zpy n), .f2 fun n => .lax (.zpy n),
  .f1 .clv, .f3 fun a => .lda (.aby a), .f1 .tsx, .f1 (.undecodable 0xBB),
  .f3 fun a => .ldy (.abx a), .f3 fun a => .lda (.abx a), .f3 fun a => .ldx (.aby a), .f3 fun a => .lax (.aby a)]

/-- Row Cx of the opcode map (R142). -/
def opcodeRowC : List Layout := [
  .f2 fun n => .cpy (.imm n), .f2 fun n => .cmp (.izx n), .f2 fun n => .nopImmediate 0xC2 n, .f2 fun n => .dcp (.izx n),
  .f2 fun n => .cpy (.zp n), .f2 fun n => .cmp (.zp n), .f2 fun n => .dec (.zp n), .f2 fun n => .dcp (.zp n),
  .f1 .iny, .f2 fun n => .cmp (.imm n), .f1 .dex, .f2 fun n => .axs n,
  .f3 fun a => .cpy (.abs a), .f3 fun a => .cmp (.abs a), .f3 fun a => .dec (.abs a), .f3 fun a => .dcp (.abs a)]

/-- Row Dx of the opcode map (R142). -/
def opcodeRowD : List Layout := [
  .f2 fun n => .bne n, .f2 fun n => .cmp (.izy n), .f1 (.undecodable 0xD2), .f2 fun n => .dcp (.izye n),
  .f2 fun n => .nopZeroPage 0xD4 (.zpx n), .f2 fun n => .cmp (.zpx n), .f2 fun n => .dec (.zpx n), .f2 fun n => .dcp (.zpx n),
  .f1 .cld, .f3 fun a => .cmp (.aby a), .f1 (.nopImplied 0xDA), .f3 fun a => .dcp (.abye a),
  .f3 fun a => .nopAbsolute 0xDC (.abx a), .f3 fun a => .cmp (.abx a), .f3 fun a => .dec (.abxe a), .f3 fun a => .dcp (.abxe a)]

/-- Row Ex of the opcode map (R142). -/
def opcodeRowE : List Layout := [
  .f2 fun n => .cpx (.imm n), .f2 fun n => .sbc (.izx n), .f2 fun n => .nopImmediate 0xE2 n, .f2 fun n => .isb (.izx n),
  .f2 fun n => .cpx (.zp n), .f2 fun n => .sbc (.zp n), .f2 fun n => .inc (.zp n), .f2 fun n => .isb (.zp n),
  .f1 .inx, .f2 fun n => .sbc (.imm n), .f1 .nop, .f2 fun n => .sbcDuplicate n,
  .f3 fun a => .cpx (.abs a), .f3 fun a => .sbc (.abs a), .f3 fun a => .inc (.abs a), .f3 fun a => .isb (.abs a)]

/-- Row Fx of the opcode map (R142). -/
def opcodeRowF : List Layout := [
  .f2 fun n => .beq n, .f2 fun n => .sbc (.izy n), .f1 (.undecodable 0xF2), .f2 fun n => .isb (.izye n),
  .f2 fun n => .nopZeroPage 0xF4 (.zpx n), .f2 fun n => .sbc (.zpx n), .f2 fun n => .inc (.zpx n), .f2 fun n => .isb (.zpx n),
  .f1 .sed, .f3 fun a => .sbc (.aby a), .f1 (.nopImplied 0xFA), .f3 fun a => .isb (.abye a),
  .f3 fun a => .nopAbsolute 0xFC (.abx a), .f3 fun a => .sbc (.abx a), .f3 fun a => .inc (.abxe a), .f3 fun a => .isb (.abxe a)]

/-- The opcode map of R142: one row per high nibble. -/
def opcodeMap : List (List Layout) :=
  [opcodeRow0, opcodeRow1, opcodeRow2, opcodeRow3] ++ [opcodeRow4, opcodeRow5, opcodeRow6, opcodeRow7] ++
  [opcodeRow8, opcodeRow9, opcodeRowA, opcodeRowB] ++ [opcodeRowC, opcodeRowD, opcodeRowE, opcodeRowF]

/-- The cell of the opcode map for an opcode byte: row = high nibble, column = low nibble (R142). -/
def layoutOf (op : Byte) : Layout :=
  (opcodeMap.getD (op.toNat / 16) []).getD (op.toNat % 16) (.f1 (.undecodable op))

/-- The length in bytes of an instruction, a function of its opcode byte alone (R131). -/
def instrLength (op : Byte) : Nat :=
  match layoutOf op with
  | .f1 _ => 1
  | .f2 _ => 2
  | .f3 _ => 3

/-- Why a byte string is no instruction. Every opcode byte is classified (R163), so only missing bytes reject. -/
inductive DecodeError
  /-- There is no opcode byte. -/
  | noOpcode
  /-- The opcode asks for more operand bytes than there are. -/
  | operandMissing (op : Byte)
deriving DecidableEq, Repr

/-- What the decoder answers: the instruction and the bytes after it, or a rejection by name. -/
inductive DecodeResult
  | ok (i : Instr) (rest : List Byte)
  | rejected (e : DecodeError)
deriving DecidableEq, Repr

/-- The decoder: byte 0 selects the row, the row says how many operand bytes follow (R131, R162). -/
def decode : List Byte → DecodeResult
  | [] => .rejected .noOpcode
  | op :: rest =>
    match layoutOf op, rest with
    | .f1 i, rest => .ok i rest
    | .f2 build, n :: rest => .ok (build n) rest
    | .f3 build, l :: h :: rest => .ok (build (addrOf l h)) rest
    | .f2 _, [] => .rejected (.operandMissing op)
    | .f3 _, [] => .rejected (.operandMissing op)
    | .f3 _, [_] => .rejected (.operandMissing op)

/-- Byte `k` of a number, byte 0 the least significant. -/
def byteAt (w k : Nat) : Byte := BitVec.ofNat 8 (w >>> (8 * k))

/-- The three bytes of an instruction whose `nbits` low bits are those of `w` and whose other bits are 0, in the order
they lie in memory. -/
def tableBytes (nbits w : Nat) : List Byte :=
  let bits := w % 2 ^ nbits
  [byteAt bits 0, byteAt bits 1, byteAt bits 2]

/-- The instruction the decoder reads from an opcode-table word (bit 0 the least significant bit of the first byte,
the next byte in bits 15:8). -/
def decodeTableWord (nbits w : Nat) : Option Instr :=
  match decode (tableBytes nbits w) with
  | .ok i _ => some i
  | .rejected _ => none

/-! ## The encoder -/

/-- The opcode byte of each `ReadOp` mode, where the instruction's table has one. -/
def ReadOperand.opcode (imm zp zpx zpy abs abx aby izx izy : Option Byte) : ReadOperand → Option Byte
  | .imm _ => imm
  | .zp _  => zp
  | .zpx _ => zpx
  | .zpy _ => zpy
  | .abs _ => abs
  | .abx _ => abx
  | .aby _ => aby
  | .izx _ => izx
  | .izy _ => izy

/-- The opcode byte of each `WriteOp` mode, where the instruction's table has one. -/
def WriteOperand.opcode (zp zpx zpy abs abxe abye izx izye : Option Byte) : WriteOperand → Option Byte
  | .zp _   => zp
  | .zpx _  => zpx
  | .zpy _  => zpy
  | .abs _  => abs
  | .abxe _ => abxe
  | .abye _ => abye
  | .izx _  => izx
  | .izye _ => izye

/-- The opcode byte of each memory mode of an `RmwOp`, where the instruction's table has one. -/
def RmwOperand.opcode (zp zpx abs abxe abye izx izye : Option Byte) : RmwOperand → Option Byte
  | .zp _   => zp
  | .zpx _  => zpx
  | .abs _  => abs
  | .abxe _ => abxe
  | .abye _ => abye
  | .izx _  => izx
  | .izye _ => izye

/-- The opcode byte of an instruction, from the encoding table of its own rule (R200 to R340). -/
def opcodeOf : Instr → Option Byte
  | .lda m => m.opcode (some 0xA9) (some 0xA5) (some 0xB5) none (some 0xAD) (some 0xBD) (some 0xB9) (some 0xA1) (some 0xB1)
  | .ldx m => m.opcode (some 0xA2) (some 0xA6) none (some 0xB6) (some 0xAE) none (some 0xBE) none none
  | .ldy m => m.opcode (some 0xA0) (some 0xA4) (some 0xB4) none (some 0xAC) (some 0xBC) none none none
  | .sta m => m.opcode (some 0x85) (some 0x95) none (some 0x8D) (some 0x9D) (some 0x99) (some 0x81) (some 0x91)
  | .stx m => m.opcode (some 0x86) none (some 0x96) (some 0x8E) none none none none
  | .sty m => m.opcode (some 0x84) (some 0x94) none (some 0x8C) none none none none
  | .tax => some 0xAA
  | .tay => some 0xA8
  | .txa => some 0x8A
  | .tya => some 0x98
  | .tsx => some 0xBA
  | .txs => some 0x9A
  | .adc m => m.opcode (some 0x69) (some 0x65) (some 0x75) none (some 0x6D) (some 0x7D) (some 0x79) (some 0x61) (some 0x71)
  | .sbc m => m.opcode (some 0xE9) (some 0xE5) (some 0xF5) none (some 0xED) (some 0xFD) (some 0xF9) (some 0xE1) (some 0xF1)
  | .and m => m.opcode (some 0x29) (some 0x25) (some 0x35) none (some 0x2D) (some 0x3D) (some 0x39) (some 0x21) (some 0x31)
  | .ora m => m.opcode (some 0x09) (some 0x05) (some 0x15) none (some 0x0D) (some 0x1D) (some 0x19) (some 0x01) (some 0x11)
  | .eor m => m.opcode (some 0x49) (some 0x45) (some 0x55) none (some 0x4D) (some 0x5D) (some 0x59) (some 0x41) (some 0x51)
  | .cmp m => m.opcode (some 0xC9) (some 0xC5) (some 0xD5) none (some 0xCD) (some 0xDD) (some 0xD9) (some 0xC1) (some 0xD1)
  | .cpx m => m.opcode (some 0xE0) (some 0xE4) none none (some 0xEC) none none none none
  | .cpy m => m.opcode (some 0xC0) (some 0xC4) none none (some 0xCC) none none none none
  | .bit m => m.opcode none (some 0x24) none none (some 0x2C) none none none none
  | .inc m => m.opcode (some 0xE6) (some 0xF6) (some 0xEE) (some 0xFE) none none none
  | .dec m => m.opcode (some 0xC6) (some 0xD6) (some 0xCE) (some 0xDE) none none none
  | .inx => some 0xE8
  | .iny => some 0xC8
  | .dex => some 0xCA
  | .dey => some 0x88
  | .asl .acc => some 0x0A
  | .asl (.mem m) => m.opcode (some 0x06) (some 0x16) (some 0x0E) (some 0x1E) none none none
  | .lsr .acc => some 0x4A
  | .lsr (.mem m) => m.opcode (some 0x46) (some 0x56) (some 0x4E) (some 0x5E) none none none
  | .rol .acc => some 0x2A
  | .rol (.mem m) => m.opcode (some 0x26) (some 0x36) (some 0x2E) (some 0x3E) none none none
  | .ror .acc => some 0x6A
  | .ror (.mem m) => m.opcode (some 0x66) (some 0x76) (some 0x6E) (some 0x7E) none none none
  | .bcc _ => some 0x90
  | .bcs _ => some 0xB0
  | .beq _ => some 0xF0
  | .bne _ => some 0xD0
  | .bmi _ => some 0x30
  | .bpl _ => some 0x10
  | .bvc _ => some 0x50
  | .bvs _ => some 0x70
  | .jmp (.abs _) => some 0x4C
  | .jmp (.ind _) => some 0x6C
  | .jsr _ => some 0x20
  | .rts => some 0x60
  | .rti => some 0x40
  | .brk => some 0x00
  | .pha => some 0x48
  | .php => some 0x08
  | .pla => some 0x68
  | .plp => some 0x28
  | .clc => some 0x18
  | .sec => some 0x38
  | .cli => some 0x58
  | .sei => some 0x78
  | .cld => some 0xD8
  | .sed => some 0xF8
  | .clv => some 0xB8
  | .nop => some 0xEA
  | .lax m => m.opcode none (some 0xA7) none (some 0xB7) (some 0xAF) none (some 0xBF) (some 0xA3) (some 0xB3)
  | .sax m => m.opcode (some 0x87) none (some 0x97) (some 0x8F) none none (some 0x83) none
  | .dcp m => m.opcode (some 0xC7) (some 0xD7) (some 0xCF) (some 0xDF) (some 0xDB) (some 0xC3) (some 0xD3)
  | .isb m => m.opcode (some 0xE7) (some 0xF7) (some 0xEF) (some 0xFF) (some 0xFB) (some 0xE3) (some 0xF3)
  | .slo m => m.opcode (some 0x07) (some 0x17) (some 0x0F) (some 0x1F) (some 0x1B) (some 0x03) (some 0x13)
  | .rla m => m.opcode (some 0x27) (some 0x37) (some 0x2F) (some 0x3F) (some 0x3B) (some 0x23) (some 0x33)
  | .sre m => m.opcode (some 0x47) (some 0x57) (some 0x4F) (some 0x5F) (some 0x5B) (some 0x43) (some 0x53)
  | .rra m => m.opcode (some 0x67) (some 0x77) (some 0x6F) (some 0x7F) (some 0x7B) (some 0x63) (some 0x73)
  | .aac op _ => if op == 0x0B#8 || op == 0x2B#8 then some op else none
  | .asr _ => some 0x4B
  | .arr _ => some 0x6B
  | .atx _ => some 0xAB
  | .axs _ => some 0xCB
  | .sbcDuplicate _ => some 0xEB
  | .sya _ => some 0x9C
  | .sxa _ => some 0x9E
  | .nopImplied op => if nopImpliedOpcodes.contains op then some op else none
  | .nopImmediate op _ => if nopImmediateOpcodes.contains op then some op else none
  | .nopZeroPage op m => if (nopZeroPageOpcodes m).contains op then some op else none
  | .nopAbsolute op m => if (nopAbsoluteOpcodes m).contains op then some op else none
  | .undecodable op => if undecodableOpcodes.contains op then some op else none

/-- The two operand bytes `ll hh` of a 16-bit operand (R130, R132). -/
def addrBytes (a : Addr) : List Byte := [lowByte a, highByte a]

/-- The operand bytes of a `ReadOp` mode. -/
def ReadOperand.bytes : ReadOperand → List Byte
  | .imm n | .zp n | .zpx n | .zpy n | .izx n | .izy n => [n]
  | .abs a | .abx a | .aby a => addrBytes a

/-- The operand bytes of a `WriteOp` mode. -/
def WriteOperand.bytes : WriteOperand → List Byte
  | .zp n | .zpx n | .zpy n | .izx n | .izye n => [n]
  | .abs a | .abxe a | .abye a => addrBytes a

/-- The operand bytes of a memory mode of an `RmwOp`. -/
def RmwOperand.bytes : RmwOperand → List Byte
  | .zp n | .zpx n | .izx n | .izye n => [n]
  | .abs a | .abxe a | .abye a => addrBytes a

/-- The operand bytes of a shift: none for the accumulator form (R145). -/
def ShiftOperand.bytes : ShiftOperand → List Byte
  | .acc => []
  | .mem m => m.bytes

/-- The operand bytes of an instruction (R130). -/
def operandBytes : Instr → List Byte
  | .lda m | .ldx m | .ldy m | .adc m | .sbc m | .and m | .ora m | .eor m | .cmp m | .cpx m | .cpy m | .bit m
  | .lax m | .nopZeroPage _ m | .nopAbsolute _ m => m.bytes
  | .sta m | .stx m | .sty m | .sax m => m.bytes
  | .inc m | .dec m | .dcp m | .isb m | .slo m | .rla m | .sre m | .rra m => m.bytes
  | .asl m | .lsr m | .rol m | .ror m => m.bytes
  | .bcc n | .bcs n | .beq n | .bne n | .bmi n | .bpl n | .bvc n | .bvs n => [n]
  | .aac _ n | .asr n | .arr n | .atx n | .axs n | .sbcDuplicate n | .nopImmediate _ n => [n]
  | .jmp (.abs a) | .jmp (.ind a) | .jsr a | .sya a | .sxa a => addrBytes a
  | .tax | .tay | .txa | .tya | .tsx | .txs | .inx | .iny | .dex | .dey | .rts | .rti | .brk
  | .pha | .php | .pla | .plp | .clc | .sec | .cli | .sei | .cld | .sed | .clv | .nop
  | .nopImplied _ | .undecodable _ => []

/-- The bytes of an instruction; none where no opcode byte stands for it (it is not well-formed). -/
def encode (i : Instr) : Option (List Byte) := (opcodeOf i).map (· :: operandBytes i)

/-! ## The assembler's branch operand (R165) -/

/-- The displacement the assembler stores for a branch at `at` to `target`: `target - (at + 2)`, if it lies within
-128..+127 of the next instruction (R165). -/
def branchDisplacement (branchAt target : Addr) : Option Byte :=
  let d := target - (branchAt + 2)
  if (d.setWidth 8).signExtend 16 = d then some (d.setWidth 8) else none

/-- The spellings the assembler accepts beside the table's mnemonics (R165). -/
def mnemonicAliases : List (String × String) :=
  [("ISC", "ISB"), ("ANC", "AAC"), ("ALR", "ASR"), ("LXA", "ATX"), ("SBX", "AXS"), ("SHY", "SYA"), ("SHX", "SXA")]

end Sys2Proof
end

