-- ==== Sys2Proof/Machine/Memory.lean ====
section
/-! DEFINITION. Sparse memories in canonical form: keys strictly rising, no entry equal to what an unlisted key reads
as. One generic pair of operations serves the byte memories (R39, R41, R50) and the frame buffers (R48). -/

namespace Sys2Proof.Machine

variable {α : Type}

/-- What the key `i` reads as; `d` where it is not listed. -/
def sparseGet (d : α) : List (Nat × α) → Nat → α
  | [], _ => d
  | (k, v) :: m, i => if k = i then v else sparseGet d m i

/-- Writes `v` at the key `i`; writing `d` removes the entry. -/
def sparseSet [DecidableEq α] (d : α) : List (Nat × α) → Nat → α → List (Nat × α)
  | [], i, v => if v = d then [] else [(i, v)]
  | (k, w) :: m, i, v =>
    if i < k then (if v = d then (k, w) :: m else (i, v) :: (k, w) :: m)
    else if i = k then (if v = d then m else (i, v) :: m)
    else (k, w) :: sparseSet d m i v

/-- Canonical form from the key `lo` up. -/
def sparseWfFrom [DecidableEq α] (d : α) : Nat → List (Nat × α) → Bool
  | _, [] => true
  | lo, (k, v) :: m => decide (lo ≤ k) && decide (v ≠ d) && sparseWfFrom d (k + 1) m

/-- Canonical form: keys strictly rising, no value equal to `d`. -/
def sparseWf [DecidableEq α] (d : α) (m : List (Nat × α)) : Bool := sparseWfFrom d 0 m

/-- The canonical map that reads as `f i` for `i` in `start .. start + n - 1` and as `d` elsewhere. -/
def sparseTabulateFrom [DecidableEq α] (d : α) (f : Nat → α) : Nat → Nat → List (Nat × α)
  | _, 0 => []
  | start, n + 1 =>
    let rest := sparseTabulateFrom d f (start + 1) n
    if f start = d then rest else (start, f start) :: rest

/-- The canonical map that reads as `f i` for `i < n` and as `d` elsewhere. -/
def sparseTabulate [DecidableEq α] (d : α) (n : Nat) (f : Nat → α) : List (Nat × α) := sparseTabulateFrom d f 0 n

/-! ## Byte memories -/

/-- The byte at an offset. -/
def Memory.read (m : Memory) (i : Nat) : Byte := sparseGet 0 m i

/-- Stores a byte at an offset. -/
def Memory.write (m : Memory) (i : Nat) (v : Byte) : Memory := sparseSet 0 m i v

/-- The canonical form of a byte memory. -/
def Memory.wf (m : Memory) : Bool := sparseWf (0 : Byte) m

/-- Every listed offset is below `n`: the memory lies inside an array of `n` bytes. -/
def Memory.below (n : Nat) (m : Memory) : Bool := m.all fun e => decide (e.1 < n)

/-- The memory whose bytes from the offset `k` up are the given ones. -/
def Memory.ofBytesFrom : Nat → List Byte → Memory
  | _, [] => []
  | k, b :: bytes => if b = 0 then Memory.ofBytesFrom (k + 1) bytes else (k, b) :: Memory.ofBytesFrom (k + 1) bytes

/-- The memory whose bytes from offset 0 up are the given ones. -/
def Memory.ofBytes (bytes : List Byte) : Memory := Memory.ofBytesFrom 0 bytes

/-- The bytes at the offsets `0 .. n - 1`. -/
def Memory.toBytes (n : Nat) (m : Memory) : List Byte := (List.range n).map (Memory.read m)

/-! ## Frame buffers (R48) -/

/-- Entry `y*256 + x` of a frame buffer. -/
def Frame.read (f : Frame) (y x : Nat) : BitVec 9 := sparseGet 0 (sparseGet [] f y) x

/-- Stores entry `y*256 + x` of a frame buffer. -/
def Frame.write (f : Frame) (y x : Nat) (v : BitVec 9) : Frame :=
  sparseSet [] f y (sparseSet 0 (sparseGet [] f y) x v)

/-- Canonical form of a frame buffer: rows and columns both canonical. -/
def Frame.wf (f : Frame) : Bool := sparseWf [] f && f.all fun row => sparseWf (0 : BitVec 9) row.2

/-- Black, what `ppu.rgb` holds after `power_on` (R56). -/
def blackRgb : Rgb := { red := 0, green := 0, blue := 0 }

/-- Entry `y*256 + x` of the RGB array. -/
def RgbFrame.read (f : RgbFrame) (y x : Nat) : Rgb := sparseGet blackRgb (sparseGet [] f y) x

/-- Canonical form of the RGB array. -/
def RgbFrame.wf (f : RgbFrame) : Bool := sparseWf [] f && f.all fun row => sparseWf blackRgb row.2

/-- Every listed entry lies on the 256 x 240 screen. -/
def onScreen (f : List (Nat × List (Nat × α))) : Bool :=
  f.all fun row => decide (row.1 < Config.frameHeight) && row.2.all fun e => decide (e.1 < Config.frameWidth)

/-- The RGB array filled by a function of `y` and `x` (R488). -/
def RgbFrame.fill (f : Nat → Nat → Rgb) : RgbFrame :=
  sparseTabulate [] Config.frameHeight fun y => sparseTabulate blackRgb Config.frameWidth (f y)

end Sys2Proof.Machine
end

