-- ==== Sys2Proof/Machine/Registers.lean ====
section
/-! DEFINITION. Writing a CPU register: one accessor each (R9, R31 to R34). -/

namespace Sys2Proof.Machine

/-- Writes `A` (R31). -/
def State.setA (v : Byte) (s : State) : State := { s with a := v }

/-- Writes `X` (R31). -/
def State.setX (v : Byte) (s : State) : State := { s with x := v }

/-- Writes `Y` (R31). -/
def State.setY (v : Byte) (s : State) : State := { s with y := v }

/-- Writes `SP` (R32). -/
def State.setSp (v : Byte) (s : State) : State := { s with sp := v }

/-- Writes `P`, all eight bits (R34). -/
def State.setP (v : Byte) (s : State) : State := { s with p := v }

/-- Writes `PC` (R33). -/
def State.setPc (v : Addr) (s : State) : State := { s with pc := v }

/-- Ends execution with a fatal condition: `raise Fatal(reason)` (R15). -/
def State.halt (r : FatalReason) (s : State) : State := { s with run := .halted r }

end Sys2Proof.Machine
end

