-- ==== Sys2Proof/Machine/Mapper.lean ====
section
/-! DEFINITION. The cartridge and its five mappers (48_cartridge_mappers.md): the bank-map abstraction, the operations
`prg_read`, `prg_write`, `chr_read`, `chr_write`, `scanline_counter` and `reset` of each variant (R510 to R555). -/

namespace Sys2Proof.Machine

/-! ## The bank-map abstraction (R510) -/

/-- The slots that `SetPrgMap` or `SetChrMap` writes: `count` consecutive ones from `first`, each `step` bytes further
into the array than the one before, reduced modulo its length. -/
def setSlots (first count : Nat) (base : Int) (step size : Nat) (m : List Nat) : List Nat :=
  (List.range count).foldl (fun m i => m.set (first + i) ((base + (step * i : Nat)) % (size : Int)).toNat) m

/-- `SetPrgMap<n>(slot, page)`: a negative page counts from the end of PRG (R510). -/
def setPrgMap (n slot : Nat) (page : Int) (prgSize : Nat) (m : List Nat) : List Nat :=
  let page := if page < 0 then (prgSize / (n * 1024) : Nat) + page else page
  setSlots (n / 8 * slot) (n / 8) ((n * 1024 : Nat) * page) 0x2000 prgSize m

/-- `SetChrMap<n>(slot, page)` (R510). -/
def setChrMap (n slot page chrSize : Nat) (m : List Nat) : List Nat :=
  setSlots (n * slot) n ((n * 1024 : Nat) * page) 0x400 chrSize m

/-- Four unset PRG slots, the start of an `Apply()`, which sets every one (R511). -/
def noPrgSlots : List Nat := List.replicate 4 0

/-- Eight unset CHR slots. -/
def noChrSlots : List Nat := List.replicate 8 0

/-! ## The registers after the variant's `Reset` -/

/-- `Mmc1Reset()` (R525). -/
def Mmc1.reset : Mmc1 := { shift := 0, writeN := 0, control := 0x0C, chr0 := 0, chr1 := 0, prg := 0 }

/-- `Mmc3Reset()`: the mirror bit keeps the header's mirroring (R541). -/
def Mmc3.reset (header : Mirroring) : Mmc3 :=
  { bankSelect := 0, regs := List.replicate 8 0, mirrorBit := decide (header = .horizontal), irqPeriod := 0, irqCounter := 0,
    irqEnabled := false }

/-- The mapper a cartridge with this mapper number gets, its registers as the variant's `Reset` leaves them; none for a
number out of {0, 1, 2, 4, 7} (R505, R520, R525, R535, R541, R552). -/
def Mapper.ofNumber (n : Nat) (header : Mirroring) : Option Mapper :=
  match n with
  | 0 => some .nrom
  | 1 => some (.mmc1 .reset)
  | 2 => some (.unrom 0)
  | 4 => some (.mmc3 (.reset header))
  | 7 => some (.axrom 0)
  | _ => none

/-- `cart.mapper_number` (R50, R512). -/
def Mapper.number : Mapper → Nat
  | .nrom => 0
  | .mmc1 _ => 1
  | .unrom _ => 2
  | .mmc3 _ => 4
  | .axrom _ => 7

/-! ## `Apply()` of each variant (R511) -/

/-- The PRG part of `Mmc1Apply()`, by control bits 3:2 (R527). -/
def Mmc1.prgMap (r : Mmc1) (prgSize : Nat) : List Nat :=
  let bank := r.prg.toNat % 16
  if r.control.getLsbD 3 then
    if r.control.getLsbD 2 then setPrgMap 16 1 (-1) prgSize (setPrgMap 16 0 bank prgSize noPrgSlots)
    else setPrgMap 16 1 bank prgSize (setPrgMap 16 0 0 prgSize noPrgSlots)
  else setPrgMap 32 0 (bank / 2 : Nat) prgSize noPrgSlots

/-- The CHR part of `Mmc1Apply()`, by control bit 4 (R527). -/
def Mmc1.chrMap (r : Mmc1) (chrSize : Nat) : List Nat :=
  if r.control.getLsbD 4 then setChrMap 4 1 r.chr1.toNat chrSize (setChrMap 4 0 r.chr0.toNat chrSize noChrSlots)
  else setChrMap 8 0 (r.chr0.toNat / 2) chrSize noChrSlots

/-- The mirroring of MMC1, by control bits 1:0 (R527). -/
def Mmc1.mirroring (r : Mmc1) : Mirroring :=
  match r.control.getLsbD 1, r.control.getLsbD 0 with
  | false, false => .oneScreenLow
  | false, true  => .oneScreenHigh
  | true,  false => .vertical
  | true,  true  => .horizontal

/-- `map.regs[i]` of MMC3 as a page number. -/
def Mmc3.page (r : Mmc3) (i : Nat) : Nat := (r.regs.getD i 0).toNat

/-- The PRG part of `Mmc3Apply()`, by bank-select bit 6 (R544). -/
def Mmc3.prgMap (r : Mmc3) (prgSize : Nat) : List Nat :=
  let m := setPrgMap 8 3 (-1) prgSize (setPrgMap 8 1 (r.page 7) prgSize noPrgSlots)
  if r.bankSelect.getLsbD 6 then setPrgMap 8 2 (r.page 6) prgSize (setPrgMap 8 0 (-2) prgSize m)
  else setPrgMap 8 2 (-2) prgSize (setPrgMap 8 0 (r.page 6) prgSize m)

/-- The CHR part of `Mmc3Apply()`, by bank-select bit 7 (R544). -/
def Mmc3.chrMap (r : Mmc3) (chrSize : Nat) : List Nat :=
  let two (slot i : Nat) (m : List Nat) : List Nat := setChrMap 2 slot (r.page i / 2) chrSize m
  let four (first : Nat) (m : List Nat) : List Nat :=
    (List.range 4).foldl (fun m i => setChrMap 1 (first + i) (r.page (2 + i)) chrSize m) m
  if r.bankSelect.getLsbD 7 then two 3 1 (two 2 0 (four 0 noChrSlots))
  else four 4 (two 1 1 (two 0 0 noChrSlots))

/-- The bank-map tables a variant's `Apply()` computes from its registers (R511, R520, R527, R535, R544, R552). -/
def Mapper.banks (m : Mapper) (prgSize chrSize : Nat) : BankMaps :=
  match m with
  | .nrom => { prg := setPrgMap 32 0 0 prgSize noPrgSlots, chr := setChrMap 8 0 0 chrSize noChrSlots }
  | .mmc1 r => { prg := r.prgMap prgSize, chr := r.chrMap chrSize }
  | .unrom bank =>
    { prg := setPrgMap 16 1 (-1) prgSize (setPrgMap 16 0 (bank.toNat % 16 : Nat) prgSize noPrgSlots),
      chr := setChrMap 8 0 0 chrSize noChrSlots }
  | .mmc3 r => { prg := r.prgMap prgSize, chr := r.chrMap chrSize }
  | .axrom bank =>
    { prg := setPrgMap 32 0 (bank.toNat % 16 : Nat) prgSize noPrgSlots, chr := setChrMap 8 0 0 chrSize noChrSlots }

/-- The mirroring a variant's `Apply()` leaves; NROM and UNROM leave the wire as it is (R520, R527, R535, R544, R552). -/
def Mapper.mirroring (m : Mapper) (old : Mirroring) : Mirroring :=
  match m with
  | .nrom => old
  | .mmc1 r => r.mirroring
  | .unrom _ => old
  | .mmc3 r => if r.mirrorBit then .horizontal else .vertical
  | .axrom bank => if bank.getLsbD 4 then .oneScreenHigh else .oneScreenLow

/-- Puts a mapper's registers in place and runs its `Apply()` (R511). -/
def State.applyMapper (m : Mapper) (s : State) : State :=
  { s with mapper := m, banks := m.banks s.cart.prgSize s.cart.chrSize, mirroring := m.mirroring s.mirroring }

/-! ## Register writes (R514) -/

/-- `Mmc1Write` before its `Apply()`: the serial port (R526). Address bits 14:13 of the fifth write select the register. -/
def Mmc1.write (r : Mmc1) (addr : Addr) (v : Byte) : Mmc1 :=
  if v.getLsbD 7 then { r with shift := 0, writeN := 0, control := r.control ||| 0x0C }
  else
    let shift := (r.shift >>> 1) ||| (if v.getLsbD 0 then 0x10 else 0)
    if r.writeN + 1 = 5 then
      let r := { r with shift := 0, writeN := 0 }
      match addr.getLsbD 14, addr.getLsbD 13 with
      | false, false => { r with control := shift }
      | false, true  => { r with chr0 := shift }
      | true,  false => { r with chr1 := shift }
      | true,  true  => { r with prg := shift }
    else { r with shift := shift, writeN := r.writeN + 1 }

/-- `Mmc3Write` before its `Apply()`, but for `irq_flag`: the register is selected by `addr & 0xE001` (R542). -/
def Mmc3.write (r : Mmc3) (addr : Addr) (v : Byte) : Mmc3 :=
  match addr.getLsbD 14, addr.getLsbD 13, addr.getLsbD 0 with
  | false, false, false => { r with bankSelect := v }                                       -- $8000, R543
  | false, false, true  => { r with regs := r.regs.set (r.bankSelect.toNat % 8) v }         -- $8001
  | false, true,  false => { r with mirrorBit := v.getLsbD 0 }                              -- $A000, R545
  | false, true,  true  => r                                                                -- $A001: nothing
  | true,  false, false => { r with irqPeriod := v }                                        -- $C000, R547
  | true,  false, true  => { r with irqCounter := 0 }                                       -- $C001, R547
  | true,  true,  false => { r with irqEnabled := false }                                   -- $E000, R546
  | true,  true,  true  => { r with irqEnabled := true }                                    -- $E001, R546

/-- A write of MMC3's acknowledge register: an even address in $E000-$FFFF (R546). -/
def isMmc3Acknowledge (addr : Addr) : Bool := addr.getLsbD 14 && addr.getLsbD 13 && !addr.getLsbD 0

/-- A write at or above $8000: a mapper-register write, or nothing on NROM (R514, R521, R526, R536, R542, R553). -/
def mapperRegisterWrite (addr : Addr) (v : Byte) (s : State) : State :=
  match s.mapper with
  | .nrom => s
  | .mmc1 r => s.applyMapper (.mmc1 (r.write addr v))
  | .unrom _ => s.applyMapper (.unrom v)
  | .mmc3 r => { s.applyMapper (.mmc3 (r.write addr v)) with irqFlag := s.irqFlag && !isMmc3Acknowledge addr }
  | .axrom _ => s.applyMapper (.axrom v)

/-- The mappers without PRG-RAM: a write to $6000-$7FFF is fatal (R514, R602). -/
def Mapper.hasNoPrgRam : Mapper → Bool
  | .unrom _ | .axrom _ => true
  | .nrom | .mmc1 _ | .mmc3 _ => false

/-- `MapperWrite(addr, v)` for `addr` in $6000-$FFFF (R514). -/
def mapperWrite (addr : Addr) (v : Byte) (s : State) : State :=
  if addr.toNat < 0x8000 then
    if s.mapper.hasNoPrgRam then s.halt (.romRegionWrite s.mapper.number addr v)
    else { s with cart := { s.cart with prgRam := s.cart.prgRam.write ((addr.toNat - 0x6000) % s.cart.prgRamSize) v } }
  else mapperRegisterWrite addr v s

/-- The offset in `cart.prg` of a CPU address at or above $8000 (R513). -/
def prgOffset (banks : BankMaps) (prgSize addr : Nat) : Nat :=
  (banks.prg.getD ((addr - 0x8000) / 0x2000) 0 + (addr - 0x8000) % 0x2000) % prgSize

/-- `MapperRead(addr)` for `addr` in $6000-$FFFF (R513). -/
def mapperRead (addr : Addr) (s : State) : Byte :=
  if addr.toNat < 0x8000 then s.cart.prgRam.read ((addr.toNat - 0x6000) % s.cart.prgRamSize)
  else s.cart.prg.read (prgOffset s.banks s.cart.prgSize addr.toNat)

/-! ## The scanline counter (R548) -/

/-- The counter step of `ScanlineCounter()` on MMC3 (R548). -/
def Mmc3.countScanline (r : Mmc3) : Mmc3 :=
  { r with irqCounter := if r.irqCounter = 0 then r.irqPeriod else r.irqCounter - 1 }

/-- `ScanlineCounter()` on the registers: a no-op for all mappers but MMC3 (R465, R548). -/
def Mapper.countScanline : Mapper → Mapper
  | .mmc3 r => .mmc3 r.countScanline
  | .nrom => .nrom
  | .mmc1 r => .mmc1 r
  | .unrom bank => .unrom bank
  | .axrom bank => .axrom bank

/-- Whether `ScanlineCounter()` raises `irq_flag`: the stepped counter is 0 and the IRQ is enabled (R548). -/
def Mapper.raisesIrq : Mapper → Bool
  | .mmc3 r => r.irqEnabled && decide (r.countScanline.irqCounter = 0)
  | .nrom | .mmc1 _ | .unrom _ | .axrom _ => false

end Sys2Proof.Machine
end

