-- ==== Sys2Proof/Machine/Ppu.lean ====
section
/-! DEFINITION. The PPU address space and the PPU registers (46_ppu_registers_memory.md, R400 to R425). -/

namespace Sys2Proof.Machine

/-! ## Bit fields of `ppu.v` and `ppu.t` (R43) -/

/-- `r[lo + n - 1 : lo] <- f`. -/
def putField {n : Nat} (r : BitVec 15) (lo : Nat) (f : BitVec n) : BitVec 15 :=
  (r &&& ~~~((BitVec.allOnes n).setWidth 15 <<< lo)) ||| (f.setWidth 15 <<< lo)

/-- Bits 4:0, coarse X (R43). -/
def coarseX (r : BitVec 15) : BitVec 5 := r.extractLsb' 0 5

/-- Bits 9:5, coarse Y (R43). -/
def coarseY (r : BitVec 15) : BitVec 5 := r.extractLsb' 5 5

/-- Bits 14:12, fine Y (R43). -/
def fineY (r : BitVec 15) : BitVec 3 := r.extractLsb' 12 3

/-! ## Derived fields (R403) -/

/-- `SprHeight()` (R403). -/
def Ppu.sprHeight (p : Ppu) : Nat := if p.ctrl.getLsbD 5 then 16 else 8

/-- `VramIncr()` (R403, R415). -/
def Ppu.vramIncr (p : Ppu) : BitVec 15 := if p.ctrl.getLsbD 2 then 32 else 1

/-- `NmiEnable()` (R403). -/
def Ppu.nmiEnable (p : Ppu) : Bool := p.ctrl.getLsbD 7

/-- `GrayMask()` (R403). -/
def Ppu.grayMask (p : Ppu) : Byte := if p.mask.getLsbD 0 then 0x30 else 0xFF

/-- `Rendering()` (R403). -/
def Ppu.rendering (p : Ppu) : Bool := p.mask.getLsbD 3 || p.mask.getLsbD 4

/-! ## The PPU address space (R420 to R424) -/

/-- What the PPU sees of the rest of the machine: the cartridge, its CHR slots, the mirroring wire and the palette. -/
structure PpuBus where
  cart      : Cart
  chrMap    : List Nat
  mirroring : Mirroring
  palette   : Memory

/-- The PPU's view of a state. -/
def State.ppuBus (s : State) : PpuBus :=
  { cart := s.cart, chrMap := s.banks.chr, mirroring := s.mirroring, palette := s.palette }

/-- The offset in `cart.chr` of a PPU address below $2000 (R515). -/
def chrOffset (chrMap : List Nat) (chrSize a : Nat) : Nat := (chrMap.getD (a / 0x400) 0 + a % 0x400) % chrSize

/-- `ChrRead(a)` (R515). -/
def PpuBus.chrRead (b : PpuBus) (a : Nat) : Byte := b.cart.chr.read (chrOffset b.chrMap b.cart.chrSize a)

/-- `NtMirror(a)` for `a` in $2000-$3EFF (R422). -/
def ntMirror (m : Mirroring) (a : Nat) : Nat :=
  match m with
  | .vertical => a % 0x800
  | .horizontal => (a / 2 &&& 0x400) + a % 0x400
  | .oneScreenLow => a % 0x400
  | .oneScreenHigh => 0x400 + a % 0x400
  | .fourScreen => (a - 0x2000) % 0x800

/-- `PalIndex(a)` (R424). -/
def palIndex (a : Nat) : Nat :=
  let i := a &&& 0x1F
  if i &&& 0x13 = 0x10 then i &&& 0x0F else i

/-- `PpuRead(a)`; every address is first reduced modulo 0x4000 (R420). -/
def Ppu.read (p : Ppu) (b : PpuBus) (a : Nat) : Byte :=
  let a := a % 0x4000
  if a ≤ 0x1FFF then b.chrRead a
  else if a ≤ 0x3EFF then p.ntRam.read (ntMirror b.mirroring a)
  else p.palRam.read (palIndex a) &&& p.grayMask

/-- `ChrWrite(a, v)`: a write to CHR-ROM is ignored (R516). -/
def chrWrite (a : Nat) (v : Byte) (s : State) : State :=
  if s.cart.chrIsRam then
    { s with cart := { s.cart with chr := s.cart.chr.write (chrOffset s.banks.chr s.cart.chrSize a) v } }
  else s

/-- `PpuWrite(a, v)` (R420). -/
def ppuWrite (a : Nat) (v : Byte) (s : State) : State :=
  let a := a % 0x4000
  if a ≤ 0x1FFF then chrWrite a v s
  else if a ≤ 0x3EFF then { s with ppu := { s.ppu with ntRam := s.ppu.ntRam.write (ntMirror s.mirroring a) v } }
  else { s with ppu := { s.ppu with palRam := s.ppu.palRam.write (palIndex a) v } }

/-! ## The registers (R400 to R415) -/

/-- The eight CPU-visible registers (R400). -/
inductive PpuReg
  | ctrl
  | mask
  | status
  | oamAddr
  | oamData
  | scroll
  | addr
  | data
deriving DecidableEq, Repr

/-- The register of a CPU address in $2000-$3FFF: number `addr mod 8` (R85). -/
def PpuReg.ofAddr (a : Addr) : PpuReg :=
  match a.toNat % 8 with
  | 0 => .ctrl
  | 1 => .mask
  | 2 => .status
  | 3 => .oamAddr
  | 4 => .oamData
  | 5 => .scroll
  | 6 => .addr
  | _ => .data

/-- The address increment after an access of PPUDATA (R415). -/
def Ppu.stepAddress (p : Ppu) : Ppu := { p with v := p.v + p.vramIncr }

/-- The part of `PpuRegWrite(n, v)` that stays inside the PPU; the memory write of PPUDATA is `ppuRegWrite`'s (R401). -/
def Ppu.writeReg (p : Ppu) (n : PpuReg) (v : Byte) : Ppu :=
  let p := { p with busLatch := v }
  match n with
  | .ctrl => { p with ctrl := v, t := putField p.t 10 (v.extractLsb' 0 2) }                         -- R402
  | .mask => { p with mask := v }                                                                   -- R404
  | .status => p                                                                                    -- R406
  | .oamAddr => { p with oamAddr := v }                                                             -- R408
  | .oamData => { p with oam := p.oam.write p.oamAddr.toNat v, oamAddr := p.oamAddr + 1 }           -- R409
  | .scroll =>                                                                                      -- R410
    if p.w then { p with t := putField (putField p.t 12 (v.extractLsb' 0 3)) 5 (v.extractLsb' 3 5), w := false }
    else { p with fineX := v.extractLsb' 0 3, t := putField p.t 0 (v.extractLsb' 3 5), w := true }
  | .addr =>                                                                                        -- R412
    if p.w then { p with t := putField p.t 0 v, v := putField p.t 0 v, w := false }
    else { p with t := putField p.t 8 ((v.extractLsb' 0 6).setWidth 7), w := true }
  | .data => p.stepAddress                                                                          -- R413, R415

/-- `PpuRegWrite(n, v)` (R401). -/
def ppuRegWrite (n : PpuReg) (v : Byte) (s : State) : State :=
  let s' := if n = .data then ppuWrite s.ppu.v.toNat v s else s
  { s' with ppu := s'.ppu.writeReg n v }

/-- `PpuRegRead(n)`: the byte returned is `ppu.bus_latch` after the read (R401). -/
def Ppu.readReg (p : Ppu) (b : PpuBus) (n : PpuReg) : Ppu :=
  match n with
  | .ctrl | .mask | .oamAddr | .scroll | .addr => p
  | .status =>                                                                                      -- R406
    { p with busLatch := (p.busLatch &&& 0x1F) ||| (p.status &&& 0xE0), status := p.status &&& 0x7F, w := false }
  | .oamData => { p with busLatch := p.oam.read p.oamAddr.toNat }                                   -- R409
  | .data =>                                                                                        -- R414
    let a := p.v.toNat % 0x4000
    let latch := if a ≤ 0x3EFF then p.readBuffer else p.read b a
    { p with busLatch := latch, readBuffer := p.read b a }.stepAddress

/-- `PpuRegRead(n)` on the whole state (R401). -/
def ppuRegRead (n : PpuReg) (s : State) : Byte × State :=
  let p := s.ppu.readReg s.ppuBus n
  (p.busLatch, { s with ppu := p })

/-- What `PpuRegRead` would return, without its updates (R96). -/
def Ppu.peekReg (p : Ppu) (b : PpuBus) (n : PpuReg) : Byte :=
  match n with
  | .ctrl | .mask | .oamAddr | .scroll | .addr => p.busLatch
  | .status => (p.busLatch &&& 0x1F) ||| p.status
  | .oamData => p.oam.read p.oamAddr.toNat
  | .data => if p.v.toNat % 0x4000 < 0x3F00 then p.readBuffer else p.read b (p.v.toNat % 0x4000)

end Sys2Proof.Machine
end

