-- ==== Sys2Proof/Machine/Render.lean ====
section
/-! DEFINITION. One PPU dot: the rendering state machine, the background pipeline, the sprite evaluator and the pixel
compositor (47_ppu_rendering.md, R450 to R489). -/

namespace Sys2Proof.Machine

/-! ## Background pipeline (R460 to R467) -/

/-- `NtAddr()` (R461). -/
def ntAddr (v : BitVec 15) : Addr := 0x2000 ||| (v.setWidth 16 &&& 0x0FFF)

/-- `AtAddr()` (R461). -/
def atAddr (v : BitVec 15) : Addr :=
  let v := v.setWidth 16
  0x23C0 ||| (v &&& 0x0C00) ||| ((v >>> 4) &&& 0x38) ||| ((v >>> 2) &&& 0x07)

/-- `BgAddr()` (R461). -/
def bgAddr (ctrl ntByte : Byte) (v : BitVec 15) : Addr :=
  (if ctrl.getLsbD 4 then 0x1000 else 0) + ntByte.setWidth 16 * 16 + (fineY v).setWidth 16

/-- `ReloadShift()` (R462). -/
def Background.reload (g : Background) : Background :=
  { g with bgShiftLo := (g.bgShiftLo &&& 0xFF00) ||| g.bgLo.setWidth 16, bgShiftHi := (g.bgShiftHi &&& 0xFF00) ||| g.bgHi.setWidth 16,
           atLatchLo := g.atByte.getLsbD 0, atLatchHi := g.atByte.getLsbD 1 }

/-- The shift at the end of `Pixel()` (R480). -/
def Background.shift (g : Background) : Background :=
  { g with bgShiftLo := g.bgShiftLo <<< 1, bgShiftHi := g.bgShiftHi <<< 1,
           atShiftLo := (g.atShiftLo <<< 1) ||| (BitVec.ofBool g.atLatchLo).setWidth 8,
           atShiftHi := (g.atShiftHi <<< 1) ||| (BitVec.ofBool g.atLatchHi).setWidth 8 }

/-- The attribute byte shifted so that bits 1:0 are the selector of the quadrant `cX[1]`, `cY[1]` name (R452, R461). -/
def attrQuadrant (v : BitVec 15) (at' : Byte) : Byte :=
  let at' := if v.getLsbD 6 then at' >>> 4 else at'
  if v.getLsbD 1 then at' >>> 2 else at'

/-- `HScroll()` on an address, rendering enabled (R463). -/
def hScroll (v : BitVec 15) : BitVec 15 := if coarseX v = 31 then v ^^^ 0x041F else v + 1

/-- `VScroll()` on an address, rendering enabled (R464). -/
def vScroll (v : BitVec 15) : BitVec 15 :=
  if (fineY v).toNat < 7 then putField v 12 (fineY v + 1)
  else
    let v := putField v 12 (0 : BitVec 3)
    if coarseY v = 31 then putField v 5 (0 : BitVec 5)
    else if coarseY v = 29 then putField v 5 (0 : BitVec 5) ^^^ 0x0800
    else putField v 5 (coarseY v + 1)

/-- The bits `HUpdate()` copies: coarse X and nametable bit 10 (R466). -/
def horizontalBits : BitVec 15 := 0x041F

/-- The bits `VUpdate()` copies: fine Y, nametable bit 11, coarse Y (R467). -/
def verticalBits : BitVec 15 := 0x7BE0

/-- `(v & ~m) | (t & m)` (R466, R467). -/
def copyBits (m v t : BitVec 15) : BitVec 15 := (v &&& ~~~m) ||| (t &&& m)

/-- `HScroll()` (R463). -/
def Ppu.hScroll (p : Ppu) : Ppu := if p.rendering then { p with v := Machine.hScroll p.v } else p

/-- `VScroll()` (R464). -/
def Ppu.vScroll (p : Ppu) : Ppu := if p.rendering then { p with v := Machine.vScroll p.v } else p

/-- `HUpdate()` (R466). -/
def Ppu.hUpdate (p : Ppu) : Ppu := if p.rendering then { p with v := copyBits horizontalBits p.v p.t } else p

/-- `VUpdate()` (R467). -/
def Ppu.vUpdate (p : Ppu) : Ppu := if p.rendering then { p with v := copyBits verticalBits p.v p.t } else p

/-- `ReloadShift()` on the PPU (R462). -/
def Ppu.reloadShift (p : Ppu) : Ppu := { p with bg := p.bg.reload }

/-- `ppu.fetch_addr <- a`. -/
def Ppu.setFetch (p : Ppu) (a : Addr) : Ppu := { p with bg := { p.bg with fetchAddr := a } }

/-- `PpuRead(ppu.fetch_addr)`. -/
def Ppu.fetched (p : Ppu) (b : PpuBus) : Byte := p.read b p.bg.fetchAddr.toNat

/-- `ppu.nt_byte <- PpuRead(ppu.fetch_addr)` (R452). -/
def Ppu.loadNt (p : Ppu) (b : PpuBus) : Ppu := { p with bg := { p.bg with ntByte := p.fetched b } }

/-- Step 4 of the 8-dot group (R452). -/
def Ppu.loadAt (p : Ppu) (b : PpuBus) : Ppu := { p with bg := { p.bg with atByte := attrQuadrant p.v (p.fetched b) } }

/-- `ppu.bg_lo <- PpuRead(ppu.fetch_addr)` (R452). -/
def Ppu.loadLo (p : Ppu) (b : PpuBus) : Ppu := { p with bg := { p.bg with bgLo := p.fetched b } }

/-- `ppu.bg_hi <- PpuRead(ppu.fetch_addr)` (R452). -/
def Ppu.loadHi (p : Ppu) (b : PpuBus) : Ppu := { p with bg := { p.bg with bgHi := p.fetched b } }

/-- One step of the 8-dot fetch group, by `d mod 8` (R452). -/
def Ppu.fetchStep (p : Ppu) (b : PpuBus) (k : Nat) : Ppu :=
  match k with
  | 1 => (p.setFetch (ntAddr p.v)).reloadShift
  | 2 => p.loadNt b
  | 3 => p.setFetch (atAddr p.v)
  | 4 => p.loadAt b
  | 5 => p.setFetch (bgAddr p.ctrl p.bg.ntByte p.v)
  | 6 => p.loadLo b
  | 7 => p.setFetch (p.bg.fetchAddr + 8)
  | _ => (p.loadHi b).hScroll

/-! ## Sprite pipeline (R470 to R472) -/

/-- `ClearSecOam()` (R470). -/
def Ppu.clearSecOam (p : Ppu) : Ppu := { p with secOam := List.replicate 8 .empty }

/-- `line0` of `EvalSprites()`: -1 on the pre-render line (R471). -/
def evalLine (scanline : Nat) : Int := if scanline = 261 then -1 else scanline

/-- Sprite `i` covers the row `line` (R471). -/
def spriteInRange (oam : Memory) (height : Nat) (line : Int) (i : Nat) : Bool :=
  let row := line - ((oam.read (4 * i)).toNat : Int)
  decide (0 ≤ row) && decide (row < (height : Int))

/-- The record `EvalSprites()` makes of sprite `i` (R471, R425). -/
def spriteRecord (oam : Memory) (i : Nat) : SpriteInfo :=
  { id := i, y := oam.read (4 * i), tile := oam.read (4 * i + 1), attr := oam.read (4 * i + 2), x := oam.read (4 * i + 3),
    dataLo := 0, dataHi := 0 }

/-- The loop of `EvalSprites()` over the remaining sprites, `n` slots filled: the slots, and whether a ninth match
stopped it (R471). -/
def evalFrom (oam : Memory) (height : Nat) (line : Int) : List Nat → Nat → List SpriteInfo → List SpriteInfo × Bool
  | [], _, sec => (sec, false)
  | i :: is, n, sec =>
    if spriteInRange oam height line i then
      if n = 8 then (sec, true) else evalFrom oam height line is (n + 1) (sec.set n (spriteRecord oam i))
    else evalFrom oam height line is n sec

/-- `EvalSprites()` (R471). -/
def Ppu.evalSprites (p : Ppu) : Ppu :=
  let r := evalFrom p.oam p.sprHeight (evalLine p.scanline) (List.range 64) 0 p.secOam
  { p with secOam := r.1, status := if r.2 then p.status ||| 0x20 else p.status }

/-- `Reverse8(b)`: bit `k` of the result is bit `7 - k` of `b` (R472). -/
def reverse8 (b : Byte) : Byte := b.reverse

/-- The pattern address of a sprite on a scanline (R472). -/
def Ppu.spriteAddr (p : Ppu) (i : SpriteInfo) : Nat :=
  let h := p.sprHeight
  let base := if h = 16 then i.tile.toNat % 2 * 0x1000 + (i.tile &&& 0xFE).toNat * 16
              else (if p.ctrl.getLsbD 3 then 0x1000 else 0) + i.tile.toNat * 16
  let row := (((p.scanline : Int) - i.y.toNat) % (h : Int)).toNat
  let row := if i.attr.getLsbD 7 then row ^^^ (h - 1) else row
  base + row + (row &&& 8)

/-- One slot of `LoadSprites()` (R472). -/
def Ppu.loadSprite (p : Ppu) (b : PpuBus) (i : SpriteInfo) : SpriteInfo :=
  let a := p.spriteAddr i
  let flip (d : Byte) : Byte := if i.attr.getLsbD 6 then reverse8 d else d
  { i with dataLo := flip (p.read b a), dataHi := flip (p.read b (a + 8)) }

/-- `LoadSprites()` (R472). -/
def Ppu.loadSprites (p : Ppu) (b : PpuBus) : Ppu := { p with spr := p.secOam.map (p.loadSprite b) }

/-! ## Pixel output (R480 to R484) -/

/-- The 5-bit background palette index at column `x`, 0 if transparent or hidden (R480). -/
def Ppu.bgPixel (p : Ppu) (x : Nat) : BitVec 5 :=
  if p.mask.getLsbD 3 && !(!p.mask.getLsbD 1 && decide (x < 8)) then
    let n := p.fineX.toNat
    let pattern : BitVec 2 := BitVec.ofBool (p.bg.bgShiftHi.getLsbD (15 - n)) ++ BitVec.ofBool (p.bg.bgShiftLo.getLsbD (15 - n))
    let palette : BitVec 2 := BitVec.ofBool (p.bg.atShiftHi.getLsbD (7 - n)) ++ BitVec.ofBool (p.bg.atShiftLo.getLsbD (7 - n))
    if pattern = 0 then 0 else (palette ++ pattern).setWidth 5
  else 0

/-- The two pattern bits of a slot at column `x`, 0 where it shows nothing there (R480). -/
def SpriteInfo.pixel (i : SpriteInfo) (x : Nat) : BitVec 2 :=
  if i.id = 64 then 0
  else if x < i.x.toNat ∨ i.x.toNat + 8 ≤ x then 0
  else
    let k := x - i.x.toNat
    BitVec.ofBool (i.dataHi.getLsbD (7 - k)) ++ BitVec.ofBool (i.dataLo.getLsbD (7 - k))

/-- The first slot with an opaque pixel at column `x` (R481). -/
def Ppu.spriteAt (p : Ppu) (x : Nat) : Option SpriteInfo :=
  if p.mask.getLsbD 4 && !(!p.mask.getLsbD 2 && decide (x < 8)) then p.spr.find? fun i => i.pixel x != 0 else none

/-- The 5-bit palette index of a sprite's pixel: `16 + ((attr & 3) << 2) + q` (R480). -/
def SpriteInfo.paletteIndex (i : SpriteInfo) (x : Nat) : BitVec 5 := 1#1 ++ i.attr.extractLsb' 0 2 ++ i.pixel x

/-- Sprite against background (R483). -/
def Ppu.compose (p : Ppu) (x : Nat) : BitVec 5 :=
  match p.spriteAt x with
  | none => p.bgPixel x
  | some i => if p.bgPixel x = 0 ∨ i.attr.getLsbD 5 = false then i.paletteIndex x else p.bgPixel x

/-- The pixel at column `x` sets the sprite-0 hit flag (R480, R481). -/
def Ppu.hitsSprite0 (p : Ppu) (x : Nat) : Bool :=
  match p.spriteAt x with
  | none => false
  | some i => decide (i.id = 0) && decide (p.bgPixel x ≠ 0) && decide (x ≠ 255)

/-- The frame-buffer entry at column `x` (R482, R484). -/
def Ppu.entry (p : Ppu) (b : PpuBus) (x : Nat) : BitVec 9 :=
  let index := if p.rendering then (p.compose x).toNat else 0
  p.mask.extractLsb' 5 3 ++ (p.read b (0x3F00 + index)).extractLsb' 0 6

/-- The output part of `Pixel()`, on a visible line at column `x` (R480). -/
def Ppu.output (p : Ppu) (b : PpuBus) (x : Nat) : Ppu :=
  { p with status := if p.hitsSprite0 x then p.status ||| 0x40 else p.status,
           work := p.work.write p.scanline x (p.entry b x) }

/-- `Pixel()` (R480). -/
def Ppu.pixel (p : Ppu) (b : PpuBus) : Ppu :=
  let q := if p.scanline < 240 ∧ 2 ≤ p.dot ∧ p.dot - 2 ≤ 255 then p.output b (p.dot - 2) else p
  { q with bg := q.bg.shift }

/-! ## The palette and the finished frame (R488, R489) -/

/-- The `c`-th RGB triple of the palette file (R489). -/
def paletteEntry (palette : Memory) (c : Nat) : Rgb :=
  { red := palette.read (3 * c), green := palette.read (3 * c + 1), blue := palette.read (3 * c + 2) }

/-- `Rgb(e)`: variants 1 to 7 are the spec's open `EmphasisRGB` (R489, log entry 3). -/
def rgbOf (palette : Memory) (e : BitVec 9) : Rgb :=
  let base := paletteEntry palette (e.extractLsb' 0 6).toNat
  let m : BitVec 3 := e.extractLsb' 6 3
  if m = 0 then base else Config.emphasisRgb m base

/-- `FrameDone()` (R488). -/
def Ppu.frameDone (p : Ppu) (b : PpuBus) : Ppu :=
  { p with front := p.work, rgb := RgbFrame.fill fun y x => rgbOf b.palette (p.work.read y x) }

/-! ## The dot clock (R450 to R456) -/

/-- `PhaseOf(scanline)` (R451). -/
def phaseOf (scanline : Nat) : Phase :=
  if scanline < 240 then .visible
  else if scanline = 241 then .vblank
  else if scanline = 261 then .preRender
  else .postRender

/-- Part (a) of `RenderDot(pre)`: sprites (R452, R456). -/
def Ppu.spritePart (p : Ppu) (b : PpuBus) (pre : Bool) : Ppu :=
  if p.dot = 1 then
    let q := p.clearSecOam
    if pre then { q with status := q.status &&& 0x9F } else q
  else if p.dot = 257 then p.evalSprites
  else if p.dot = 321 then p.loadSprites b
  else p

/-- Part (b) of `RenderDot(pre)`: background and pixel (R452). -/
def Ppu.backgroundPart (p : Ppu) (b : PpuBus) (pre : Bool) : Ppu :=
  let d := p.dot
  if (2 ≤ d ∧ d ≤ 255) ∨ (322 ≤ d ∧ d ≤ 337) then (p.pixel b).fetchStep b (d % 8)
  else if d = 256 then ((p.pixel b).loadHi b).hScroll.vScroll
  else if d = 257 then (p.pixel b).reloadShift.hUpdate
  else if 280 ≤ d ∧ d ≤ 304 then (if pre then p.vUpdate else p)
  else if d = 1 then
    let q := p.setFetch (ntAddr p.v)
    if pre then { q with status := q.status &&& 0x7F } else q
  else if d = 321 ∨ d = 339 then p.setFetch (ntAddr p.v)
  else if d = 338 then p.loadNt b
  else if d = 340 then
    let q := p.loadNt b
    if pre && p.rendering && p.frameOdd then { q with dot := q.dot + 1 } else q      -- R453
  else p

/-- Parts (a) and (b) of `RenderDot(pre)`; part (c) is `Ppu.signalsScanline` (R452). -/
def Ppu.renderDot (p : Ppu) (b : PpuBus) (pre : Bool) : Ppu := (p.spritePart b pre).backgroundPart b pre

/-- The work of a dot, with the counters as they stand before it (R450). -/
def Ppu.dotWork (p : Ppu) (b : PpuBus) : Ppu :=
  match p.phase with
  | .visible => p.renderDot b false
  | .preRender => p.renderDot b true
  | .postRender => if p.scanline = 240 ∧ p.dot = 0 then p.frameDone b else p
  | .vblank => if p.dot = 1 then { p with status := p.status ||| 0x80 } else p      -- R455

/-- The scanline after `scanline` (R450). -/
def nextScanline (scanline : Nat) : Nat := if scanline + 1 > 261 then 0 else scanline + 1

/-- The counters' step at the end of a dot (R450). -/
def Ppu.advance (p : Ppu) : Ppu :=
  if p.dot + 1 > 340 then
    { p with dot := (p.dot + 1) % 341, scanline := nextScanline p.scanline,
             frameOdd := if p.scanline + 1 > 261 then !p.frameOdd else p.frameOdd,
             phase := phaseOf (nextScanline p.scanline) }
  else { p with dot := p.dot + 1 }

/-- `PpuDot()` on the PPU's own state (R450). -/
def Ppu.dotStep (p : Ppu) (b : PpuBus) : Ppu := (p.dotWork b).advance

/-- This dot raises `nmi_flag`: `VBlankStart()` with `NmiEnable()` (R455). -/
def Ppu.raisesNmi (p : Ppu) : Bool := decide (p.phase = .vblank) && decide (p.dot = 1) && p.nmiEnable

/-- This dot calls `ScanlineCounter()`: part (c) of `RenderDot` (R452, R465). -/
def Ppu.signalsScanline (p : Ppu) : Bool :=
  (decide (p.phase = .visible) || decide (p.phase = .preRender)) && decide (p.dot = Config.scanlineIrqDot) &&
    (p.rendering || !Config.scanlineIrqRequiresRendering)

/-- `PpuDot()` on the whole state (R450). -/
def ppuDot (s : State) : State :=
  { s with
    ppu := s.ppu.dotStep s.ppuBus,
    nmiFlag := s.nmiFlag || s.ppu.raisesNmi,
    mapper := if s.ppu.signalsScanline then s.mapper.countScanline else s.mapper,
    irqFlag := s.irqFlag || (s.ppu.signalsScanline && s.mapper.raisesIrq) }

end Sys2Proof.Machine
end

