-- ==== Sys2Proof/Machine/Bus.lean ====
section
/-! DEFINITION. The clock and the CPU bus: `Tick`, `BusRead`, `BusWrite`, `MemRead`, `MemWrite` and OAM DMA
(R11, R12, 20_memory.md). An operation that returns a byte returns it beside the state it leaves. -/

namespace Sys2Proof.Machine

/-! ## The clock (R11) -/

/-- `Tick()`: one CPU cycle, three PPU dots (R11). -/
def tick (s : State) : State := ppuDot (ppuDot (ppuDot { s with cycleCount := s.cycleCount + 1 }))

/-- `Tick()`, `n` times. -/
def ticks : Nat → State → State
  | 0, s => s
  | n + 1, s => ticks n (tick s)

/-! ## The address decode (R81 to R90) -/

/-- `BusRead(addr)`; the log entry of an unmapped read is not state (R82, log entry 5). -/
def busRead (a : Addr) (s : State) : Byte × State :=
  let n := a.toNat
  if n ≤ 0x1FFF then (s.ram.read (n % 0x800), s)                       -- R84
  else if n ≤ 0x3FFF then ppuRegRead (.ofAddr a) s                     -- R85
  else if n ≤ 0x4013 ∨ n = 0x4015 then (0xFF, s)                       -- R86
  else if n = 0x4014 then (0, s)                                       -- R87
  else if n = 0x4016 then ctlRead .port0 s                             -- R88
  else if n = 0x4017 then ctlRead .port1 s                             -- R88
  else if n ≤ 0x5FFF then (0, s)                                       -- R89
  else (mapperRead a s, s)                                             -- R90

/-- `MemRead(addr)`: the tick comes first (R12). -/
def memRead (a : Addr) (s : State) : Byte × State := busRead a (tick s)

/-- `MemWrite(0x2004, v)`, the write of OAM DMA: register 4 is reached whatever else is mapped (R12, R93). -/
def oamDataWrite (v : Byte) (s : State) : State := ppuRegWrite .oamData v (tick s)

/-- The `n` last iterations of `DmaOam(page)` (R93). -/
def dmaFrom (page : Byte) : Nat → State → State
  | 0, s => s
  | n + 1, s =>
    let r := memRead (addrOf (BitVec.ofNat 8 (255 - n)) page) s
    dmaFrom page n (oamDataWrite r.1 r.2)

/-- `DmaOam(page)`: 256 timed reads, each followed by a timed write of OAMDATA (R93). -/
def dmaOam (page : Byte) (s : State) : State := dmaFrom page 256 s

/-- `BusWrite(addr, v)` (R83). -/
def busWrite (a : Addr) (v : Byte) (s : State) : State :=
  let n := a.toNat
  if n ≤ 0x1FFF then { s with ram := s.ram.write (n % 0x800) v }       -- R84
  else if n ≤ 0x3FFF then ppuRegWrite (.ofAddr a) v s                  -- R85
  else if n ≤ 0x4013 ∨ n = 0x4015 then s                               -- R86
  else if n = 0x4014 then dmaOam v s                                   -- R93
  else if n = 0x4016 then ctlWrite (v.getLsbD 0) s                     -- R88
  else if n = 0x4017 then s                                            -- R88
  else if n ≤ 0x5FFF then s.halt (.unmappedWrite a v)                  -- R89, R601
  else mapperWrite a v s                                               -- R90

/-- `MemWrite(addr, v)`: the tick comes first (R12). -/
def memWrite (a : Addr) (v : Byte) (s : State) : State := busWrite a v (tick s)

/-- `MemRead16(addr)`: low byte first, the second address modulo 65536 (R12). -/
def memRead16 (a : Addr) (s : State) : Addr × State :=
  let lo := memRead a s
  let hi := memRead (a + 1) lo.2
  (addrOf lo.1 hi.1, hi.2)

/-! ## Reading without effect (R13, R96) -/

/-- `Peek(addr)` (R13, R96). -/
def peek (a : Addr) (s : State) : Byte :=
  let n := a.toNat
  if n ≤ 0x1FFF then s.ram.read (n % 0x800)
  else if n ≤ 0x3FFF then s.ppu.peekReg s.ppuBus (.ofAddr a)
  else if n ≤ 0x4013 ∨ n = 0x4015 then 0xFF
  else if n = 0x4014 then 0
  else if n = 0x4016 then s.ctl.peek .port0
  else if n = 0x4017 then s.ctl.peek .port1
  else if n ≤ 0x5FFF then 0
  else mapperRead a s

/-- `Peek16(addr)` (R13). -/
def peek16 (a : Addr) (s : State) : Addr := addrOf (peek a s) (peek (a + 1) s)

end Sys2Proof.Machine
end

