-- ==== Sys2Proof/Machine/Flags.lean ====
section
/-! DEFINITION. The status flags and every flag computation of the instruction set (R10, R35, R230, R236, R260). -/

namespace Sys2Proof.Machine

/-- The bits of `P` (R35). -/
inductive Flag
  | carry
  | zero
  | interruptDisable
  | decimal
  | brk
  | reserved
  | overflow
  | negative
deriving DecidableEq, Repr

/-- The bit position of a flag (R35). -/
def Flag.index : Flag → Nat
  | .carry => 0
  | .zero => 1
  | .interruptDisable => 2
  | .decimal => 3
  | .brk => 4
  | .reserved => 5
  | .overflow => 6
  | .negative => 7

/-- The byte with this flag's bit alone (R35). -/
def Flag.bit (f : Flag) : Byte := BitVec.twoPow 8 f.index

/-- A status byte with one flag written. -/
def withFlag (f : Flag) (b : Bool) (p : Byte) : Byte := if b then p ||| f.bit else p &&& ~~~f.bit

/-- Reads a flag of `P` (R9). -/
def State.flag (f : Flag) (s : State) : Bool := s.p.getLsbD f.index

/-- Writes a flag of `P` (R9). -/
def State.setFlag (f : Flag) (b : Bool) (s : State) : State := s.setP (withFlag f b s.p)

/-- `SetNZ(v)` (R10). -/
def State.setNZ (v : Byte) (s : State) : State := (s.setFlag .zero (decide (v = 0))).setFlag .negative (v.getLsbD 7)

/-! ## Arithmetic -/

/-- The 9-bit unsigned sum of `AddWithCarry` (R230). -/
def adcSum (a v : Byte) (c : Bool) : BitVec 9 := a.setWidth 9 + v.setWidth 9 + (BitVec.ofBool c).setWidth 9

/-- `AddWithCarry(v)` (R230). -/
def addWithCarry (v : Byte) (s : State) : State :=
  let sum := adcSum s.a v (s.flag .carry)
  let r : Byte := sum.setWidth 8
  (((s.setFlag .carry (sum.getLsbD 8)).setFlag .overflow (((s.a ^^^ r) &&& (v ^^^ r)).getLsbD 7)).setA r).setNZ r

/-- `Compare(r, v)` (R236). -/
def compareFlags (r v : Byte) (s : State) : State := (s.setFlag .carry (decide (v ≤ r))).setNZ (r - v)

/-! ## Shifts and rotates (R260) -/

/-- A shift's result in `C`, `Z`, `N`: the bit shifted out and the byte it returns. -/
def shiftFlags (out : Bool) (r : Byte) (s : State) : Byte × State := (r, (s.setFlag .carry out).setNZ r)

/-- `Asl(v)` (R260). -/
def asl (v : Byte) (s : State) : Byte × State := shiftFlags (v.getLsbD 7) (v <<< 1) s

/-- `Lsr(v)` (R260). -/
def lsr (v : Byte) (s : State) : Byte × State := shiftFlags (v.getLsbD 0) (v >>> 1) s

/-- `Rol(v)`: the old carry enters at bit 0 (R260). -/
def rol (v : Byte) (s : State) : Byte × State :=
  shiftFlags (v.getLsbD 7) ((v <<< 1) ||| (BitVec.ofBool (s.flag .carry)).setWidth 8) s

/-- `Ror(v)`: the old carry enters at bit 7 (R260). -/
def ror (v : Byte) (s : State) : Byte × State :=
  shiftFlags (v.getLsbD 0) ((v >>> 1) ||| ((BitVec.ofBool (s.flag .carry)).setWidth 8 <<< 7)) s

/-! ## Increment and decrement -/

/-- The function of `INC` (R241). -/
def increment (v : Byte) (s : State) : Byte × State := (v + 1, s.setNZ (v + 1))

/-- The function of `DEC` (R242). -/
def decrement (v : Byte) (s : State) : Byte × State := (v - 1, s.setNZ (v - 1))

/-- The status flags of `BIT` (R240). -/
def bitTest (v : Byte) (s : State) : State :=
  ((s.setFlag .zero (decide (s.a &&& v = 0))).setFlag .overflow (v.getLsbD 6)).setFlag .negative (v.getLsbD 7)

/-! ## The status byte on the stack (R301, R303, R611, D7) -/

/-- The byte `PHP` and `BRK` push: Break and Reserved set (R301, R611). -/
def statusPushedBySoftware (p : Byte) : Byte := p ||| 0x30

/-- The byte the NMI and IRQ sequences push: Break and Reserved clear (R611). -/
def statusPushedByInterrupt (p : Byte) : Byte := p &&& 0xCF

/-- What `PLP` and `RTI` load from a pulled byte: Break 0, Reserved 1 (R303, R282). -/
def statusPulled (v : Byte) : Byte := (v &&& 0xEF) ||| 0x20

end Sys2Proof.Machine
end

