-- ==== Sys2Proof/Machine/Operands.lean ====
section
/-! DEFINITION. The addressing modes and the access templates (R144 to R161). An instruction carries its operand bytes,
already fetched and paid for (Fetch.lean), so a mode here spends only the ticks after the operand fetch. -/

namespace Sys2Proof.Machine

/-- `PageCross(a, b)` (R10). -/
def pageCross (a b : Addr) : Bool := decide (highByte a ≠ highByte b)

/-- The page-zero address of a byte: `zext_16` (R132). -/
def zeroPage (z : Byte) : Addr := z.setWidth 16

/-- `base + zext_16(i)`, modulo 65536 (R151). -/
def indexed (base : Addr) (i : Byte) : Addr := base + i.setWidth 16

/-- `if PageCross(base, base + i) then Tick()`, the tick a read pays only when it crosses (R151). -/
def payCrossing (base : Addr) (i : Byte) (s : State) : State := if pageCross base (indexed base i) then tick s else s

/-- The two bytes of a page-zero pointer; the second address stays in page zero (R92, R155, R156). -/
def zeroPagePointer (z : Byte) (s : State) : Addr × State :=
  let lo := memRead (zeroPage z) s
  let hi := memRead (zeroPage (z + 1)) lo.2
  (addrOf lo.1 hi.1, hi.2)

/-- `Addr_ZPX`, `Addr_ZPY` after the operand fetch: a tick, then the sum inside page zero (R148, R149). -/
def addrZeroPageIndexed (z i : Byte) (s : State) : Addr × State := (zeroPage (z + i), tick s)

/-- `Addr_ABX`, `Addr_ABY` after the operand fetch (R151, R153). -/
def addrIndexed (base : Addr) (i : Byte) (s : State) : Addr × State := (indexed base i, payCrossing base i s)

/-- `Addr_ABXE`, `Addr_ABYE` after the operand fetch: the tick is always paid (R152, R154). -/
def addrIndexedAlways (base : Addr) (i : Byte) (s : State) : Addr × State := (indexed base i, tick s)

/-- `Addr_IZX` after the operand fetch (R155). -/
def addrIndexedIndirect (z : Byte) (s : State) : Addr × State := zeroPagePointer (z + s.x) (tick s)

/-- `Addr_IZY` after the operand fetch (R156). -/
def addrIndirectIndexed (z : Byte) (s : State) : Addr × State :=
  let b := zeroPagePointer z s
  addrIndexed b.1 s.y b.2

/-- `Addr_IZYE` after the operand fetch: the last tick is always paid (R157). -/
def addrIndirectIndexedAlways (z : Byte) (s : State) : Addr × State :=
  let b := zeroPagePointer z s
  addrIndexedAlways b.1 s.y b.2

/-- `Addr_IND` after the operand fetch: the high byte comes from the page of the low byte (R158). -/
def addrIndirect (ptr : Addr) (s : State) : Addr × State :=
  let lo := memRead ptr s
  let hi := memRead (addrOf (lowByte ptr + 1) (highByte ptr)) lo.2
  (addrOf lo.1 hi.1, hi.2)

/-- `Addr_REL` after the operand fetch, `PC` at the next instruction (R159). -/
def relativeTarget (pc : Addr) (off : Byte) : Addr := pc + off.signExtend 16

/-! ## Access templates (R161) -/

/-- `ReadOp(m)`. The immediate operand's fetch is its data access (R146), so nothing is left to do for it. -/
def readOp (m : ReadOperand) (s : State) : Byte × State :=
  match m with
  | .imm v => (v, s)
  | .zp z => memRead (zeroPage z) s
  | .zpx z => let a := addrZeroPageIndexed z s.x s; memRead a.1 a.2
  | .zpy z => let a := addrZeroPageIndexed z s.y s; memRead a.1 a.2
  | .abs a => memRead a s
  | .abx base => let a := addrIndexed base s.x s; memRead a.1 a.2
  | .aby base => let a := addrIndexed base s.y s; memRead a.1 a.2
  | .izx z => let a := addrIndexedIndirect z s; memRead a.1 a.2
  | .izy z => let a := addrIndirectIndexed z s; memRead a.1 a.2

/-- The address of a `WriteOp(m, v)` and the state after its ticks (R161). -/
def writeAddr (m : WriteOperand) (s : State) : Addr × State :=
  match m with
  | .zp z => (zeroPage z, s)
  | .zpx z => addrZeroPageIndexed z s.x s
  | .zpy z => addrZeroPageIndexed z s.y s
  | .abs a => (a, s)
  | .abxe base => addrIndexedAlways base s.x s
  | .abye base => addrIndexedAlways base s.y s
  | .izx z => addrIndexedIndirect z s
  | .izye z => addrIndirectIndexedAlways z s

/-- `WriteOp(m, v)` (R161). -/
def writeOp (m : WriteOperand) (v : Byte) (s : State) : State :=
  let a := writeAddr m s
  memWrite a.1 v a.2

/-- The address of an `RmwOp(m, f)` on memory and the state after its ticks (R161). -/
def rmwAddr (m : RmwOperand) (s : State) : Addr × State :=
  match m with
  | .zp z => (zeroPage z, s)
  | .zpx z => addrZeroPageIndexed z s.x s
  | .abs a => (a, s)
  | .abxe base => addrIndexedAlways base s.x s
  | .abye base => addrIndexedAlways base s.y s
  | .izx z => addrIndexedIndirect z s
  | .izye z => addrIndirectIndexedAlways z s

/-- `RmwOp(m, f)` on memory: read, one bare tick, `f`, write (R161). -/
def rmwOp (m : RmwOperand) (f : Byte → State → Byte × State) (s : State) : State :=
  let a := rmwAddr m s
  let v := memRead a.1 a.2
  let r := f v.1 (tick v.2)
  memWrite a.1 r.1 r.2

/-- `RmwOp(m, f)` of a shift: on `A` a bare tick and `A <- f(A)`, on memory as above (R161). -/
def shiftOp (m : ShiftOperand) (f : Byte → State → Byte × State) (s : State) : State :=
  match m with
  | .acc =>
    let r := f s.a (tick s)
    r.2.setA r.1
  | .mem m => rmwOp m f s

end Sys2Proof.Machine
end

