-- ==== Sys2Proof/Machine/Ops.lean ====
section
/-! DEFINITION. The stack (R14), the interrupt sequences as one operation (R611) with the return from them (R282, R626),
the interrupt poll (R620), the branch helper (R270) and the other shapes that several instructions share. -/

namespace Sys2Proof.Machine

/-! ## The stack (R14) -/

/-- The address of a stack byte: page 1 (R14). -/
def stackAddr (sp : Byte) : Addr := 0x0100 + sp.setWidth 16

/-- `Push(v)` (R14). -/
def push (v : Byte) (s : State) : State := (memWrite (stackAddr s.sp) v s).setSp (s.sp - 1)

/-- `Pull()` (R14). -/
def pull (s : State) : Byte × State := memRead (stackAddr (s.sp + 1)) (s.setSp (s.sp + 1))

/-- `Push(PC[15:8]); Push(PC[7:0])`, with the value of `PC` pushed as an argument. -/
def pushAddr (a : Addr) (s : State) : State := push (lowByte a) (push (highByte a) s)

/-- `lo <- Pull(); hi <- Pull()`, as `hi:lo` (R281, R282). -/
def pullAddr (s : State) : Addr × State :=
  let lo := pull s
  let hi := pull lo.2
  (addrOf lo.1 hi.1, hi.2)

/-! ## Interrupts (R610 to R615) -/

/-- The four kinds of interrupt sequence (R610). -/
inductive InterruptKind
  | rst
  | nmi
  | irq
  | brk
deriving DecidableEq, Repr

/-- The vector of a kind (R610). -/
def InterruptKind.vector : InterruptKind → Addr
  | .rst => 0xFFFC
  | .nmi => 0xFFFA
  | .irq => 0xFFFE
  | .brk => 0xFFFE

/-- The part of `Interrupt(kind)` before `P.I <- 1`: leading ticks and pushes; RST moves `SP` and writes nothing
(R611, R612). -/
def interruptSave (k : InterruptKind) (s : State) : State :=
  match k with
  | .rst => ticks 3 ((ticks 3 s).setSp (s.sp - 3))
  | .nmi | .irq => push (statusPushedByInterrupt s.p) (pushAddr s.pc (tick (tick s)))
  | .brk => push (statusPushedBySoftware s.p) (pushAddr s.pc (tick s))

/-- `PC <- MemRead16(addr)`. -/
def loadVector (a : Addr) (s : State) : State :=
  let v := memRead16 a s
  v.2.setPc v.1

/-- `Interrupt(kind)` (R611). -/
def interrupt (k : InterruptKind) (s : State) : State :=
  let s := loadVector k.vector ((interruptSave k s).setFlag .interruptDisable true)
  if k = .nmi then { s with nmiFlag := false } else s

/-- What `RTI` restores after its two bare ticks: `P` as `PLP` loads it, then `PC` as pulled (R282, R626). -/
def returnFromInterrupt (s : State) : State :=
  let v := pull s
  let a := pullAddr (v.2.setP (statusPulled v.1))
  a.2.setPc a.1

/-- The poll before every instruction: NMI before IRQ, IRQ masked by `P.I` (R620 to R622). -/
def pollInterrupts (s : State) : State :=
  if s.nmiFlag then interrupt .nmi s
  else if s.irqFlag && !s.flag .interruptDisable then interrupt .irq s
  else s

/-! ## Shapes shared by instructions -/

/-- `v <- ReadOp(m); A <- v; SetNZ(v)` (R200). -/
def loadA (v : Byte) (s : State) : State := (s.setA v).setNZ v

/-- `X <- v; SetNZ(v)` (R201). -/
def loadX (v : Byte) (s : State) : State := (s.setX v).setNZ v

/-- `Y <- v; SetNZ(v)` (R202). -/
def loadY (v : Byte) (s : State) : State := (s.setY v).setNZ v

/-- `Branch(cond)` after the operand fetch (R270). -/
def branch (cond : Bool) (off : Byte) (s : State) : State :=
  if cond then
    let target := relativeTarget s.pc off
    let s' := if pageCross s.pc target then tick (tick s) else tick s
    s'.setPc target
  else s

end Sys2Proof.Machine
end

