-- ==== Sys2Proof/Machine/Arithmetic.lean ====
section
/-! DEFINITION. Arithmetic, logic, compare, increment and decrement (41_arithmetic_logic.md, R230 to R247). -/

namespace Sys2Proof.Machine

/-- `ADC` (R231). -/
def execAdc (m : ReadOperand) (s : State) : Host.Outcome State Fault Refusal :=
  let v := readOp m s
  .next (addWithCarry v.1 v.2)

/-- `SBC`: the operand inverted, then the add path (R232). -/
def execSbc (m : ReadOperand) (s : State) : Host.Outcome State Fault Refusal :=
  let v := readOp m s
  .next (addWithCarry (~~~v.1) v.2)

/-- `AND` (R233). -/
def execAnd (m : ReadOperand) (s : State) : Host.Outcome State Fault Refusal :=
  let v := readOp m s
  .next (loadA (s.a &&& v.1) v.2)

/-- `ORA` (R234). -/
def execOra (m : ReadOperand) (s : State) : Host.Outcome State Fault Refusal :=
  let v := readOp m s
  .next (loadA (s.a ||| v.1) v.2)

/-- `EOR` (R235). -/
def execEor (m : ReadOperand) (s : State) : Host.Outcome State Fault Refusal :=
  let v := readOp m s
  .next (loadA (s.a ^^^ v.1) v.2)

/-- `CMP` (R237). -/
def execCmp (m : ReadOperand) (s : State) : Host.Outcome State Fault Refusal :=
  let v := readOp m s
  .next (compareFlags s.a v.1 v.2)

/-- `CPX` (R238). -/
def execCpx (m : ReadOperand) (s : State) : Host.Outcome State Fault Refusal :=
  let v := readOp m s
  .next (compareFlags s.x v.1 v.2)

/-- `CPY` (R239). -/
def execCpy (m : ReadOperand) (s : State) : Host.Outcome State Fault Refusal :=
  let v := readOp m s
  .next (compareFlags s.y v.1 v.2)

/-- `BIT` (R240). -/
def execBit (m : ReadOperand) (s : State) : Host.Outcome State Fault Refusal :=
  let v := readOp m s
  .next (bitTest v.1 v.2)

/-- `INC` (R241). -/
def execInc (m : RmwOperand) (s : State) : Host.Outcome State Fault Refusal :=
  .next (rmwOp m increment s)

/-- `DEC` (R242). -/
def execDec (m : RmwOperand) (s : State) : Host.Outcome State Fault Refusal :=
  .next (rmwOp m decrement s)

/-- `INX` (R243). -/
def execInx (s : State) : Host.Outcome State Fault Refusal :=
  .next (loadX (s.x + 1) (tick s))

/-- `INY` (R244). -/
def execIny (s : State) : Host.Outcome State Fault Refusal :=
  .next (loadY (s.y + 1) (tick s))

/-- `DEX` (R245). -/
def execDex (s : State) : Host.Outcome State Fault Refusal :=
  .next (loadX (s.x - 1) (tick s))

/-- `DEY` (R246). -/
def execDey (s : State) : Host.Outcome State Fault Refusal :=
  .next (loadY (s.y - 1) (tick s))

end Sys2Proof.Machine
end

