-- ==== Sys2Proof/Machine/Control.lean ====
section
/-! DEFINITION. Branches, jumps, subroutines, `BRK` and `RTI` (43_control_flow.md, R270 to R284). -/

namespace Sys2Proof.Machine

/-- `BCC` (R271). -/
def execBcc (off : Byte) (s : State) : Host.Outcome State Fault Refusal :=
  .next (branch (!s.flag .carry) off s)

/-- `BCS` (R272). -/
def execBcs (off : Byte) (s : State) : Host.Outcome State Fault Refusal :=
  .next (branch (s.flag .carry) off s)

/-- `BEQ` (R273). -/
def execBeq (off : Byte) (s : State) : Host.Outcome State Fault Refusal :=
  .next (branch (s.flag .zero) off s)

/-- `BNE` (R274). -/
def execBne (off : Byte) (s : State) : Host.Outcome State Fault Refusal :=
  .next (branch (!s.flag .zero) off s)

/-- `BMI` (R275). -/
def execBmi (off : Byte) (s : State) : Host.Outcome State Fault Refusal :=
  .next (branch (s.flag .negative) off s)

/-- `BPL` (R276). -/
def execBpl (off : Byte) (s : State) : Host.Outcome State Fault Refusal :=
  .next (branch (!s.flag .negative) off s)

/-- `BVC` (R277). -/
def execBvc (off : Byte) (s : State) : Host.Outcome State Fault Refusal :=
  .next (branch (!s.flag .overflow) off s)

/-- `BVS` (R278). -/
def execBvs (off : Byte) (s : State) : Host.Outcome State Fault Refusal :=
  .next (branch (s.flag .overflow) off s)

/-- `JMP` (R279). -/
def execJmp (m : JumpOperand) (s : State) : Host.Outcome State Fault Refusal :=
  match m with
  | .abs a => .next (s.setPc a)
  | .ind ptr =>
    let a := addrIndirect ptr s
    .next (a.2.setPc a.1)

/-- `JSR`, with `PC` at its third byte, whose address is pushed; that byte is read after the pushes, so `target`
gives the low byte alone (R280, log entry 10). -/
def execJsr (target : Addr) (s : State) : Host.Outcome State Fault Refusal :=
  let hi := memRead s.pc (pushAddr s.pc (tick s))
  .next (hi.2.setPc (addrOf (lowByte target) hi.1))

/-- `RTS` (R281). -/
def execRts (s : State) : Host.Outcome State Fault Refusal :=
  let a := pullAddr (tick (tick s))
  .next ((tick a.2).setPc (a.1 + 1))

/-- `RTI` (R282). -/
def execRti (s : State) : Host.Outcome State Fault Refusal :=
  .next (returnFromInterrupt (tick (tick s)))

/-- `BRK`: the padding byte is skipped without a read, then the BRK sequence (R283, R615). -/
def execBrk (s : State) : Host.Outcome State Fault Refusal :=
  .next (interrupt .brk (s.setPc (s.pc + 1)))

end Sys2Proof.Machine
end

