-- ==== Sys2Proof/Machine/LoadStore.lean ====
section
/-! DEFINITION. Loads, stores and register transfers (40_load_store_transfer.md, R200 to R211). -/

namespace Sys2Proof.Machine

/-- `LDA` (R200). -/
def execLda (m : ReadOperand) (s : State) : Host.Outcome State Fault Refusal :=
  let v := readOp m s
  .next (loadA v.1 v.2)

/-- `LDX` (R201). -/
def execLdx (m : ReadOperand) (s : State) : Host.Outcome State Fault Refusal :=
  let v := readOp m s
  .next (loadX v.1 v.2)

/-- `LDY` (R202). -/
def execLdy (m : ReadOperand) (s : State) : Host.Outcome State Fault Refusal :=
  let v := readOp m s
  .next (loadY v.1 v.2)

/-- `STA` (R203). -/
def execSta (m : WriteOperand) (s : State) : Host.Outcome State Fault Refusal :=
  .next (writeOp m s.a s)

/-- `STX` (R204). -/
def execStx (m : WriteOperand) (s : State) : Host.Outcome State Fault Refusal :=
  .next (writeOp m s.x s)

/-- `STY` (R205). -/
def execSty (m : WriteOperand) (s : State) : Host.Outcome State Fault Refusal :=
  .next (writeOp m s.y s)

/-- `TAX` (R206). -/
def execTax (s : State) : Host.Outcome State Fault Refusal :=
  .next (loadX s.a (tick s))

/-- `TAY` (R207). -/
def execTay (s : State) : Host.Outcome State Fault Refusal :=
  .next (loadY s.a (tick s))

/-- `TXA` (R208). -/
def execTxa (s : State) : Host.Outcome State Fault Refusal :=
  .next (loadA s.x (tick s))

/-- `TYA` (R209). -/
def execTya (s : State) : Host.Outcome State Fault Refusal :=
  .next (loadA s.y (tick s))

/-- `TSX` (R210). -/
def execTsx (s : State) : Host.Outcome State Fault Refusal :=
  .next (loadX s.sp (tick s))

/-- `TXS`: the transfer that writes no flag (R211). -/
def execTxs (s : State) : Host.Outcome State Fault Refusal :=
  .next ((tick s).setSp s.x)

end Sys2Proof.Machine
end

