-- ==== Sys2Proof/Machine/Shift.lean ====
section
/-! DEFINITION. Shifts and rotates (42_shift_rotate.md, R260 to R264). -/

namespace Sys2Proof.Machine

/-- `ASL` (R261). -/
def execAsl (m : ShiftOperand) (s : State) : Host.Outcome State Fault Refusal :=
  .next (shiftOp m asl s)

/-- `LSR` (R262). -/
def execLsr (m : ShiftOperand) (s : State) : Host.Outcome State Fault Refusal :=
  .next (shiftOp m lsr s)

/-- `ROL` (R263). -/
def execRol (m : ShiftOperand) (s : State) : Host.Outcome State Fault Refusal :=
  .next (shiftOp m rol s)

/-- `ROR` (R264). -/
def execRor (m : ShiftOperand) (s : State) : Host.Outcome State Fault Refusal :=
  .next (shiftOp m ror s)

end Sys2Proof.Machine
end

