-- ==== Sys2Proof/Machine/Stack.lean ====
section
/-! DEFINITION. The stack, flag and no-operation instructions (44_stack_flags_nop.md, R300 to R311). -/

namespace Sys2Proof.Machine

/-- `PHA` (R300). -/
def execPha (s : State) : Host.Outcome State Fault Refusal :=
  .next (push s.a (tick s))

/-- `PHP` (R301). -/
def execPhp (s : State) : Host.Outcome State Fault Refusal :=
  .next (push (statusPushedBySoftware s.p) (tick s))

/-- `PLA` (R302). -/
def execPla (s : State) : Host.Outcome State Fault Refusal :=
  let v := pull (tick (tick s))
  .next (loadA v.1 v.2)

/-- `PLP` (R303). -/
def execPlp (s : State) : Host.Outcome State Fault Refusal :=
  let v := pull (tick (tick s))
  .next (v.2.setP (statusPulled v.1))

/-- `CLC` (R304). -/
def execClc (s : State) : Host.Outcome State Fault Refusal :=
  .next ((tick s).setFlag .carry false)

/-- `SEC` (R305). -/
def execSec (s : State) : Host.Outcome State Fault Refusal :=
  .next ((tick s).setFlag .carry true)

/-- `CLI` (R306). -/
def execCli (s : State) : Host.Outcome State Fault Refusal :=
  .next ((tick s).setFlag .interruptDisable false)

/-- `SEI` (R307). -/
def execSei (s : State) : Host.Outcome State Fault Refusal :=
  .next ((tick s).setFlag .interruptDisable true)

/-- `CLD` (R308). -/
def execCld (s : State) : Host.Outcome State Fault Refusal :=
  .next ((tick s).setFlag .decimal false)

/-- `SED` (R309). -/
def execSed (s : State) : Host.Outcome State Fault Refusal :=
  .next ((tick s).setFlag .decimal true)

/-- `CLV` (R310). -/
def execClv (s : State) : Host.Outcome State Fault Refusal :=
  .next ((tick s).setFlag .overflow false)

/-- `NOP`, the official one (R311). -/
def execNop (s : State) : Host.Outcome State Fault Refusal :=
  .next (tick s)

end Sys2Proof.Machine
end

