-- ==== Sys2Proof/Machine/Unofficial.lean ====
section
/-! DEFINITION. The unofficial instructions and the undecodable bytes (45_unofficial.md, R320 to R340). -/

namespace Sys2Proof.Machine

/-! ## What the combined instructions do to the byte read (R322 to R327) -/

/-- `DCP`: decrement, then compare with `A` (R322). -/
def dcpByte (v : Byte) (s : State) : Byte × State := (v - 1, compareFlags s.a (v - 1) s)

/-- `ISB`: increment, then subtract from `A` (R323). -/
def isbByte (v : Byte) (s : State) : Byte × State := (v + 1, addWithCarry (~~~(v + 1)) s)

/-- `SLO`: shift left, then OR into `A` (R324). -/
def sloByte (v : Byte) (s : State) : Byte × State :=
  let r := asl v s
  (r.1, loadA (r.2.a ||| r.1) r.2)

/-- `RLA`: rotate left, then AND into `A` (R325). -/
def rlaByte (v : Byte) (s : State) : Byte × State :=
  let r := rol v s
  (r.1, loadA (r.2.a &&& r.1) r.2)

/-- `SRE`: shift right, then EOR into `A` (R326). -/
def sreByte (v : Byte) (s : State) : Byte × State :=
  let r := lsr v s
  (r.1, loadA (r.2.a ^^^ r.1) r.2)

/-- `RRA`: rotate right, then add to `A` with the carry of the rotate (R327). -/
def rraByte (v : Byte) (s : State) : Byte × State :=
  let r := ror v s
  (r.1, addWithCarry r.1 r.2)

/-- The byte `SYA` and `SXA` store: `r & ((hi + 1) mod 256)`, `hi` of the base address (R333, R334). -/
def andHighPlusOne (r : Byte) (base : Addr) : Byte := r &&& (highByte base + 1)

/-! ## The instructions -/

/-- `LAX` (R320). -/
def execLax (m : ReadOperand) (s : State) : Host.Outcome State Fault Refusal :=
  let v := readOp m s
  .next (loadX v.1 (v.2.setA v.1))

/-- `SAX` (R321). -/
def execSax (m : WriteOperand) (s : State) : Host.Outcome State Fault Refusal :=
  .next (writeOp m (s.a &&& s.x) s)

/-- `DCP` (R322). -/
def execDcp (m : RmwOperand) (s : State) : Host.Outcome State Fault Refusal :=
  .next (rmwOp m dcpByte s)

/-- `ISB` (R323). -/
def execIsb (m : RmwOperand) (s : State) : Host.Outcome State Fault Refusal :=
  .next (rmwOp m isbByte s)

/-- `SLO` (R324). -/
def execSlo (m : RmwOperand) (s : State) : Host.Outcome State Fault Refusal :=
  .next (rmwOp m sloByte s)

/-- `RLA` (R325). -/
def execRla (m : RmwOperand) (s : State) : Host.Outcome State Fault Refusal :=
  .next (rmwOp m rlaByte s)

/-- `SRE` (R326). -/
def execSre (m : RmwOperand) (s : State) : Host.Outcome State Fault Refusal :=
  .next (rmwOp m sreByte s)

/-- `RRA` (R327). -/
def execRra (m : RmwOperand) (s : State) : Host.Outcome State Fault Refusal :=
  .next (rmwOp m rraByte s)

/-- `AAC`, at $0B and $2B: AND, then `C` is bit 7 of the result (R328). -/
def execAac (_op : Byte) (v : Byte) (s : State) : Host.Outcome State Fault Refusal :=
  let r := s.a &&& v
  .next ((loadA r s).setFlag .carry (r.getLsbD 7))

/-- `ASR`: AND, then a logical shift right (R329). -/
def execAsr (v : Byte) (s : State) : Host.Outcome State Fault Refusal :=
  let r := lsr (s.a &&& v) s
  .next (r.2.setA r.1)

/-- `ARR`: AND, then a rotate right with its own `C` and `V` (R330, log entry 6). -/
def execArr (v : Byte) (s : State) : Host.Outcome State Fault Refusal :=
  let r : Byte := ((s.a &&& v) >>> 1) ||| ((BitVec.ofBool (s.flag .carry)).setWidth 8 <<< 7)
  .next (((loadA r s).setFlag .carry (r.getLsbD 6)).setFlag .overflow (r.getLsbD 6 ^^ r.getLsbD 5))

/-- `ATX`: AND, and the result into `X` too (R331, log entry 6). -/
def execAtx (v : Byte) (s : State) : Host.Outcome State Fault Refusal :=
  let r := s.a &&& v
  .next (loadX r (s.setA r))

/-- `AXS`: `(A & X) - v` into `X` (R332). -/
def execAxs (v : Byte) (s : State) : Host.Outcome State Fault Refusal :=
  let t := s.a &&& s.x
  .next (loadX (t - v) (s.setFlag .carry (decide (v ≤ t))))

/-- `SYA` (R333, log entry 6). -/
def execSya (base : Addr) (s : State) : Host.Outcome State Fault Refusal :=
  let a := addrIndexedAlways base s.x s
  .next (memWrite a.1 (andHighPlusOne s.y base) a.2)

/-- `SXA` (R334, log entry 6). -/
def execSxa (base : Addr) (s : State) : Host.Outcome State Fault Refusal :=
  let a := addrIndexedAlways base s.y s
  .next (memWrite a.1 (andHighPlusOne s.x base) a.2)

/-- `SBC` at $EB (R335). -/
def execSbcDuplicate (v : Byte) (s : State) : Host.Outcome State Fault Refusal :=
  .next (addWithCarry (~~~v) s)

/-- The implied unofficial `NOP` (R336). -/
def execNopImplied (_op : Byte) (s : State) : Host.Outcome State Fault Refusal :=
  .next (tick s)

/-- The immediate unofficial `NOP`: its operand was read by the fetch and is discarded (R337). -/
def execNopImmediate (_op : Byte) (v : Byte) (s : State) : Host.Outcome State Fault Refusal :=
  .next (readOp (.imm v) s).2

/-- The zero-page unofficial `NOP`: the operand is read and discarded (R338). -/
def execNopZeroPage (_op : Byte) (m : ReadOperand) (s : State) : Host.Outcome State Fault Refusal :=
  .next (readOp m s).2

/-- The absolute unofficial `NOP`: the operand is read and discarded (R339). -/
def execNopAbsolute (_op : Byte) (m : ReadOperand) (s : State) : Host.Outcome State Fault Refusal :=
  .next (readOp m s).2

/-- The 17 undecodable bytes: `raise Fatal(UndecodableOpcode(op, pc0))`, `pc0` the address of the opcode byte (R340, R600,
log entry 1). -/
def execUndecodable (op : Byte) (s : State) : Host.Outcome State Fault Refusal :=
  .next (s.halt (.undecodableOpcode op (s.pc - 1)))

end Sys2Proof.Machine
end

