-- ==== Sys2Proof/Machine/Fetch.lean ====
section
/-! DEFINITION. Fetching an instruction's bytes (R101, R130, R131, R162): each by its own `MemRead(PC)`, with `PC` moved
past it. -/

namespace Sys2Proof.Machine

/-- `b <- MemRead(PC); PC <- PC + 1` (R33, R162). -/
def fetchByte (s : State) : Byte × State :=
  let b := memRead s.pc s
  (b.1, b.2.setPc (s.pc + 1))

/-- The opcode byte of `JSR`, whose third byte is read after its pushes (R280). -/
def jsrOpcode : Byte := 0x20

/-- The operand bytes after the opcode `op`. `JSR`'s third byte is only peeked here, for the decoder: its timed read is
the instruction's own, after the pushes (R280; DEDUCED, log entry 10). -/
def fetchOperands (op : Byte) (s : State) : List Byte × State :=
  if op = jsrOpcode then
    let lo := fetchByte s
    ([lo.1, peek lo.2.pc lo.2], lo.2)
  else
    match instrLength op with
    | 2 =>
      let b := fetchByte s
      ([b.1], b.2)
    | 3 =>
      let lo := fetchByte s
      let hi := fetchByte lo.2
      ([lo.1, hi.1], hi.2)
    | _ => ([], s)

/-- The bytes of the instruction at `PC` and the state after their fetch. -/
def fetchInstruction (s : State) : List Byte × State :=
  let op := fetchByte s
  let rest := fetchOperands op.1 op.2
  (op.1 :: rest.1, rest.2)

end Sys2Proof.Machine
end

