-- ==== Sys2Proof/Machine/Placement.lean ====
section
/-! DEFINITION. Putting an instruction's bytes where the next step fetches them: the host's stand-in for a program loaded
from outside (log entry 9). -/

namespace Sys2Proof.Machine

/-- A byte can be placed at this address: RAM, or the cartridge if one is present (R81). -/
def State.placeable (a : Addr) (s : State) : Bool :=
  decide (a.toNat ≤ 0x1FFF) || (decide (0x6000 ≤ a.toNat) && decide (s.cart.prgSize ≠ 0) && decide (s.cart.prgRamSize ≠ 0))

/-- Puts a byte where a fetch from this address finds it. -/
def State.placeByte (a : Addr) (b : Byte) (s : State) : State :=
  if a.toNat ≤ 0x1FFF then { s with ram := s.ram.write (a.toNat % 0x800) b }
  else if a.toNat < 0x8000 then
    { s with cart := { s.cart with prgRam := s.cart.prgRam.write ((a.toNat - 0x6000) % s.cart.prgRamSize) b } }
  else { s with cart := { s.cart with prg := s.cart.prg.write (prgOffset s.banks s.cart.prgSize a.toNat) b } }

/-- Puts bytes at rising addresses, modulo 65536 (R130). -/
def State.placeBytes : Addr → List Byte → State → State
  | _, [], s => s
  | a, b :: bytes, s => State.placeBytes (a + 1) bytes (s.placeByte a b)

/-- `s` made ready to fetch at once: running, no interrupt taken by the next poll, `PC` where three bytes can be placed
(where they cannot be placed at `PC`, at $0000). -/
def State.readyToFetch (s : State) : State :=
  let here := s.placeable s.pc && s.placeable (s.pc + 1) && s.placeable (s.pc + 2)
  { s with run := .running, nmiFlag := false, irqFlag := s.irqFlag && s.flag .interruptDisable,
           pc := if here then s.pc else 0 }

end Sys2Proof.Machine
end

