-- ==== Sys2Proof/Machine/Step.lean ====
section
/-! DEFINITION. The step relation (R162, R620, R660). -/

namespace Sys2Proof.Machine

/-- Why the decoder rejected, as text. -/
def rejection : DecodeError → String
  | .noOpcode => "no opcode byte"
  | .operandMissing _ => "operand byte missing"

/-- `ExecuteInstruction()`: fetch, decode, run (R162). -/
def executeInstruction (s : State) : Host.Outcome State Fault Refusal :=
  let f := fetchInstruction s
  match decode f.1 with
  | .ok i _ => exec i f.2
  | .rejected e => .refused (.rejectedBytes (rejection e))

/-- `Step()`: the interrupt poll, then one instruction. Only a running machine steps (R620, R660); on a halted one the
step is the fault that names why (R15, log entry 1). -/
def step (s : State) : Host.Outcome State Fault Refusal :=
  match s.run with
  | .running => executeInstruction (pollInterrupts s)
  | .halted r => .fault (.halted r)
  | .noCartridge => .refused .notPoweredOn
  | .loaded => .refused .notPoweredOn

/-- `s` with the instruction whose low `nbits` bits are those of `w` (the others 0) stored where `step` fetches its next
instruction (log entry 9). -/
def State.withFetchWord (s : State) (nbits w : Nat) : State :=
  let s := s.readyToFetch
  s.placeBytes s.pc (tableBytes nbits w)

end Sys2Proof.Machine
end

