-- ==== Sys2Proof/Machine/Assembler.lean ====
section
/-! DEFINITION. The assembler's spelling of an instruction (R165), for a disassembler. -/

namespace Sys2Proof.Machine

/-- A hexadecimal digit. -/
def hexDigit (n : Nat) : String :=
  ["0", "1", "2", "3", "4", "5", "6", "7", "8", "9", "A", "B", "C", "D", "E", "F"].getD (n % 16) ""

/-- A byte in two digits after `$`. -/
def hexByte (b : Byte) : String := "$" ++ hexDigit (b.toNat / 16) ++ hexDigit b.toNat

/-- An address in four digits after `$`. -/
def hexAddr (a : Addr) : String :=
  hexByte (highByte a) ++ hexDigit ((lowByte a).toNat / 16) ++ hexDigit (lowByte a).toNat

/-- The operand form of a read mode (R133). -/
def readText : ReadOperand → String
  | .imm v => "#" ++ hexByte v
  | .zp z => hexByte z
  | .zpx z => hexByte z ++ ",X"
  | .zpy z => hexByte z ++ ",Y"
  | .abs a => hexAddr a
  | .abx a => hexAddr a ++ ",X"
  | .aby a => hexAddr a ++ ",Y"
  | .izx z => "(" ++ hexByte z ++ ",X)"
  | .izy z => "(" ++ hexByte z ++ "),Y"

/-- The operand form of a store mode (R133). -/
def writeText : WriteOperand → String
  | .zp z => hexByte z
  | .zpx z => hexByte z ++ ",X"
  | .zpy z => hexByte z ++ ",Y"
  | .abs a => hexAddr a
  | .abxe a => hexAddr a ++ ",X"
  | .abye a => hexAddr a ++ ",Y"
  | .izx z => "(" ++ hexByte z ++ ",X)"
  | .izye z => "(" ++ hexByte z ++ "),Y"

/-- The operand form of a memory mode of a read-modify-write instruction (R133). -/
def rmwText : RmwOperand → String
  | .zp z => hexByte z
  | .zpx z => hexByte z ++ ",X"
  | .abs a => hexAddr a
  | .abxe a => hexAddr a ++ ",X"
  | .abye a => hexAddr a ++ ",Y"
  | .izx z => "(" ++ hexByte z ++ ",X)"
  | .izye z => "(" ++ hexByte z ++ "),Y"

/-- The operand form of a shift (R133). -/
def shiftText : ShiftOperand → String
  | .acc => "A"
  | .mem m => rmwText m

/-- The operand of the instruction at `pc`, empty where it has none. A branch's label is written as its target address
(DESIGN CHOICE, log entry 11). -/
def operandText (pc : Addr) : Instr → String
  | .lda m | .ldx m | .ldy m | .adc m | .sbc m | .and m | .ora m | .eor m | .cmp m | .cpx m | .cpy m | .bit m
  | .lax m | .nopZeroPage _ m | .nopAbsolute _ m => readText m
  | .sta m | .stx m | .sty m | .sax m => writeText m
  | .inc m | .dec m | .dcp m | .isb m | .slo m | .rla m | .sre m | .rra m => rmwText m
  | .asl m | .lsr m | .rol m | .ror m => shiftText m
  | .bcc n | .bcs n | .beq n | .bne n | .bmi n | .bpl n | .bvc n | .bvs n => hexAddr (relativeTarget (pc + 2) n)
  | .aac _ n | .asr n | .arr n | .atx n | .axs n | .sbcDuplicate n | .nopImmediate _ n => "#" ++ hexByte n
  | .jmp (.abs a) | .jsr a => hexAddr a
  | .jmp (.ind a) => "(" ++ hexAddr a ++ ")"
  | .sya a => hexAddr a ++ ",X"
  | .sxa a => hexAddr a ++ ",Y"
  | .tax | .tay | .txa | .tya | .tsx | .txs | .inx | .iny | .dex | .dey | .rts | .rti | .brk
  | .pha | .php | .pla | .plp | .clc | .sec | .cli | .sei | .cld | .sed | .clv | .nop
  | .nopImplied _ | .undecodable _ => ""

/-- The assembler line of the instruction at `pc` (R165). -/
def assemblerText (pc : Addr) (i : Instr) : String :=
  let operand := operandText pc i
  if operand = "" then i.mnemonic else i.mnemonic ++ " " ++ operand

end Sys2Proof.Machine
end

