-- ==== Sys2Proof/Machine/Console.lean ====
section
/-! DEFINITION. The host operations (70_reset_and_hazards.md, R650 to R664) but for the snapshots, and the loader of an iNES
image (R500 to R505). The host acts only between steps (R662). -/

namespace Sys2Proof.Machine

/-! ## The machine without a cartridge -/

/-- No cartridge is present. -/
def Cart.absent : Cart :=
  { prg := [], prgSize := 0, chr := [], chrSize := 0, chrIsRam := false, prgRam := [], prgRamSize := 0,
    initialMirroring := .horizontal }

/-- The machine before any `load_rom` (R660). -/
def State.noCartridge : State :=
  { State.reset with run := .noCartridge, cart := .absent, mapper := .nrom, banks := { prg := noPrgSlots, chr := noChrSlots } }

/-- The run state after a host operation that would leave `new`: `Halted` stays, since only `power_on` leaves it (R15;
DEDUCED, log entry 18). -/
def RunState.unlessHalted (old new : RunState) : RunState :=
  match old with
  | .halted r => .halted r
  | .running | .noCartridge | .loaded => new

/-- A fatal condition of a host operation: `Halted`, with no usable cartridge (R607); on a halted machine the newer reason
stands (log entry 18). -/
def State.failLoad (r : FatalReason) (s : State) : State :=
  { s with run := .halted r, cart := .absent, mapper := .nrom, banks := { prg := noPrgSlots, chr := noChrSlots } }

/-! ## `load_rom` (R500 to R505) -/

/-- `file[i]`. -/
def fileByte (file : List Byte) (i : Nat) : Byte := file.getD i 0

/-- `cart.mapper_number`: byte 7's high nibble over byte 6's (R501). -/
def headerMapper (file : List Byte) : Nat := (fileByte file 7 &&& 0xF0).toNat + (fileByte file 6 >>> 4).toNat

/-- `prg_size` (R502). -/
def headerPrgSize (file : List Byte) : Nat := (fileByte file 4).toNat * 16384

/-- The CHR-ROM bytes in the file; 0 means CHR-RAM (R502). -/
def headerChrRomSize (file : List Byte) : Nat := (fileByte file 5).toNat * 8192

/-- `prg_ram_size` (R503). -/
def headerPrgRamSize (file : List Byte) : Nat := if fileByte file 8 = 0 then 8192 else (fileByte file 8).toNat * 8192

/-- Initial mirroring: byte 6 bit 0 (R504). -/
def headerMirroring (file : List Byte) : Mirroring := if (fileByte file 6).getLsbD 0 then .vertical else .horizontal

/-- The file is shorter than its header promises, or promises no PRG (R500). -/
def isShortRom (file : List Byte) : Bool :=
  decide (file.length < 16) || decide (file.length < 16 + headerPrgSize file + headerChrRomSize file) ||
    decide (headerPrgSize file = 0)

/-- The cartridge of a complete file (R502, R503, R504). -/
def cartOfFile (file : List Byte) : Cart :=
  let isRam := decide (fileByte file 5 = 0)
  { prg := .ofBytes ((file.drop 16).take (headerPrgSize file)), prgSize := headerPrgSize file,
    chr := if isRam then [] else .ofBytes ((file.drop (16 + headerPrgSize file)).take (headerChrRomSize file)),
    chrSize := if isRam then 8192 else headerChrRomSize file, chrIsRam := isRam,
    prgRam := [], prgRamSize := headerPrgRamSize file, initialMirroring := headerMirroring file }

/-- A new cartridge in place, its mapper as the variant's `Reset` leaves it (R505, R511). The machine is `Loaded` (R660),
but a halted one stays halted until `power_on` (R15, R40; DEDUCED, log entry 18). -/
def State.insert (c : Cart) (m : Mapper) (s : State) : State :=
  { s with cart := c, mirroring := c.initialMirroring, run := s.run.unlessHalted .loaded }.applyMapper m

/-- `load_rom(file)` (R500, R505). -/
def loadRom (file : List Byte) (s : State) : State :=
  if isShortRom file then s.failLoad (.shortFile .rom)
  else
    match Mapper.ofNumber (headerMapper file) (headerMirroring file) with
    | none => s.failLoad (.unsupportedMapper (headerMapper file))
    | some m => s.insert (cartOfFile file) m

/-! ## Power and reset -/

/-- `power_on()`: no tick; cartridge, mapper and palette are not touched (R650). -/
def powerOn (s : State) : Host.Outcome State Fault Refusal :=
  if s.cart.prgSize = 0 then .refused .noCartridge
  else
    let s := { s with
      ram := [], a := 0, x := 0, y := 0, sp := 0xFD, p := 0x34, cycleCount := 0, nmiFlag := false, irqFlag := false,
      ppu := .powerOn, ctl := .powerOn, run := .running }
    .next (s.setPc (peek16 0xFFFC s))

/-- The cartridge with its RAM as it is right after a load (R57). -/
def Cart.wiped (c : Cart) : Cart := { c with prgRam := [], chr := if c.chrIsRam then [] else c.chr }

/-- The machine that nothing of `s` survives in but that it is halted, if it is (R635; R15, log entry 18). -/
def State.discarded (s : State) : State := { State.noCartridge with run := s.run.unlessHalted .noCartridge }

/-- `power_off()`: nothing survives but the ROM image, so what is left is the machine right after `load_rom` of it
(R635, R662; DESIGN CHOICE, log entry 7). -/
def powerOff (s : State) : State :=
  match Mapper.ofNumber s.mapper.number s.cart.initialMirroring with
  | some m => if s.cart.prgSize = 0 then s.discarded else s.discarded.insert s.cart.wiped m
  | none => s.discarded

/-- `reset()`: the RST sequence; nothing on a halted machine, refused before `power_on` (R651, R652). -/
def reset (s : State) : Host.Outcome State Fault Refusal :=
  match s.run with
  | .running => .next (interrupt .rst s)
  | .halted _ => .next s
  | .noCartridge => .refused .notPoweredOn
  | .loaded => .refused .notPoweredOn

/-! ## `run_frame` (R663) -/

/-- At most `n` iterations of `run_frame`'s loop. -/
def runLoop : Nat → State → Host.Outcome State Fault Refusal
  | 0, s => .next s
  | n + 1, s =>
    if s.run = .running ∧ s.cycleCount < Config.cyclesPerFrame then
      match step s with
      | .next t => runLoop n t
      | .fault r => .fault r
      | .refused r => .refused r
    else .next s

/-- `run_frame()`. Every step spends a tick, so the loop ends within as many iterations as the frame has ticks (R663). -/
def runFrame (s : State) : Host.Outcome State Fault Refusal :=
  match s.run with
  | .running => runLoop Config.cyclesPerFrame { s with cycleCount := s.cycleCount % Config.cyclesPerFrame }
  | .halted _ => .refused .machineHalted
  | .noCartridge => .refused .notPoweredOn
  | .loaded => .refused .notPoweredOn

/-! ## The other operations -/

/-- `get_frame_buffer()`: 61440 RGB triples, row by row (R664). -/
def getFrameBuffer (s : State) : List Rgb :=
  (List.range Config.frameHeight).flatMap fun y => (List.range Config.frameWidth).map fun x => s.ppu.rgb.read y x

/-- `set_buttons(port, mask)`; a halted machine refuses it (R561, R662). -/
def setButtons (port : Port) (mask : Byte) (s : State) : Host.Outcome State Fault Refusal :=
  match s.run with
  | .halted _ => .refused .machineHalted
  | .running => .next { s with ctl := s.ctl.setButtons port mask }
  | .noCartridge => .next { s with ctl := s.ctl.setButtons port mask }
  | .loaded => .next { s with ctl := s.ctl.setButtons port mask }

/-- `set_palette(bytes)` (R489, R604). -/
def setPalette (bytes : List Byte) (s : State) : State :=
  if bytes.length = Config.paletteSize then { s with palette := .ofBytes bytes } else s.failLoad (.badPaletteSize bytes.length)

/-- Set base path: no effect on the machine, a halted one too (the table of R662, against the sentence after it;
DEDUCED, log entry 20). -/
def setBasePath (_path : String) (s : State) : State := s

end Sys2Proof.Machine
end

