-- ==== Sys2Proof/Machine/Snapshot.lean ====
section
/-! DEFINITION. The snapshot serializer (49_controller_snapshot.md, R580 to R591): little-endian, no header, the four parts
in order (R581). -/

namespace Sys2Proof.Machine

/-! ## Writing (R581) -/

/-- The `n` low bytes of a number, the least significant first (R581). -/
def leBytes : Nat → Nat → List Byte
  | 0, _ => []
  | n + 1, v => BitVec.ofNat 8 v :: leBytes n (v / 256)

/-- A `u16`. -/
def le16 (v : Nat) : List Byte := leBytes 2 v

/-- A `u64`. -/
def le64 (v : Nat) : List Byte := leBytes 8 v

/-- A Boolean: `u8` 0 or 1. -/
def boolByte (b : Bool) : Byte := if b then 1 else 0

/-- The number of a mirroring mode (R583 field 4). -/
def Mirroring.code : Mirroring → Byte
  | .horizontal => 0
  | .vertical => 1
  | .oneScreenLow => 2
  | .oneScreenHigh => 3
  | .fourScreen => 4

/-- The number of a phase (R583 field 5). -/
def Phase.code : Phase → Byte
  | .visible => 0
  | .postRender => 1
  | .vblank => 2
  | .preRender => 3

/-- The CPU part (R582). -/
def saveCpu (s : State) : List Byte :=
  s.ram.toBytes Config.ramSize ++ [s.a, s.x, s.y] ++ le16 s.pc.toNat ++ [s.sp, s.p, boolByte s.nmiFlag, boolByte s.irqFlag] ++
    le64 s.cycleCount

/-- The PPU part (R583). -/
def savePpu (m : Mirroring) (p : Ppu) : List Byte :=
  p.ntRam.toBytes Config.ntRamSize ++ p.palRam.toBytes Config.palRamSize ++ p.oam.toBytes Config.oamSize ++
    [m.code, p.phase.code] ++ le16 p.dot ++ le16 p.scanline ++
    [boolByte p.frameOdd, p.ctrl, p.mask, p.status, p.busLatch, p.readBuffer, p.oamAddr] ++ le16 p.v.toNat ++ le16 p.t.toNat ++
    [p.fineX.setWidth 8, boolByte p.w] ++ le16 p.bg.fetchAddr.toNat ++ [p.bg.ntByte, p.bg.atByte, p.bg.bgLo, p.bg.bgHi] ++
    le16 p.bg.bgShiftLo.toNat ++ le16 p.bg.bgShiftHi.toNat ++
    [p.bg.atShiftLo, p.bg.atShiftHi, boolByte p.bg.atLatchLo, boolByte p.bg.atLatchHi]

/-- The registers of the mapper variant (R584). -/
def saveMapper : Mapper → List Byte
  | .nrom => []
  | .mmc1 r => [BitVec.ofNat 8 r.writeN, r.shift.setWidth 8, r.control.setWidth 8, r.chr0.setWidth 8, r.chr1.setWidth 8,
      r.prg.setWidth 8]
  | .unrom bank => [bank]
  | .mmc3 r => r.bankSelect :: r.regs ++ [boolByte r.mirrorBit, r.irqPeriod, r.irqCounter, boolByte r.irqEnabled]
  | .axrom bank => [bank]

/-- A variable-length vector: a `u64` length, then the bytes (R581). -/
def saveVector (n : Nat) (m : Memory) : List Byte := le64 n ++ m.toBytes n

/-- The mapper part (R584). -/
def saveCart (m : Mapper) (c : Cart) : List Byte :=
  saveMapper m ++ saveVector c.prgRamSize c.prgRam ++ (if c.chrIsRam then saveVector c.chrSize c.chr else [])

/-- The controller part (R585). -/
def saveController (c : Controller) : List Byte := [c.shift0, c.shift1, boolByte c.strobe]

/-- The bytes of a snapshot: CPU, PPU, mapper, controller (R580). -/
def snapshotBytes (s : State) : List Byte :=
  saveCpu s ++ savePpu s.mirroring s.ppu ++ saveCart s.mapper s.cart ++ saveController s.ctl

/-- `save_snapshot()`: no state change; refused unless the machine is running (R580, R652, R662). -/
def saveSnapshot (s : State) : Host.Outcome (List Byte) Fault Refusal :=
  match s.run with
  | .running => .next (snapshotBytes s)
  | .halted _ => .refused .machineHalted
  | .noCartridge => .refused .notPoweredOn
  | .loaded => .refused .notPoweredOn

/-! ## Reading -/

/-- What reading a piece gives: the value and the bytes after it; too few bytes or a wrong length (R586); or a value no
`save_snapshot` writes (U3, log entry 8). -/
inductive ReadResult (α : Type)
  | ok (v : α) (rest : List Byte)
  | short
  | foreign

/-- Reads on with the value read so far. -/
def ReadResult.andThen {α β : Type} (r : ReadResult α) (f : α → List Byte → ReadResult β) : ReadResult β :=
  match r with
  | .ok v rest => f v rest
  | .short => .short
  | .foreign => .foreign

/-- Accepts a value only if `good` holds. -/
def ReadResult.check {α : Type} (r : ReadResult α) (good : α → Bool) : ReadResult α :=
  r.andThen fun v rest => if good v then .ok v rest else .foreign

/-- A `u8`. -/
def readByte : List Byte → ReadResult Byte
  | [] => .short
  | b :: rest => .ok b rest

/-- A little-endian number of `n` bytes. -/
def readLe : Nat → List Byte → ReadResult Nat
  | 0, bytes => .ok 0 bytes
  | n + 1, bytes =>
    (readByte bytes).andThen fun b rest => (readLe n rest).andThen fun v rest => .ok (b.toNat + 256 * v) rest

/-- A Boolean. -/
def readBool (bytes : List Byte) : ReadResult Bool :=
  (readByte bytes).andThen fun b rest => if b = 0 then .ok false rest else if b = 1 then .ok true rest else .foreign

/-- A fixed array of `n` bytes. -/
def readBytes (n : Nat) (bytes : List Byte) : ReadResult (List Byte) :=
  if bytes.length < n then .short else .ok (bytes.take n) (bytes.drop n)

/-- A fixed array of `n` bytes, as a memory. -/
def readMemory (n : Nat) (bytes : List Byte) : ReadResult Memory :=
  (readBytes n bytes).andThen fun v rest => .ok (Memory.ofBytes v) rest

/-- A variable-length vector; a length other than `n` is a short file (R586). -/
def readVector (n : Nat) (bytes : List Byte) : ReadResult Memory :=
  (readLe 8 bytes).andThen fun len rest => if len = n then readMemory n rest else .short

/-- A mirroring mode. -/
def readMirroring (bytes : List Byte) : ReadResult Mirroring :=
  (readByte bytes).andThen fun b rest =>
    match b.toNat with
    | 0 => .ok .horizontal rest
    | 1 => .ok .vertical rest
    | 2 => .ok .oneScreenLow rest
    | 3 => .ok .oneScreenHigh rest
    | 4 => .ok .fourScreen rest
    | _ => .foreign

/-- A phase. -/
def readPhase (bytes : List Byte) : ReadResult Phase :=
  (readByte bytes).andThen fun b rest =>
    match b.toNat with
    | 0 => .ok .visible rest
    | 1 => .ok .postRender rest
    | 2 => .ok .vblank rest
    | 3 => .ok .preRender rest
    | _ => .foreign

/-- A register of `w` bits in a field of `n` bytes; the bits above it are 0. -/
def readBits (w n : Nat) (bytes : List Byte) : ReadResult (BitVec w) :=
  (readLe n bytes).andThen fun v rest => if v < 2 ^ w then .ok (BitVec.ofNat w v) rest else .foreign

/-- The CPU part over the state (R582). -/
def loadCpu (s : State) (bytes : List Byte) : ReadResult State :=
  (readMemory Config.ramSize bytes).andThen fun ram bytes =>
  (readByte bytes).andThen fun a bytes =>
  (readByte bytes).andThen fun x bytes =>
  (readByte bytes).andThen fun y bytes =>
  (readBits 16 2 bytes).andThen fun pc bytes =>
  (readByte bytes).andThen fun sp bytes =>
  (readByte bytes).andThen fun p bytes =>
  (readBool bytes).andThen fun nmi bytes =>
  (readBool bytes).andThen fun irq bytes =>
  (readLe 8 bytes).andThen fun cycles bytes =>
  .ok { s with ram := ram, a := a, x := x, y := y, pc := pc, sp := sp, p := p, nmiFlag := nmi, irqFlag := irq,
               cycleCount := cycles } bytes

/-- The background latches (R583 fields 13 to 17). -/
def loadBackground (bytes : List Byte) : ReadResult Background :=
  (readBits 16 2 bytes).andThen fun fetchAddr bytes =>
  (readByte bytes).andThen fun ntByte bytes =>
  (readByte bytes).andThen fun atByte bytes =>
  (readByte bytes).andThen fun bgLo bytes =>
  (readByte bytes).andThen fun bgHi bytes =>
  (readBits 16 2 bytes).andThen fun bgShiftLo bytes =>
  (readBits 16 2 bytes).andThen fun bgShiftHi bytes =>
  (readByte bytes).andThen fun atShiftLo bytes =>
  (readByte bytes).andThen fun atShiftHi bytes =>
  (readBool bytes).andThen fun atLatchLo bytes =>
  (readBool bytes).andThen fun atLatchHi bytes =>
  .ok { fetchAddr := fetchAddr, ntByte := ntByte, atByte := atByte, bgLo := bgLo, bgHi := bgHi, bgShiftLo := bgShiftLo,
        bgShiftHi := bgShiftHi, atShiftLo := atShiftLo, atShiftHi := atShiftHi, atLatchLo := atLatchLo,
        atLatchHi := atLatchHi } bytes

/-- The counters, the phase and the odd-frame flag of a dot that exists (R45, R583 fields 5 to 8). -/
def loadCounters (p : Ppu) (bytes : List Byte) : ReadResult Ppu :=
  (readPhase bytes).andThen fun phase bytes =>
  ((readLe 2 bytes).check fun n => decide (n < Config.dots)).andThen fun dot bytes =>
  ((readLe 2 bytes).check fun n => decide (n < Config.scanlines) && decide (phase = phaseOf n)).andThen fun scanline bytes =>
  (readBool bytes).andThen fun frameOdd bytes =>
  .ok { p with phase := phase, dot := dot, scanline := scanline, frameOdd := frameOdd } bytes

/-- The registers (R583 fields 9 to 12); bits 4:0 of the status byte are 0 (R42). -/
def loadPpuRegisters (p : Ppu) (bytes : List Byte) : ReadResult Ppu :=
  (readByte bytes).andThen fun ctrl bytes =>
  (readByte bytes).andThen fun mask bytes =>
  ((readByte bytes).check fun b => decide (b &&& 0x1F = 0)).andThen fun status bytes =>
  (readByte bytes).andThen fun busLatch bytes =>
  (readByte bytes).andThen fun readBuffer bytes =>
  (readByte bytes).andThen fun oamAddr bytes =>
  (readBits 15 2 bytes).andThen fun v bytes =>
  (readBits 15 2 bytes).andThen fun t bytes =>
  (readBits 3 1 bytes).andThen fun fineX bytes =>
  (readBool bytes).andThen fun w bytes =>
  .ok { p with ctrl := ctrl, mask := mask, status := status, busLatch := busLatch, readBuffer := readBuffer,
               oamAddr := oamAddr, v := v, t := t, fineX := fineX, w := w } bytes

/-- The PPU part over the state (R583). -/
def loadPpu (s : State) (bytes : List Byte) : ReadResult State :=
  (readMemory Config.ntRamSize bytes).andThen fun ntRam bytes =>
  (readMemory Config.palRamSize bytes).andThen fun palRam bytes =>
  (readMemory Config.oamSize bytes).andThen fun oam bytes =>
  (readMirroring bytes).andThen fun mirroring bytes =>
  (loadCounters { s.ppu with ntRam := ntRam, palRam := palRam, oam := oam } bytes).andThen fun ppu bytes =>
  (loadPpuRegisters ppu bytes).andThen fun ppu bytes =>
  (loadBackground bytes).andThen fun bg bytes =>
  .ok { s with mirroring := mirroring, ppu := { ppu with bg := bg } } bytes

/-- The registers of MMC1 (R584). -/
def loadMmc1 (bytes : List Byte) : ReadResult Mapper :=
  ((readByte bytes).check fun b => decide (b.toNat ≤ 4)).andThen fun writeN bytes =>
  (readBits 5 1 bytes).andThen fun shift bytes =>
  (readBits 5 1 bytes).andThen fun control bytes =>
  (readBits 5 1 bytes).andThen fun chr0 bytes =>
  (readBits 5 1 bytes).andThen fun chr1 bytes =>
  (readBits 5 1 bytes).andThen fun prg bytes =>
  .ok (.mmc1 { shift := shift, writeN := writeN.toNat, control := control, chr0 := chr0, chr1 := chr1, prg := prg }) bytes

/-- The registers of MMC3 (R584). -/
def loadMmc3 (bytes : List Byte) : ReadResult Mapper :=
  (readByte bytes).andThen fun bankSelect bytes =>
  (readBytes 8 bytes).andThen fun regs bytes =>
  (readBool bytes).andThen fun mirrorBit bytes =>
  (readByte bytes).andThen fun irqPeriod bytes =>
  (readByte bytes).andThen fun irqCounter bytes =>
  (readBool bytes).andThen fun irqEnabled bytes =>
  .ok (.mmc3 { bankSelect := bankSelect, regs := regs, mirrorBit := mirrorBit, irqPeriod := irqPeriod,
               irqCounter := irqCounter, irqEnabled := irqEnabled }) bytes

/-- The registers of the mapper variant the machine holds (R584). -/
def loadMapperRegisters (m : Mapper) (bytes : List Byte) : ReadResult Mapper :=
  match m with
  | .nrom => .ok .nrom bytes
  | .mmc1 _ => loadMmc1 bytes
  | .unrom _ => (readByte bytes).andThen fun bank bytes => .ok (.unrom bank) bytes
  | .mmc3 _ => loadMmc3 bytes
  | .axrom _ => (readByte bytes).andThen fun bank bytes => .ok (.axrom bank) bytes

/-- The variant's `Apply()` after its registers are read; it leaves the mirroring that the PPU part restored, or no machine
with this cartridge saved these bytes (R584, log entry 8). -/
def applyLoaded (m : Mapper) (s : State) (bytes : List Byte) : ReadResult State :=
  if m.mirroring s.mirroring = s.mirroring then .ok (s.applyMapper m) bytes else .foreign

/-- The mapper part over the state, with the variant's `Apply()` (R584). -/
def loadCart (s : State) (bytes : List Byte) : ReadResult State :=
  (loadMapperRegisters s.mapper bytes).andThen fun m bytes =>
  (readVector s.cart.prgRamSize bytes).andThen fun prgRam bytes =>
  if s.cart.chrIsRam then
    (readVector s.cart.chrSize bytes).andThen fun chr bytes =>
    applyLoaded m { s with cart := { s.cart with prgRam := prgRam, chr := chr } } bytes
  else applyLoaded m { s with cart := { s.cart with prgRam := prgRam } } bytes

/-- The controller part over the state; the buttons keep their value (R585). -/
def loadController (s : State) (bytes : List Byte) : ReadResult State :=
  (readByte bytes).andThen fun shift0 bytes =>
  (readByte bytes).andThen fun shift1 bytes =>
  (readBool bytes).andThen fun strobe bytes =>
  .ok { s with ctl := { s.ctl with shift0 := shift0, shift1 := shift1, strobe := strobe } } bytes

/-- The four parts over the state, in the order they are saved; trailing bytes are ignored (R586, U1). -/
def loadParts (s : State) (bytes : List Byte) : ReadResult State :=
  (loadCpu s bytes).andThen fun s bytes =>
  (loadPpu s bytes).andThen fun s bytes =>
  (loadCart s bytes).andThen fun s bytes =>
  loadController s bytes

/-- The sprite buffers rebuilt after a load (R590). -/
def rebuildSprites (s : State) : State := { s with ppu := (s.ppu.clearSecOam.evalSprites).loadSprites s.ppuBus }

/-! ## Lengths (R582 to R586) -/

/-- What a snapshot's bytes fit: "the same cartridge (same `mapper_number`, sizes and `chr_is_ram`)" (R586). -/
structure CartKind where
  mapperNumber : Nat
  prgSize      : Nat
  chrSize      : Nat
  chrIsRam     : Bool
  prgRamSize   : Nat
deriving DecidableEq, Repr

/-- The kind of the cartridge in the machine. -/
def State.cartKind (s : State) : CartKind :=
  { mapperNumber := s.mapper.number, prgSize := s.cart.prgSize, chrSize := s.cart.chrSize, chrIsRam := s.cart.chrIsRam,
    prgRamSize := s.cart.prgRamSize }

/-- The bytes of the CPU part and the PPU part (R582, R583). -/
def fixedPartsSize : Nat := 2065 + 2369

/-- The bytes of a variant's registers (R584). -/
def mapperRegistersSize : Mapper → Nat
  | .nrom => 0
  | .mmc1 _ => 6
  | .unrom _ => 1
  | .mmc3 _ => 13
  | .axrom _ => 1

/-- Where the length prefix of `cart.prg_ram` stands. -/
def prgRamPrefixAt (s : State) : Nat := fixedPartsSize + mapperRegistersSize s.mapper

/-- Where the length prefix of `cart.chr` stands, on CHR-RAM; else the end of the mapper part. -/
def chrPrefixAt (s : State) : Nat := prgRamPrefixAt s + 8 + s.cart.prgRamSize

/-- The bytes of a snapshot of a machine with this cartridge (R580 to R585). -/
def snapshotSize (s : State) : Nat := chrPrefixAt s + (if s.cart.chrIsRam then 8 + s.cart.chrSize else 0) + 3

/-- A `u64` at an index of the bytes. -/
def u64At (bytes : List Byte) (i : Nat) : Nat := ((bytes.drop i).take 8).foldr (fun b n => b.toNat + 256 * n) 0

/-- "The byte sequence ends early, or a length prefix differs" (R586); nothing else of the bytes decides it (R605, U3). -/
def isShortSnapshot (s : State) (bytes : List Byte) : Bool :=
  decide (bytes.length < snapshotSize s) || decide (u64At bytes (prgRamPrefixAt s) ≠ s.cart.prgRamSize) ||
    (s.cart.chrIsRam && decide (u64At bytes (chrPrefixAt s) ≠ s.cart.chrSize))

/-! ## `load_snapshot` -/

/-- A snapshot as the host keeps it: its bytes, and the cartridge it was saved with, which the bytes do not name but which
the precondition of `load_snapshot` is about (R586, U3; DESIGN CHOICE, log entry 8). -/
structure SnapshotFile where
  bytes   : List Byte
  savedOn : CartKind
deriving DecidableEq, Repr

/-- `load_snapshot` of a file that is there, on a running machine: the lengths first, then the cartridge, then the values
(R586, R590, R605, R671). A short file halts the machine with none of the fields before its end assigned (DESIGN CHOICE, log
entry 19). -/
def loadFile (file : SnapshotFile) (s : State) : Host.Outcome State Fault Refusal :=
  if isShortSnapshot s file.bytes then .next (s.failLoad (.shortFile .snapshot))
  else if file.savedOn ≠ s.cartKind then .refused .foreignSnapshot
  else
    match loadParts s file.bytes with
    | .ok s' _ => .next (rebuildSprites s')
    | .short => .next (s.failLoad (.shortFile .snapshot))
    | .foreign => .refused .foreignSnapshot

/-- `load_snapshot(bytes or absent)`: absent is a logged no-op; refused unless the machine is running (R586, R606, R652,
R662). -/
def loadSnapshot (file : Option SnapshotFile) (s : State) : Host.Outcome State Fault Refusal :=
  match s.run, file with
  | .running, none => .next s
  | .running, some f => loadFile f s
  | .halted _, _ => .refused .machineHalted
  | .noCartridge, _ => .refused .notPoweredOn
  | .loaded, _ => .refused .notPoweredOn

end Sys2Proof.Machine
end

