-- ==== Sys2Proof/Machine/Peek.lean ====
section
/-! DEFINITION. The peek variants of the addressing modes, for debugging and disassembly (R160, R634): no tick, no state
change; no instruction uses them. -/

namespace Sys2Proof.Machine

/-- The 13 addressing modes (R133); an exception variant computes the address of its mode. -/
inductive AddressingMode
  | imp | acc | imm | zp | zpx | zpy | abs | abx | aby | izx | izy | ind | rel
deriving DecidableEq, Repr

/-- The two bytes of a page-zero pointer, peeked (R155, R156). -/
def peekZeroPagePointer (z : Byte) (s : State) : Addr := addrOf (peek (zeroPage z) s) (peek (zeroPage (z + 1)) s)

/-- `PeekAddr_<mode>(pc)` for the instruction at `pc`; the implied and accumulator modes have no address (R144, R145,
R160). -/
def peekAddr (m : AddressingMode) (pc : Addr) (s : State) : Option Addr :=
  let n := peek (pc + 1) s
  let word := peek16 (pc + 1) s
  match m with
  | .imp | .acc => none
  | .imm => some (pc + 1)
  | .zp => some (zeroPage n)
  | .zpx => some (zeroPage (n + s.x))
  | .zpy => some (zeroPage (n + s.y))
  | .abs => some word
  | .abx => some (indexed word s.x)
  | .aby => some (indexed word s.y)
  | .izx => some (peekZeroPagePointer (n + s.x) s)
  | .izy => some (indexed (peekZeroPagePointer n s) s.y)
  | .ind => some (addrOf (peek word s) (peek (addrOf (lowByte word + 1) (highByte word)) s))
  | .rel => some (relativeTarget (pc + 2) n)

end Sys2Proof.Machine
end

