-- ==== Sys2Proof/Machine/Timing.lean ====
section
/-! DEFINITION. The documented tick counts (R675, R676): column `ticks` of the encoding tables, the page-cross and branch
additions and the ticks of OAM DMA. No step reads them; the statements hold the step against them. -/

namespace Sys2Proof.Machine

/-- The read class (R676). -/
def readTicks : ReadOperand → Nat
  | .imm _ => 2
  | .zp _ => 3
  | .zpx _ => 4
  | .zpy _ => 4
  | .abs _ => 4
  | .abx _ => 4
  | .aby _ => 4
  | .izx _ => 6
  | .izy _ => 5

/-- The store class (R676). -/
def writeTicks : WriteOperand → Nat
  | .zp _ => 3
  | .zpx _ => 4
  | .zpy _ => 4
  | .abs _ => 4
  | .abxe _ => 5
  | .abye _ => 5
  | .izx _ => 6
  | .izye _ => 6

/-- The read-modify-write class on memory (R676). -/
def rmwTicks : RmwOperand → Nat
  | .zp _ => 5
  | .zpx _ => 6
  | .abs _ => 6
  | .abxe _ => 7
  | .abye _ => 7
  | .izx _ => 8
  | .izye _ => 8

/-- A shift: 2 on the accumulator, else the read-modify-write class (R676). -/
def shiftTicks : ShiftOperand → Nat
  | .acc => 2
  | .mem m => rmwTicks m

/-- Column `ticks` of an instruction's row, without additions (R676). -/
def baseTicks : Instr → Nat
  | .lda m | .ldx m | .ldy m | .adc m | .sbc m | .and m | .ora m | .eor m | .cmp m | .cpx m | .cpy m | .bit m
  | .lax m | .nopZeroPage _ m | .nopAbsolute _ m => readTicks m
  | .sta m | .stx m | .sty m | .sax m => writeTicks m
  | .inc m | .dec m | .dcp m | .isb m | .slo m | .rla m | .sre m | .rra m => rmwTicks m
  | .asl m | .lsr m | .rol m | .ror m => shiftTicks m
  | .tax | .tay | .txa | .tya | .tsx | .txs | .inx | .iny | .dex | .dey
  | .clc | .sec | .cli | .sei | .cld | .sed | .clv | .nop | .nopImplied _ => 2
  | .aac _ _ | .asr _ | .arr _ | .atx _ | .axs _ | .sbcDuplicate _ | .nopImmediate _ _ => 2
  | .bcc _ | .bcs _ | .beq _ | .bne _ | .bmi _ | .bpl _ | .bvc _ | .bvs _ => 2
  | .jmp (.abs _) => 3
  | .jmp (.ind _) => 5
  | .jsr _ | .rts | .rti => 6
  | .brk => 7
  | .pha | .php => 3
  | .pla | .plp => 4
  | .sya _ | .sxa _ => 5
  | .undecodable _ => 1

/-- The operand's indexed address crosses a page, in a mode that pays only then (R151, R153, R156). -/
def readCrosses (m : ReadOperand) (s : State) : Bool :=
  match m with
  | .abx base => pageCross base (indexed base s.x)
  | .aby base => pageCross base (indexed base s.y)
  | .izy z =>
    let base := peekZeroPagePointer z s
    pageCross base (indexed base s.y)
  | .imm _ | .zp _ | .zpx _ | .zpy _ | .abs _ | .izx _ => false

/-- The branch condition of an instruction, none where it is no branch (R271 to R278). -/
def branchTaken (i : Instr) (s : State) : Option (Byte × Bool) :=
  match i with
  | .bcc off => some (off, !s.flag .carry)
  | .bcs off => some (off, s.flag .carry)
  | .beq off => some (off, s.flag .zero)
  | .bne off => some (off, !s.flag .zero)
  | .bmi off => some (off, s.flag .negative)
  | .bpl off => some (off, !s.flag .negative)
  | .bvc off => some (off, !s.flag .overflow)
  | .bvs off => some (off, s.flag .overflow)
  | _ => none

/-- The ticks beyond `baseTicks`: one for a read that crosses a page, one for a taken branch and one more if its target is
in another page (R270, R676). The operand bytes are fetched, `PC` is at the next instruction. -/
def extraTicks (i : Instr) (s : State) : Nat :=
  match i with
  | .lda m | .ldx m | .ldy m | .adc m | .sbc m | .and m | .ora m | .eor m | .cmp m | .cpx m | .cpy m | .bit m
  | .lax m | .nopZeroPage _ m | .nopAbsolute _ m => if readCrosses m s then 1 else 0
  | i =>
    match branchTaken i s with
    | some (off, true) => if pageCross s.pc (relativeTarget s.pc off) then 2 else 1
    | _ => 0

/-- The address an instruction's final data write goes to, none where it writes nothing or only to the stack. -/
def storeTarget (i : Instr) (s : State) : Option Addr :=
  match i with
  | .sta m | .stx m | .sty m | .sax m => some (writeAddr m s).1
  | .inc m | .dec m | .dcp m | .isb m | .slo m | .rla m | .sre m | .rra m => some (rmwAddr m s).1
  | .asl (.mem m) | .lsr (.mem m) | .rol (.mem m) | .ror (.mem m) => some (rmwAddr m s).1
  | .sya base => some (indexed base s.x)
  | .sxa base => some (indexed base s.y)
  | _ => none

/-- The ticks of the OAM DMA that a write to $4014 starts (R93). -/
def dmaTicks (i : Instr) (s : State) : Nat := if storeTarget i s = some 0x4014 then 512 else 0

/-- The ticks spent on an instruction's bytes before its meaning runs: one a byte, but for `JSR`, whose third byte is read
by the meaning itself (R280). -/
def fetchTicks : Instr → Nat
  | .jsr _ => 2
  | .lda m | .ldx m | .ldy m | .adc m | .sbc m | .and m | .ora m | .eor m | .cmp m | .cpx m | .cpy m | .bit m
  | .lax m | .nopZeroPage _ m | .nopAbsolute _ m =>
    match m with
    | .imm _ | .zp _ | .zpx _ | .zpy _ | .izx _ | .izy _ => 2
    | .abs _ | .abx _ | .aby _ => 3
  | .sta m | .stx m | .sty m | .sax m =>
    match m with
    | .zp _ | .zpx _ | .zpy _ | .izx _ | .izye _ => 2
    | .abs _ | .abxe _ | .abye _ => 3
  | .inc m | .dec m | .dcp m | .isb m | .slo m | .rla m | .sre m | .rra m
  | .asl (.mem m) | .lsr (.mem m) | .rol (.mem m) | .ror (.mem m) =>
    match m with
    | .zp _ | .zpx _ | .izx _ | .izye _ => 2
    | .abs _ | .abxe _ | .abye _ => 3
  | .asl .acc | .lsr .acc | .rol .acc | .ror .acc => 1
  | .tax | .tay | .txa | .tya | .tsx | .txs | .inx | .iny | .dex | .dey
  | .clc | .sec | .cli | .sei | .cld | .sed | .clv | .nop | .nopImplied _
  | .pha | .php | .pla | .plp | .rts | .rti | .brk | .undecodable _ => 1
  | .aac _ _ | .asr _ | .arr _ | .atx _ | .axs _ | .sbcDuplicate _ | .nopImmediate _ _ => 2
  | .bcc _ | .bcs _ | .beq _ | .bne _ | .bmi _ | .bpl _ | .bvc _ | .bvs _ => 2
  | .jmp _ | .sya _ | .sxa _ => 3

end Sys2Proof.Machine
end

