-- ==== Sys2Proof/Safety.lean ====
section
/-! DEFINITION. What a safe run is, and the invariant of a machine that holds a cartridge, in the terms the statements use. -/

namespace Sys2Proof.Machine

/-! ## The invariant -/

/-- A memory in canonical form inside an array of `n` bytes. -/
abbrev Memory.Inside (n : Nat) (m : Memory) : Prop := m.wf = true ∧ m.below n = true

/-- A frame buffer in canonical form on the screen (R48). -/
abbrev Frame.Inside (f : Frame) : Prop := f.wf = true ∧ onScreen f = true

/-- The RGB array in canonical form on the screen (R48). -/
abbrev RgbFrame.Inside (f : RgbFrame) : Prop := f.wf = true ∧ onScreen f = true

/-- Eight slots, each with an `id` in 0..64 (R47). -/
abbrev SlotsOk (slots : List SpriteInfo) : Prop := slots.length = 8 ∧ ∀ i ∈ slots, i.id ≤ 64

/-- The PPU part: counters in range and phase as the scanline says (R45, R451), status bits 4:0 zero (R42), memories and
buffers inside their arrays (R41, R47, R48). -/
abbrev Ppu.Inv (p : Ppu) : Prop :=
  (p.scanline < Config.scanlines ∧ p.dot < Config.dots ∧ p.phase = phaseOf p.scanline) ∧
  p.status &&& 0x1F = 0 ∧
  (p.ntRam.Inside Config.ntRamSize ∧ p.palRam.Inside Config.palRamSize ∧ p.oam.Inside Config.oamSize) ∧
  (SlotsOk p.secOam ∧ SlotsOk p.spr) ∧
  (p.work.Inside ∧ p.front.Inside ∧ p.rgb.Inside)

/-- A cartridge that is present: whole slots of PRG, CHR and PRG-RAM, each array inside its size (R500 to R503, R510). -/
abbrev Cart.Inv (c : Cart) : Prop :=
  (0 < c.prgSize ∧ c.prgSize % 0x4000 = 0) ∧ (0 < c.chrSize ∧ c.chrSize % 0x2000 = 0) ∧
  (0 < c.prgRamSize ∧ c.prgRamSize % 0x2000 = 0) ∧
  (c.prg.Inside c.prgSize ∧ c.chr.Inside c.chrSize ∧ c.prgRam.Inside c.prgRamSize)

/-- The mapper registers that are not plain bit vectors: MMC1's write counter is 0..4, MMC3 has eight bank registers
(R52). -/
def Mapper.registersOk : Mapper → Bool
  | .nrom => true
  | .mmc1 r => decide (r.writeN ≤ 4)
  | .unrom _ => true
  | .mmc3 r => decide (r.regs.length = 8)
  | .axrom _ => true

/-- The tables and the mirroring wire are what the mapper's `Apply()` makes of its registers (R51, R511). -/
abbrev State.BanksCurrent (s : State) : Prop :=
  s.banks = s.mapper.banks s.cart.prgSize s.cart.chrSize ∧ s.mirroring = s.mapper.mirroring s.mirroring

/-- The invariant of a machine with a cartridge. -/
abbrev State.Inv (s : State) : Prop :=
  s.ram.Inside Config.ramSize ∧ s.ppu.Inv ∧ s.cart.Inv ∧ s.mapper.registersOk = true ∧ s.BanksCurrent ∧
  s.palette.Inside Config.paletteSize

/-! ## Safe runs -/

/-- No fatal condition has halted the machine (R15). -/
def State.isRunning (s : State) : Bool := decide (s.run = .running)

/-- `n` steps meet no fault, no refusal and no fatal condition. -/
def safeFor : Nat → State → Bool
  | 0, s => s.isRunning
  | n + 1, s =>
    s.isRunning && match step s with
      | .next t => safeFor n t
      | .fault _ => false
      | .refused _ => false

/-! ## Where a store can land -/

/-- The CPU addresses that name a byte of RAM or of the cartridge (R81). -/
def isMemory (a : Addr) : Bool := decide (a.toNat ≤ 0x1FFF) || decide (0x6000 ≤ a.toNat)

/-- A write to this address halts the machine: the unmapped range, or $6000-$7FFF without PRG-RAM (R601, R602). -/
def writeHalts (s : State) (a : Addr) : Bool :=
  (decide (0x4018 ≤ a.toNat) && decide (a.toNat ≤ 0x5FFF)) ||
    (decide (0x6000 ≤ a.toNat) && decide (a.toNat ≤ 0x7FFF) && s.mapper.hasNoPrgRam)

/-- Two addresses name the same byte of RAM (R84) or of PRG-RAM (R513). -/
def sameByte (s : State) (a b : Addr) : Bool :=
  (decide (a.toNat ≤ 0x1FFF) && decide (b.toNat ≤ 0x1FFF) && decide (a.toNat % 0x800 = b.toNat % 0x800)) ||
    (decide (0x6000 ≤ a.toNat) && decide (a.toNat ≤ 0x7FFF) && decide (0x6000 ≤ b.toNat) && decide (b.toNat ≤ 0x7FFF) &&
      decide ((a.toNat - 0x6000) % s.cart.prgRamSize = (b.toNat - 0x6000) % s.cart.prgRamSize))

/-! ## What an instruction keeps -/

/-- The registers an instruction can name, `PC` and `P` apart (R31, R32). -/
inductive Register
  | a
  | x
  | y
  | sp
deriving DecidableEq, Repr

/-- The value of a register. -/
def State.register (s : State) : Register → Byte
  | .a => s.a
  | .x => s.x
  | .y => s.y
  | .sp => s.sp

/-- Every register but those listed holds what it held. -/
abbrev RegistersKept (written : List Register) (s t : State) : Prop := ∀ r, r ∉ written → t.register r = s.register r

/-- Every bit of `P` but those listed holds what it held. -/
abbrev FlagsKept (written : List Flag) (s t : State) : Prop := ∀ f, f ∉ written → t.flag f = s.flag f

/-- `s` with the CPU registers of `r`. -/
def State.withCpu (r s : State) : State := { s with a := r.a, x := r.x, y := r.y, sp := r.sp, p := r.p, pc := r.pc }

/-- A mapper's registers without the counter that time moves (R548). -/
def Mapper.withoutCounter : Mapper → Mapper
  | .nrom => .nrom
  | .mmc1 r => .mmc1 r
  | .unrom bank => .unrom bank
  | .mmc3 r => .mmc3 { r with irqCounter := 0 }
  | .axrom bank => .axrom bank

/-- The PPU's three memories hold what they held (R41). -/
abbrev PpuMemoriesKept (s t : State) : Prop :=
  t.ppu.ntRam = s.ppu.ntRam ∧ t.ppu.palRam = s.ppu.palRam ∧ t.ppu.oam = s.ppu.oam

/-- Every byte of every memory holds what it held: what each CPU address of RAM and of the cartridge reads as, the arrays
behind them, and the PPU's memories. -/
abbrev StorageKept (s t : State) : Prop :=
  (∀ a, isMemory a = true → peek a t = peek a s) ∧ t.ram = s.ram ∧ t.cart = s.cart ∧ PpuMemoriesKept s t

/-- The PPU registers that only a write of theirs changes (R42, R43). -/
abbrev PpuControlsKept (s t : State) : Prop :=
  t.ppu.ctrl = s.ppu.ctrl ∧ t.ppu.mask = s.ppu.mask ∧ t.ppu.t = s.ppu.t ∧ t.ppu.fineX = s.ppu.fineX ∧
  t.ppu.oamAddr = s.ppu.oamAddr

/-- The mapper's registers and what its `Apply()` makes of them (R49, R51, R52). -/
abbrev MapperKept (s t : State) : Prop :=
  t.banks = s.banks ∧ t.mirroring = s.mirroring ∧ t.mapper.withoutCounter = s.mapper.withoutCounter

/-- What the host gave: the buttons and the palette (R53, R489). -/
abbrev HostInputKept (s t : State) : Prop :=
  t.ctl.buttons0 = s.ctl.buttons0 ∧ t.ctl.buttons1 = s.ctl.buttons1 ∧ t.palette = s.palette

/-- No interrupt request is lost (R38). -/
abbrev RequestsKept (s t : State) : Prop := (s.nmiFlag = true → t.nmiFlag = true) ∧ (s.irqFlag = true → t.irqFlag = true)

/-- Every register outside the CPU that only a store, an interrupt sequence or the host changes. -/
abbrev ControlsKept (s t : State) : Prop :=
  PpuControlsKept s t ∧ MapperKept s t ∧ HostInputKept s t ∧ RequestsKept s t ∧ t.ctl.strobe = s.ctl.strobe ∧ t.run = s.run

/-- Nothing outside the CPU registers happened but `n` ticks. -/
abbrev Idled (n : Nat) (s t : State) : Prop := t = t.withCpu (ticks n s) ∧ StorageKept s t ∧ ControlsKept s t

/-- Nothing outside the CPU registers happened but the one read of the operand `m`, with its ticks and its side effect. -/
abbrev ReadOnly (m : ReadOperand) (s t : State) : Prop :=
  t = t.withCpu (readOp m s).2 ∧ t.pc = s.pc ∧ StorageKept s t ∧ ControlsKept s t

/-! ## What an instruction stores -/

/-- Each of the bytes is in RAM or PRG-RAM at its address, every other byte there reads as before, and nothing else outside
the CPU registers was written. -/
abbrev Stored (bytes : List (Addr × Byte)) (s t : State) : Prop :=
  (∀ e ∈ bytes, peek e.1 t = e.2) ∧
  (∀ b, isMemory b = true → (∀ e ∈ bytes, sameByte s e.1 b = false) → peek b t = peek b s) ∧
  t.cart = { s.cart with prgRam := t.cart.prgRam } ∧
  (∀ j, (∀ e ∈ bytes, j ≠ (e.1.toNat - 0x6000) % s.cart.prgRamSize) → t.cart.prgRam.read j = s.cart.prgRam.read j) ∧
  ((∀ e ∈ bytes, e.1.toNat ≤ 0x1FFF) → t.cart = s.cart) ∧
  ((∀ e ∈ bytes, 0x6000 ≤ e.1.toNat) → t.ram = s.ram) ∧
  PpuMemoriesKept s t ∧ ControlsKept s t

/-- The address is one of RAM, or of PRG-RAM that this mapper can write (R84, R514). -/
def isWritable (s : State) (a : Addr) : Bool :=
  decide (a.toNat ≤ 0x1FFF) || (decide (0x6000 ≤ a.toNat) && decide (a.toNat ≤ 0x7FFF) && !s.mapper.hasNoPrgRam)

/-- The fatal reason of a write that halts (R601, R602). -/
def haltReason (s : State) (a : Addr) (v : Byte) : FatalReason :=
  if a.toNat ≤ 0x5FFF then .unmappedWrite a v else .romRegionWrite s.mapper.number a v

/-- What a write to a PPU register can change outside the PPU's rendering state: each memory and each register only by
the write of the register it belongs to (R401). -/
abbrev PpuRegisterWritten (n : PpuReg) (s t : State) : Prop :=
  (n ≠ .data → t.ppu.ntRam = s.ppu.ntRam ∧ t.ppu.palRam = s.ppu.palRam ∧ t.cart = s.cart) ∧
  (n ≠ .oamData → t.ppu.oam = s.ppu.oam) ∧
  (n ≠ .ctrl → t.ppu.ctrl = s.ppu.ctrl) ∧ (n ≠ .mask → t.ppu.mask = s.ppu.mask) ∧
  (n ≠ .ctrl ∧ n ≠ .scroll ∧ n ≠ .addr → t.ppu.t = s.ppu.t) ∧ (n ≠ .scroll → t.ppu.fineX = s.ppu.fineX) ∧
  (n ≠ .oamAddr ∧ n ≠ .oamData → t.ppu.oamAddr = s.ppu.oamAddr) ∧
  t.cart = { s.cart with chr := t.cart.chr } ∧ t.ctl.strobe = s.ctl.strobe

/-- What an instruction from `s` leaves whose one write is that of `v` to the CPU address `a`, made in the machine `u` that
time and the instruction's reads lead to (R12, R83); and what that is by the row of the address map (R81). -/
abbrev Wrote (u : State) (a : Addr) (v : Byte) (s t : State) : Prop :=
  -- the write, and nothing else but CPU registers
  t = t.withCpu (busWrite a v u) ∧
  -- RAM and PRG-RAM
  (isWritable s a = true → Stored [(a, v)] s t) ∧
  -- PPU registers
  (0x2000 ≤ a.toNat ∧ a.toNat ≤ 0x3FFF →
    PpuRegisterWritten (.ofAddr a) s t ∧ MapperKept s t ∧ RequestsKept s t ∧ t.run = s.run ∧ t.ram = s.ram) ∧
  -- APU and the frame counter: nothing
  ((0x4000 ≤ a.toNat ∧ a.toNat ≤ 0x4013) ∨ a = 0x4015 ∨ a = 0x4017 → StorageKept s t ∧ ControlsKept s t) ∧
  -- OAM DMA
  (a = 0x4014 → (∀ b, isMemory b = true → peek b t = peek b s) ∧ t.ram = s.ram ∧ t.cart = s.cart ∧
    t.ppu.ntRam = s.ppu.ntRam ∧ t.ppu.palRam = s.ppu.palRam ∧ ControlsKept s t) ∧
  -- the controller's strobe
  (a = 0x4016 → t.ctl.strobe = v.getLsbD 0 ∧ StorageKept s t ∧ PpuControlsKept s t ∧ MapperKept s t ∧ RequestsKept s t ∧
    t.run = s.run) ∧
  -- the fatal writes: nothing but the halt
  (writeHalts s a = true → t.run = .halted (haltReason s a v) ∧ StorageKept s t ∧ PpuControlsKept s t ∧ MapperKept s t ∧
    RequestsKept s t ∧ t.ctl.strobe = s.ctl.strobe) ∧
  -- the mapper's registers: never a byte of the cartridge
  (0x8000 ≤ a.toNat → t.ram = s.ram ∧ t.cart = s.cart ∧ PpuMemoriesKept s t ∧ PpuControlsKept s t ∧
    t.banks = (mapperRegisterWrite a v s).banks ∧ t.mirroring = (mapperRegisterWrite a v s).mirroring ∧
    t.mapper.withoutCounter = (mapperRegisterWrite a v s).mapper.withoutCounter ∧
    t.ctl.strobe = s.ctl.strobe ∧ t.run = s.run) ∧
  HostInputKept s t

/-- The machine in which `WriteOp(m, v)` writes: the mode's ticks, then the access's (R161). -/
abbrev writeReady (m : WriteOperand) (s : State) : State := tick (writeAddr m s).2

/-- The machine in which `RmwOp(m, f)` writes: the mode's ticks, the read, the bare tick, then the access's (R161). -/
abbrev rmwReady (m : RmwOperand) (s : State) : State := ticks 2 (memRead (rmwAddr m s).1 (rmwAddr m s).2).2

/-! ## Flags of a result -/

/-- `Z` and `N` are those of `v` (R10). -/
abbrev HasNZ (v : Byte) (t : State) : Prop := t.flag .zero = decide (v = 0) ∧ t.flag .negative = v.getLsbD 7

/-- `A`, `C`, `V`, `Z`, `N` are those of the sum `a + v + c`: `C` says that it exceeds 255, `V` that the signed sum lies
outside -128..127 (R230, R247). -/
abbrev Added (a v : Byte) (c : Bool) (t : State) : Prop :=
  t.a.toNat = (a.toNat + v.toNat + c.toNat) % 256 ∧
  t.flag .carry = decide (256 ≤ a.toNat + v.toNat + c.toNat) ∧
  t.flag .overflow = decide (a.toInt + v.toInt + (c.toNat : Int) < -128 ∨ 127 < a.toInt + v.toInt + (c.toNat : Int)) ∧
  HasNZ t.a t

/-- `A`, `C`, `V`, `Z`, `N` are those of the difference `a - v - (1 - c)`: `C` says that there was no borrow, `V` that the
signed difference lies outside -128..127 (R232). -/
abbrev Subtracted (a v : Byte) (c : Bool) (t : State) : Prop :=
  (t.a.toNat : Int) = ((a.toNat : Int) - v.toNat - (1 - (c.toNat : Int))) % 256 ∧
  t.flag .carry = decide (v.toNat + 1 ≤ a.toNat + c.toNat) ∧
  t.flag .overflow =
    decide (a.toInt - v.toInt - (1 - (c.toNat : Int)) < -128 ∨ 127 < a.toInt - v.toInt - (1 - (c.toNat : Int))) ∧
  HasNZ t.a t

/-- `C`, `Z`, `N` are those of the comparison of `r` with `v`: at least, equal, bit 7 of the difference (R236). -/
abbrev Compared (r v : Byte) (t : State) : Prop :=
  t.flag .carry = decide (v.toNat ≤ r.toNat) ∧ t.flag .zero = decide (r = v) ∧ t.flag .negative = (r - v).getLsbD 7

/-! ## Shapes of statements -/

/-- R261 to R264: a shift whose result is `f v c` and whose carry out is `out v`, on `A` and on memory. -/
abbrev ShiftsAs (build : ShiftOperand → Instr) (f : Nat → Nat → Nat) (out : Nat → Prop)
    [DecidablePred out] : Prop :=
  (∀ s : State, ∃ t, exec (build .acc) s = .next t ∧ t.a.toNat = f s.a.toNat (s.flag .carry).toNat ∧ HasNZ t.a t ∧
    t.flag .carry = decide (out s.a.toNat) ∧ RegistersKept [.a] s t ∧ FlagsKept [.carry, .zero, .negative] s t ∧
    t.pc = s.pc ∧ Idled 1 s t) ∧
  (∀ (m : RmwOperand) (s : State), s.Inv →
    let a := (rmwAddr m s).1
    let v := (memRead a (rmwAddr m s).2).1
    ∃ (t : State) (r : Byte), exec (build (.mem m)) s = .next t ∧ r.toNat = f v.toNat (s.flag .carry).toNat ∧
      Wrote (rmwReady m s) a r s t ∧ HasNZ r t ∧ t.flag .carry = decide (out v.toNat) ∧ RegistersKept [] s t ∧
      FlagsKept [.carry, .zero, .negative] s t ∧ t.pc = s.pc)

/-- A branch on `cond`: not taken nothing; taken one tick, two if the target lies in another page than the next instruction,
and `PC` moved by the signed offset (R270). -/
abbrev BranchesOn (build : Byte → Instr) (cond : State → Bool) : Prop :=
  ∀ (off : Byte) (s : State), ∃ t, exec (build off) s = .next t ∧
    (cond s = false → t = s) ∧
    (cond s = true →
      (t.pc.toNat : Int) = ((s.pc.toNat : Int) + off.toInt) % 65536 ∧ RegistersKept [] s t ∧ FlagsKept [] s t ∧
      Idled (if s.pc.toNat / 256 = t.pc.toNat / 256 then 1 else 2) s t)

end Sys2Proof.Machine
end

