-- ==== Sys2Proof/Certificates/Slice0/Obligations.lean ====
section
/-! DEFINITION. The statements for the provers, one `Prop` each. `Sys2Proof.Machine.exec i s` runs an instruction whose bytes
are fetched and paid for; the statements reach a run through `StepRunsDecoded`. -/

open Sys2Proof Sys2Proof.Machine

/-! ## Encoding -/

/-- R130, R131, R142, R162: what the encoder writes for a well-formed instruction decodes to it, whatever bytes follow. Rests
on the spec's decision D5 and what the spec marks as general knowledge in R130, R142. Rests on the spec's decision D5 and
what the spec marks as general knowledge in R130, R142. -/
def Obligations.DecodeEncode : Prop :=
  ∀ (i : Instr) (rest : List Byte), i.wf = true →
    ∃ bytes, encode i = some bytes ∧ decode (bytes ++ rest) = .ok i rest

/-- R142, R163: what decodes is a well-formed instruction, and the bytes read are its encoding: each opcode byte has one
reading. Rests on the spec's decision D5 and what the spec marks as general knowledge in R142. -/
def Obligations.EncodeDecode : Prop :=
  ∀ (bytes rest : List Byte) (i : Instr), decode bytes = .ok i rest →
    i.wf = true ∧ ∃ word, encode i = some word ∧ bytes = word ++ rest

/-- R131, R163: every opcode byte is classified, so only missing bytes reject. -/
def Obligations.OnlyShortBytesReject : Prop :=
  ∀ bytes : List Byte, (∃ e, decode bytes = .rejected e) ↔ ∀ op rest, bytes = op :: rest → bytes.length < instrLength op

/-- Words written out from the encoding tables decode to the instructions they stand for (R165, R200, R279, R283, R270, R241,
R325, R340). Rests on the spec's decisions D4, D15, D40 and what the spec marks as general knowledge in R165, R283, R340. -/
def Obligations.SampleWordsDecode : Prop :=
  decode [0xB1, 0x20, 0x55] = .ok (.lda (.izy 0x20)) [0x55] ∧
  decode [0x9D, 0x00, 0x03] = .ok (.sta (.abxe 0x0300)) [] ∧
  decode [0x6C, 0xFF, 0x02] = .ok (.jmp (.ind 0x02FF)) [] ∧
  decode [0x00] = .ok .brk [] ∧
  decode [0xD0, 0x05] = .ok (.bne 0x05) [] ∧
  decode [0xE6, 0x10] = .ok (.inc (.zp 0x10)) [] ∧
  decode [0x3B, 0x34, 0x12] = .ok (.rla (.abye 0x1234)) [] ∧
  decode [0x02] = .ok (.undecodable 0x02) []

/-! ## The machine as a whole -/

/-- R45, R42, R47, R48, R51, R510: every step keeps the invariant: the counters in range and the phase the scanline's, status
bits 4:0 zero, every memory canonical and inside its array, the bank tables and the mirroring what the mapper's registers
give. -/
def Obligations.StepKeepsInvariant : Prop := ∀ s t : State, s.Inv → step s = .next t → t.Inv

/-- The invariant holds right after reset. Rests on the spec's decisions D8, D21, D39. -/
def Obligations.ResetInvariant : Prop := State.reset.Inv

/-- R55: what reset leaves of the values the source states: SP, P, cleared RAM, and PC the word at the reset vector; the
machine runs. (The cartridge is the model's own, log entry 2.) Rests on the spec's decisions D6, D8, D21 and what the spec
marks as general knowledge in R35. -/
def Obligations.ResetValues : Prop :=
  State.reset.sp = 0xFD ∧ State.reset.p = 0x34 ∧ (∀ i, State.reset.ram.read i = 0) ∧
  State.reset.pc = addrOf (peek 0xFFFC State.reset) (peek 0xFFFD State.reset) ∧ State.reset.run = .running ∧
  (State.reset.flag .interruptDisable = true ∧ State.reset.flag .brk = true ∧ State.reset.flag .reserved = true) ∧
  (State.reset.flag .carry = false ∧ State.reset.flag .zero = false ∧ State.reset.flag .decimal = false ∧
    State.reset.flag .overflow = false ∧ State.reset.flag .negative = false)

/-- R162, R620: a step with no interrupt to take runs the instruction that the bytes at `PC` decode to, after one tick and
one step of `PC` for each of its bytes (two for `JSR`, which reads its third byte itself, R280). Rests on the spec's
decisions D10, D16. -/
def Obligations.StepRunsDecoded : Prop :=
  ∀ (s : State) (i : Instr) (rest : List Byte),
    s.run = .running → s.nmiFlag = false → (s.irqFlag = true → s.flag .interruptDisable = true) →
    isMemory s.pc = true → isMemory (s.pc + 1) = true → isMemory (s.pc + 2) = true →
    decode [peek s.pc s, peek (s.pc + 1) s, peek (s.pc + 2) s] = .ok i rest →
    step s = exec i ((ticks (fetchTicks i) s).setPc (s.pc + BitVec.ofNat 16 (fetchTicks i)))

/-- R620, R621, R622: the poll before an instruction: NMI before IRQ, IRQ only with I clear, at most one sequence, and the
handler's first instruction in the same step. Rests on the spec's decision D10. -/
def Obligations.StepPolls : Prop :=
  ∀ s : State, s.run = .running →
    (s.nmiFlag = true → step s = executeInstruction (interrupt .nmi s)) ∧
    (s.nmiFlag = false → s.irqFlag = true → s.flag .interruptDisable = false →
      step s = executeInstruction (interrupt .irq s)) ∧
    (s.nmiFlag = false → (s.irqFlag = false ∨ s.flag .interruptDisable = true) → step s = executeInstruction s)

/-- R15, R660, R652: a running machine always steps to a next state, and no other machine steps: a halted one has no further
step, which the model answers with the fault that names the reason (log entry 1, DEDUCED); one that is not powered on is
refused. Rests on the spec's decision D21. -/
def Obligations.OnlyRunningSteps : Prop :=
  ∀ s : State, (s.run = .running → ∃ t, step s = .next t) ∧ (∀ r, s.run = .halted r → step s = .fault (.halted r)) ∧
    (s.run = .noCartridge ∨ s.run = .loaded → step s = .refused .notPoweredOn)

/-- R50, R512, R514, R516, R561: no step changes PRG-ROM, CHR-ROM, the sizes of the arrays, the mapper variant, the buttons
or the palette. Rests on the spec's decisions D33, D36, D49. -/
def Obligations.StepKeepsCartridge : Prop :=
  ∀ s t : State, step s = .next t →
    t.cart.prg = s.cart.prg ∧ (s.cart.chrIsRam = false → t.cart.chr = s.cart.chr) ∧
    (t.cart.prgSize = s.cart.prgSize ∧ t.cart.chrSize = s.cart.chrSize ∧ t.cart.prgRamSize = s.cart.prgRamSize ∧
      t.cart.chrIsRam = s.cart.chrIsRam ∧ t.cart.initialMirroring = s.cart.initialMirroring) ∧
    t.mapper.number = s.mapper.number ∧
    (s.mapper.hasNoPrgRam = true → t.cart.prgRam = s.cart.prgRam) ∧ HostInputKept s t

/-- R38, R546, R548, R672: what writes the interrupt wires in a step: `irq_flag` rises and falls only on MMC3. -/
def Obligations.OnlyMmc3DrivesIrq : Prop :=
  ∀ s t : State, step s = .next t → s.mapper.number ≠ 4 → t.irqFlag = s.irqFlag

/-- R161, R676, R675: every instruction runs to a next state and, its bytes' ticks included, takes the ticks of its row: the
base, one for a read that crosses a page, one or two for a taken branch, and 512 for a write that starts OAM DMA. Rests on
the spec's decisions D2, D13 and what the spec marks as general knowledge in R675. -/
def Obligations.InstructionTicks : Prop :=
  ∀ (i : Instr) (s : State), ∃ t, exec i s = .next t ∧
    t.cycleCount + fetchTicks i = s.cycleCount + baseTicks i + extraTicks i s + dmaTicks i s

/-- R663: one `run_frame` of a running machine ends, with `cycle_count` in 29781..30307 unless a fatal condition ended it.
Rests on the spec's decisions D2, D11, D13 and what the spec marks as derived in R663. -/
def Obligations.RunFrameEnds : Prop :=
  ∀ s : State, s.run = .running → ∃ t, runFrame s = .next t ∧
    (t.run = .running → 29781 ≤ t.cycleCount) ∧ t.cycleCount ≤ 30307 ∧ (t.run = .running ∨ ∃ r, t.run = .halted r)

/-! ## Operands -/

/-- R146 to R157, R161: what the read of an operand is (for an immediate nothing more; else one timed read of the mode's
address, after the mode's ticks), and the address that a store and a read-modify-write go to, with the ticks before it: there
the indexed modes always pay theirs. Rests on the spec's decision D2. -/
def Obligations.OperandAddresses : Prop :=
  ∀ (m : ReadOperand) (w : WriteOperand) (r : RmwOperand) (s : State),
    (∀ v, m = .imm v → readOp m s = (v, s)) ∧
    (∀ z, m = .zp z → readOp m s = memRead (zeroPage z) s) ∧
    (∀ z, m = .zpx z → readOp m s = memRead (zeroPage (z + s.x)) (ticks 1 s)) ∧
    (∀ z, m = .zpy z → readOp m s = memRead (zeroPage (z + s.y)) (ticks 1 s)) ∧
    (∀ a, m = .abs a → readOp m s = memRead a s) ∧
    (∀ a, m = .abx a → readOp m s = memRead (a + s.x.setWidth 16) (ticks (if readCrosses m s then 1 else 0) s)) ∧
    (∀ a, m = .aby a → readOp m s = memRead (a + s.y.setWidth 16) (ticks (if readCrosses m s then 1 else 0) s)) ∧
    (∀ z, m = .izx z → readOp m s =
      memRead (addrOf (peek (zeroPage (z + s.x)) s) (peek (zeroPage (z + s.x + 1)) s)) (ticks 3 s)) ∧
    (∀ z, m = .izy z → readOp m s =
      memRead (addrOf (peek (zeroPage z) s) (peek (zeroPage (z + 1)) s) + s.y.setWidth 16)
        (ticks (if readCrosses m s then 3 else 2) s)) ∧
    (∀ z, w = .zp z → writeAddr w s = (zeroPage z, s)) ∧
    (∀ z, w = .zpx z → writeAddr w s = (zeroPage (z + s.x), ticks 1 s)) ∧
    (∀ z, w = .zpy z → writeAddr w s = (zeroPage (z + s.y), ticks 1 s)) ∧
    (∀ a, w = .abs a → writeAddr w s = (a, s)) ∧
    (∀ a, w = .abxe a → writeAddr w s = (a + s.x.setWidth 16, ticks 1 s)) ∧
    (∀ a, w = .abye a → writeAddr w s = (a + s.y.setWidth 16, ticks 1 s)) ∧
    (∀ z, w = .izx z → writeAddr w s =
      (addrOf (peek (zeroPage (z + s.x)) s) (peek (zeroPage (z + s.x + 1)) s), ticks 3 s)) ∧
    (∀ z, w = .izye z → writeAddr w s =
      (addrOf (peek (zeroPage z) s) (peek (zeroPage (z + 1)) s) + s.y.setWidth 16, ticks 3 s)) ∧
    (∀ z, r = .zp z → rmwAddr r s = (zeroPage z, s)) ∧
    (∀ z, r = .zpx z → rmwAddr r s = (zeroPage (z + s.x), ticks 1 s)) ∧
    (∀ a, r = .abs a → rmwAddr r s = (a, s)) ∧
    (∀ a, r = .abxe a → rmwAddr r s = (a + s.x.setWidth 16, ticks 1 s)) ∧
    (∀ a, r = .abye a → rmwAddr r s = (a + s.y.setWidth 16, ticks 1 s)) ∧
    (∀ z, r = .izx z → rmwAddr r s =
      (addrOf (peek (zeroPage (z + s.x)) s) (peek (zeroPage (z + s.x + 1)) s), ticks 3 s)) ∧
    (∀ z, r = .izye z → rmwAddr r s =
      (addrOf (peek (zeroPage z) s) (peek (zeroPage (z + 1)) s) + s.y.setWidth 16, ticks 3 s))

/-! ## Loads, stores, transfers -/

/-- R200, R201, R202, R320: a load puts the byte its operand read gives into its register (`LAX` into both) and sets `Z` and
`N` from it; the byte is the one at the operand's address where that is memory. -/
def Obligations.LoadResults : Prop :=
  ∀ (m : ReadOperand) (s : State),
    let v := (readOp m s).1
    (∃ t, exec (.lda m) s = .next t ∧ t.a = v ∧ HasNZ v t ∧ RegistersKept [.a] s t ∧ FlagsKept [.zero, .negative] s t ∧
      ReadOnly m s t) ∧
    (∃ t, exec (.ldx m) s = .next t ∧ t.x = v ∧ HasNZ v t ∧ RegistersKept [.x] s t ∧ FlagsKept [.zero, .negative] s t ∧
      ReadOnly m s t) ∧
    (∃ t, exec (.ldy m) s = .next t ∧ t.y = v ∧ HasNZ v t ∧ RegistersKept [.y] s t ∧ FlagsKept [.zero, .negative] s t ∧
      ReadOnly m s t) ∧
    (∃ t, exec (.lax m) s = .next t ∧ t.a = v ∧ t.x = v ∧ HasNZ v t ∧ RegistersKept [.a, .x] s t ∧
      FlagsKept [.zero, .negative] s t ∧ ReadOnly m s t)

/-- R203, R204, R205, R321: a store writes its register (`SAX` the AND of two) to the operand's address, in the machine after
the mode's ticks and the access's; no register and no flag changes. The invariant stands for the canonical memories. Rests on
the spec's decisions D1, D36. -/
def Obligations.StoreResults : Prop :=
  ∀ (m : WriteOperand) (s : State), s.Inv →
    let a := (writeAddr m s).1
    let u := writeReady m s
    (∃ t, exec (.sta m) s = .next t ∧ Wrote u a s.a s t ∧ RegistersKept [] s t ∧ FlagsKept [] s t ∧ t.pc = s.pc) ∧
    (∃ t, exec (.stx m) s = .next t ∧ Wrote u a s.x s t ∧ RegistersKept [] s t ∧ FlagsKept [] s t ∧ t.pc = s.pc) ∧
    (∃ t, exec (.sty m) s = .next t ∧ Wrote u a s.y s t ∧ RegistersKept [] s t ∧ FlagsKept [] s t ∧ t.pc = s.pc) ∧
    (∃ t, exec (.sax m) s = .next t ∧ Wrote u a (s.a &&& s.x) s t ∧ RegistersKept [] s t ∧ FlagsKept [] s t ∧ t.pc = s.pc)

/-- R333, R334: `SYA` and `SXA` store the register ANDed with the base's high byte plus one at the indexed address (the
parameter values of log entry 6). -/
def Obligations.HighByteStores : Prop :=
  ∀ (base : Addr) (s : State), s.Inv →
    (∃ t, exec (.sya base) s = .next t ∧
      Wrote (ticks 2 s) (base + s.x.setWidth 16) (s.y &&& BitVec.ofNat 8 (base.toNat / 256 + 1)) s t ∧
      RegistersKept [] s t ∧ FlagsKept [] s t ∧ t.pc = s.pc) ∧
    (∃ t, exec (.sxa base) s = .next t ∧
      Wrote (ticks 2 s) (base + s.y.setWidth 16) (s.x &&& BitVec.ofNat 8 (base.toNat / 256 + 1)) s t ∧
      RegistersKept [] s t ∧ FlagsKept [] s t ∧ t.pc = s.pc)

/-- R206 to R211: the transfers: their opcode bytes, one tick beyond the opcode fetch, the destination takes the source, `Z`
and `N` follow it but for `TXS`. -/
def Obligations.TransferResults : Prop :=
  ∀ s : State,
    (encode .tax = some [0xAA] ∧ encode .tay = some [0xA8] ∧ encode .txa = some [0x8A] ∧ encode .tya = some [0x98] ∧
      encode .tsx = some [0xBA] ∧ encode .txs = some [0x9A]) ∧
    (∃ t, exec .tax s = .next t ∧ t.x = s.a ∧ HasNZ s.a t ∧ RegistersKept [.x] s t ∧ FlagsKept [.zero, .negative] s t ∧
      t.pc = s.pc ∧ Idled 1 s t) ∧
    (∃ t, exec .tay s = .next t ∧ t.y = s.a ∧ HasNZ s.a t ∧ RegistersKept [.y] s t ∧ FlagsKept [.zero, .negative] s t ∧
      t.pc = s.pc ∧ Idled 1 s t) ∧
    (∃ t, exec .txa s = .next t ∧ t.a = s.x ∧ HasNZ s.x t ∧ RegistersKept [.a] s t ∧ FlagsKept [.zero, .negative] s t ∧
      t.pc = s.pc ∧ Idled 1 s t) ∧
    (∃ t, exec .tya s = .next t ∧ t.a = s.y ∧ HasNZ s.y t ∧ RegistersKept [.a] s t ∧ FlagsKept [.zero, .negative] s t ∧
      t.pc = s.pc ∧ Idled 1 s t) ∧
    (∃ t, exec .tsx s = .next t ∧ t.x = s.sp ∧ HasNZ s.sp t ∧ RegistersKept [.x] s t ∧ FlagsKept [.zero, .negative] s t ∧
      t.pc = s.pc ∧ Idled 1 s t) ∧
    (∃ t, exec .txs s = .next t ∧ t.sp = s.x ∧ RegistersKept [.sp] s t ∧ FlagsKept [] s t ∧ t.pc = s.pc ∧ Idled 1 s t)

/-! ## Arithmetic and logic -/

/-- R230, R231, R232, R335: `ADC` leaves the sum with its carry and signed overflow, `SBC` (at $EB too) the difference. Rests
on the spec's decisions D5, D6 and what the spec marks as general knowledge in R230. Rests on the spec's decisions D5, D6 and
what the spec marks as general knowledge in R230. -/
def Obligations.AddSubtractResults : Prop :=
  ∀ (m : ReadOperand) (n : Byte) (s : State),
    let v := (readOp m s).1
    (∃ t, exec (.adc m) s = .next t ∧ Added s.a v (s.flag .carry) t ∧ RegistersKept [.a] s t ∧
      FlagsKept [.carry, .overflow, .zero, .negative] s t ∧ ReadOnly m s t) ∧
    (∃ t, exec (.sbc m) s = .next t ∧ Subtracted s.a v (s.flag .carry) t ∧ RegistersKept [.a] s t ∧
      FlagsKept [.carry, .overflow, .zero, .negative] s t ∧ ReadOnly m s t) ∧
    (∃ t, exec (.sbcDuplicate n) s = .next t ∧ Subtracted s.a n (s.flag .carry) t ∧ RegistersKept [.a] s t ∧
      FlagsKept [.carry, .overflow, .zero, .negative] s t ∧ t.pc = s.pc ∧ Idled 0 s t)

/-- R233, R234, R235: AND, OR and exclusive OR into `A`. -/
def Obligations.LogicResults : Prop :=
  ∀ (m : ReadOperand) (s : State),
    let v := (readOp m s).1
    (∃ t, exec (.and m) s = .next t ∧ (∀ k, t.a.getLsbD k = (s.a.getLsbD k && v.getLsbD k)) ∧ HasNZ t.a t ∧
      RegistersKept [.a] s t ∧ FlagsKept [.zero, .negative] s t ∧ ReadOnly m s t) ∧
    (∃ t, exec (.ora m) s = .next t ∧ (∀ k, t.a.getLsbD k = (s.a.getLsbD k || v.getLsbD k)) ∧ HasNZ t.a t ∧
      RegistersKept [.a] s t ∧ FlagsKept [.zero, .negative] s t ∧ ReadOnly m s t) ∧
    (∃ t, exec (.eor m) s = .next t ∧ (∀ k, t.a.getLsbD k = (s.a.getLsbD k ^^ v.getLsbD k)) ∧ HasNZ t.a t ∧
      RegistersKept [.a] s t ∧ FlagsKept [.zero, .negative] s t ∧ ReadOnly m s t)

/-- R236 to R240: the compares write `C`, `Z` and `N` from the register and the operand, `BIT` writes `Z` from `A & v` and
`V`, `N` from bits 6 and 7 of `v`; no register changes. Rests on what the spec marks as general knowledge in R236. -/
def Obligations.CompareAndBitResults : Prop :=
  ∀ (m : ReadOperand) (s : State),
    let v := (readOp m s).1
    (∃ t, exec (.cmp m) s = .next t ∧ Compared s.a v t ∧ RegistersKept [] s t ∧ FlagsKept [.carry, .zero, .negative] s t ∧
      ReadOnly m s t) ∧
    (∃ t, exec (.cpx m) s = .next t ∧ Compared s.x v t ∧ RegistersKept [] s t ∧ FlagsKept [.carry, .zero, .negative] s t ∧
      ReadOnly m s t) ∧
    (∃ t, exec (.cpy m) s = .next t ∧ Compared s.y v t ∧ RegistersKept [] s t ∧ FlagsKept [.carry, .zero, .negative] s t ∧
      ReadOnly m s t) ∧
    (∃ t, exec (.bit m) s = .next t ∧ t.flag .zero = decide (s.a &&& v = 0) ∧ t.flag .overflow = v.getLsbD 6 ∧
      t.flag .negative = v.getLsbD 7 ∧ RegistersKept [] s t ∧ FlagsKept [.zero, .overflow, .negative] s t ∧ ReadOnly m s t)

/-- R243 to R246: `INX`, `INY`, `DEX`, `DEY`: their opcode bytes, one tick beyond the opcode fetch; they count modulo 256 and
set `Z` and `N`. -/
def Obligations.RegisterCountResults : Prop :=
  ∀ s : State,
    (encode .inx = some [0xE8] ∧ encode .iny = some [0xC8] ∧ encode .dex = some [0xCA] ∧ encode .dey = some [0x88]) ∧
    (∃ t, exec .inx s = .next t ∧ t.x.toNat = (s.x.toNat + 1) % 256 ∧ HasNZ t.x t ∧ RegistersKept [.x] s t ∧
      FlagsKept [.zero, .negative] s t ∧ t.pc = s.pc ∧ Idled 1 s t) ∧
    (∃ t, exec .iny s = .next t ∧ t.y.toNat = (s.y.toNat + 1) % 256 ∧ HasNZ t.y t ∧ RegistersKept [.y] s t ∧
      FlagsKept [.zero, .negative] s t ∧ t.pc = s.pc ∧ Idled 1 s t) ∧
    (∃ t, exec .dex s = .next t ∧ t.x.toNat = (s.x.toNat + 255) % 256 ∧ HasNZ t.x t ∧ RegistersKept [.x] s t ∧
      FlagsKept [.zero, .negative] s t ∧ t.pc = s.pc ∧ Idled 1 s t) ∧
    (∃ t, exec .dey s = .next t ∧ t.y.toNat = (s.y.toNat + 255) % 256 ∧ HasNZ t.y t ∧ RegistersKept [.y] s t ∧
      FlagsKept [.zero, .negative] s t ∧ t.pc = s.pc ∧ Idled 1 s t)

/-! ## Read-modify-write -/

/-- R161, R241, R242: `INC` and `DEC` write back the byte read at the operand's address, one more or less modulo 256, and set
`Z` and `N` from it (also where the write halts the machine: the model's choice, log entry 17). Rests on the spec's
decision D2. -/
def Obligations.MemoryCountResults : Prop :=
  ∀ (m : RmwOperand) (s : State), s.Inv →
    let a := (rmwAddr m s).1
    let v := (memRead a (rmwAddr m s).2).1
    let u := rmwReady m s
    (∃ t, exec (.inc m) s = .next t ∧ Wrote u a (v + 1) s t ∧ HasNZ (v + 1) t ∧ RegistersKept [] s t ∧
      FlagsKept [.zero, .negative] s t ∧ t.pc = s.pc) ∧
    (∃ t, exec (.dec m) s = .next t ∧ Wrote u a (v - 1) s t ∧ HasNZ (v - 1) t ∧ RegistersKept [] s t ∧
      FlagsKept [.zero, .negative] s t ∧ t.pc = s.pc)

/-- R260 to R264: the shifts move by one bit, the bit shifted out into `C`; the rotates bring the old `C` in. Rests on the
spec's decision D2. -/
def Obligations.ShiftResults : Prop :=
  ShiftsAs .asl (fun v _ => 2 * v % 256) (fun v => 128 ≤ v) ∧
  ShiftsAs .lsr (fun v _ => v / 2) (fun v => v % 2 = 1) ∧
  ShiftsAs .rol (fun v c => (2 * v + c) % 256) (fun v => 128 ≤ v) ∧
  ShiftsAs .ror (fun v c => v / 2 + 128 * c) (fun v => v % 2 = 1)

/-- R322 to R327: the combined instructions write back the byte changed as `DEC`, `INC`, `ASL`, `ROL`, `LSR`, `ROR` change
it, and combine the new byte with `A` as `CMP`, `SBC`, `ORA`, `AND`, `EOR`, `ADC` do. -/
def Obligations.CombinedResults : Prop :=
  ∀ (m : RmwOperand) (s : State), s.Inv →
    let a := (rmwAddr m s).1
    let v := (memRead a (rmwAddr m s).2).1
    let u := rmwReady m s
    let c := (s.flag .carry).toNat
    (∃ t, exec (.dcp m) s = .next t ∧ Wrote u a (v - 1) s t ∧ Compared s.a (v - 1) t ∧ RegistersKept [] s t ∧
      FlagsKept [.carry, .zero, .negative] s t ∧ t.pc = s.pc) ∧
    (∃ t, exec (.isb m) s = .next t ∧ Wrote u a (v + 1) s t ∧ Subtracted s.a (v + 1) (s.flag .carry) t ∧
      RegistersKept [.a] s t ∧ FlagsKept [.carry, .overflow, .zero, .negative] s t ∧ t.pc = s.pc) ∧
    (∃ (t : State) (r : Byte), exec (.slo m) s = .next t ∧ r.toNat = 2 * v.toNat % 256 ∧ Wrote u a r s t ∧ t.a = s.a ||| r ∧
      t.flag .carry = decide (128 ≤ v.toNat) ∧ HasNZ t.a t ∧ RegistersKept [.a] s t ∧
      FlagsKept [.carry, .zero, .negative] s t ∧ t.pc = s.pc) ∧
    (∃ (t : State) (r : Byte), exec (.rla m) s = .next t ∧ r.toNat = (2 * v.toNat + c) % 256 ∧ Wrote u a r s t ∧
      t.a = s.a &&& r ∧ t.flag .carry = decide (128 ≤ v.toNat) ∧ HasNZ t.a t ∧ RegistersKept [.a] s t ∧
      FlagsKept [.carry, .zero, .negative] s t ∧ t.pc = s.pc) ∧
    (∃ (t : State) (r : Byte), exec (.sre m) s = .next t ∧ r.toNat = v.toNat / 2 ∧ Wrote u a r s t ∧ t.a = s.a ^^^ r ∧
      t.flag .carry = decide (v.toNat % 2 = 1) ∧ HasNZ t.a t ∧ RegistersKept [.a] s t ∧
      FlagsKept [.carry, .zero, .negative] s t ∧ t.pc = s.pc) ∧
    (∃ (t : State) (r : Byte), exec (.rra m) s = .next t ∧ r.toNat = v.toNat / 2 + 128 * c ∧ Wrote u a r s t ∧
      Added s.a r (decide (v.toNat % 2 = 1)) t ∧ RegistersKept [.a] s t ∧
      FlagsKept [.carry, .overflow, .zero, .negative] s t ∧ t.pc = s.pc)

/-- R328 to R332: the unofficial immediate combinations (`ARR` and `ATX` with the values of log entry 6). -/
def Obligations.ImmediateResults : Prop :=
  ∀ (op v : Byte) (s : State),
    (∃ t, exec (.aac op v) s = .next t ∧ t.a = s.a &&& v ∧ HasNZ t.a t ∧ t.flag .carry = t.a.getLsbD 7 ∧
      RegistersKept [.a] s t ∧ FlagsKept [.carry, .zero, .negative] s t ∧ t.pc = s.pc ∧ Idled 0 s t) ∧
    (∃ t, exec (.asr v) s = .next t ∧ t.a.toNat = (s.a &&& v).toNat / 2 ∧ HasNZ t.a t ∧
      t.flag .carry = (s.a &&& v).getLsbD 0 ∧ RegistersKept [.a] s t ∧ FlagsKept [.carry, .zero, .negative] s t ∧
      t.pc = s.pc ∧ Idled 0 s t) ∧
    (∃ t, exec (.arr v) s = .next t ∧ t.a.toNat = (s.a &&& v).toNat / 2 + 128 * (s.flag .carry).toNat ∧ HasNZ t.a t ∧
      t.flag .carry = t.a.getLsbD 6 ∧ t.flag .overflow = (t.a.getLsbD 6 ^^ t.a.getLsbD 5) ∧ RegistersKept [.a] s t ∧
      FlagsKept [.carry, .overflow, .zero, .negative] s t ∧ t.pc = s.pc ∧ Idled 0 s t) ∧
    (∃ t, exec (.atx v) s = .next t ∧ t.a = s.a &&& v ∧ t.x = t.a ∧ HasNZ t.a t ∧ RegistersKept [.a, .x] s t ∧
      FlagsKept [.zero, .negative] s t ∧ t.pc = s.pc ∧ Idled 0 s t) ∧
    (∃ t, exec (.axs v) s = .next t ∧ (t.x.toNat : Int) = (((s.a &&& s.x).toNat : Int) - v.toNat) % 256 ∧ HasNZ t.x t ∧
      t.flag .carry = decide (v.toNat ≤ (s.a &&& s.x).toNat) ∧ RegistersKept [.x] s t ∧
      FlagsKept [.carry, .zero, .negative] s t ∧ t.pc = s.pc ∧ Idled 0 s t)

/-! ## Control flow -/

/-- R270 to R278: the eight branches, each on its flag. -/
def Obligations.BranchResults : Prop :=
  BranchesOn .bcc (fun s => !s.flag .carry) ∧ BranchesOn .bcs (fun s => s.flag .carry) ∧
  BranchesOn .beq (fun s => s.flag .zero) ∧ BranchesOn .bne (fun s => !s.flag .zero) ∧
  BranchesOn .bmi (fun s => s.flag .negative) ∧ BranchesOn .bpl (fun s => !s.flag .negative) ∧
  BranchesOn .bvc (fun s => !s.flag .overflow) ∧ BranchesOn .bvs (fun s => s.flag .overflow)

/-- R158, R279: `JMP` goes to its operand, or to the word its pointer names: the high byte from the page of the low one.
Rests on the spec's decision D14 and what the spec marks as general knowledge in R158. -/
def Obligations.JumpResults : Prop :=
  ∀ (a : Addr) (s : State),
    (∃ t, exec (.jmp (.abs a)) s = .next t ∧ t.pc = a ∧ RegistersKept [] s t ∧ FlagsKept [] s t ∧ Idled 0 s t) ∧
    (∃ t, exec (.jmp (.ind a)) s = .next t ∧ RegistersKept [] s t ∧ FlagsKept [] s t ∧ StorageKept s t ∧ ControlsKept s t ∧
      (let second : Addr := BitVec.ofNat 16 (a.toNat / 256 * 256 + (a.toNat + 1) % 256)
       isMemory a = true → isMemory second = true → t.pc = addrOf (peek a s) (peek second s) ∧ Idled 2 s t))

/-- R280, R281: `JSR` pushes the address of its last byte, high byte first, and goes to its operand, whose high byte it reads
after the pushes; `RTS` pulls an address, low byte first, and goes one past it. Rests on the spec's decision D16. -/
def Obligations.CallResults : Prop :=
  ∀ (target : Addr) (s : State), s.Inv →
    (∃ t, exec (.jsr target) s = .next t ∧
      t.sp = s.sp - 2 ∧ RegistersKept [.sp] s t ∧ FlagsKept [] s t ∧
      (isMemory s.pc = true → t.pc = addrOf (lowByte target) (peek s.pc t) ∧
        Stored [(stackAddr s.sp, highByte s.pc), (stackAddr (s.sp - 1), lowByte s.pc)] s t)) ∧
    (∃ t, exec .rts s = .next t ∧
      t.pc = addrOf (peek (stackAddr (s.sp + 1)) s) (peek (stackAddr (s.sp + 2)) s) + 1 ∧ t.sp = s.sp + 2 ∧
      RegistersKept [.sp] s t ∧ FlagsKept [] s t ∧ Idled 5 s t)

/-- R280, R281: an `RTS` that finds the stack as `JSR` left it comes back to the instruction after the `JSR`, `SP` as it was,
whatever happened to the rest of the machine. Rests on the spec's decision D16. -/
def Obligations.SubroutineReturns : Prop :=
  ∀ (target : Addr) (s t u : State), s.Inv → exec (.jsr target) s = .next t →
    u.sp = t.sp → u.ram = t.ram → ∃ w, exec .rts u = .next w ∧ w.pc = s.pc + 1 ∧ w.sp = s.sp

/-- R282, R626: `RTI` pulls the status (bit 4 cleared, bit 5 set), then the address, and goes to it. -/
def Obligations.RtiResult : Prop :=
  ∀ s : State, ∃ t, exec .rti s = .next t ∧
    t.pc = addrOf (peek (stackAddr (s.sp + 2)) s) (peek (stackAddr (s.sp + 3)) s) ∧ t.sp = s.sp + 3 ∧
    (∀ k, t.p.getLsbD k = if k = 4 then false else if k = 5 then true else (peek (stackAddr (s.sp + 1)) s).getLsbD k) ∧
    RegistersKept [.sp] s t ∧ Idled 5 s t

/-- R283, R611, R615, R625: `BRK` pushes the address after its padding byte and the status with bits 4 and 5 set, sets I and
goes to the word at $FFFE. Rests on the spec's decisions D7, D15 and what the spec marks as general knowledge in R283. -/
def Obligations.BrkResult : Prop :=
  ∀ s : State, s.Inv → ∃ t, exec .brk s = .next t ∧
    t.pc = addrOf (peek 0xFFFE s) (peek 0xFFFF s) ∧ t.sp = s.sp - 3 ∧ RegistersKept [.sp] s t ∧
    t.flag .interruptDisable = true ∧ FlagsKept [.interruptDisable] s t ∧
    Stored [(stackAddr s.sp, highByte (s.pc + 1)), (stackAddr (s.sp - 1), lowByte (s.pc + 1)),
      (stackAddr (s.sp - 2), s.p ||| 0x30)] s t ∧
    t.cycleCount = s.cycleCount + 6

/-! ## Interrupts -/

/-- R610, R611, R613, R614, R625: taking an NMI or an IRQ: three pushes (the status with bits 4 and 5 clear), I set, `PC`
from the vector, seven ticks; only the NMI is acknowledged. Rests on the spec's decision D7. -/
def Obligations.InterruptEntry : Prop :=
  ∀ s : State, s.Inv →
    let pushed := [(stackAddr s.sp, highByte s.pc), (stackAddr (s.sp - 1), lowByte s.pc), (stackAddr (s.sp - 2), s.p &&& 0xCF)]
    (let t := interrupt .nmi s
     t.nmiFlag = false ∧ t.pc = addrOf (peek 0xFFFA s) (peek 0xFFFB s) ∧ t.sp = s.sp - 3 ∧ RegistersKept [.sp] s t ∧
       t.flag .interruptDisable = true ∧ FlagsKept [.interruptDisable] s t ∧
       Stored pushed { s with nmiFlag := false } t ∧ t.cycleCount = s.cycleCount + 7) ∧
    (let t := interrupt .irq s
     t.pc = addrOf (peek 0xFFFE s) (peek 0xFFFF s) ∧ t.sp = s.sp - 3 ∧ RegistersKept [.sp] s t ∧
       t.flag .interruptDisable = true ∧ FlagsKept [.interruptDisable] s t ∧
       Stored pushed s t ∧ t.cycleCount = s.cycleCount + 7)

/-- R59, R612, R651: `reset()` of a running machine: `SP` moves by three with no write, I set, `PC` from the vector, eight
ticks (the model follows the spec's decision D9 on their number), and nothing else. Rests on the spec's decision D9. -/
def Obligations.ResetOperation : Prop :=
  ∀ s : State, s.run = .running → ∃ t, reset s = .next t ∧
    t.pc = addrOf (peek 0xFFFC s) (peek 0xFFFD s) ∧ t.sp = s.sp - 3 ∧ RegistersKept [.sp] s t ∧
    t.flag .interruptDisable = true ∧ FlagsKept [.interruptDisable] s t ∧ Idled 8 s t

/-- R611, R626: `RTI` after the entry sequence of an NMI or an IRQ, the stack page and `SP` as the entry left them, resumes
the interrupted code: `PC`, `SP` and every flag but Break and Reserved as they were, Break clear and Reserved set. Rests on
the spec's decision D7. -/
def Obligations.InterruptReturns : Prop :=
  ∀ (k : InterruptKind) (s u : State), s.Inv → k = .nmi ∨ k = .irq →
    u.sp = (interrupt k s).sp → u.ram = (interrupt k s).ram →
    ∃ t, exec .rti u = .next t ∧ t.pc = s.pc ∧ t.sp = s.sp ∧ FlagsKept [.brk, .reserved] s t ∧
      t.flag .brk = false ∧ t.flag .reserved = true

/-! ## Stack, flags, no operation -/

/-- R300 to R303, R14: pushes and pulls of `A` and `P`. Rests on the spec's decisions D7, D48 and what the spec marks as
general knowledge in R14. -/
def Obligations.StackResults : Prop :=
  ∀ s : State, s.Inv →
    (∃ t, exec .pha s = .next t ∧ Stored [(stackAddr s.sp, s.a)] s t ∧ t.sp = s.sp - 1 ∧ RegistersKept [.sp] s t ∧
      FlagsKept [] s t ∧ t.pc = s.pc) ∧
    (∃ t, exec .php s = .next t ∧ Stored [(stackAddr s.sp, s.p ||| 0x30)] s t ∧ t.sp = s.sp - 1 ∧ RegistersKept [.sp] s t ∧
      FlagsKept [] s t ∧ t.pc = s.pc) ∧
    (∃ t, exec .pla s = .next t ∧ t.a = peek (stackAddr (s.sp + 1)) s ∧ HasNZ t.a t ∧ t.sp = s.sp + 1 ∧
      RegistersKept [.a, .sp] s t ∧ FlagsKept [.zero, .negative] s t ∧ t.pc = s.pc ∧ Idled 3 s t) ∧
    (∃ t, exec .plp s = .next t ∧
      (∀ k, t.p.getLsbD k = if k = 4 then false else if k = 5 then true else (peek (stackAddr (s.sp + 1)) s).getLsbD k) ∧
      t.sp = s.sp + 1 ∧ RegistersKept [.sp] s t ∧ t.pc = s.pc ∧ Idled 3 s t)

/-- R304 to R310: each flag instruction has its opcode byte, spends one tick beyond the opcode fetch, and writes its flag and
nothing else. -/
def Obligations.FlagResults : Prop :=
  ∀ (i : Instr) (op : Byte) (f : Flag) (b : Bool) (s : State),
    (i, op, f, b) ∈ [(Instr.clc, 0x18, Flag.carry, false), (Instr.sec, 0x38, Flag.carry, true),
      (Instr.cli, 0x58, Flag.interruptDisable, false), (Instr.sei, 0x78, Flag.interruptDisable, true),
      (Instr.cld, 0xD8, Flag.decimal, false), (Instr.sed, 0xF8, Flag.decimal, true),
      (Instr.clv, 0xB8, Flag.overflow, false)] →
    encode i = some [op] ∧
    ∃ t, exec i s = .next t ∧ t.flag f = b ∧ FlagsKept [f] s t ∧ RegistersKept [] s t ∧ t.pc = s.pc ∧ Idled 1 s t

/-- R311, R336 to R339: every `NOP` changes no register, no flag and no memory; one with an operand reads it. -/
def Obligations.NopResults : Prop :=
  ∀ (op v : Byte) (m : ReadOperand) (s : State),
    exec .nop s = .next (ticks 1 s) ∧ exec (.nopImplied op) s = .next (ticks 1 s) ∧ exec (.nopImmediate op v) s = .next s ∧
    (∃ t, exec (.nopZeroPage op m) s = .next t ∧ RegistersKept [] s t ∧ FlagsKept [] s t ∧ ReadOnly m s t) ∧
    (∃ t, exec (.nopAbsolute op m) s = .next t ∧ RegistersKept [] s t ∧ FlagsKept [] s t ∧ ReadOnly m s t)

/-- R340, R600, R15: an undecodable opcode byte halts the machine with its reason, the address of the byte recorded; nothing
else changes, and the machine has no further step. (That the halted machine is a next state, and that its step is a fault, is
log entry 1, DEDUCED.) Rests on the spec's decisions D4, D21 and what the spec marks as general knowledge in R340. -/
def Obligations.UndecodableHalts : Prop :=
  ∀ (op : Byte) (s : State), ∃ t, exec (.undecodable op) s = .next t ∧
    t = { s with run := .halted (.undecodableOpcode op (s.pc - 1)) } ∧
    step t = .fault (.halted (.undecodableOpcode op (s.pc - 1)))

/-! ## The CPU bus -/

/-- R12, R82 to R89: a timed access is a tick and then the untimed one; RAM repeats every $800 bytes and the PPU registers
every 8; the APU range reads $FF and ignores writes, $4017 ignores writes; unmapped reads give 0. Rests on the spec's
decisions D1, D19, D43 and what the spec marks as general knowledge in R85; that an unmapped read leaves no log entry is log
entry 5. -/
def Obligations.AddressMap : Prop :=
  ∀ (a b : Addr) (v : Byte) (s : State),
    (memRead a s = busRead a (tick s) ∧ memWrite a v s = busWrite a v (tick s)) ∧
    (a.toNat ≤ 0x1FFF →
      busRead a s = (s.ram.read (a.toNat % 0x800), s) ∧ busWrite a v s = { s with ram := s.ram.write (a.toNat % 0x800) v }) ∧
    (0x2000 ≤ a.toNat ∧ a.toNat ≤ 0x3FFF → 0x2000 ≤ b.toNat ∧ b.toNat ≤ 0x3FFF → a.toNat % 8 = b.toNat % 8 →
      busRead a s = busRead b s ∧ busWrite a v s = busWrite b v s) ∧
    ((0x4000 ≤ a.toNat ∧ a.toNat ≤ 0x4013) ∨ a = 0x4015 → busRead a s = (0xFF, s) ∧ busWrite a v s = s) ∧
    (a = 0x4014 ∨ (0x4018 ≤ a.toNat ∧ a.toNat ≤ 0x5FFF) → busRead a s = (0, s)) ∧
    (a = 0x4017 → busWrite a v s = s)

/-- R93: OAM DMA is 256 times a timed read of the page's next byte and a timed write of it to $2004. From a page of RAM or of
the cartridge, byte `i` of the page lands at `oam_addr + i` modulo 256, `oam_addr` ends where it started, and 512 ticks pass.
Rests on the spec's decision D13. -/
def Obligations.OamDmaCopiesPage : Prop :=
  ∀ (page : Byte) (s : State),
    let t := busWrite 0x4014 page s
    let copied (u : State) (i : Nat) : State :=
      let r := memRead (BitVec.ofNat 16 (page.toNat * 256 + i)) u
      memWrite 0x2004 r.1 r.2
    t = (List.range 256).foldl copied s ∧
    (s.Inv → page.toNat ≤ 0x1F ∨ 0x60 ≤ page.toNat →
      (∀ i, i < 256 → t.ppu.oam.read ((s.ppu.oamAddr.toNat + i) % 256) = peek (BitVec.ofNat 16 (page.toNat * 256 + i)) s) ∧
      t.ppu.oamAddr = s.ppu.oamAddr ∧ t.cycleCount = s.cycleCount + 512)

/-- R562, R563, R88, R53: a write of $4016 sets the strobe to its bit 0 and, where the strobe falls, latches both ports.
After a strobe the reads of a port give its eight buttons from bit 0 upward and then 1 for ever, and leave the other port
alone; while the strobe is high they give bit 0 and change nothing. Rests on the spec's decision D19 and what the spec marks
as derived in R53. -/
def Obligations.ControllerReads : Prop :=
  ∀ (high low v : Byte) (s : State), high.getLsbD 0 = true → low.getLsbD 0 = false →
    let held := busWrite 0x4016 high s
    let latched := busWrite 0x4016 low held
    let falls := s.ctl.strobe && !v.getLsbD 0
    let next (a : Addr) (s : State) : State := (busRead a s).2
    busWrite 0x4016 v s = { s with ctl := { s.ctl with
      strobe := v.getLsbD 0
      shift0 := if falls then s.ctl.buttons0 else s.ctl.shift0
      shift1 := if falls then s.ctl.buttons1 else s.ctl.shift1 } } ∧
    (∀ n, (busRead 0x4016 ((next 0x4016)^[n] latched)).1 = if n < 8 then (s.ctl.buttons0 >>> n) &&& 1 else 1) ∧
    (∀ n, (busRead 0x4017 ((next 0x4017)^[n] latched)).1 = if n < 8 then (s.ctl.buttons1 >>> n) &&& 1 else 1) ∧
    busRead 0x4016 held = (s.ctl.buttons0 &&& 1, held) ∧ busRead 0x4017 held = (s.ctl.buttons1 &&& 1, held) ∧
    (∀ n, ((next 0x4016)^[n] latched).ctl.shift1 = latched.ctl.shift1) ∧
    (∀ n, ((next 0x4017)^[n] latched).ctl.shift0 = latched.ctl.shift0)

/-! ## PPU registers -/

/-- R85, R406: a read of PPUSTATUS returns the flags over the low five bits of the last bus value, then clears VBlank and the
write toggle, and changes nothing else. Rests on the spec's decision D24 and what the spec marks as general knowledge in R85,
R406. -/
def Obligations.StatusRead : Prop :=
  ∀ (a : Addr) (s : State), 0x2000 ≤ a.toNat ∧ a.toNat ≤ 0x3FFF → a.toNat % 8 = 2 →
    let r := busRead a s
    (∀ k, r.1.getLsbD k = if k < 5 then s.ppu.busLatch.getLsbD k else s.ppu.status.getLsbD k) ∧
    (∀ k, r.2.ppu.status.getLsbD k = (decide (k ≠ 7) && s.ppu.status.getLsbD k)) ∧
    r.2 = { s with ppu := { s.ppu with busLatch := r.1, status := r.2.ppu.status, w := false } }

/-- R400, R402, R404, R406, R408, R409: what a write of PPUCTRL, PPUMASK, PPUSTATUS, OAMADDR or OAMDATA changes: the latch,
the register of that name, and nothing else. Rests on the spec's decisions D24, D25 and what the spec marks as general
knowledge in R402, R404, R406, R408, R409. -/
def Obligations.PlainRegisterWrites : Prop :=
  ∀ (a : Addr) (v : Byte) (s : State), s.Inv → 0x2000 ≤ a.toNat ∧ a.toNat ≤ 0x3FFF →
    let t := busWrite a v s
    (a.toNat % 8 = 0 →
      (∀ k, k < 15 → t.ppu.t.getLsbD k =
        if k = 10 then v.getLsbD 0 else if k = 11 then v.getLsbD 1 else s.ppu.t.getLsbD k) ∧
      t = { s with ppu := { s.ppu with busLatch := v, ctrl := v, t := t.ppu.t } }) ∧
    (a.toNat % 8 = 1 → t = { s with ppu := { s.ppu with busLatch := v, mask := v } }) ∧
    (a.toNat % 8 = 2 → t = { s with ppu := { s.ppu with busLatch := v } }) ∧
    (a.toNat % 8 = 3 → t = { s with ppu := { s.ppu with busLatch := v, oamAddr := v } }) ∧
    (a.toNat % 8 = 4 →
      t.ppu.oam.read s.ppu.oamAddr.toNat = v ∧ (∀ j, j ≠ s.ppu.oamAddr.toNat → t.ppu.oam.read j = s.ppu.oam.read j) ∧
      t = { s with ppu := { s.ppu with busLatch := v, oam := t.ppu.oam, oamAddr := s.ppu.oamAddr + 1 } })

/-- R410, R411, R412: two writes of PPUSCROLL from a clear toggle set fine X and the coarse and fine scroll fields of `t`,
two writes of PPUADDR set `t` and `v` to the 14-bit address; the toggle is one for both registers. Rests on what the spec
marks as general knowledge in R410, R412. -/
def Obligations.TwoWriteRegisters : Prop :=
  ∀ (a b : Addr) (v1 v2 : Byte) (s : State), 0x2000 ≤ a.toNat ∧ a.toNat ≤ 0x3FFF → 0x2000 ≤ b.toNat ∧ b.toNat ≤ 0x3FFF →
    let once := (busWrite a v1 s).ppu
    let twice := (busWrite b v2 (busWrite a v1 s)).ppu
    (a.toNat % 8 = 5 ∨ a.toNat % 8 = 6 → once.w = !s.ppu.w) ∧
    (s.ppu.w = false → a.toNat % 8 = 5 → b.toNat % 8 = 5 →
      twice.fineX = v1.extractLsb' 0 3 ∧ coarseX twice.t = v1.extractLsb' 3 5 ∧ fineY twice.t = v2.extractLsb' 0 3 ∧
      coarseY twice.t = v2.extractLsb' 3 5 ∧ twice.t.extractLsb' 10 2 = s.ppu.t.extractLsb' 10 2 ∧ twice.v = s.ppu.v) ∧
    (s.ppu.w = false → a.toNat % 8 = 6 → b.toNat % 8 = 6 →
      twice.t.toNat = v1.toNat % 64 * 256 + v2.toNat ∧ twice.v = twice.t ∧ twice.fineX = s.ppu.fineX) ∧
    (s.ppu.w = false → a.toNat % 8 = 5 → b.toNat % 8 = 6 →
      twice.v = twice.t ∧ twice.t.extractLsb' 0 8 = v2 ∧ twice.t.extractLsb' 8 7 = s.ppu.t.extractLsb' 8 7 ∧
      twice.fineX = v1.extractLsb' 0 3) ∧
    (s.ppu.w = false → a.toNat % 8 = 6 → b.toNat % 8 = 5 →
      twice.v = s.ppu.v ∧ fineY twice.t = v2.extractLsb' 0 3 ∧ coarseY twice.t = v2.extractLsb' 3 5 ∧
      twice.t.extractLsb' 10 2 = v1.extractLsb' 2 2 ∧ coarseX twice.t = coarseX s.ppu.t)

/-- R413, R414, R415, R420, R516: PPUDATA: the read is buffered below $3F00 and direct from there, the write goes to the byte
`v` names, and either steps `v` by 1 or 32. Rests on the spec's decisions D24, D33, D50. -/
def Obligations.DataPort : Prop :=
  ∀ (a : Addr) (x : Byte) (s : State), s.Inv → 0x2000 ≤ a.toNat ∧ a.toNat ≤ 0x3FFF → a.toNat % 8 = 7 →
    let at' := s.ppu.v.toNat % 0x4000
    let r := busRead a s
    let t := busWrite a x s
    let stepped := (s.ppu.v.toNat + if s.ppu.ctrl.getLsbD 2 then 32 else 1) % 0x8000
    r.2.ppu.v.toNat = stepped ∧ t.ppu.v.toNat = stepped ∧ r.2.ppu.busLatch = r.1 ∧ t.ppu.busLatch = x ∧
    r.2.ppu.readBuffer = s.ppu.read s.ppuBus at' ∧
    (at' < 0x3F00 → r.1 = s.ppu.readBuffer) ∧
    (0x3F00 ≤ at' → r.1 = s.ppu.palRam.read (palIndex at') &&& (if s.ppu.mask.getLsbD 0 then 0x30 else 0xFF)) ∧
    (at' < 0x2000 → t.ppu.ntRam = s.ppu.ntRam ∧ t.ppu.palRam = s.ppu.palRam ∧
      (s.cart.chrIsRam = false → t.cart = s.cart) ∧
      (s.cart.chrIsRam = true → t.ppu.read t.ppuBus at' = x ∧
        ∀ j, j ≠ chrOffset s.banks.chr s.cart.chrSize at' → t.cart.chr.read j = s.cart.chr.read j)) ∧
    (0x2000 ≤ at' → at' < 0x3F00 → t.cart = s.cart ∧ t.ppu.palRam = s.ppu.palRam ∧ t.ppu.read t.ppuBus at' = x ∧
      ∀ j, j ≠ ntMirror s.mirroring at' → t.ppu.ntRam.read j = s.ppu.ntRam.read j) ∧
    (0x3F00 ≤ at' → t.cart = s.cart ∧ t.ppu.ntRam = s.ppu.ntRam ∧ t.ppu.palRam.read (palIndex at') = x ∧
      ∀ j, j ≠ palIndex at' → t.ppu.palRam.read j = s.ppu.palRam.read j)

/-- R422, R424: the physical half each logical nametable lies in under each mirroring, and the palette's mirrored entries.
Rests on the spec's decisions D27, D52 and what the spec marks as general knowledge in R422. -/
def Obligations.PpuMirrors : Prop :=
  ∀ a : Nat, 
    (0x2000 ≤ a → a < 0x3F00 →
      ntMirror .vertical a = a / 0x400 % 2 * 0x400 + a % 0x400 ∧
      ntMirror .horizontal a = a / 0x400 / 2 % 2 * 0x400 + a % 0x400 ∧
      ntMirror .oneScreenLow a = a % 0x400 ∧ ntMirror .oneScreenHigh a = 0x400 + a % 0x400 ∧
      ntMirror .fourScreen a = a / 0x400 % 2 * 0x400 + a % 0x400) ∧
    (∀ m, ntMirror m a < 0x800) ∧
    palIndex a = (if a % 32 ∈ [16, 20, 24, 28] then a % 32 - 16 else a % 32)

/-! ## PPU rendering -/

/-- R463, R464: the scroll increments by field: coarse X with the horizontal nametable bit, fine Y, coarse Y with the vertical
one. -/
def Obligations.ScrollIncrements : Prop :=
  ∀ v : BitVec 15,
    ((hScroll v).toNat / 32 % 32 = v.toNat / 32 % 32 ∧ (hScroll v).toNat / 0x800 = v.toNat / 0x800 ∧
      (hScroll v).toNat % 32 = (v.toNat % 32 + 1) % 32 ∧
      ((hScroll v).getLsbD 10 = (v.getLsbD 10 ^^ decide (v.toNat % 32 = 31)))) ∧
    (coarseX (vScroll v) = coarseX v ∧ (vScroll v).getLsbD 10 = v.getLsbD 10 ∧
      (fineY (vScroll v)).toNat = ((fineY v).toNat + 1) % 8 ∧
      (coarseY (vScroll v)).toNat =
        (if (fineY v).toNat < 7 then (coarseY v).toNat
         else if (coarseY v).toNat = 29 then 0 else ((coarseY v).toNat + 1) % 32) ∧
      (vScroll v).getLsbD 11 = (v.getLsbD 11 ^^ (decide ((fineY v).toNat = 7) && decide ((coarseY v).toNat = 29))))

/-- R455, R456: the VBlank flag is set at dot 1 of scanline 241, where the NMI is raised if PPUCTRL bit 7 is set, and cleared
with the other two flags at dot 1 of scanline 261; no other dot changes it or raises an NMI. Rests on the spec's decision D25
and what the spec marks as general knowledge in R455, R456. -/
def Obligations.VBlankAndNmi : Prop :=
  ∀ s : State, s.Inv →
    let t := ppuDot s
    (s.ppu.scanline = 241 → s.ppu.dot = 1 →
      t.ppu.status = s.ppu.status ||| 0x80 ∧ t.nmiFlag = (s.nmiFlag || s.ppu.ctrl.getLsbD 7)) ∧
    (s.ppu.scanline = 261 → s.ppu.dot = 1 → t.ppu.status = 0 ∧ t.nmiFlag = s.nmiFlag) ∧
    (s.ppu.dot ≠ 1 ∨ (s.ppu.scanline ≠ 241 ∧ s.ppu.scanline ≠ 261) →
      t.ppu.status.getLsbD 7 = s.ppu.status.getLsbD 7 ∧ t.nmiFlag = s.nmiFlag)

/-- R471: sprite evaluation fills the slots with the first eight sprites in range, in index order, each with its index and
its four OAM bytes, and sets the overflow flag
exactly if there is a ninth; on the pre-render line none is in range. Rests on the spec's decision D28. -/
def Obligations.SpriteEvaluation : Prop :=
  ∀ p : Ppu, p.Inv →
    let inRange := (List.range 64).filter fun i =>
      decide (p.scanline ≠ 261) && decide ((p.oam.read (4 * i)).toNat ≤ p.scanline) &&
        decide (p.scanline < (p.oam.read (4 * i)).toNat + if p.ctrl.getLsbD 5 then 16 else 8)
    let record (i : Nat) : SpriteInfo :=
      { id := i, y := p.oam.read (4 * i), tile := p.oam.read (4 * i + 1), attr := p.oam.read (4 * i + 2),
        x := p.oam.read (4 * i + 3), dataLo := 0, dataHi := 0 }
    p.evalSprites.secOam = (inRange.take 8).map record ++ p.secOam.drop (min 8 inRange.length) ∧
    p.evalSprites.status = (if 8 < inRange.length then p.status ||| 0x20 else p.status)

/-- R480 to R484: a pixel of a visible line. The background pixel is the pattern and palette bits at the fine-X tap, 0 where
hidden or transparent; the sprite pixel that of the first slot with an opaque one, none where hidden. The entry is the three
emphasis bits over the low six bits of the palette entry that priority selects, no other entry changes, the sprite-0 flag
rises exactly when sprite 0 wins over an opaque background anywhere but at column 255, and the background registers shift.
Rests on the spec's decision D29 and what the spec marks as general knowledge in R480, R482. -/
def Obligations.PixelOutput : Prop :=
  ∀ (p : Ppu) (b : PpuBus), p.Inv → p.scanline < 240 → 2 ≤ p.dot → p.dot ≤ 257 →
    let x := p.dot - 2
    let q := p.pixel b
    let two (hi lo : Bool) : Nat := 2 * hi.toNat + lo.toNat
    let pattern := two (p.bg.bgShiftHi.getLsbD (15 - p.fineX.toNat)) (p.bg.bgShiftLo.getLsbD (15 - p.fineX.toNat))
    let palette := two (p.bg.atShiftHi.getLsbD (7 - p.fineX.toNat)) (p.bg.atShiftLo.getLsbD (7 - p.fineX.toNat))
    let bgShown := p.mask.getLsbD 3 = true ∧ (p.mask.getLsbD 1 = true ∨ 8 ≤ x)
    let bg := if bgShown ∧ pattern ≠ 0 then pattern + 4 * palette else 0
    let spritesShown := p.mask.getLsbD 4 = true ∧ (p.mask.getLsbD 2 = true ∨ 8 ≤ x)
    let dots (i : SpriteInfo) : Nat :=
      if i.id ≠ 64 ∧ i.x.toNat ≤ x ∧ x < i.x.toNat + 8 then
        two (i.dataHi.getLsbD (7 - (x - i.x.toNat))) (i.dataLo.getLsbD (7 - (x - i.x.toNat)))
      else 0
    let entry (i : Nat) : BitVec 9 := (p.mask.extractLsb' 5 3).setWidth 9 <<< 6 ||| ((p.read b (0x3F00 + i)).setWidth 9 &&& 0x3F)
    (p.rendering = false → q.work.read p.scanline x = entry 0 ∧ q.status = p.status) ∧
    (p.rendering = true → ¬spritesShown ∨ (∀ i ∈ p.spr, dots i = 0) → q.work.read p.scanline x = entry bg ∧ q.status = p.status) ∧
    (∀ (before after : List SpriteInfo) (i : SpriteInfo), spritesShown → p.spr = before ++ i :: after →
      (∀ j ∈ before, dots j = 0) → dots i ≠ 0 →
      q.work.read p.scanline x =
        entry (if bg = 0 ∨ i.attr.getLsbD 5 = false then 16 + i.attr.toNat % 4 * 4 + dots i else bg) ∧
      q.status = (if i.id = 0 ∧ bg ≠ 0 ∧ x ≠ 255 then p.status ||| 0x40 else p.status)) ∧
    (∀ y' x', y' ≠ p.scanline ∨ x' ≠ x → q.work.read y' x' = p.work.read y' x') ∧
    (q.bg.bgShiftLo = p.bg.bgShiftLo <<< 1 ∧ q.bg.bgShiftHi = p.bg.bgShiftHi <<< 1 ∧
      q.bg.atShiftLo.toNat = (2 * p.bg.atShiftLo.toNat + p.bg.atLatchLo.toNat) % 256 ∧
      q.bg.atShiftHi.toNat = (2 * p.bg.atShiftHi.toNat + p.bg.atLatchHi.toNat) % 256)

/-- R11, R450, R451, R453: a tick is one more cycle and three dots; 89342 dots of a PPU that does not render come back to the
same dot of the same scanline with the frame's parity turned; while rendering, the last dot of an odd frame skips dot 0 of the
next one. Rests on the spec's decision D42. -/
def Obligations.FrameDots : Prop :=
  ∀ s : State,
    tick s = ppuDot (ppuDot (ppuDot { s with cycleCount := s.cycleCount + 1 })) ∧
    (s.Inv → s.ppu.rendering = false →
      let t := ppuDot^[89342] s
      t.ppu.scanline = s.ppu.scanline ∧ t.ppu.dot = s.ppu.dot ∧ t.ppu.frameOdd = !s.ppu.frameOdd) ∧
    (s.Inv → s.ppu.scanline = 261 → s.ppu.dot = 340 →
      let t := ppuDot s
      t.ppu.scanline = 0 ∧ t.ppu.dot = (if s.ppu.rendering && s.ppu.frameOdd then 1 else 0) ∧
        t.ppu.frameOdd = !s.ppu.frameOdd ∧ t.ppu.phase = .visible)

/-- R488, R489: the frame is published at dot 0 of scanline 240, each triple the palette file's for the entry's colour where
no emphasis bit is set; no other dot changes what the host reads. Rests on the spec's decision D49. -/
def Obligations.FramePublished : Prop :=
  ∀ s : State, s.Inv →
    let t := ppuDot s
    (s.ppu.scanline = 240 → s.ppu.dot = 0 →
      t.ppu.front = s.ppu.work ∧
      ∀ y x, y < 240 → x < 256 → (s.ppu.work.read y x).extractLsb' 6 3 = 0 →
        let c := 3 * ((s.ppu.work.read y x).toNat % 64)
        t.ppu.rgb.read y x = { red := s.palette.read c, green := s.palette.read (c + 1), blue := s.palette.read (c + 2) }) ∧
    (s.ppu.scanline ≠ 240 ∨ s.ppu.dot ≠ 0 → t.ppu.front = s.ppu.front ∧ t.ppu.rgb = s.ppu.rgb)

/-! ## Cartridge and mappers -/

/-- R510, R51: the bank tables always resolve inside their array: four offsets of whole 8 KB slots, eight of whole 1 KB
slots. Rests on the spec's decision D39 and what the spec marks as general knowledge in R510. -/
def Obligations.BanksInRange : Prop :=
  ∀ (m : Mapper) (prgSize chrSize : Nat), 0 < prgSize → prgSize % 0x4000 = 0 → 0 < chrSize → chrSize % 0x2000 = 0 →
    let banks := m.banks prgSize chrSize
    banks.prg.length = 4 ∧ banks.chr.length = 8 ∧
    (∀ o ∈ banks.prg, o % 0x2000 = 0 ∧ o + 0x1FFF < prgSize) ∧ (∀ o ∈ banks.chr, o % 0x400 = 0 ∧ o + 0x3FF < chrSize)

/-- R526, R527: a write of MMC1's serial port with bit 7 set starts over, whatever was shifted in; one with it clear shifts;
five of those from an empty port load the register that the fifth address selects with their low bits, the first one lowest,
and no other register. What the registers map: the byte of the image that each address reads, by PRG mode, and of CHR, by CHR
mode. Rests on the spec's decisions D31, D34 and what the spec marks as general knowledge in R510, R526, R527. -/
def Obligations.Mmc1Serial : Prop :=
  (∀ (r : Mmc1) (a : Addr) (v : Byte),
    (v.getLsbD 7 = true → r.write a v = { r with shift := 0, writeN := 0, control := r.control ||| 0x0C }) ∧
    (v.getLsbD 7 = false → r.writeN < 4 →
      r.write a v = { r with shift := BitVec.ofNat 5 (r.shift.toNat / 2 + 16 * (v.toNat % 2)), writeN := r.writeN + 1 })) ∧
  (∀ (r : Mmc1) (a1 a2 a3 a4 a5 : Addr) (v1 v2 v3 v4 v5 : Byte), r.writeN = 0 →
    (∀ w ∈ [v1, v2, v3, v4, v5], w.getLsbD 7 = false) →
    let loaded := ((((r.write a1 v1).write a2 v2).write a3 v3).write a4 v4).write a5 v5
    let value := v1.toNat % 2 + 2 * (v2.toNat % 2) + 4 * (v3.toNat % 2) + 8 * (v4.toNat % 2) + 16 * (v5.toNat % 2)
    let four := [loaded.control, loaded.chr0, loaded.chr1, loaded.prg]
    let old := [r.control, r.chr0, r.chr1, r.prg]
    loaded.writeN = 0 ∧ four = old.set (a5.toNat / 0x2000 % 4) (BitVec.ofNat 5 value)) ∧
  (∀ (r : Mmc1) (b : Addr) (c : Nat) (s : State), s.Inv → s.mapper = .mmc1 r → 0x8000 ≤ b.toNat → c < 0x2000 →
    let bank := r.prg.toNat % 16
    let half := (b.toNat - 0x8000) / 0x4000
    let prgMode := r.control.toNat / 4 % 4
    let page :=
      if prgMode < 2 then bank / 2 * 2 + half
      else if prgMode = 2 then (if half = 0 then 0 else bank)
      else if half = 0 then bank else s.cart.prgSize / 0x4000 - 1
    let chrPage :=
      if r.control.getLsbD 4 then (if c < 0x1000 then r.chr0.toNat else r.chr1.toNat)
      else r.chr0.toNat / 2 * 2 + c / 0x1000
    peek b s = s.cart.prg.read ((page * 0x4000 + b.toNat % 0x4000) % s.cart.prgSize) ∧
    s.ppu.read s.ppuBus c = s.cart.chr.read ((chrPage * 0x1000 + c % 0x1000) % s.cart.chrSize) ∧
    s.mirroring = [.oneScreenLow, .oneScreenHigh, .vertical, .horizontal].getD (r.control.toNat % 4) .horizontal)

/-- R465, R542 to R548: the scanline counter of MMC3 steps at dot 260 of the visible and pre-render scanlines and at no other
dot, and raises the IRQ where it comes to 0 while enabled: with the counter at 0 (a forced reload), a period `n` raises it at
the (n+1)-th scanline and not before. What each register write does, the acknowledging one alone clearing `irq_flag`; and what
the registers map: the byte of PRG and of CHR that each address reads, by the two mode bits. Rests on the spec's decisions
D31, D35, D45 and what the spec marks as general knowledge in R510, R542, R544, R548. -/
def Obligations.Mmc3Irq : Prop :=
  ∀ (r : Mmc3) (a : Addr) (v : Byte) (s : State), s.mapper = .mmc3 r →
    let t := busWrite a v s
    (s.Inv →
      let counter := if r.irqCounter = 0 then r.irqPeriod else r.irqCounter - 1
      let counts := (s.ppu.scanline < 240 ∨ s.ppu.scanline = 261) ∧ s.ppu.dot = 260
      (ppuDot s).mapper = (if counts then .mmc3 { r with irqCounter := counter } else .mmc3 r) ∧
      (ppuDot s).irqFlag = (s.irqFlag || decide (counts ∧ r.irqEnabled = true ∧ counter = 0))) ∧
    (r.irqCounter = 0 → r.irqEnabled = true → ∀ k, k ≤ r.irqPeriod.toNat →
      (Mapper.countScanline^[k] (.mmc3 r)).raisesIrq = decide (k = r.irqPeriod.toNat)) ∧
    (0x8000 ≤ a.toNat → a.toNat < 0xA000 → a.toNat % 2 = 0 → t.mapper = .mmc3 { r with bankSelect := v }) ∧
    (0x8000 ≤ a.toNat → a.toNat < 0xA000 → a.toNat % 2 = 1 →
      t.mapper = .mmc3 { r with regs := r.regs.set (r.bankSelect.toNat % 8) v }) ∧
    (0xA000 ≤ a.toNat → a.toNat < 0xC000 → a.toNat % 2 = 0 →
      t.mapper = .mmc3 { r with mirrorBit := v.getLsbD 0 } ∧ t.mirroring = if v.getLsbD 0 then .horizontal else .vertical) ∧
    (0xA000 ≤ a.toNat → a.toNat < 0xC000 → a.toNat % 2 = 1 → t.mapper = .mmc3 r) ∧
    (0xC000 ≤ a.toNat → a.toNat < 0xE000 → a.toNat % 2 = 0 → t.mapper = .mmc3 { r with irqPeriod := v }) ∧
    (0xC000 ≤ a.toNat → a.toNat < 0xE000 → a.toNat % 2 = 1 → t.mapper = .mmc3 { r with irqCounter := 0 }) ∧
    (0xE000 ≤ a.toNat → a.toNat % 2 = 0 → t.irqFlag = false ∧ t.mapper = .mmc3 { r with irqEnabled := false }) ∧
    (0xE000 ≤ a.toNat → a.toNat % 2 = 1 → t.mapper = .mmc3 { r with irqEnabled := true }) ∧
    (0x8000 ≤ a.toNat → a.toNat < 0xE000 ∨ a.toNat % 2 = 1 → t.irqFlag = s.irqFlag) ∧
    (∀ (b : Addr) (c : Nat), s.Inv → 0x8000 ≤ b.toNat → c < 0x2000 →
      let register (i : Nat) : Nat := (r.regs.getD i 0).toNat
      let last := s.cart.prgSize / 0x2000 - 1
      let window := (b.toNat - 0x8000) / 0x2000
      let page :=
        if window = 1 then register 7
        else if window = 3 then last
        else if window = 0 ↔ r.bankSelect.getLsbD 6 = false then register 6 else last - 1
      let k := if r.bankSelect.getLsbD 7 then (c / 0x400 + 4) % 8 else c / 0x400
      let chrPage := if k < 4 then register (k / 2) / 2 * 2 + k % 2 else register (k - 2)
      peek b s = s.cart.prg.read ((page * 0x2000 + b.toNat % 0x2000) % s.cart.prgSize) ∧
      s.ppu.read s.ppuBus c = s.cart.chr.read ((chrPage * 0x400 + c % 0x400) % s.cart.chrSize) ∧
      s.mirroring = if r.mirrorBit then .horizontal else .vertical)

/-- R535, R536, R552, R553, R520, R521: a byte of $8000-$FFFF after a bank write on UNROM and AxROM, and always on NROM, by
its place in the image. Rests on the spec's decisions D31, D32, D36 and what the spec marks as general knowledge in R535,
R552. -/
def Obligations.SimpleMapperReads : Prop :=
  ∀ (a b : Addr) (v : Byte) (s : State), s.Inv → 0x8000 ≤ a.toNat → 0x8000 ≤ b.toNat →
    let t := busWrite a v s
    (s.mapper = .nrom → t = s ∧ peek b s = s.cart.prg.read ((b.toNat - 0x8000) % s.cart.prgSize)) ∧
    (∀ old, s.mapper = .unrom old →
      (b.toNat < 0xC000 → peek b t = s.cart.prg.read ((v.toNat % 16 * 0x4000 + b.toNat - 0x8000) % s.cart.prgSize)) ∧
      (0xC000 ≤ b.toNat → peek b t = s.cart.prg.read (s.cart.prgSize - 0x4000 + (b.toNat - 0xC000)))) ∧
    (∀ old, s.mapper = .axrom old →
      peek b t = s.cart.prg.read ((v.toNat % 16 * 0x8000 + (b.toNat - 0x8000)) % s.cart.prgSize) ∧
      t.mirroring = if v.getLsbD 4 then .oneScreenHigh else .oneScreenLow)

/-! ## The host -/

/-- R500, R501, R502, R505, R603, R605, R650: an image too short for its header or with an unsupported mapper number halts
with that reason; any other gives a loaded machine, or one still halted if it was (R15, log entry 18, DEDUCED), that
`power_on` starts at its reset vector. Rests on the spec's decisions D8,
D21, D23, D30, D37, D38. -/
def Obligations.LoadAndPowerOn : Prop :=
  ∀ (file : List Byte) (s : State),
    let header (i : Nat) : Nat := (file.getD i 0).toNat
    let complete := 16 ≤ file.length ∧ 0 < header 4 ∧ 16 + header 4 * 16384 + header 5 * 8192 ≤ file.length
    let number := header 7 / 16 * 16 + header 6 / 16
    (¬complete → (loadRom file s).run = .halted (.shortFile .rom)) ∧
    (complete → number ∉ [0, 1, 2, 4, 7] → (loadRom file s).run = .halted (.unsupportedMapper number)) ∧
    (complete → number ∈ [0, 1, 2, 4, 7] →
      (∀ r, s.run = .halted r → (loadRom file s).run = .halted r) ∧
      ((∀ r, s.run ≠ .halted r) → (loadRom file s).run = .loaded)) ∧
    (complete → number ∈ [0, 1, 2, 4, 7] → ∃ t, powerOn (loadRom file s) = .next t ∧
      t.run = .running ∧ t.mapper.number = number ∧ t.cart.prgSize = header 4 * 16384 ∧
      t.cart.chrIsRam = decide (header 5 = 0) ∧
      (∀ i, i < header 4 * 16384 → t.cart.prg.read i = file.getD (16 + i) 0) ∧
      t.sp = 0xFD ∧ t.p = 0x34 ∧ (∀ i, t.ram.read i = 0) ∧
      t.pc = addrOf (peek 0xFFFC t) (peek 0xFFFD t))

/-- R580 to R586, R590, R591: a snapshot loads into any running machine with a cartridge of the same kind and restores every
saved field; the sprite buffers are rebuilt, and what is not saved stays the loading machine's. R586, R605, R606, R671: a file
shorter than a snapshot of this cartridge is fatal whatever its bytes are; one saved with another kind of cartridge never
loads; none at all changes nothing. (That the file says which cartridge it was saved with is log entry 8; that a short one
leaves no field assigned is log entry 19; both are the model's choice.) Rests on the spec's decisions D30, D39. -/
def Obligations.SnapshotRoundTrip : Prop :=
  (∀ s u : State, s.Inv → u.Inv → s.run = .running → u.run = .running → s.cycleCount < 2 ^ 64 → u.cartKind = s.cartKind →
    s.cart.prgRamSize < 2 ^ 64 → s.cart.chrSize < 2 ^ 64 →
    ∃ bytes, saveSnapshot s = .next bytes ∧ loadSnapshot (some { bytes := bytes, savedOn := s.cartKind }) u = .next (rebuildSprites
      { s with
        palette := u.palette
        ctl := { s.ctl with buttons0 := u.ctl.buttons0, buttons1 := u.ctl.buttons1 }
        cart := { u.cart with prgRam := s.cart.prgRam, chr := if s.cart.chrIsRam then s.cart.chr else u.cart.chr }
        ppu := { s.ppu with secOam := u.ppu.secOam, spr := u.ppu.spr, work := u.ppu.work, front := u.ppu.front,
                            rgb := u.ppu.rgb } })) ∧
  (∀ (file : SnapshotFile) (u : State), u.run = .running →
    let registers := [(0, 0), (1, 6), (2, 1), (4, 13), (7, 1)].lookup u.mapper.number
    let size := 2065 + 2369 + registers.getD 0 + (8 + u.cart.prgRamSize) + (if u.cart.chrIsRam then 8 + u.cart.chrSize else 0) + 3
    (file.bytes.length < size → loadSnapshot (some file) u = .next (u.failLoad (.shortFile .snapshot))) ∧
    (file.savedOn ≠ u.cartKind →
      loadSnapshot (some file) u = .next (u.failLoad (.shortFile .snapshot)) ∨
        loadSnapshot (some file) u = .refused .foreignSnapshot)) ∧
  (∀ u : State, u.run = .running → loadSnapshot none u = .next u)
end

