-- ==== Sys2Proof/Laws/State.lean ====
section
/-! SUPPORT. One lemma per field of State per register write, true by unfolding, so that no later proof unfolds a record
update; and the flags of `P` after a flag is written. -/

namespace Sys2Proof.Machine

/-! ## `setA` -/

@[simp] theorem State.setA_a (v : Byte) (s : State) : (s.setA v).a = v := rfl
@[simp] theorem State.setA_x (v : Byte) (s : State) : (s.setA v).x = s.x := rfl
@[simp] theorem State.setA_y (v : Byte) (s : State) : (s.setA v).y = s.y := rfl
@[simp] theorem State.setA_sp (v : Byte) (s : State) : (s.setA v).sp = s.sp := rfl
@[simp] theorem State.setA_p (v : Byte) (s : State) : (s.setA v).p = s.p := rfl
@[simp] theorem State.setA_pc (v : Byte) (s : State) : (s.setA v).pc = s.pc := rfl
@[simp] theorem State.setA_cycleCount (v : Byte) (s : State) : (s.setA v).cycleCount = s.cycleCount := rfl
@[simp] theorem State.setA_nmiFlag (v : Byte) (s : State) : (s.setA v).nmiFlag = s.nmiFlag := rfl
@[simp] theorem State.setA_irqFlag (v : Byte) (s : State) : (s.setA v).irqFlag = s.irqFlag := rfl
@[simp] theorem State.setA_run (v : Byte) (s : State) : (s.setA v).run = s.run := rfl
@[simp] theorem State.setA_ram (v : Byte) (s : State) : (s.setA v).ram = s.ram := rfl
@[simp] theorem State.setA_ppu (v : Byte) (s : State) : (s.setA v).ppu = s.ppu := rfl
@[simp] theorem State.setA_mirroring (v : Byte) (s : State) : (s.setA v).mirroring = s.mirroring := rfl
@[simp] theorem State.setA_cart (v : Byte) (s : State) : (s.setA v).cart = s.cart := rfl
@[simp] theorem State.setA_mapper (v : Byte) (s : State) : (s.setA v).mapper = s.mapper := rfl
@[simp] theorem State.setA_banks (v : Byte) (s : State) : (s.setA v).banks = s.banks := rfl
@[simp] theorem State.setA_ctl (v : Byte) (s : State) : (s.setA v).ctl = s.ctl := rfl
@[simp] theorem State.setA_palette (v : Byte) (s : State) : (s.setA v).palette = s.palette := rfl

/-! ## `setX` -/

@[simp] theorem State.setX_a (v : Byte) (s : State) : (s.setX v).a = s.a := rfl
@[simp] theorem State.setX_x (v : Byte) (s : State) : (s.setX v).x = v := rfl
@[simp] theorem State.setX_y (v : Byte) (s : State) : (s.setX v).y = s.y := rfl
@[simp] theorem State.setX_sp (v : Byte) (s : State) : (s.setX v).sp = s.sp := rfl
@[simp] theorem State.setX_p (v : Byte) (s : State) : (s.setX v).p = s.p := rfl
@[simp] theorem State.setX_pc (v : Byte) (s : State) : (s.setX v).pc = s.pc := rfl
@[simp] theorem State.setX_cycleCount (v : Byte) (s : State) : (s.setX v).cycleCount = s.cycleCount := rfl
@[simp] theorem State.setX_nmiFlag (v : Byte) (s : State) : (s.setX v).nmiFlag = s.nmiFlag := rfl
@[simp] theorem State.setX_irqFlag (v : Byte) (s : State) : (s.setX v).irqFlag = s.irqFlag := rfl
@[simp] theorem State.setX_run (v : Byte) (s : State) : (s.setX v).run = s.run := rfl
@[simp] theorem State.setX_ram (v : Byte) (s : State) : (s.setX v).ram = s.ram := rfl
@[simp] theorem State.setX_ppu (v : Byte) (s : State) : (s.setX v).ppu = s.ppu := rfl
@[simp] theorem State.setX_mirroring (v : Byte) (s : State) : (s.setX v).mirroring = s.mirroring := rfl
@[simp] theorem State.setX_cart (v : Byte) (s : State) : (s.setX v).cart = s.cart := rfl
@[simp] theorem State.setX_mapper (v : Byte) (s : State) : (s.setX v).mapper = s.mapper := rfl
@[simp] theorem State.setX_banks (v : Byte) (s : State) : (s.setX v).banks = s.banks := rfl
@[simp] theorem State.setX_ctl (v : Byte) (s : State) : (s.setX v).ctl = s.ctl := rfl
@[simp] theorem State.setX_palette (v : Byte) (s : State) : (s.setX v).palette = s.palette := rfl

/-! ## `setY` -/

@[simp] theorem State.setY_a (v : Byte) (s : State) : (s.setY v).a = s.a := rfl
@[simp] theorem State.setY_x (v : Byte) (s : State) : (s.setY v).x = s.x := rfl
@[simp] theorem State.setY_y (v : Byte) (s : State) : (s.setY v).y = v := rfl
@[simp] theorem State.setY_sp (v : Byte) (s : State) : (s.setY v).sp = s.sp := rfl
@[simp] theorem State.setY_p (v : Byte) (s : State) : (s.setY v).p = s.p := rfl
@[simp] theorem State.setY_pc (v : Byte) (s : State) : (s.setY v).pc = s.pc := rfl
@[simp] theorem State.setY_cycleCount (v : Byte) (s : State) : (s.setY v).cycleCount = s.cycleCount := rfl
@[simp] theorem State.setY_nmiFlag (v : Byte) (s : State) : (s.setY v).nmiFlag = s.nmiFlag := rfl
@[simp] theorem State.setY_irqFlag (v : Byte) (s : State) : (s.setY v).irqFlag = s.irqFlag := rfl
@[simp] theorem State.setY_run (v : Byte) (s : State) : (s.setY v).run = s.run := rfl
@[simp] theorem State.setY_ram (v : Byte) (s : State) : (s.setY v).ram = s.ram := rfl
@[simp] theorem State.setY_ppu (v : Byte) (s : State) : (s.setY v).ppu = s.ppu := rfl
@[simp] theorem State.setY_mirroring (v : Byte) (s : State) : (s.setY v).mirroring = s.mirroring := rfl
@[simp] theorem State.setY_cart (v : Byte) (s : State) : (s.setY v).cart = s.cart := rfl
@[simp] theorem State.setY_mapper (v : Byte) (s : State) : (s.setY v).mapper = s.mapper := rfl
@[simp] theorem State.setY_banks (v : Byte) (s : State) : (s.setY v).banks = s.banks := rfl
@[simp] theorem State.setY_ctl (v : Byte) (s : State) : (s.setY v).ctl = s.ctl := rfl
@[simp] theorem State.setY_palette (v : Byte) (s : State) : (s.setY v).palette = s.palette := rfl

/-! ## `setSp` -/

@[simp] theorem State.setSp_a (v : Byte) (s : State) : (s.setSp v).a = s.a := rfl
@[simp] theorem State.setSp_x (v : Byte) (s : State) : (s.setSp v).x = s.x := rfl
@[simp] theorem State.setSp_y (v : Byte) (s : State) : (s.setSp v).y = s.y := rfl
@[simp] theorem State.setSp_sp (v : Byte) (s : State) : (s.setSp v).sp = v := rfl
@[simp] theorem State.setSp_p (v : Byte) (s : State) : (s.setSp v).p = s.p := rfl
@[simp] theorem State.setSp_pc (v : Byte) (s : State) : (s.setSp v).pc = s.pc := rfl
@[simp] theorem State.setSp_cycleCount (v : Byte) (s : State) : (s.setSp v).cycleCount = s.cycleCount := rfl
@[simp] theorem State.setSp_nmiFlag (v : Byte) (s : State) : (s.setSp v).nmiFlag = s.nmiFlag := rfl
@[simp] theorem State.setSp_irqFlag (v : Byte) (s : State) : (s.setSp v).irqFlag = s.irqFlag := rfl
@[simp] theorem State.setSp_run (v : Byte) (s : State) : (s.setSp v).run = s.run := rfl
@[simp] theorem State.setSp_ram (v : Byte) (s : State) : (s.setSp v).ram = s.ram := rfl
@[simp] theorem State.setSp_ppu (v : Byte) (s : State) : (s.setSp v).ppu = s.ppu := rfl
@[simp] theorem State.setSp_mirroring (v : Byte) (s : State) : (s.setSp v).mirroring = s.mirroring := rfl
@[simp] theorem State.setSp_cart (v : Byte) (s : State) : (s.setSp v).cart = s.cart := rfl
@[simp] theorem State.setSp_mapper (v : Byte) (s : State) : (s.setSp v).mapper = s.mapper := rfl
@[simp] theorem State.setSp_banks (v : Byte) (s : State) : (s.setSp v).banks = s.banks := rfl
@[simp] theorem State.setSp_ctl (v : Byte) (s : State) : (s.setSp v).ctl = s.ctl := rfl
@[simp] theorem State.setSp_palette (v : Byte) (s : State) : (s.setSp v).palette = s.palette := rfl

/-! ## `setP` -/

@[simp] theorem State.setP_a (v : Byte) (s : State) : (s.setP v).a = s.a := rfl
@[simp] theorem State.setP_x (v : Byte) (s : State) : (s.setP v).x = s.x := rfl
@[simp] theorem State.setP_y (v : Byte) (s : State) : (s.setP v).y = s.y := rfl
@[simp] theorem State.setP_sp (v : Byte) (s : State) : (s.setP v).sp = s.sp := rfl
@[simp] theorem State.setP_p (v : Byte) (s : State) : (s.setP v).p = v := rfl
@[simp] theorem State.setP_pc (v : Byte) (s : State) : (s.setP v).pc = s.pc := rfl
@[simp] theorem State.setP_cycleCount (v : Byte) (s : State) : (s.setP v).cycleCount = s.cycleCount := rfl
@[simp] theorem State.setP_nmiFlag (v : Byte) (s : State) : (s.setP v).nmiFlag = s.nmiFlag := rfl
@[simp] theorem State.setP_irqFlag (v : Byte) (s : State) : (s.setP v).irqFlag = s.irqFlag := rfl
@[simp] theorem State.setP_run (v : Byte) (s : State) : (s.setP v).run = s.run := rfl
@[simp] theorem State.setP_ram (v : Byte) (s : State) : (s.setP v).ram = s.ram := rfl
@[simp] theorem State.setP_ppu (v : Byte) (s : State) : (s.setP v).ppu = s.ppu := rfl
@[simp] theorem State.setP_mirroring (v : Byte) (s : State) : (s.setP v).mirroring = s.mirroring := rfl
@[simp] theorem State.setP_cart (v : Byte) (s : State) : (s.setP v).cart = s.cart := rfl
@[simp] theorem State.setP_mapper (v : Byte) (s : State) : (s.setP v).mapper = s.mapper := rfl
@[simp] theorem State.setP_banks (v : Byte) (s : State) : (s.setP v).banks = s.banks := rfl
@[simp] theorem State.setP_ctl (v : Byte) (s : State) : (s.setP v).ctl = s.ctl := rfl
@[simp] theorem State.setP_palette (v : Byte) (s : State) : (s.setP v).palette = s.palette := rfl

/-! ## `setPc` -/

@[simp] theorem State.setPc_a (v : Addr) (s : State) : (s.setPc v).a = s.a := rfl
@[simp] theorem State.setPc_x (v : Addr) (s : State) : (s.setPc v).x = s.x := rfl
@[simp] theorem State.setPc_y (v : Addr) (s : State) : (s.setPc v).y = s.y := rfl
@[simp] theorem State.setPc_sp (v : Addr) (s : State) : (s.setPc v).sp = s.sp := rfl
@[simp] theorem State.setPc_p (v : Addr) (s : State) : (s.setPc v).p = s.p := rfl
@[simp] theorem State.setPc_pc (v : Addr) (s : State) : (s.setPc v).pc = v := rfl
@[simp] theorem State.setPc_cycleCount (v : Addr) (s : State) : (s.setPc v).cycleCount = s.cycleCount := rfl
@[simp] theorem State.setPc_nmiFlag (v : Addr) (s : State) : (s.setPc v).nmiFlag = s.nmiFlag := rfl
@[simp] theorem State.setPc_irqFlag (v : Addr) (s : State) : (s.setPc v).irqFlag = s.irqFlag := rfl
@[simp] theorem State.setPc_run (v : Addr) (s : State) : (s.setPc v).run = s.run := rfl
@[simp] theorem State.setPc_ram (v : Addr) (s : State) : (s.setPc v).ram = s.ram := rfl
@[simp] theorem State.setPc_ppu (v : Addr) (s : State) : (s.setPc v).ppu = s.ppu := rfl
@[simp] theorem State.setPc_mirroring (v : Addr) (s : State) : (s.setPc v).mirroring = s.mirroring := rfl
@[simp] theorem State.setPc_cart (v : Addr) (s : State) : (s.setPc v).cart = s.cart := rfl
@[simp] theorem State.setPc_mapper (v : Addr) (s : State) : (s.setPc v).mapper = s.mapper := rfl
@[simp] theorem State.setPc_banks (v : Addr) (s : State) : (s.setPc v).banks = s.banks := rfl
@[simp] theorem State.setPc_ctl (v : Addr) (s : State) : (s.setPc v).ctl = s.ctl := rfl
@[simp] theorem State.setPc_palette (v : Addr) (s : State) : (s.setPc v).palette = s.palette := rfl

/-! ## `halt` -/

@[simp] theorem State.halt_a (r : FatalReason) (s : State) : (s.halt r).a = s.a := rfl
@[simp] theorem State.halt_x (r : FatalReason) (s : State) : (s.halt r).x = s.x := rfl
@[simp] theorem State.halt_y (r : FatalReason) (s : State) : (s.halt r).y = s.y := rfl
@[simp] theorem State.halt_sp (r : FatalReason) (s : State) : (s.halt r).sp = s.sp := rfl
@[simp] theorem State.halt_p (r : FatalReason) (s : State) : (s.halt r).p = s.p := rfl
@[simp] theorem State.halt_pc (r : FatalReason) (s : State) : (s.halt r).pc = s.pc := rfl
@[simp] theorem State.halt_cycleCount (r : FatalReason) (s : State) : (s.halt r).cycleCount = s.cycleCount := rfl
@[simp] theorem State.halt_nmiFlag (r : FatalReason) (s : State) : (s.halt r).nmiFlag = s.nmiFlag := rfl
@[simp] theorem State.halt_irqFlag (r : FatalReason) (s : State) : (s.halt r).irqFlag = s.irqFlag := rfl
@[simp] theorem State.halt_run (r : FatalReason) (s : State) : (s.halt r).run = .halted r := rfl
@[simp] theorem State.halt_ram (r : FatalReason) (s : State) : (s.halt r).ram = s.ram := rfl
@[simp] theorem State.halt_ppu (r : FatalReason) (s : State) : (s.halt r).ppu = s.ppu := rfl
@[simp] theorem State.halt_mirroring (r : FatalReason) (s : State) : (s.halt r).mirroring = s.mirroring := rfl
@[simp] theorem State.halt_cart (r : FatalReason) (s : State) : (s.halt r).cart = s.cart := rfl
@[simp] theorem State.halt_mapper (r : FatalReason) (s : State) : (s.halt r).mapper = s.mapper := rfl
@[simp] theorem State.halt_banks (r : FatalReason) (s : State) : (s.halt r).banks = s.banks := rfl
@[simp] theorem State.halt_ctl (r : FatalReason) (s : State) : (s.halt r).ctl = s.ctl := rfl
@[simp] theorem State.halt_palette (r : FatalReason) (s : State) : (s.halt r).palette = s.palette := rfl

/-! ## `setFlag` and `setNZ` -/

@[simp] theorem State.setFlag_a (f : Flag) (b : Bool) (s : State) : (s.setFlag f b).a = s.a := rfl
@[simp] theorem State.setFlag_x (f : Flag) (b : Bool) (s : State) : (s.setFlag f b).x = s.x := rfl
@[simp] theorem State.setFlag_y (f : Flag) (b : Bool) (s : State) : (s.setFlag f b).y = s.y := rfl
@[simp] theorem State.setFlag_sp (f : Flag) (b : Bool) (s : State) : (s.setFlag f b).sp = s.sp := rfl
@[simp] theorem State.setFlag_p (f : Flag) (b : Bool) (s : State) : (s.setFlag f b).p = withFlag f b s.p := rfl
@[simp] theorem State.setFlag_pc (f : Flag) (b : Bool) (s : State) : (s.setFlag f b).pc = s.pc := rfl
@[simp] theorem State.setFlag_cycleCount (f : Flag) (b : Bool) (s : State) : (s.setFlag f b).cycleCount = s.cycleCount := rfl
@[simp] theorem State.setFlag_nmiFlag (f : Flag) (b : Bool) (s : State) : (s.setFlag f b).nmiFlag = s.nmiFlag := rfl
@[simp] theorem State.setFlag_irqFlag (f : Flag) (b : Bool) (s : State) : (s.setFlag f b).irqFlag = s.irqFlag := rfl
@[simp] theorem State.setFlag_run (f : Flag) (b : Bool) (s : State) : (s.setFlag f b).run = s.run := rfl
@[simp] theorem State.setFlag_ram (f : Flag) (b : Bool) (s : State) : (s.setFlag f b).ram = s.ram := rfl
@[simp] theorem State.setFlag_ppu (f : Flag) (b : Bool) (s : State) : (s.setFlag f b).ppu = s.ppu := rfl
@[simp] theorem State.setFlag_mirroring (f : Flag) (b : Bool) (s : State) : (s.setFlag f b).mirroring = s.mirroring := rfl
@[simp] theorem State.setFlag_cart (f : Flag) (b : Bool) (s : State) : (s.setFlag f b).cart = s.cart := rfl
@[simp] theorem State.setFlag_mapper (f : Flag) (b : Bool) (s : State) : (s.setFlag f b).mapper = s.mapper := rfl
@[simp] theorem State.setFlag_banks (f : Flag) (b : Bool) (s : State) : (s.setFlag f b).banks = s.banks := rfl
@[simp] theorem State.setFlag_ctl (f : Flag) (b : Bool) (s : State) : (s.setFlag f b).ctl = s.ctl := rfl
@[simp] theorem State.setFlag_palette (f : Flag) (b : Bool) (s : State) : (s.setFlag f b).palette = s.palette := rfl

@[simp] theorem State.setNZ_a (v : Byte) (s : State) : (s.setNZ v).a = s.a := rfl
@[simp] theorem State.setNZ_x (v : Byte) (s : State) : (s.setNZ v).x = s.x := rfl
@[simp] theorem State.setNZ_y (v : Byte) (s : State) : (s.setNZ v).y = s.y := rfl
@[simp] theorem State.setNZ_sp (v : Byte) (s : State) : (s.setNZ v).sp = s.sp := rfl
@[simp] theorem State.setNZ_pc (v : Byte) (s : State) : (s.setNZ v).pc = s.pc := rfl
@[simp] theorem State.setNZ_cycleCount (v : Byte) (s : State) : (s.setNZ v).cycleCount = s.cycleCount := rfl
@[simp] theorem State.setNZ_nmiFlag (v : Byte) (s : State) : (s.setNZ v).nmiFlag = s.nmiFlag := rfl
@[simp] theorem State.setNZ_irqFlag (v : Byte) (s : State) : (s.setNZ v).irqFlag = s.irqFlag := rfl
@[simp] theorem State.setNZ_run (v : Byte) (s : State) : (s.setNZ v).run = s.run := rfl
@[simp] theorem State.setNZ_ram (v : Byte) (s : State) : (s.setNZ v).ram = s.ram := rfl
@[simp] theorem State.setNZ_ppu (v : Byte) (s : State) : (s.setNZ v).ppu = s.ppu := rfl
@[simp] theorem State.setNZ_mirroring (v : Byte) (s : State) : (s.setNZ v).mirroring = s.mirroring := rfl
@[simp] theorem State.setNZ_cart (v : Byte) (s : State) : (s.setNZ v).cart = s.cart := rfl
@[simp] theorem State.setNZ_mapper (v : Byte) (s : State) : (s.setNZ v).mapper = s.mapper := rfl
@[simp] theorem State.setNZ_banks (v : Byte) (s : State) : (s.setNZ v).banks = s.banks := rfl
@[simp] theorem State.setNZ_ctl (v : Byte) (s : State) : (s.setNZ v).ctl = s.ctl := rfl
@[simp] theorem State.setNZ_palette (v : Byte) (s : State) : (s.setNZ v).palette = s.palette := rfl

@[simp] theorem State.setNZ_p (v : Byte) (s : State) :
    (s.setNZ v).p = withFlag .negative (v.getLsbD 7) (withFlag .zero (decide (v = 0)) s.p) := rfl

/-! ## Flags -/

theorem withFlag_getLsbD (f : Flag) (b : Bool) (p : Byte) (i : Nat) (hi : i < 8) :
    (withFlag f b p).getLsbD i = if i = f.index then b else p.getLsbD i := by
  have hc : i = 0 ∨ i = 1 ∨ i = 2 ∨ i = 3 ∨ i = 4 ∨ i = 5 ∨ i = 6 ∨ i = 7 := by omega
  rcases hc with h | h | h | h | h | h | h | h <;> subst h <;> cases f <;> cases b <;>
    simp [withFlag, Flag.bit, Flag.index]

theorem Flag.index_lt (f : Flag) : f.index < 8 := by cases f <;> decide

theorem Flag.index_inj {f g : Flag} (h : f.index = g.index) : f = g := by cases f <;> cases g <;> first | rfl | (simp [Flag.index] at h)

/-- A flag of a status byte after one flag is written. -/
theorem getFlag_withFlag (f g : Flag) (b : Bool) (p : Byte) :
    (withFlag f b p).getLsbD g.index = if g = f then b else p.getLsbD g.index := by
  rw [withFlag_getLsbD f b p g.index g.index_lt]
  by_cases h : g = f
  · subst h; simp
  · rw [if_neg h, if_neg fun he => h (Flag.index_inj he)]

@[simp] theorem State.flag_setFlag (f g : Flag) (b : Bool) (s : State) :
    (s.setFlag f b).flag g = if g = f then b else s.flag g := getFlag_withFlag f g b s.p

@[simp] theorem State.flag_setNZ (g : Flag) (v : Byte) (s : State) :
    (s.setNZ v).flag g = if g = .negative then v.getLsbD 7 else if g = .zero then decide (v = 0) else s.flag g := by
  simp only [State.setNZ, State.flag_setFlag]

@[simp] theorem State.flag_setA (g : Flag) (v : Byte) (s : State) : (s.setA v).flag g = s.flag g := rfl
@[simp] theorem State.flag_setX (g : Flag) (v : Byte) (s : State) : (s.setX v).flag g = s.flag g := rfl
@[simp] theorem State.flag_setY (g : Flag) (v : Byte) (s : State) : (s.setY v).flag g = s.flag g := rfl
@[simp] theorem State.flag_setSp (g : Flag) (v : Byte) (s : State) : (s.setSp v).flag g = s.flag g := rfl
@[simp] theorem State.flag_setPc (g : Flag) (v : Addr) (s : State) : (s.setPc v).flag g = s.flag g := rfl
@[simp] theorem State.flag_setP (g : Flag) (v : Byte) (s : State) : (s.setP v).flag g = v.getLsbD g.index := rfl

/-- Two status bytes with the same flags are equal. -/
theorem status_ext {p q : Byte} (h : ∀ f : Flag, p.getLsbD f.index = q.getLsbD f.index) : p = q := by
  apply BitVec.eq_of_getLsbD_eq
  intro i hi
  have hc : i = 0 ∨ i = 1 ∨ i = 2 ∨ i = 3 ∨ i = 4 ∨ i = 5 ∨ i = 6 ∨ i = 7 := by omega
  rcases hc with h' | h' | h' | h' | h' | h' | h' | h' <;> subst h'
  · exact h .carry
  · exact h .zero
  · exact h .interruptDisable
  · exact h .decimal
  · exact h .brk
  · exact h .reserved
  · exact h .overflow
  · exact h .negative

end Sys2Proof.Machine
end

