-- ==== Sys2Proof/Laws/Frame.lean ====
section
/-! SUPPORT. What a tick, a bus access and the shared operations built from them leave unchanged. -/

namespace Sys2Proof.Machine

/-! ## The run state over a host operation (R15) -/

@[simp] theorem RunState.unlessHalted_halted (r : FatalReason) (new : RunState) : (RunState.halted r).unlessHalted new = .halted r := rfl

theorem RunState.unlessHalted_of_ne {old : RunState} (h : ∀ r, old ≠ .halted r) (new : RunState) : old.unlessHalted new = new := by
  cases old with
  | halted r => exact absurd rfl (h r)
  | running | noCartridge | loaded => rfl

@[simp] theorem State.insert_run (c : Cart) (m : Mapper) (s : State) : (s.insert c m).run = s.run.unlessHalted .loaded := rfl

/-! ## Dots and ticks (R11) -/

@[simp] theorem ppuDot_a (s : State) : (ppuDot s).a = s.a := rfl
@[simp] theorem ppuDot_x (s : State) : (ppuDot s).x = s.x := rfl
@[simp] theorem ppuDot_y (s : State) : (ppuDot s).y = s.y := rfl
@[simp] theorem ppuDot_sp (s : State) : (ppuDot s).sp = s.sp := rfl
@[simp] theorem ppuDot_p (s : State) : (ppuDot s).p = s.p := rfl
@[simp] theorem ppuDot_pc (s : State) : (ppuDot s).pc = s.pc := rfl
@[simp] theorem ppuDot_run (s : State) : (ppuDot s).run = s.run := rfl
@[simp] theorem ppuDot_ram (s : State) : (ppuDot s).ram = s.ram := rfl
@[simp] theorem ppuDot_mirroring (s : State) : (ppuDot s).mirroring = s.mirroring := rfl
@[simp] theorem ppuDot_cart (s : State) : (ppuDot s).cart = s.cart := rfl
@[simp] theorem ppuDot_banks (s : State) : (ppuDot s).banks = s.banks := rfl
@[simp] theorem ppuDot_ctl (s : State) : (ppuDot s).ctl = s.ctl := rfl
@[simp] theorem ppuDot_palette (s : State) : (ppuDot s).palette = s.palette := rfl
@[simp] theorem ppuDot_cycleCount (s : State) : (ppuDot s).cycleCount = s.cycleCount := rfl

@[simp] theorem tick_a (s : State) : (tick s).a = s.a := rfl
@[simp] theorem tick_x (s : State) : (tick s).x = s.x := rfl
@[simp] theorem tick_y (s : State) : (tick s).y = s.y := rfl
@[simp] theorem tick_sp (s : State) : (tick s).sp = s.sp := rfl
@[simp] theorem tick_p (s : State) : (tick s).p = s.p := rfl
@[simp] theorem tick_pc (s : State) : (tick s).pc = s.pc := rfl
@[simp] theorem tick_run (s : State) : (tick s).run = s.run := rfl
@[simp] theorem tick_ram (s : State) : (tick s).ram = s.ram := rfl
@[simp] theorem tick_mirroring (s : State) : (tick s).mirroring = s.mirroring := rfl
@[simp] theorem tick_cart (s : State) : (tick s).cart = s.cart := rfl
@[simp] theorem tick_banks (s : State) : (tick s).banks = s.banks := rfl
@[simp] theorem tick_ctl (s : State) : (tick s).ctl = s.ctl := rfl
@[simp] theorem tick_palette (s : State) : (tick s).palette = s.palette := rfl
@[simp] theorem tick_cycleCount (s : State) : (tick s).cycleCount = s.cycleCount + 1 := rfl
@[simp] theorem tick_flag (f : Flag) (s : State) : (tick s).flag f = s.flag f := rfl

@[simp] theorem ticks_zero (s : State) : ticks 0 s = s := rfl
theorem ticks_succ (n : Nat) (s : State) : ticks (n + 1) s = ticks n (tick s) := rfl
theorem ticks_add (m n : Nat) (s : State) : ticks (m + n) s = ticks n (ticks m s) := by
  induction m generalizing s with
  | zero => simp
  | succ m ih => rw [Nat.succ_add]; exact ih (tick s)

@[simp] theorem ticks_a (n : Nat) (s : State) : (ticks n s).a = s.a := by
  induction n generalizing s with
  | zero => rfl
  | succ n ih => rw [ticks_succ, ih]; rfl
@[simp] theorem ticks_x (n : Nat) (s : State) : (ticks n s).x = s.x := by
  induction n generalizing s with
  | zero => rfl
  | succ n ih => rw [ticks_succ, ih]; rfl
@[simp] theorem ticks_y (n : Nat) (s : State) : (ticks n s).y = s.y := by
  induction n generalizing s with
  | zero => rfl
  | succ n ih => rw [ticks_succ, ih]; rfl
@[simp] theorem ticks_sp (n : Nat) (s : State) : (ticks n s).sp = s.sp := by
  induction n generalizing s with
  | zero => rfl
  | succ n ih => rw [ticks_succ, ih]; rfl
@[simp] theorem ticks_p (n : Nat) (s : State) : (ticks n s).p = s.p := by
  induction n generalizing s with
  | zero => rfl
  | succ n ih => rw [ticks_succ, ih]; rfl
@[simp] theorem ticks_pc (n : Nat) (s : State) : (ticks n s).pc = s.pc := by
  induction n generalizing s with
  | zero => rfl
  | succ n ih => rw [ticks_succ, ih]; rfl
@[simp] theorem ticks_run (n : Nat) (s : State) : (ticks n s).run = s.run := by
  induction n generalizing s with
  | zero => rfl
  | succ n ih => rw [ticks_succ, ih]; rfl
@[simp] theorem ticks_ram (n : Nat) (s : State) : (ticks n s).ram = s.ram := by
  induction n generalizing s with
  | zero => rfl
  | succ n ih => rw [ticks_succ, ih]; rfl
@[simp] theorem ticks_mirroring (n : Nat) (s : State) : (ticks n s).mirroring = s.mirroring := by
  induction n generalizing s with
  | zero => rfl
  | succ n ih => rw [ticks_succ, ih]; rfl
@[simp] theorem ticks_cart (n : Nat) (s : State) : (ticks n s).cart = s.cart := by
  induction n generalizing s with
  | zero => rfl
  | succ n ih => rw [ticks_succ, ih]; rfl
@[simp] theorem ticks_banks (n : Nat) (s : State) : (ticks n s).banks = s.banks := by
  induction n generalizing s with
  | zero => rfl
  | succ n ih => rw [ticks_succ, ih]; rfl
@[simp] theorem ticks_ctl (n : Nat) (s : State) : (ticks n s).ctl = s.ctl := by
  induction n generalizing s with
  | zero => rfl
  | succ n ih => rw [ticks_succ, ih]; rfl
@[simp] theorem ticks_palette (n : Nat) (s : State) : (ticks n s).palette = s.palette := by
  induction n generalizing s with
  | zero => rfl
  | succ n ih => rw [ticks_succ, ih]; rfl
@[simp] theorem ticks_cycleCount (n : Nat) (s : State) : (ticks n s).cycleCount = s.cycleCount + n := by
  induction n generalizing s with
  | zero => rfl
  | succ n ih => rw [ticks_succ, ih, tick_cycleCount]; omega

/-! ## Reads: a read changes nothing but a PPU register or a controller shift register (R82) -/

@[simp] theorem busRead_a (a : Addr) (s : State) : (busRead a s).2.a = s.a := by
  unfold busRead; dsimp only; split_ifs <;> rfl
@[simp] theorem busRead_x (a : Addr) (s : State) : (busRead a s).2.x = s.x := by
  unfold busRead; dsimp only; split_ifs <;> rfl
@[simp] theorem busRead_y (a : Addr) (s : State) : (busRead a s).2.y = s.y := by
  unfold busRead; dsimp only; split_ifs <;> rfl
@[simp] theorem busRead_sp (a : Addr) (s : State) : (busRead a s).2.sp = s.sp := by
  unfold busRead; dsimp only; split_ifs <;> rfl
@[simp] theorem busRead_p (a : Addr) (s : State) : (busRead a s).2.p = s.p := by
  unfold busRead; dsimp only; split_ifs <;> rfl
@[simp] theorem busRead_pc (a : Addr) (s : State) : (busRead a s).2.pc = s.pc := by
  unfold busRead; dsimp only; split_ifs <;> rfl
@[simp] theorem busRead_cycleCount (a : Addr) (s : State) : (busRead a s).2.cycleCount = s.cycleCount := by
  unfold busRead; dsimp only; split_ifs <;> rfl
@[simp] theorem busRead_nmiFlag (a : Addr) (s : State) : (busRead a s).2.nmiFlag = s.nmiFlag := by
  unfold busRead; dsimp only; split_ifs <;> rfl
@[simp] theorem busRead_irqFlag (a : Addr) (s : State) : (busRead a s).2.irqFlag = s.irqFlag := by
  unfold busRead; dsimp only; split_ifs <;> rfl
@[simp] theorem busRead_run (a : Addr) (s : State) : (busRead a s).2.run = s.run := by
  unfold busRead; dsimp only; split_ifs <;> rfl
@[simp] theorem busRead_ram (a : Addr) (s : State) : (busRead a s).2.ram = s.ram := by
  unfold busRead; dsimp only; split_ifs <;> rfl
@[simp] theorem busRead_mirroring (a : Addr) (s : State) : (busRead a s).2.mirroring = s.mirroring := by
  unfold busRead; dsimp only; split_ifs <;> rfl
@[simp] theorem busRead_cart (a : Addr) (s : State) : (busRead a s).2.cart = s.cart := by
  unfold busRead; dsimp only; split_ifs <;> rfl
@[simp] theorem busRead_mapper (a : Addr) (s : State) : (busRead a s).2.mapper = s.mapper := by
  unfold busRead; dsimp only; split_ifs <;> rfl
@[simp] theorem busRead_banks (a : Addr) (s : State) : (busRead a s).2.banks = s.banks := by
  unfold busRead; dsimp only; split_ifs <;> rfl
@[simp] theorem busRead_palette (a : Addr) (s : State) : (busRead a s).2.palette = s.palette := by
  unfold busRead; dsimp only; split_ifs <;> rfl

@[simp] theorem memRead_a (a : Addr) (s : State) : (memRead a s).2.a = s.a := by
  rw [memRead, busRead_a, tick_a]
@[simp] theorem memRead_x (a : Addr) (s : State) : (memRead a s).2.x = s.x := by
  rw [memRead, busRead_x, tick_x]
@[simp] theorem memRead_y (a : Addr) (s : State) : (memRead a s).2.y = s.y := by
  rw [memRead, busRead_y, tick_y]
@[simp] theorem memRead_sp (a : Addr) (s : State) : (memRead a s).2.sp = s.sp := by
  rw [memRead, busRead_sp, tick_sp]
@[simp] theorem memRead_p (a : Addr) (s : State) : (memRead a s).2.p = s.p := by
  rw [memRead, busRead_p, tick_p]
@[simp] theorem memRead_pc (a : Addr) (s : State) : (memRead a s).2.pc = s.pc := by
  rw [memRead, busRead_pc, tick_pc]
@[simp] theorem memRead_cycleCount (a : Addr) (s : State) : (memRead a s).2.cycleCount = s.cycleCount + 1 := by
  rw [memRead, busRead_cycleCount, tick_cycleCount]
@[simp] theorem memRead_nmiFlag (a : Addr) (s : State) : (memRead a s).2.nmiFlag = (tick s).nmiFlag := by
  rw [memRead, busRead_nmiFlag]
@[simp] theorem memRead_irqFlag (a : Addr) (s : State) : (memRead a s).2.irqFlag = (tick s).irqFlag := by
  rw [memRead, busRead_irqFlag]
@[simp] theorem memRead_run (a : Addr) (s : State) : (memRead a s).2.run = s.run := by
  rw [memRead, busRead_run, tick_run]
@[simp] theorem memRead_ram (a : Addr) (s : State) : (memRead a s).2.ram = s.ram := by
  rw [memRead, busRead_ram, tick_ram]
@[simp] theorem memRead_mirroring (a : Addr) (s : State) : (memRead a s).2.mirroring = s.mirroring := by
  rw [memRead, busRead_mirroring, tick_mirroring]
@[simp] theorem memRead_cart (a : Addr) (s : State) : (memRead a s).2.cart = s.cart := by
  rw [memRead, busRead_cart, tick_cart]
@[simp] theorem memRead_mapper (a : Addr) (s : State) : (memRead a s).2.mapper = (tick s).mapper := by
  rw [memRead, busRead_mapper]
@[simp] theorem memRead_banks (a : Addr) (s : State) : (memRead a s).2.banks = s.banks := by
  rw [memRead, busRead_banks, tick_banks]
@[simp] theorem memRead_palette (a : Addr) (s : State) : (memRead a s).2.palette = s.palette := by
  rw [memRead, busRead_palette, tick_palette]
@[simp] theorem memRead_flag (a : Addr) (f : Flag) (s : State) : (memRead a s).2.flag f = s.flag f := by
  simp [State.flag]

end Sys2Proof.Machine
end

