-- ==== Sys2Proof/Laws/Memory.lean ====
section
/-! SUPPORT. The laws of sparse memories: read after write, and that every operation keeps the canonical form and the
bounds. -/

namespace Sys2Proof.Machine

variable {α : Type} [DecidableEq α]

/-! ## Read after write -/

theorem sparseGet_sparseSet_same (d : α) (m : List (Nat × α)) (i : Nat) (v : α) (lo : Nat) (h : sparseWfFrom d lo m = true) :
    sparseGet d (sparseSet d m i v) i = v := by
  induction m generalizing lo with
  | nil => simp only [sparseSet]; split <;> simp_all [sparseGet]
  | cons e m ih =>
    obtain ⟨k, w⟩ := e
    simp only [sparseWfFrom, Bool.and_eq_true, decide_eq_true_eq] at h
    have skip : ∀ (m : List (Nat × α)) (lo : Nat), sparseWfFrom d lo m = true → i < lo → sparseGet d m i = d := by
      intro m
      induction m with
      | nil => intros; rfl
      | cons e m ihm =>
        intro lo hw hi
        simp only [sparseWfFrom, Bool.and_eq_true, decide_eq_true_eq] at hw
        have : e.1 ≠ i := by omega
        simp only [sparseGet, if_neg this]
        exact ihm _ hw.2 (by omega)
    simp only [sparseSet]
    split
    · rename_i hik
      have hk : k ≠ i := by omega
      split
      · rename_i hv
        simp only [sparseGet, if_neg hk, hv]
        exact skip m _ h.2 (by omega)
      · simp [sparseGet]
    · split
      · rename_i hik
        subst hik
        split
        · rename_i hv; rw [hv]; exact skip m _ h.2 (by omega)
        · simp [sparseGet]
      · rename_i hlt hne
        have hk : k ≠ i := fun he => hne he.symm
        simp only [sparseGet, if_neg hk]
        exact ih _ h.2

theorem sparseGet_sparseSet_ne (d : α) (m : List (Nat × α)) (i j : Nat) (v : α) (hij : j ≠ i) :
    sparseGet d (sparseSet d m i v) j = sparseGet d m j := by
  induction m with
  | nil => simp only [sparseSet]; split <;> simp [sparseGet]; omega
  | cons e m ih =>
    obtain ⟨k, w⟩ := e
    simp only [sparseSet]
    split
    · split
      · rfl
      · simp only [sparseGet]; rw [if_neg (by omega)]
    · split
      · rename_i hik
        have hk : k ≠ j := by omega
        split <;> simp only [sparseGet, if_neg hk]
        rw [if_neg (by omega)]
      · simp only [sparseGet, ih]

/-! ## Canonical form -/

theorem sparseWfFrom_mono (d : α) {lo lo' : Nat} (hle : lo' ≤ lo) {m : List (Nat × α)} (h : sparseWfFrom d lo m = true) :
    sparseWfFrom d lo' m = true := by
  cases m with
  | nil => rfl
  | cons e m =>
    simp only [sparseWfFrom, Bool.and_eq_true, decide_eq_true_eq] at h ⊢
    exact ⟨⟨by omega, h.1.2⟩, h.2⟩

theorem sparseWfFrom_sparseSet (d : α) (m : List (Nat × α)) (i : Nat) (v : α) {lo : Nat} (hi : lo ≤ i)
    (h : sparseWfFrom d lo m = true) : sparseWfFrom d lo (sparseSet d m i v) = true := by
  induction m generalizing lo with
  | nil => simp only [sparseSet]; split <;> simp_all [sparseWfFrom]
  | cons e m ih =>
    obtain ⟨k, w⟩ := e
    simp only [sparseWfFrom, Bool.and_eq_true, decide_eq_true_eq] at h
    simp only [sparseSet]
    split
    · split <;> simp only [sparseWfFrom, Bool.and_eq_true, decide_eq_true_eq]
      · exact ⟨⟨h.1.1, h.1.2⟩, h.2⟩
      · exact ⟨⟨hi, by assumption⟩, ⟨by omega, h.1.2⟩, h.2⟩
    · split
      · rename_i hik
        split
        · exact sparseWfFrom_mono d (by omega) h.2
        · simp only [sparseWfFrom, Bool.and_eq_true, decide_eq_true_eq]
          exact ⟨⟨hi, by assumption⟩, by rw [hik]; exact h.2⟩
      · simp only [sparseWfFrom, Bool.and_eq_true, decide_eq_true_eq]
        exact ⟨h.1, ih (by omega) h.2⟩

theorem sparseWf_sparseSet (d : α) (m : List (Nat × α)) (i : Nat) (v : α) (h : sparseWf d m = true) :
    sparseWf d (sparseSet d m i v) = true := sparseWfFrom_sparseSet d m i v (Nat.zero_le _) h

/-- A predicate of the entries survives a write of an entry that has it. -/
theorem all_sparseSet (d : α) (q : Nat × α → Bool) (m : List (Nat × α)) (i : Nat) (v : α) (hm : m.all q = true)
    (hv : v ≠ d → q (i, v) = true) : (sparseSet d m i v).all q = true := by
  induction m with
  | nil => simp only [sparseSet]; split <;> simp_all
  | cons e m ih =>
    obtain ⟨k, w⟩ := e
    simp only [List.all_cons, Bool.and_eq_true] at hm
    simp only [sparseSet]
    split
    · split <;> simp_all
    · split
      · split <;> simp_all
      · simp only [List.all_cons, Bool.and_eq_true]; exact ⟨hm.1, ih hm.2⟩

omit [DecidableEq α] in
theorem sparseGet_of_all (d : α) (q : α → Bool) (m : List (Nat × α)) (i : Nat) (hd : q d = true)
    (hm : (m.all fun e => q e.2) = true) : q (sparseGet d m i) = true := by
  induction m with
  | nil => exact hd
  | cons e m ih =>
    simp only [List.all_cons, Bool.and_eq_true] at hm
    simp only [sparseGet]
    split
    · exact hm.1
    · exact ih hm.2

theorem sparseWfFrom_tabulate (d : α) (f : Nat → α) (start n : Nat) :
    sparseWfFrom d start (sparseTabulateFrom d f start n) = true := by
  induction n generalizing start with
  | zero => rfl
  | succ n ih =>
    simp only [sparseTabulateFrom]
    split
    · exact sparseWfFrom_mono d (Nat.le_succ _) (ih _)
    · simp only [sparseWfFrom, Bool.and_eq_true, decide_eq_true_eq]
      exact ⟨⟨Nat.le_refl _, by assumption⟩, ih _⟩

theorem all_tabulate (d : α) (f : Nat → α) (q : Nat × α → Bool) (start n : Nat)
    (h : ∀ i, start ≤ i → i < start + n → q (i, f i) = true) : (sparseTabulateFrom d f start n).all q = true := by
  induction n generalizing start with
  | zero => rfl
  | succ n ih =>
    have rest := ih (start + 1) (fun i h1 h2 => h i (by omega) (by omega))
    simp only [sparseTabulateFrom]
    split
    · exact rest
    · simp only [List.all_cons, Bool.and_eq_true]
      exact ⟨h start (Nat.le_refl _) (by omega), rest⟩

theorem sparseGet_tabulateFrom (d : α) (f : Nat → α) (start n i : Nat) :
    sparseGet d (sparseTabulateFrom d f start n) i = if start ≤ i ∧ i < start + n then f i else d := by
  induction n generalizing start with
  | zero => simp [sparseTabulateFrom, sparseGet]
  | succ n ih =>
    simp only [sparseTabulateFrom]
    split
    · rename_i hd
      rw [ih]
      by_cases he : start = i
      · subst he; simp [hd]
      · congr 1; simp only [eq_iff_iff]; omega
    · simp only [sparseGet]
      by_cases he : start = i
      · subst he; simp
      · rw [if_neg he, ih]; congr 1; simp only [eq_iff_iff]; omega

theorem sparseGet_tabulate (d : α) (n : Nat) (f : Nat → α) (i : Nat) :
    sparseGet d (sparseTabulate d n f) i = if i < n then f i else d := by
  rw [sparseTabulate, sparseGet_tabulateFrom]; congr 1; simp

/-! ## Equal contents are equal data -/

theorem sparseGet_below (d : α) {lo i : Nat} {m : List (Nat × α)} (h : sparseWfFrom d lo m = true) (hi : i < lo) :
    sparseGet d m i = d := by
  induction m generalizing lo with
  | nil => rfl
  | cons e m ih =>
    simp only [sparseWfFrom, Bool.and_eq_true, decide_eq_true_eq] at h
    simp only [sparseGet]
    rw [if_neg (by omega)]
    exact ih h.2 (by omega)

theorem sparse_ext (d : α) {lo : Nat} {m m' : List (Nat × α)} (h : sparseWfFrom d lo m = true)
    (h' : sparseWfFrom d lo m' = true) (he : ∀ i, sparseGet d m i = sparseGet d m' i) : m = m' := by
  induction m generalizing lo m' with
  | nil =>
    cases m' with
    | nil => rfl
    | cons e m' =>
      simp only [sparseWfFrom, Bool.and_eq_true, decide_eq_true_eq] at h'
      have := he e.1
      simp only [sparseGet, if_true] at this
      exact absurd this.symm h'.1.2
  | cons e m ih =>
    simp only [sparseWfFrom, Bool.and_eq_true, decide_eq_true_eq] at h
    cases m' with
    | nil =>
      have := he e.1
      simp only [sparseGet, if_true] at this
      exact absurd this h.1.2
    | cons e' m' =>
      simp only [sparseWfFrom, Bool.and_eq_true, decide_eq_true_eq] at h'
      obtain ⟨k, v⟩ := e
      obtain ⟨k', v'⟩ := e'
      have hk : k = k' := by
        rcases Nat.lt_trichotomy k k' with hlt | heq | hgt
        · have := he k
          simp only [sparseGet, if_true] at this
          rw [if_neg (by omega), sparseGet_below d h'.2 (by simp only; omega)] at this
          exact absurd this h.1.2
        · exact heq
        · have := he k'
          simp only [sparseGet, if_true] at this
          rw [if_neg (by omega), sparseGet_below d h.2 (by simp only; omega)] at this
          exact absurd this.symm h'.1.2
      subst hk
      have hv : v = v' := by simpa [sparseGet] using he k
      subst hv
      have : m = m' := by
        refine ih h.2 h'.2 fun i => ?_
        by_cases hi : k = i
        · subst hi; rw [sparseGet_below d h.2 (by simp), sparseGet_below d h'.2 (by simp)]
        · simpa [sparseGet, hi] using he i
      rw [this]

/-! ## Byte memories -/

theorem Memory.read_write_same (m : Memory) (i : Nat) (v : Byte) (h : m.wf = true) : (m.write i v).read i = v :=
  sparseGet_sparseSet_same 0 m i v 0 h

theorem Memory.read_write_ne (m : Memory) (i j : Nat) (v : Byte) (h : j ≠ i) : (m.write i v).read j = m.read j :=
  sparseGet_sparseSet_ne 0 m i j v h

theorem Memory.wf_write (m : Memory) (i : Nat) (v : Byte) (h : m.wf = true) : (m.write i v).wf = true :=
  sparseWf_sparseSet 0 m i v h

theorem Memory.below_write (m : Memory) (n i : Nat) (v : Byte) (h : m.below n = true) (hi : i < n) :
    (m.write i v).below n = true := all_sparseSet 0 _ m i v h (by simp [hi])

/-- A write inside the array keeps the memory canonical and inside. -/
theorem Memory.inside_write {n : Nat} {m : Memory} (i : Nat) (v : Byte) (h : m.Inside n) (hi : i < n) :
    (m.write i v).Inside n := ⟨m.wf_write i v h.1, m.below_write n i v h.2 hi⟩

theorem Memory.read_ofBytesFrom (k : Nat) (bytes : List Byte) (i : Nat) :
    Memory.read (Memory.ofBytesFrom k bytes) i = if k ≤ i then bytes.getD (i - k) 0 else 0 := by
  induction bytes generalizing k with
  | nil => simp [Memory.ofBytesFrom, Memory.read, sparseGet]
  | cons b bytes ih =>
    have key : Memory.read (Memory.ofBytesFrom k (b :: bytes)) i =
        if k = i then b else Memory.read (Memory.ofBytesFrom (k + 1) bytes) i := by
      simp only [Memory.ofBytesFrom]
      split
      · rename_i hb
        by_cases hk : k = i
        · subst hk; rw [ih]; simp [hb]
        · simp [hk]
      · rfl
    rw [key, ih]
    by_cases hk : k = i
    · subst hk; simp
    · by_cases hle : k ≤ i
      · have : i - k = (i - (k + 1)) + 1 := by omega
        rw [if_neg hk, if_pos (by omega), if_pos hle, this, List.getD_cons_succ]
      · rw [if_neg hk, if_neg (by omega), if_neg hle]

theorem Memory.wf_ofBytesFrom (k : Nat) (bytes : List Byte) : sparseWfFrom (0 : Byte) k (Memory.ofBytesFrom k bytes) = true := by
  induction bytes generalizing k with
  | nil => rfl
  | cons b bytes ih =>
    simp only [Memory.ofBytesFrom]
    split
    · exact sparseWfFrom_mono _ (Nat.le_succ _) (ih _)
    · simp only [sparseWfFrom, Bool.and_eq_true, decide_eq_true_eq]
      exact ⟨⟨Nat.le_refl _, by assumption⟩, ih _⟩

theorem Memory.below_ofBytesFrom (k n : Nat) (bytes : List Byte) (h : k + bytes.length ≤ n) :
    (Memory.ofBytesFrom k bytes).below n = true := by
  induction bytes generalizing k with
  | nil => rfl
  | cons b bytes ih =>
    simp only [List.length_cons] at h
    have rest := ih (k + 1) (by omega)
    simp only [Memory.ofBytesFrom]
    split
    · exact rest
    · simp only [Memory.below, List.all_cons, Bool.and_eq_true, decide_eq_true_eq] at rest ⊢
      exact ⟨by omega, rest⟩

theorem Memory.inside_ofBytes {n : Nat} (bytes : List Byte) (h : bytes.length ≤ n) : (Memory.ofBytes bytes).Inside n :=
  ⟨Memory.wf_ofBytesFrom 0 bytes, Memory.below_ofBytesFrom 0 n bytes (by omega)⟩

theorem Memory.read_ofBytes (bytes : List Byte) (i : Nat) : (Memory.ofBytes bytes).read i = bytes.getD i 0 := by
  rw [Memory.ofBytes, Memory.read_ofBytesFrom]; simp

theorem Memory.read_outside {n : Nat} {m : Memory} (h : m.below n = true) {i : Nat} (hi : n ≤ i) : m.read i = 0 := by
  induction m with
  | nil => rfl
  | cons e m ih =>
    simp only [Memory.below, List.all_cons, Bool.and_eq_true, decide_eq_true_eq] at h
    simp only [Memory.read, sparseGet]
    rw [if_neg (by omega)]
    exact ih h.2

/-- Writing a memory out and reading it back gives it again. -/
theorem Memory.ofBytes_toBytes {n : Nat} {m : Memory} (h : m.Inside n) : Memory.ofBytes (m.toBytes n) = m := by
  refine sparse_ext 0 (Memory.wf_ofBytesFrom 0 _) h.1 fun i => ?_
  have hr := Memory.read_ofBytes (m.toBytes n) i
  simp only [Memory.read] at hr
  rw [hr]
  by_cases hi : i < n
  · simp [Memory.toBytes, hi, Memory.read]
  · have := Memory.read_outside h.2 (Nat.le_of_not_lt hi)
    simp only [Memory.read] at this
    rw [this]
    simp [Memory.toBytes, hi]

theorem Memory.length_toBytes (n : Nat) (m : Memory) : (m.toBytes n).length = n := by simp [Memory.toBytes]

/-! ## Frame buffers -/

theorem Frame.row_wf {f : Frame} (h : f.wf = true) (y : Nat) : sparseWf (0 : BitVec 9) (sparseGet [] f y) = true := by
  simp only [Frame.wf, Bool.and_eq_true] at h
  exact sparseGet_of_all [] (sparseWf (0 : BitVec 9)) f y rfl h.2

theorem Frame.read_write_same (f : Frame) (y x : Nat) (v : BitVec 9) (h : f.wf = true) : (f.write y x v).read y x = v := by
  have hw := h
  simp only [Frame.wf, Bool.and_eq_true] at hw
  rw [Frame.read, Frame.write, sparseGet_sparseSet_same [] f y _ 0 hw.1,
    sparseGet_sparseSet_same 0 _ x v 0 (Frame.row_wf h y)]

theorem Frame.read_write_ne (f : Frame) (y x y' x' : Nat) (v : BitVec 9) (h : f.wf = true) (hne : y' ≠ y ∨ x' ≠ x) :
    (f.write y x v).read y' x' = f.read y' x' := by
  have hw := h
  simp only [Frame.wf, Bool.and_eq_true] at hw
  rw [Frame.read, Frame.write]
  by_cases hy : y' = y
  · subst hy
    rw [sparseGet_sparseSet_same [] f y' _ 0 hw.1, sparseGet_sparseSet_ne 0 _ x x' v (by tauto), Frame.read]
  · rw [sparseGet_sparseSet_ne [] f y y' _ hy, Frame.read]

/-- A write on the screen keeps a frame buffer canonical and on the screen. -/
theorem Frame.inside_write {f : Frame} {y x : Nat} (v : BitVec 9) (h : f.Inside) (hy : y < Config.frameHeight)
    (hx : x < Config.frameWidth) : (f.write y x v).Inside := by
  obtain ⟨hw, hs⟩ := h
  have hrow := Frame.row_wf hw y
  simp only [Frame.wf, Bool.and_eq_true] at hw
  refine ⟨?_, ?_⟩
  · simp only [Frame.wf, Bool.and_eq_true]
    exact ⟨sparseWf_sparseSet [] f y _ hw.1,
      all_sparseSet [] _ f y _ hw.2 fun _ => sparseWf_sparseSet 0 _ x v hrow⟩
  · simp only [onScreen] at hs ⊢
    refine all_sparseSet [] _ f y _ hs fun _ => ?_
    have hrs : (sparseGet [] f y).all (fun e => decide (e.1 < Config.frameWidth)) = true :=
      sparseGet_of_all [] (fun r => r.all fun e => decide (e.1 < Config.frameWidth)) f y rfl (by
        rw [List.all_eq_true] at hs ⊢
        intro e he
        have := hs e he
        simp only [Bool.and_eq_true] at this
        exact this.2)
    simp only [Bool.and_eq_true, decide_eq_true_eq]
    exact ⟨hy, all_sparseSet 0 _ _ x v hrs (by simp [hx])⟩

theorem RgbFrame.inside_fill (f : Nat → Nat → Rgb) : (RgbFrame.fill f).Inside := by
  refine ⟨?_, ?_⟩
  · simp only [RgbFrame.wf, Bool.and_eq_true]
    exact ⟨sparseWfFrom_tabulate _ _ _ _, all_tabulate _ _ _ _ _ fun i _ _ => sparseWfFrom_tabulate _ _ _ _⟩
  · refine all_tabulate _ _ _ _ _ fun i _ hi => ?_
    simp only [Bool.and_eq_true, decide_eq_true_eq]
    exact ⟨by omega, all_tabulate _ _ _ _ _ fun j _ hj => by simp only [decide_eq_true_eq]; omega⟩

theorem RgbFrame.read_fill (f : Nat → Nat → Rgb) {y x : Nat} (hy : y < Config.frameHeight) (hx : x < Config.frameWidth) :
    (RgbFrame.fill f).read y x = f y x := by
  rw [RgbFrame.read, RgbFrame.fill, sparseGet_tabulate, if_pos hy, sparseGet_tabulate, if_pos hx]

end Sys2Proof.Machine
end

