-- ==== Sys2Proof/Laws/Ppu.lean ====
section
/-! SUPPORT. What one PPU dot can do: the registers and memories it never writes, and that it keeps the PPU's invariant. -/

namespace Sys2Proof.Machine

/-! ## What a dot leaves alone: the memories and every register but `v`, the status flags and the counters (R452) -/

/-- The part of the PPU that only a CPU access writes. -/
structure PpuKept where
  ntRam : Memory
  palRam : Memory
  oam : Memory
  ctrl : Byte
  mask : Byte
  t : BitVec 15
  fineX : BitVec 3
  w : Bool
  oamAddr : Byte
  busLatch : Byte
  readBuffer : Byte

/-- That part of a PPU. -/
def Ppu.kept (p : Ppu) : PpuKept :=
  { ntRam := p.ntRam, palRam := p.palRam, oam := p.oam, ctrl := p.ctrl, mask := p.mask, t := p.t, fineX := p.fineX, w := p.w, oamAddr := p.oamAddr, busLatch := p.busLatch, readBuffer := p.readBuffer }

theorem Ppu.kept_hScroll (p : Ppu) : p.hScroll.kept = p.kept := by unfold Ppu.hScroll; split <;> rfl
theorem Ppu.kept_vScroll (p : Ppu) : p.vScroll.kept = p.kept := by unfold Ppu.vScroll; split <;> rfl
theorem Ppu.kept_hUpdate (p : Ppu) : p.hUpdate.kept = p.kept := by unfold Ppu.hUpdate; split <;> rfl
theorem Ppu.kept_vUpdate (p : Ppu) : p.vUpdate.kept = p.kept := by unfold Ppu.vUpdate; split <;> rfl

theorem Ppu.kept_fetchStep (p : Ppu) (b : PpuBus) (k : Nat) : (p.fetchStep b k).kept = p.kept := by
  unfold Ppu.fetchStep; split <;> first | rfl | (rw [Ppu.kept_hScroll]; rfl)

theorem Ppu.kept_pixel (p : Ppu) (b : PpuBus) : (p.pixel b).kept = p.kept := by
  unfold Ppu.pixel; dsimp only; split <;> rfl

theorem Ppu.kept_spritePart (p : Ppu) (b : PpuBus) (pre : Bool) : (p.spritePart b pre).kept = p.kept := by
  unfold Ppu.spritePart; dsimp only; split_ifs <;> rfl

theorem Ppu.kept_backgroundPart (p : Ppu) (b : PpuBus) (pre : Bool) : (p.backgroundPart b pre).kept = p.kept := by
  unfold Ppu.backgroundPart; dsimp only
  split_ifs <;> first
    | rfl
    | exact (Ppu.kept_fetchStep _ _ _).trans (Ppu.kept_pixel p b)
    | exact (Ppu.kept_vScroll _).trans ((Ppu.kept_hScroll _).trans (Ppu.kept_pixel p b))
    | exact (Ppu.kept_hUpdate _).trans (Ppu.kept_pixel p b)
    | exact Ppu.kept_vUpdate p

theorem Ppu.kept_advance (p : Ppu) : p.advance.kept = p.kept := by unfold Ppu.advance; split <;> rfl

theorem Ppu.kept_dotStep (p : Ppu) (b : PpuBus) : (p.dotStep b).kept = p.kept := by
  rw [Ppu.dotStep, Ppu.kept_advance]
  unfold Ppu.dotWork
  split
  · rw [Ppu.renderDot, Ppu.kept_backgroundPart, Ppu.kept_spritePart]
  · rw [Ppu.renderDot, Ppu.kept_backgroundPart, Ppu.kept_spritePart]
  · split <;> rfl
  · split <;> rfl

theorem ppuDot_kept (s : State) : (ppuDot s).ppu.kept = s.ppu.kept := Ppu.kept_dotStep _ _

theorem tick_kept (s : State) : (tick s).ppu.kept = s.ppu.kept := by
  rw [tick, ppuDot_kept, ppuDot_kept, ppuDot_kept]

theorem ticks_kept (n : Nat) (s : State) : (ticks n s).ppu.kept = s.ppu.kept := by
  induction n generalizing s with
  | zero => rfl
  | succ n ih => rw [ticks_succ, ih, tick_kept]

@[simp] theorem tick_ppu_ntRam (s : State) : (tick s).ppu.ntRam = s.ppu.ntRam := congrArg PpuKept.ntRam (tick_kept s)
@[simp] theorem tick_ppu_palRam (s : State) : (tick s).ppu.palRam = s.ppu.palRam := congrArg PpuKept.palRam (tick_kept s)
@[simp] theorem tick_ppu_oam (s : State) : (tick s).ppu.oam = s.ppu.oam := congrArg PpuKept.oam (tick_kept s)
@[simp] theorem tick_ppu_ctrl (s : State) : (tick s).ppu.ctrl = s.ppu.ctrl := congrArg PpuKept.ctrl (tick_kept s)
@[simp] theorem tick_ppu_mask (s : State) : (tick s).ppu.mask = s.ppu.mask := congrArg PpuKept.mask (tick_kept s)
@[simp] theorem tick_ppu_t (s : State) : (tick s).ppu.t = s.ppu.t := congrArg PpuKept.t (tick_kept s)
@[simp] theorem tick_ppu_fineX (s : State) : (tick s).ppu.fineX = s.ppu.fineX := congrArg PpuKept.fineX (tick_kept s)
@[simp] theorem tick_ppu_w (s : State) : (tick s).ppu.w = s.ppu.w := congrArg PpuKept.w (tick_kept s)
@[simp] theorem tick_ppu_oamAddr (s : State) : (tick s).ppu.oamAddr = s.ppu.oamAddr := congrArg PpuKept.oamAddr (tick_kept s)
@[simp] theorem tick_ppu_busLatch (s : State) : (tick s).ppu.busLatch = s.ppu.busLatch := congrArg PpuKept.busLatch (tick_kept s)
@[simp] theorem tick_ppu_readBuffer (s : State) : (tick s).ppu.readBuffer = s.ppu.readBuffer := congrArg PpuKept.readBuffer (tick_kept s)

@[simp] theorem ticks_ppu_ntRam (n : Nat) (s : State) : (ticks n s).ppu.ntRam = s.ppu.ntRam :=
  congrArg PpuKept.ntRam (ticks_kept n s)
@[simp] theorem ticks_ppu_palRam (n : Nat) (s : State) : (ticks n s).ppu.palRam = s.ppu.palRam :=
  congrArg PpuKept.palRam (ticks_kept n s)
@[simp] theorem ticks_ppu_oam (n : Nat) (s : State) : (ticks n s).ppu.oam = s.ppu.oam :=
  congrArg PpuKept.oam (ticks_kept n s)
@[simp] theorem ticks_ppu_ctrl (n : Nat) (s : State) : (ticks n s).ppu.ctrl = s.ppu.ctrl :=
  congrArg PpuKept.ctrl (ticks_kept n s)
@[simp] theorem ticks_ppu_mask (n : Nat) (s : State) : (ticks n s).ppu.mask = s.ppu.mask :=
  congrArg PpuKept.mask (ticks_kept n s)
@[simp] theorem ticks_ppu_t (n : Nat) (s : State) : (ticks n s).ppu.t = s.ppu.t :=
  congrArg PpuKept.t (ticks_kept n s)
@[simp] theorem ticks_ppu_fineX (n : Nat) (s : State) : (ticks n s).ppu.fineX = s.ppu.fineX :=
  congrArg PpuKept.fineX (ticks_kept n s)
@[simp] theorem ticks_ppu_w (n : Nat) (s : State) : (ticks n s).ppu.w = s.ppu.w :=
  congrArg PpuKept.w (ticks_kept n s)
@[simp] theorem ticks_ppu_oamAddr (n : Nat) (s : State) : (ticks n s).ppu.oamAddr = s.ppu.oamAddr :=
  congrArg PpuKept.oamAddr (ticks_kept n s)
@[simp] theorem ticks_ppu_busLatch (n : Nat) (s : State) : (ticks n s).ppu.busLatch = s.ppu.busLatch :=
  congrArg PpuKept.busLatch (ticks_kept n s)
@[simp] theorem ticks_ppu_readBuffer (n : Nat) (s : State) : (ticks n s).ppu.readBuffer = s.ppu.readBuffer :=
  congrArg PpuKept.readBuffer (ticks_kept n s)

/-! ## The mapper under a dot: only MMC3's scanline counter moves (R465, R548) -/

@[simp] theorem Mapper.countScanline_number (m : Mapper) : m.countScanline.number = m.number := by cases m <;> rfl

@[simp] theorem Mapper.countScanline_banks (m : Mapper) (n c : Nat) : m.countScanline.banks n c = m.banks n c := by
  cases m <;> rfl

@[simp] theorem Mapper.countScanline_mirroring (m : Mapper) (w : Mirroring) : m.countScanline.mirroring w = m.mirroring w := by
  cases m <;> rfl

@[simp] theorem Mapper.countScanline_registersOk (m : Mapper) : m.countScanline.registersOk = m.registersOk := by cases m <;> rfl

@[simp] theorem Mapper.countScanline_hasNoPrgRam (m : Mapper) : m.countScanline.hasNoPrgRam = m.hasNoPrgRam := by cases m <;> rfl

/-! ## The invariant under a dot -/

theorem slotsOk_replicate : SlotsOk (List.replicate 8 .empty) := by decide

theorem slotsOk_set {l : List SpriteInfo} (h : SlotsOk l) (n : Nat) {i : SpriteInfo} (hi : i.id ≤ 64) : SlotsOk (l.set n i) := by
  refine ⟨by rw [List.length_set]; exact h.1, fun j hj => ?_⟩
  rcases List.mem_or_eq_of_mem_set hj with hj | rfl
  · exact h.2 j hj
  · exact hi

theorem slotsOk_evalFrom (oam : Memory) (height : Nat) (line : Int) (is : List Nat) (n : Nat) (sec : List SpriteInfo)
    (his : ∀ i ∈ is, i ≤ 64) (h : SlotsOk sec) : SlotsOk (evalFrom oam height line is n sec).1 := by
  induction is generalizing n sec with
  | nil => exact h
  | cons i is ih =>
    have hrest : ∀ j ∈ is, j ≤ 64 := fun j hj => his j (List.mem_cons_of_mem _ hj)
    simp only [evalFrom]
    split
    · split
      · exact h
      · exact ih _ _ hrest (slotsOk_set h _ (his i (List.mem_cons_self ..)))
    · exact ih _ _ hrest h

theorem slotsOk_loadSprites (p : Ppu) (b : PpuBus) (h : SlotsOk p.secOam) : SlotsOk (p.loadSprites b).spr := by
  refine ⟨by simp only [Ppu.loadSprites, List.length_map]; exact h.1, fun j hj => ?_⟩
  simp only [Ppu.loadSprites, List.mem_map] at hj
  obtain ⟨i, hi, rfl⟩ := hj
  exact h.2 i hi

/-- The parts of the invariant that do not speak of the counters. -/
abbrev Ppu.InvData (p : Ppu) : Prop :=
  p.status &&& 0x1F = 0 ∧
  (p.ntRam.Inside Config.ntRamSize ∧ p.palRam.Inside Config.palRamSize ∧ p.oam.Inside Config.oamSize) ∧
  (SlotsOk p.secOam ∧ SlotsOk p.spr) ∧
  (p.work.Inside ∧ p.front.Inside ∧ p.rgb.Inside)

theorem status_or_low {s m : Byte} (hm : m &&& 0x1F = 0) (h : s &&& 0x1F = 0) : (s ||| m) &&& 0x1F = 0 := by
  rw [BitVec.and_or_distrib_right, h, hm]; rfl

theorem status_and_low {s : Byte} (m : Byte) (h : s &&& 0x1F = 0) : (s &&& m) &&& 0x1F = 0 := by
  rw [BitVec.and_assoc, BitVec.and_comm m, ← BitVec.and_assoc, h]
  exact BitVec.zero_and

/-- Every part of the invariant data but the status and the work buffer, and the counters, is unmoved by this step. -/
theorem Ppu.invData_hScroll {p : Ppu} (h : p.InvData) : p.hScroll.InvData := by unfold Ppu.hScroll; split <;> exact h
theorem Ppu.invData_vScroll {p : Ppu} (h : p.InvData) : p.vScroll.InvData := by unfold Ppu.vScroll; split <;> exact h
theorem Ppu.invData_hUpdate {p : Ppu} (h : p.InvData) : p.hUpdate.InvData := by unfold Ppu.hUpdate; split <;> exact h
theorem Ppu.invData_vUpdate {p : Ppu} (h : p.InvData) : p.vUpdate.InvData := by unfold Ppu.vUpdate; split <;> exact h

theorem Ppu.invData_fetchStep {p : Ppu} (b : PpuBus) (k : Nat) (h : p.InvData) : (p.fetchStep b k).InvData := by
  unfold Ppu.fetchStep; split <;> first | exact h | exact Ppu.invData_hScroll h

theorem Ppu.invData_pixel {p : Ppu} (b : PpuBus) (h : p.InvData) : (p.pixel b).InvData := by
  unfold Ppu.pixel; dsimp only
  split
  · rename_i hx
    refine ⟨?_, h.2.1, h.2.2.1, ⟨?_, h.2.2.2.2⟩⟩
    · simp only [Ppu.output]; split
      · exact status_or_low (by decide) h.1
      · exact h.1
    · exact Frame.inside_write _ h.2.2.2.1 (by simp only [Config.frameHeight]; omega) (by simp only [Config.frameWidth]; omega)
  · exact h

theorem Ppu.invData_spritePart {p : Ppu} (b : PpuBus) (pre : Bool) (h : p.InvData) : (p.spritePart b pre).InvData := by
  unfold Ppu.spritePart; dsimp only
  split_ifs
  · exact ⟨status_and_low _ h.1, h.2.1, ⟨slotsOk_replicate, h.2.2.1.2⟩, h.2.2.2⟩
  · exact ⟨h.1, h.2.1, ⟨slotsOk_replicate, h.2.2.1.2⟩, h.2.2.2⟩
  · refine ⟨?_, h.2.1, ⟨?_, h.2.2.1.2⟩, h.2.2.2⟩
    · simp only [Ppu.evalSprites]; split
      · exact status_or_low (by decide) h.1
      · exact h.1
    · exact slotsOk_evalFrom _ _ _ _ _ _ (fun i hi => by have := List.mem_range.mp hi; omega) h.2.2.1.1
  · exact ⟨h.1, h.2.1, ⟨h.2.2.1.1, slotsOk_loadSprites p b h.2.2.1.1⟩, h.2.2.2⟩
  · exact h

theorem Ppu.invData_backgroundPart {p : Ppu} (b : PpuBus) (pre : Bool) (h : p.InvData) : (p.backgroundPart b pre).InvData := by
  have hp := Ppu.invData_pixel b h
  unfold Ppu.backgroundPart; dsimp only
  split_ifs <;> first
    | exact h
    | exact ⟨status_and_low _ h.1, h.2⟩
    | exact Ppu.invData_fetchStep b _ hp
    | exact Ppu.invData_vScroll (Ppu.invData_hScroll hp)
    | exact Ppu.invData_hUpdate hp
    | exact Ppu.invData_vUpdate h

theorem Ppu.invData_dotWork {p : Ppu} (b : PpuBus) (h : p.InvData) : (p.dotWork b).InvData := by
  unfold Ppu.dotWork
  split
  · exact Ppu.invData_backgroundPart b _ (Ppu.invData_spritePart b _ h)
  · exact Ppu.invData_backgroundPart b _ (Ppu.invData_spritePart b _ h)
  · split
    · exact ⟨h.1, h.2.1, h.2.2.1, h.2.2.2.1, h.2.2.2.1, RgbFrame.inside_fill fun y x => rgbOf b.palette (p.work.read y x)⟩
    · exact h
  · split
    · exact ⟨status_or_low (by decide) h.1, h.2⟩
    · exact h

theorem Ppu.invData_advance {p : Ppu} (h : p.InvData) : p.advance.InvData := by unfold Ppu.advance; split <;> exact h

/-! ## The counters under a dot (R450, R453) -/

/-- The scanline, phase and frame parity of a PPU. -/
def Ppu.line (p : Ppu) : Nat × Phase × Bool := (p.scanline, p.phase, p.frameOdd)

theorem Ppu.counters_hScroll (p : Ppu) : p.hScroll.line = p.line ∧ p.hScroll.dot = p.dot := by
  unfold Ppu.hScroll; split <;> exact ⟨rfl, rfl⟩
theorem Ppu.counters_vScroll (p : Ppu) : p.vScroll.line = p.line ∧ p.vScroll.dot = p.dot := by
  unfold Ppu.vScroll; split <;> exact ⟨rfl, rfl⟩
theorem Ppu.counters_hUpdate (p : Ppu) : p.hUpdate.line = p.line ∧ p.hUpdate.dot = p.dot := by
  unfold Ppu.hUpdate; split <;> exact ⟨rfl, rfl⟩
theorem Ppu.counters_vUpdate (p : Ppu) : p.vUpdate.line = p.line ∧ p.vUpdate.dot = p.dot := by
  unfold Ppu.vUpdate; split <;> exact ⟨rfl, rfl⟩

theorem Ppu.counters_fetchStep (p : Ppu) (b : PpuBus) (k : Nat) :
    (p.fetchStep b k).line = p.line ∧ (p.fetchStep b k).dot = p.dot := by
  unfold Ppu.fetchStep; split <;> first | exact ⟨rfl, rfl⟩ | exact Ppu.counters_hScroll _

theorem Ppu.counters_pixel (p : Ppu) (b : PpuBus) : (p.pixel b).line = p.line ∧ (p.pixel b).dot = p.dot := by
  unfold Ppu.pixel; dsimp only; split <;> exact ⟨rfl, rfl⟩

theorem Ppu.counters_spritePart (p : Ppu) (b : PpuBus) (pre : Bool) :
    (p.spritePart b pre).line = p.line ∧ (p.spritePart b pre).dot = p.dot := by
  unfold Ppu.spritePart; dsimp only; split_ifs <;> exact ⟨rfl, rfl⟩

/-- The dot skip of R453 is to happen at this dot. -/
def Ppu.skips (p : Ppu) : Bool := decide (p.phase = .preRender) && decide (p.dot = 340) && p.rendering && p.frameOdd

theorem Ppu.counters_backgroundPart (p : Ppu) (b : PpuBus) (pre : Bool) :
    (p.backgroundPart b pre).line = p.line ∧
    (p.backgroundPart b pre).dot = if pre && decide (p.dot = 340) && p.rendering && p.frameOdd then p.dot + 1 else p.dot := by
  have hp := Ppu.counters_pixel p b
  unfold Ppu.backgroundPart; dsimp only
  split_ifs with h1 h2 h3 h4 h5 h6 h7 h8 h9 h10 h11 h12 <;> first
    | (exfalso; simp only [Bool.and_eq_true, decide_eq_true_eq] at *; omega)
    | exact ⟨rfl, rfl⟩
    | exact ⟨(Ppu.counters_fetchStep _ _ _).1.trans hp.1, (Ppu.counters_fetchStep _ _ _).2.trans hp.2⟩
    | exact ⟨(Ppu.counters_vScroll _).1.trans ((Ppu.counters_hScroll _).1.trans hp.1),
        (Ppu.counters_vScroll _).2.trans ((Ppu.counters_hScroll _).2.trans hp.2)⟩
    | exact ⟨(Ppu.counters_hUpdate _).1.trans hp.1, (Ppu.counters_hUpdate _).2.trans hp.2⟩
    | exact Ppu.counters_vUpdate p
    | (exfalso; simp_all)

theorem nextScanline_lt {n : Nat} (h : n < Config.scanlines) : nextScanline n < Config.scanlines := by
  unfold nextScanline; simp only [Config.scanlines] at *; split <;> omega

/-- The counters after a dot whose work leaves `line` and moves `dot` by at most the skip. -/
theorem Ppu.counters_advance {p : Ppu} (hs : p.scanline < Config.scanlines) (hd : p.dot ≤ Config.dots)
    (hp : p.phase = phaseOf p.scanline) :
    p.advance.scanline < Config.scanlines ∧ p.advance.dot < Config.dots ∧ p.advance.phase = phaseOf p.advance.scanline := by
  unfold Ppu.advance
  simp only [Config.dots] at *
  split
  · exact ⟨nextScanline_lt hs, by dsimp only; omega, rfl⟩
  · exact ⟨hs, by dsimp only; omega, hp⟩

theorem Ppu.counters_dotWork (p : Ppu) (b : PpuBus) :
    (p.dotWork b).line = p.line ∧ (p.dotWork b).dot = if p.skips then p.dot + 1 else p.dot := by
  unfold Ppu.dotWork Ppu.skips
  split
  · rename_i h
    have hc := Ppu.counters_backgroundPart (p.spritePart b false) b false
    have hs := Ppu.counters_spritePart p b false
    refine ⟨hc.1.trans hs.1, ?_⟩
    rw [Ppu.renderDot, hc.2, hs.2]
    simp [h]
  · rename_i h
    have hc := Ppu.counters_backgroundPart (p.spritePart b true) b true
    have hs := Ppu.counters_spritePart p b true
    have hk := Ppu.kept_spritePart p b true
    have hm : (p.spritePart b true).mask = p.mask := congrArg PpuKept.mask hk
    have hr : (p.spritePart b true).rendering = p.rendering := by simp only [Ppu.rendering, hm]
    have hf : (p.spritePart b true).frameOdd = p.frameOdd := congrArg (fun x => x.2.2) hs.1
    refine ⟨hc.1.trans hs.1, ?_⟩
    rw [Ppu.renderDot, hc.2, hs.2, hr, hf]
    simp [h]
  · rename_i h; split <;> exact ⟨rfl, by simp [h, Ppu.frameDone]⟩
  · rename_i h; split <;> exact ⟨rfl, by simp [h]⟩

/-- A dot keeps the PPU's invariant. -/
theorem Ppu.inv_dotStep {p : Ppu} (b : PpuBus) (h : p.Inv) : (p.dotStep b).Inv := by
  obtain ⟨⟨hs, hd, hp⟩, hdata⟩ := h
  have hw := Ppu.counters_dotWork p b
  have h1 : (p.dotWork b).scanline = p.scanline := congrArg (fun x => x.1) hw.1
  have h2 : (p.dotWork b).phase = p.phase := congrArg (fun x => x.2.1) hw.1
  have h3 : (p.dotWork b).dot ≤ Config.dots := by rw [hw.2]; split <;> omega
  exact ⟨Ppu.counters_advance (by rw [h1]; exact hs) h3 (by rw [h1, h2]; exact hp),
    Ppu.invData_advance (Ppu.invData_dotWork b hdata)⟩

theorem State.inv_ppuDot {s : State} (h : s.Inv) : (ppuDot s).Inv := by
  obtain ⟨hram, hppu, hcart, hmap, ⟨hb, hm⟩, hpal⟩ := h
  refine ⟨hram, Ppu.inv_dotStep _ hppu, hcart, ?_, ⟨?_, ?_⟩, hpal⟩
  · simp only [ppuDot]; split <;> simp [hmap]
  · simp only [ppuDot]; split <;> simp [← hb]
  · simp only [ppuDot]; split <;> simp [← hm]

theorem State.inv_tick {s : State} (h : s.Inv) : (tick s).Inv :=
  State.inv_ppuDot (State.inv_ppuDot (State.inv_ppuDot (s := { s with cycleCount := s.cycleCount + 1 }) h))

theorem State.inv_ticks (n : Nat) {s : State} (h : s.Inv) : (ticks n s).Inv := by
  induction n generalizing s with
  | zero => exact h
  | succ n ih => exact ih (State.inv_tick h)

end Sys2Proof.Machine
end

