-- ==== Sys2Proof/Laws/Bus.lean ====
section
/-! SUPPORT. What a bus access can do (R82, R83): values read, fields kept, the invariant. -/

namespace Sys2Proof.Machine

/-! ## Addresses in the PPU space -/

theorem ntMirror_lt (m : Mirroring) (a : Nat) : ntMirror m a < Config.ntRamSize := by
  have h : a / 2 &&& 0x400 ≤ 0x400 := Nat.and_le_right
  cases m <;> simp only [ntMirror, Config.ntRamSize] <;> omega

theorem palIndex_lt (a : Nat) : palIndex a < Config.palRamSize := by
  have h1 : a &&& 0x1F ≤ 0x1F := Nat.and_le_right
  have h2 : (a &&& 0x1F) &&& 0x0F ≤ 0x0F := Nat.and_le_right
  simp only [palIndex, Config.palRamSize]; split <;> omega

/-! ## PPU registers -/

/-- A register read keeps the PPU's memories, buffers, counters and write-only registers. -/
theorem Ppu.inv_readReg {p : Ppu} (b : PpuBus) (n : PpuReg) (h : p.Inv) : (p.readReg b n).Inv := by
  obtain ⟨hc, hs, hrest⟩ := h
  cases n <;> first | exact ⟨hc, hs, hrest⟩ | exact ⟨hc, status_and_low _ hs, hrest⟩

theorem Ppu.inv_writeReg {p : Ppu} (n : PpuReg) (v : Byte) (h : p.Inv) : (p.writeReg n v).Inv := by
  obtain ⟨hc, hs, ⟨hn, hp, ho⟩, hrest⟩ := h
  cases n
  case oamData => exact ⟨hc, hs, ⟨hn, hp, Memory.inside_write _ _ ho p.oamAddr.isLt⟩, hrest⟩
  case scroll => unfold Ppu.writeReg; dsimp only; split <;> exact ⟨hc, hs, ⟨hn, hp, ho⟩, hrest⟩
  case addr => unfold Ppu.writeReg; dsimp only; split <;> exact ⟨hc, hs, ⟨hn, hp, ho⟩, hrest⟩
  all_goals exact ⟨hc, hs, ⟨hn, hp, ho⟩, hrest⟩

theorem State.inv_chrWrite {s : State} (a : Nat) (v : Byte) (h : s.Inv) : (chrWrite a v s).Inv := by
  unfold chrWrite; split
  · obtain ⟨hram, hppu, ⟨h1, h2, h3, h4, h5, h6⟩, hrest⟩ := h
    exact ⟨hram, hppu, ⟨h1, h2, h3, h4, Memory.inside_write _ _ h5 (Nat.mod_lt _ h2.1), h6⟩, hrest⟩
  · exact h

theorem State.inv_ppuWrite {s : State} (a : Nat) (v : Byte) (h : s.Inv) : (ppuWrite a v s).Inv := by
  unfold ppuWrite; dsimp only
  split_ifs
  · exact State.inv_chrWrite _ _ h
  · obtain ⟨hram, ⟨hc, hs, ⟨hn, hp, ho⟩, hr⟩, hrest⟩ := h
    exact ⟨hram, ⟨hc, hs, ⟨Memory.inside_write _ _ hn (ntMirror_lt _ _), hp, ho⟩, hr⟩, hrest⟩
  · obtain ⟨hram, ⟨hc, hs, ⟨hn, hp, ho⟩, hr⟩, hrest⟩ := h
    exact ⟨hram, ⟨hc, hs, ⟨hn, Memory.inside_write _ _ hp (palIndex_lt _), ho⟩, hr⟩, hrest⟩

theorem State.inv_ppuRegWrite {s : State} (n : PpuReg) (v : Byte) (h : s.Inv) : (ppuRegWrite n v s).Inv := by
  have h' : (if n = .data then ppuWrite s.ppu.v.toNat v s else s).Inv := by
    split
    · exact State.inv_ppuWrite _ _ h
    · exact h
  obtain ⟨hram, hppu, hrest⟩ := h'
  exact ⟨hram, Ppu.inv_writeReg n v hppu, hrest⟩

/-! ## Reads -/

theorem State.inv_busRead {s : State} (a : Addr) (h : s.Inv) : (busRead a s).2.Inv := by
  unfold busRead; dsimp only
  split_ifs <;> first
    | exact h
    | exact ⟨h.1, Ppu.inv_readReg _ _ h.2.1, h.2.2⟩

theorem State.inv_memRead {s : State} (a : Addr) (h : s.Inv) : (memRead a s).2.Inv :=
  State.inv_busRead a (State.inv_tick h)

/-- A read of RAM or of the cartridge changes nothing at all. -/
theorem busRead_memory {a : Addr} (s : State) (h : isMemory a = true) : busRead a s = (peek a s, s) := by
  simp only [isMemory, Bool.or_eq_true, decide_eq_true_eq] at h
  unfold busRead peek
  dsimp only
  split_ifs <;> first | rfl | (exfalso; omega)

/-- What a memory address reads as does not depend on the PPU or the clock. -/
theorem peek_tick {a : Addr} (s : State) (h : isMemory a = true) : peek a (tick s) = peek a s := by
  simp only [isMemory, Bool.or_eq_true, decide_eq_true_eq] at h
  unfold peek
  dsimp only
  split_ifs <;> first | rfl | (exfalso; omega)

/-- A timed read of RAM or of the cartridge is a tick and the byte there. -/
theorem memRead_memory {a : Addr} (s : State) (h : isMemory a = true) : memRead a s = (peek a s, tick s) := by
  rw [memRead, busRead_memory _ h, peek_tick _ h]

/-- A read of RAM (R84). -/
theorem memRead_ramByte {a : Addr} (s : State) (h : a.toNat ≤ 0x1FFF) : memRead a s = (s.ram.read (a.toNat % 0x800), tick s) := by
  rw [memRead_memory _ (by simp [isMemory, h])]
  simp [peek, h]

/-! ## Writes -/

/-- A write of RAM is a tick and one byte (R84). -/
theorem memWrite_ram {a : Addr} (v : Byte) (s : State) (h : a.toNat ≤ 0x1FFF) :
    memWrite a v s = { tick s with ram := s.ram.write (a.toNat % 0x800) v } := by
  simp only [memWrite, busWrite, h, if_true]; rfl

@[simp] theorem chrWrite_ppu (a : Nat) (v : Byte) (s : State) : (chrWrite a v s).ppu = s.ppu := by unfold chrWrite; split <;> rfl

@[simp] theorem ppuWrite_a (a : Nat) (v : Byte) (s : State) : (ppuWrite a v s).a = s.a := by
  unfold ppuWrite chrWrite; dsimp only; split_ifs <;> rfl
@[simp] theorem ppuWrite_x (a : Nat) (v : Byte) (s : State) : (ppuWrite a v s).x = s.x := by
  unfold ppuWrite chrWrite; dsimp only; split_ifs <;> rfl
@[simp] theorem ppuWrite_y (a : Nat) (v : Byte) (s : State) : (ppuWrite a v s).y = s.y := by
  unfold ppuWrite chrWrite; dsimp only; split_ifs <;> rfl
@[simp] theorem ppuWrite_sp (a : Nat) (v : Byte) (s : State) : (ppuWrite a v s).sp = s.sp := by
  unfold ppuWrite chrWrite; dsimp only; split_ifs <;> rfl
@[simp] theorem ppuWrite_p (a : Nat) (v : Byte) (s : State) : (ppuWrite a v s).p = s.p := by
  unfold ppuWrite chrWrite; dsimp only; split_ifs <;> rfl
@[simp] theorem ppuWrite_pc (a : Nat) (v : Byte) (s : State) : (ppuWrite a v s).pc = s.pc := by
  unfold ppuWrite chrWrite; dsimp only; split_ifs <;> rfl
@[simp] theorem ppuWrite_cycleCount (a : Nat) (v : Byte) (s : State) : (ppuWrite a v s).cycleCount = s.cycleCount := by
  unfold ppuWrite chrWrite; dsimp only; split_ifs <;> rfl
@[simp] theorem ppuWrite_nmiFlag (a : Nat) (v : Byte) (s : State) : (ppuWrite a v s).nmiFlag = s.nmiFlag := by
  unfold ppuWrite chrWrite; dsimp only; split_ifs <;> rfl
@[simp] theorem ppuWrite_irqFlag (a : Nat) (v : Byte) (s : State) : (ppuWrite a v s).irqFlag = s.irqFlag := by
  unfold ppuWrite chrWrite; dsimp only; split_ifs <;> rfl
@[simp] theorem ppuWrite_run (a : Nat) (v : Byte) (s : State) : (ppuWrite a v s).run = s.run := by
  unfold ppuWrite chrWrite; dsimp only; split_ifs <;> rfl
@[simp] theorem ppuWrite_ram (a : Nat) (v : Byte) (s : State) : (ppuWrite a v s).ram = s.ram := by
  unfold ppuWrite chrWrite; dsimp only; split_ifs <;> rfl
@[simp] theorem ppuWrite_mirroring (a : Nat) (v : Byte) (s : State) : (ppuWrite a v s).mirroring = s.mirroring := by
  unfold ppuWrite chrWrite; dsimp only; split_ifs <;> rfl
@[simp] theorem ppuWrite_mapper (a : Nat) (v : Byte) (s : State) : (ppuWrite a v s).mapper = s.mapper := by
  unfold ppuWrite chrWrite; dsimp only; split_ifs <;> rfl
@[simp] theorem ppuWrite_banks (a : Nat) (v : Byte) (s : State) : (ppuWrite a v s).banks = s.banks := by
  unfold ppuWrite chrWrite; dsimp only; split_ifs <;> rfl
@[simp] theorem ppuWrite_ctl (a : Nat) (v : Byte) (s : State) : (ppuWrite a v s).ctl = s.ctl := by
  unfold ppuWrite chrWrite; dsimp only; split_ifs <;> rfl
@[simp] theorem ppuWrite_palette (a : Nat) (v : Byte) (s : State) : (ppuWrite a v s).palette = s.palette := by
  unfold ppuWrite chrWrite; dsimp only; split_ifs <;> rfl

@[simp] theorem ppuRegWrite_a (n : PpuReg) (v : Byte) (s : State) : (ppuRegWrite n v s).a = s.a := by
  unfold ppuRegWrite; dsimp only; split <;> simp
@[simp] theorem ppuRegWrite_x (n : PpuReg) (v : Byte) (s : State) : (ppuRegWrite n v s).x = s.x := by
  unfold ppuRegWrite; dsimp only; split <;> simp
@[simp] theorem ppuRegWrite_y (n : PpuReg) (v : Byte) (s : State) : (ppuRegWrite n v s).y = s.y := by
  unfold ppuRegWrite; dsimp only; split <;> simp
@[simp] theorem ppuRegWrite_sp (n : PpuReg) (v : Byte) (s : State) : (ppuRegWrite n v s).sp = s.sp := by
  unfold ppuRegWrite; dsimp only; split <;> simp
@[simp] theorem ppuRegWrite_p (n : PpuReg) (v : Byte) (s : State) : (ppuRegWrite n v s).p = s.p := by
  unfold ppuRegWrite; dsimp only; split <;> simp
@[simp] theorem ppuRegWrite_pc (n : PpuReg) (v : Byte) (s : State) : (ppuRegWrite n v s).pc = s.pc := by
  unfold ppuRegWrite; dsimp only; split <;> simp
@[simp] theorem ppuRegWrite_cycleCount (n : PpuReg) (v : Byte) (s : State) : (ppuRegWrite n v s).cycleCount = s.cycleCount := by
  unfold ppuRegWrite; dsimp only; split <;> simp
@[simp] theorem ppuRegWrite_nmiFlag (n : PpuReg) (v : Byte) (s : State) : (ppuRegWrite n v s).nmiFlag = s.nmiFlag := by
  unfold ppuRegWrite; dsimp only; split <;> simp
@[simp] theorem ppuRegWrite_irqFlag (n : PpuReg) (v : Byte) (s : State) : (ppuRegWrite n v s).irqFlag = s.irqFlag := by
  unfold ppuRegWrite; dsimp only; split <;> simp
@[simp] theorem ppuRegWrite_run (n : PpuReg) (v : Byte) (s : State) : (ppuRegWrite n v s).run = s.run := by
  unfold ppuRegWrite; dsimp only; split <;> simp
@[simp] theorem ppuRegWrite_ram (n : PpuReg) (v : Byte) (s : State) : (ppuRegWrite n v s).ram = s.ram := by
  unfold ppuRegWrite; dsimp only; split <;> simp
@[simp] theorem ppuRegWrite_mirroring (n : PpuReg) (v : Byte) (s : State) : (ppuRegWrite n v s).mirroring = s.mirroring := by
  unfold ppuRegWrite; dsimp only; split <;> simp
@[simp] theorem ppuRegWrite_mapper (n : PpuReg) (v : Byte) (s : State) : (ppuRegWrite n v s).mapper = s.mapper := by
  unfold ppuRegWrite; dsimp only; split <;> simp
@[simp] theorem ppuRegWrite_banks (n : PpuReg) (v : Byte) (s : State) : (ppuRegWrite n v s).banks = s.banks := by
  unfold ppuRegWrite; dsimp only; split <;> simp
@[simp] theorem ppuRegWrite_ctl (n : PpuReg) (v : Byte) (s : State) : (ppuRegWrite n v s).ctl = s.ctl := by
  unfold ppuRegWrite; dsimp only; split <;> simp
@[simp] theorem ppuRegWrite_palette (n : PpuReg) (v : Byte) (s : State) : (ppuRegWrite n v s).palette = s.palette := by
  unfold ppuRegWrite; dsimp only; split <;> simp

/-- Only PPUDATA reaches the cartridge. -/
theorem ppuRegWrite_cart (n : PpuReg) (v : Byte) (s : State) (h : n ≠ .data) : (ppuRegWrite n v s).cart = s.cart := by
  simp [ppuRegWrite, h]

/-! ## OAM DMA (R93) -/

theorem oamDataWrite_eq (v : Byte) (s : State) : oamDataWrite v s = memWrite 0x2004 v s := by
  simp only [oamDataWrite, memWrite, busWrite]; rfl

@[simp] theorem oamDataWrite_a (v : Byte) (s : State) : (oamDataWrite v s).a = s.a := by
  rw [oamDataWrite, ppuRegWrite_a, tick_a]
@[simp] theorem oamDataWrite_x (v : Byte) (s : State) : (oamDataWrite v s).x = s.x := by
  rw [oamDataWrite, ppuRegWrite_x, tick_x]
@[simp] theorem oamDataWrite_y (v : Byte) (s : State) : (oamDataWrite v s).y = s.y := by
  rw [oamDataWrite, ppuRegWrite_y, tick_y]
@[simp] theorem oamDataWrite_sp (v : Byte) (s : State) : (oamDataWrite v s).sp = s.sp := by
  rw [oamDataWrite, ppuRegWrite_sp, tick_sp]
@[simp] theorem oamDataWrite_p (v : Byte) (s : State) : (oamDataWrite v s).p = s.p := by
  rw [oamDataWrite, ppuRegWrite_p, tick_p]
@[simp] theorem oamDataWrite_pc (v : Byte) (s : State) : (oamDataWrite v s).pc = s.pc := by
  rw [oamDataWrite, ppuRegWrite_pc, tick_pc]
@[simp] theorem oamDataWrite_run (v : Byte) (s : State) : (oamDataWrite v s).run = s.run := by
  rw [oamDataWrite, ppuRegWrite_run, tick_run]
@[simp] theorem oamDataWrite_ram (v : Byte) (s : State) : (oamDataWrite v s).ram = s.ram := by
  rw [oamDataWrite, ppuRegWrite_ram, tick_ram]
@[simp] theorem oamDataWrite_mirroring (v : Byte) (s : State) : (oamDataWrite v s).mirroring = s.mirroring := by
  rw [oamDataWrite, ppuRegWrite_mirroring, tick_mirroring]
@[simp] theorem oamDataWrite_cart (v : Byte) (s : State) : (oamDataWrite v s).cart = s.cart := by
  rw [oamDataWrite, ppuRegWrite_cart _ _ _ (by decide), tick_cart]
@[simp] theorem oamDataWrite_banks (v : Byte) (s : State) : (oamDataWrite v s).banks = s.banks := by
  rw [oamDataWrite, ppuRegWrite_banks, tick_banks]
@[simp] theorem oamDataWrite_palette (v : Byte) (s : State) : (oamDataWrite v s).palette = s.palette := by
  rw [oamDataWrite, ppuRegWrite_palette, tick_palette]
@[simp] theorem oamDataWrite_cycleCount (v : Byte) (s : State) : (oamDataWrite v s).cycleCount = s.cycleCount + 1 := by
  rw [oamDataWrite, ppuRegWrite_cycleCount, tick_cycleCount]

@[simp] theorem dmaFrom_a (page : Byte) (n : Nat) (s : State) : (dmaFrom page n s).a = s.a := by
  induction n generalizing s with
  | zero => rfl
  | succ n ih => simp only [dmaFrom, ih, oamDataWrite_a, memRead_a]
@[simp] theorem dmaFrom_x (page : Byte) (n : Nat) (s : State) : (dmaFrom page n s).x = s.x := by
  induction n generalizing s with
  | zero => rfl
  | succ n ih => simp only [dmaFrom, ih, oamDataWrite_x, memRead_x]
@[simp] theorem dmaFrom_y (page : Byte) (n : Nat) (s : State) : (dmaFrom page n s).y = s.y := by
  induction n generalizing s with
  | zero => rfl
  | succ n ih => simp only [dmaFrom, ih, oamDataWrite_y, memRead_y]
@[simp] theorem dmaFrom_sp (page : Byte) (n : Nat) (s : State) : (dmaFrom page n s).sp = s.sp := by
  induction n generalizing s with
  | zero => rfl
  | succ n ih => simp only [dmaFrom, ih, oamDataWrite_sp, memRead_sp]
@[simp] theorem dmaFrom_p (page : Byte) (n : Nat) (s : State) : (dmaFrom page n s).p = s.p := by
  induction n generalizing s with
  | zero => rfl
  | succ n ih => simp only [dmaFrom, ih, oamDataWrite_p, memRead_p]
@[simp] theorem dmaFrom_pc (page : Byte) (n : Nat) (s : State) : (dmaFrom page n s).pc = s.pc := by
  induction n generalizing s with
  | zero => rfl
  | succ n ih => simp only [dmaFrom, ih, oamDataWrite_pc, memRead_pc]
@[simp] theorem dmaFrom_run (page : Byte) (n : Nat) (s : State) : (dmaFrom page n s).run = s.run := by
  induction n generalizing s with
  | zero => rfl
  | succ n ih => simp only [dmaFrom, ih, oamDataWrite_run, memRead_run]
@[simp] theorem dmaFrom_ram (page : Byte) (n : Nat) (s : State) : (dmaFrom page n s).ram = s.ram := by
  induction n generalizing s with
  | zero => rfl
  | succ n ih => simp only [dmaFrom, ih, oamDataWrite_ram, memRead_ram]
@[simp] theorem dmaFrom_mirroring (page : Byte) (n : Nat) (s : State) : (dmaFrom page n s).mirroring = s.mirroring := by
  induction n generalizing s with
  | zero => rfl
  | succ n ih => simp only [dmaFrom, ih, oamDataWrite_mirroring, memRead_mirroring]
@[simp] theorem dmaFrom_cart (page : Byte) (n : Nat) (s : State) : (dmaFrom page n s).cart = s.cart := by
  induction n generalizing s with
  | zero => rfl
  | succ n ih => simp only [dmaFrom, ih, oamDataWrite_cart, memRead_cart]
@[simp] theorem dmaFrom_banks (page : Byte) (n : Nat) (s : State) : (dmaFrom page n s).banks = s.banks := by
  induction n generalizing s with
  | zero => rfl
  | succ n ih => simp only [dmaFrom, ih, oamDataWrite_banks, memRead_banks]
@[simp] theorem dmaFrom_palette (page : Byte) (n : Nat) (s : State) : (dmaFrom page n s).palette = s.palette := by
  induction n generalizing s with
  | zero => rfl
  | succ n ih => simp only [dmaFrom, ih, oamDataWrite_palette, memRead_palette]
@[simp] theorem dmaFrom_cycleCount (page : Byte) (n : Nat) (s : State) :
    (dmaFrom page n s).cycleCount = s.cycleCount + 2 * n := by
  induction n generalizing s with
  | zero => rfl
  | succ n ih => simp only [dmaFrom, ih, oamDataWrite_cycleCount, memRead_cycleCount]; omega

/-! ## Writes keep every CPU register (R83) -/

@[simp] theorem mapperWrite_a (a : Addr) (v : Byte) (s : State) : (mapperWrite a v s).a = s.a := by
  unfold mapperWrite mapperRegisterWrite; split_ifs <;> first | rfl | (cases s.mapper <;> rfl)
@[simp] theorem mapperWrite_x (a : Addr) (v : Byte) (s : State) : (mapperWrite a v s).x = s.x := by
  unfold mapperWrite mapperRegisterWrite; split_ifs <;> first | rfl | (cases s.mapper <;> rfl)
@[simp] theorem mapperWrite_y (a : Addr) (v : Byte) (s : State) : (mapperWrite a v s).y = s.y := by
  unfold mapperWrite mapperRegisterWrite; split_ifs <;> first | rfl | (cases s.mapper <;> rfl)
@[simp] theorem mapperWrite_sp (a : Addr) (v : Byte) (s : State) : (mapperWrite a v s).sp = s.sp := by
  unfold mapperWrite mapperRegisterWrite; split_ifs <;> first | rfl | (cases s.mapper <;> rfl)
@[simp] theorem mapperWrite_p (a : Addr) (v : Byte) (s : State) : (mapperWrite a v s).p = s.p := by
  unfold mapperWrite mapperRegisterWrite; split_ifs <;> first | rfl | (cases s.mapper <;> rfl)
@[simp] theorem mapperWrite_pc (a : Addr) (v : Byte) (s : State) : (mapperWrite a v s).pc = s.pc := by
  unfold mapperWrite mapperRegisterWrite; split_ifs <;> first | rfl | (cases s.mapper <;> rfl)
@[simp] theorem mapperWrite_palette (a : Addr) (v : Byte) (s : State) : (mapperWrite a v s).palette = s.palette := by
  unfold mapperWrite mapperRegisterWrite; split_ifs <;> first | rfl | (cases s.mapper <;> rfl)
@[simp] theorem mapperWrite_cycleCount (a : Addr) (v : Byte) (s : State) : (mapperWrite a v s).cycleCount = s.cycleCount := by
  unfold mapperWrite mapperRegisterWrite; split_ifs <;> first | rfl | (cases s.mapper <;> rfl)

@[simp] theorem busWrite_a (a : Addr) (v : Byte) (s : State) : (busWrite a v s).a = s.a := by
  unfold busWrite; dsimp only; split_ifs <;> simp [ctlWrite, dmaOam]
@[simp] theorem busWrite_x (a : Addr) (v : Byte) (s : State) : (busWrite a v s).x = s.x := by
  unfold busWrite; dsimp only; split_ifs <;> simp [ctlWrite, dmaOam]
@[simp] theorem busWrite_y (a : Addr) (v : Byte) (s : State) : (busWrite a v s).y = s.y := by
  unfold busWrite; dsimp only; split_ifs <;> simp [ctlWrite, dmaOam]
@[simp] theorem busWrite_sp (a : Addr) (v : Byte) (s : State) : (busWrite a v s).sp = s.sp := by
  unfold busWrite; dsimp only; split_ifs <;> simp [ctlWrite, dmaOam]
@[simp] theorem busWrite_p (a : Addr) (v : Byte) (s : State) : (busWrite a v s).p = s.p := by
  unfold busWrite; dsimp only; split_ifs <;> simp [ctlWrite, dmaOam]
@[simp] theorem busWrite_pc (a : Addr) (v : Byte) (s : State) : (busWrite a v s).pc = s.pc := by
  unfold busWrite; dsimp only; split_ifs <;> simp [ctlWrite, dmaOam]
@[simp] theorem busWrite_palette (a : Addr) (v : Byte) (s : State) : (busWrite a v s).palette = s.palette := by
  unfold busWrite; dsimp only; split_ifs <;> simp [ctlWrite, dmaOam]

@[simp] theorem memWrite_a (a : Addr) (v : Byte) (s : State) : (memWrite a v s).a = s.a := by
  rw [memWrite, busWrite_a, tick_a]
@[simp] theorem memWrite_x (a : Addr) (v : Byte) (s : State) : (memWrite a v s).x = s.x := by
  rw [memWrite, busWrite_x, tick_x]
@[simp] theorem memWrite_y (a : Addr) (v : Byte) (s : State) : (memWrite a v s).y = s.y := by
  rw [memWrite, busWrite_y, tick_y]
@[simp] theorem memWrite_sp (a : Addr) (v : Byte) (s : State) : (memWrite a v s).sp = s.sp := by
  rw [memWrite, busWrite_sp, tick_sp]
@[simp] theorem memWrite_p (a : Addr) (v : Byte) (s : State) : (memWrite a v s).p = s.p := by
  rw [memWrite, busWrite_p, tick_p]
@[simp] theorem memWrite_pc (a : Addr) (v : Byte) (s : State) : (memWrite a v s).pc = s.pc := by
  rw [memWrite, busWrite_pc, tick_pc]
@[simp] theorem memWrite_palette (a : Addr) (v : Byte) (s : State) : (memWrite a v s).palette = s.palette := by
  rw [memWrite, busWrite_palette, tick_palette]

/-- The ticks inside a write: 512 for OAM DMA, else none (R93). -/
theorem busWrite_cycleCount (a : Addr) (v : Byte) (s : State) :
    (busWrite a v s).cycleCount = s.cycleCount + if a = 0x4014 then 512 else 0 := by
  have key : a = 0x4014 ↔ a.toNat = 0x4014 := by
    constructor
    · rintro rfl; rfl
    · intro h; apply BitVec.eq_of_toNat_eq; rw [h]; rfl
  simp only [key]
  unfold busWrite; dsimp only
  split_ifs <;> first | (exfalso; omega) | simp [ctlWrite, dmaOam]

theorem memWrite_cycleCount (a : Addr) (v : Byte) (s : State) :
    (memWrite a v s).cycleCount = s.cycleCount + 1 + if a = 0x4014 then 512 else 0 := by
  rw [memWrite, busWrite_cycleCount, tick_cycleCount]

/-! ## The invariant under a write -/

theorem State.inv_dmaFrom (page : Byte) (n : Nat) {s : State} (h : s.Inv) : (dmaFrom page n s).Inv := by
  induction n generalizing s with
  | zero => exact h
  | succ n ih => exact ih (State.inv_ppuRegWrite _ _ (State.inv_tick (State.inv_memRead _ h)))

theorem Mapper.mirroring_idem (m : Mapper) (w : Mirroring) : m.mirroring (m.mirroring w) = m.mirroring w := by
  cases m <;> rfl

theorem State.inv_applyMapper {s : State} {m : Mapper} (h : s.Inv) (hm : m.registersOk = true) : (s.applyMapper m).Inv :=
  ⟨h.1, h.2.1, h.2.2.1, hm, ⟨rfl, (Mapper.mirroring_idem m _).symm⟩, h.2.2.2.2.2⟩

theorem Mmc1.writeN_write {r : Mmc1} (a : Addr) (v : Byte) (h : r.writeN ≤ 4) : (r.write a v).writeN ≤ 4 := by
  unfold Mmc1.write
  dsimp only
  split_ifs
  all_goals first
    | exact Nat.zero_le _
    | (show r.writeN + 1 ≤ 4; omega)
    | (split <;> exact Nat.zero_le _)

theorem Mmc3.length_write {r : Mmc3} (a : Addr) (v : Byte) (h : r.regs.length = 8) : (r.write a v).regs.length = 8 := by
  unfold Mmc3.write
  split <;> simp [h]

theorem State.inv_mapperRegisterWrite {s : State} (a : Addr) (v : Byte) (h : s.Inv) : (mapperRegisterWrite a v s).Inv := by
  have hm := h.2.2.2.1
  unfold mapperRegisterWrite
  split
  · exact h
  · rename_i r he
    rw [he] at hm
    exact State.inv_applyMapper h (by simpa [Mapper.registersOk] using Mmc1.writeN_write a v (by simpa [Mapper.registersOk] using hm))
  · exact State.inv_applyMapper h rfl
  · rename_i r he
    rw [he] at hm
    have key := State.inv_applyMapper (s := s) (m := .mmc3 (r.write a v)) h (by simpa [Mapper.registersOk] using Mmc3.length_write a v (by simpa [Mapper.registersOk] using hm))
    exact key
  · exact State.inv_applyMapper h rfl

theorem State.inv_mapperWrite {s : State} (a : Addr) (v : Byte) (h : s.Inv) : (mapperWrite a v s).Inv := by
  unfold mapperWrite
  split_ifs
  · exact h
  · obtain ⟨hram, hppu, ⟨h1, h2, h3, h4, h5, h6⟩, hrest⟩ := h
    exact ⟨hram, hppu, ⟨h1, h2, h3, h4, h5, Memory.inside_write _ _ h6 (Nat.mod_lt _ h3.1)⟩, hrest⟩
  · exact State.inv_mapperRegisterWrite a v h

theorem State.inv_busWrite {s : State} (a : Addr) (v : Byte) (h : s.Inv) : (busWrite a v s).Inv := by
  unfold busWrite; dsimp only
  split_ifs
  · exact ⟨Memory.inside_write _ _ h.1 (Nat.mod_lt _ (by decide)), h.2⟩
  · exact State.inv_ppuRegWrite _ _ h
  · exact h
  · exact State.inv_dmaFrom _ _ h
  · exact h
  · exact h
  · exact h
  · exact State.inv_mapperWrite a v h

theorem State.inv_memWrite {s : State} (a : Addr) (v : Byte) (h : s.Inv) : (memWrite a v s).Inv :=
  State.inv_busWrite a v (State.inv_tick h)

end Sys2Proof.Machine
end

