-- ==== Sys2Proof/Laws/Ops.lean ====
section
/-! SUPPORT. What the shared operations can do, said once: time and reads keep every memory and every control register;
the addressing modes are ticks and one access; the stack is page 1. -/

namespace Sys2Proof.Machine

/-! ## `StorageKept` and `ControlsKept` -/

theorem storageKept_refl (s : State) : StorageKept s s := ⟨fun _ _ => rfl, rfl, rfl, rfl, rfl, rfl⟩

theorem storageKept_trans {s t u : State} (h : StorageKept s t) (k : StorageKept t u) : StorageKept s u :=
  ⟨fun a ha => (k.1 a ha).trans (h.1 a ha), k.2.1.trans h.2.1, k.2.2.1.trans h.2.2.1, k.2.2.2.1.trans h.2.2.2.1,
    k.2.2.2.2.1.trans h.2.2.2.2.1, k.2.2.2.2.2.trans h.2.2.2.2.2⟩

theorem ppuControlsKept_trans {s t u : State} (h : PpuControlsKept s t) (k : PpuControlsKept t u) : PpuControlsKept s u :=
  ⟨k.1.trans h.1, k.2.1.trans h.2.1, k.2.2.1.trans h.2.2.1, k.2.2.2.1.trans h.2.2.2.1, k.2.2.2.2.trans h.2.2.2.2⟩

theorem mapperKept_trans {s t u : State} (h : MapperKept s t) (k : MapperKept t u) : MapperKept s u :=
  ⟨k.1.trans h.1, k.2.1.trans h.2.1, k.2.2.trans h.2.2⟩

theorem hostInputKept_trans {s t u : State} (h : HostInputKept s t) (k : HostInputKept t u) : HostInputKept s u :=
  ⟨k.1.trans h.1, k.2.1.trans h.2.1, k.2.2.trans h.2.2⟩

theorem requestsKept_trans {s t u : State} (h : RequestsKept s t) (k : RequestsKept t u) : RequestsKept s u :=
  ⟨fun x => k.1 (h.1 x), fun x => k.2 (h.2 x)⟩

theorem controlsKept_refl (s : State) : ControlsKept s s :=
  ⟨⟨rfl, rfl, rfl, rfl, rfl⟩, ⟨rfl, rfl, rfl⟩, ⟨rfl, rfl, rfl⟩, ⟨id, id⟩, rfl, rfl⟩

theorem controlsKept_trans {s t u : State} (h : ControlsKept s t) (k : ControlsKept t u) : ControlsKept s u :=
  ⟨ppuControlsKept_trans h.1 k.1, mapperKept_trans h.2.1 k.2.1, hostInputKept_trans h.2.2.1 k.2.2.1,
    requestsKept_trans h.2.2.2.1 k.2.2.2.1, k.2.2.2.2.1.trans h.2.2.2.2.1, k.2.2.2.2.2.trans h.2.2.2.2.2⟩

/-- A memory address reads as its array says: what it reads as follows from the arrays and the bank tables alone. -/
theorem peek_congr {s t : State} (hr : t.ram = s.ram) (hc : t.cart = s.cart) (hb : t.banks = s.banks) {a : Addr}
    (h : isMemory a = true) : peek a t = peek a s := by
  simp only [isMemory, Bool.or_eq_true, decide_eq_true_eq] at h
  unfold peek mapperRead
  dsimp only
  rw [hr, hc, hb]
  split_ifs <;> first | rfl | (exfalso; omega)

theorem storageKept_of {s t : State} (hr : t.ram = s.ram) (hc : t.cart = s.cart) (hb : t.banks = s.banks)
    (hp : PpuMemoriesKept s t) : StorageKept s t :=
  ⟨fun _ => peek_congr hr hc hb, hr, hc, hp⟩

/-! ## Time -/

theorem Mapper.withoutCounter_countScanline (m : Mapper) : m.countScanline.withoutCounter = m.withoutCounter := by
  cases m <;> rfl

theorem controlsKept_ppuDot (s : State) : ControlsKept s (ppuDot s) := by
  have hk := ppuDot_kept s
  refine ⟨⟨congrArg PpuKept.ctrl hk, congrArg PpuKept.mask hk, congrArg PpuKept.t hk, congrArg PpuKept.fineX hk,
    congrArg PpuKept.oamAddr hk⟩, ⟨rfl, rfl, ?_⟩, ⟨rfl, rfl, rfl⟩, ⟨fun h => ?_, fun h => ?_⟩, rfl, rfl⟩
  · simp only [ppuDot]; split
    · exact Mapper.withoutCounter_countScanline _
    · rfl
  · simp [ppuDot, h]
  · simp [ppuDot, h]

theorem storageKept_ppuDot (s : State) : StorageKept s (ppuDot s) :=
  have hk := ppuDot_kept s
  storageKept_of rfl rfl rfl ⟨congrArg PpuKept.ntRam hk, congrArg PpuKept.palRam hk, congrArg PpuKept.oam hk⟩

theorem controlsKept_tick (s : State) : ControlsKept s (tick s) :=
  controlsKept_trans (controlsKept_ppuDot { s with cycleCount := s.cycleCount + 1 })
    (controlsKept_trans (controlsKept_ppuDot _) (controlsKept_ppuDot _))

theorem storageKept_tick (s : State) : StorageKept s (tick s) :=
  storageKept_trans (storageKept_ppuDot { s with cycleCount := s.cycleCount + 1 })
    (storageKept_trans (storageKept_ppuDot _) (storageKept_ppuDot _))

theorem controlsKept_ticks (n : Nat) (s : State) : ControlsKept s (ticks n s) := by
  induction n generalizing s with
  | zero => exact controlsKept_refl s
  | succ n ih => exact controlsKept_trans (controlsKept_tick s) (ih _)

theorem storageKept_ticks (n : Nat) (s : State) : StorageKept s (ticks n s) := by
  induction n generalizing s with
  | zero => exact storageKept_refl s
  | succ n ih => exact storageKept_trans (storageKept_tick s) (ih _)

theorem tick_ticks (n : Nat) (s : State) : tick (ticks n s) = ticks (n + 1) s := by
  rw [ticks_add]; rfl

theorem peek_ticks {a : Addr} (n : Nat) (s : State) (h : isMemory a = true) : peek a (ticks n s) = peek a s :=
  (storageKept_ticks n s).1 a h

/-! ## Reads -/

theorem controlsKept_busRead (a : Addr) (s : State) : ControlsKept s (busRead a s).2 := by
  have key : ∀ n, ControlsKept s (ppuRegRead n s).2 := fun n => by
    cases n <;> exact ⟨⟨rfl, rfl, rfl, rfl, rfl⟩, ⟨rfl, rfl, rfl⟩, ⟨rfl, rfl, rfl⟩, ⟨id, id⟩, rfl, rfl⟩
  have key' : ∀ p, ControlsKept s (ctlRead p s).2 := fun p => by
    cases p <;> simp only [ctlRead, Controller.afterRead, Controller.setShift] <;> split <;>
      exact ⟨⟨rfl, rfl, rfl, rfl, rfl⟩, ⟨rfl, rfl, rfl⟩, ⟨rfl, rfl, rfl⟩, ⟨id, id⟩, rfl, rfl⟩
  unfold busRead; dsimp only
  split_ifs <;> first | exact controlsKept_refl s | exact key _ | exact key' _

theorem storageKept_busRead (a : Addr) (s : State) : StorageKept s (busRead a s).2 := by
  refine storageKept_of (busRead_ram a s) (busRead_cart a s) (busRead_banks a s) ?_
  have key : ∀ n, PpuMemoriesKept s (ppuRegRead n s).2 := fun n => by cases n <;> exact ⟨rfl, rfl, rfl⟩
  unfold busRead; dsimp only
  split_ifs <;> first | exact ⟨rfl, rfl, rfl⟩ | exact key _

theorem controlsKept_memRead (a : Addr) (s : State) : ControlsKept s (memRead a s).2 :=
  controlsKept_trans (controlsKept_tick s) (controlsKept_busRead a _)

theorem storageKept_memRead (a : Addr) (s : State) : StorageKept s (memRead a s).2 :=
  storageKept_trans (storageKept_tick s) (storageKept_busRead a _)

/-! ## Addressing modes -/

theorem zeroPage_toNat (z : Byte) : (zeroPage z).toNat = z.toNat := by
  have := z.isLt
  simp only [zeroPage, BitVec.toNat_setWidth]; omega

theorem isMemory_zeroPage (z : Byte) : isMemory (zeroPage z) = true := by
  have := z.isLt
  simp only [isMemory, zeroPage_toNat, Bool.or_eq_true, decide_eq_true_eq]; omega

theorem zeroPagePointer_eq (z : Byte) (s : State) :
    zeroPagePointer z s = (addrOf (peek (zeroPage z) s) (peek (zeroPage (z + 1)) s), ticks 2 s) := by
  rw [zeroPagePointer, memRead_memory _ (isMemory_zeroPage z)]
  dsimp only
  rw [memRead_memory _ (isMemory_zeroPage _), peek_tick _ (isMemory_zeroPage _)]
  rfl

theorem payCrossing_eq (base : Addr) (i : Byte) (s : State) :
    payCrossing base i s = ticks (if pageCross base (indexed base i) then 1 else 0) s := by
  unfold payCrossing; split <;> rfl

theorem addrIndexedIndirect_eq (z : Byte) (s : State) :
    addrIndexedIndirect z s = (addrOf (peek (zeroPage (z + s.x)) s) (peek (zeroPage (z + s.x + 1)) s), ticks 3 s) := by
  rw [addrIndexedIndirect, zeroPagePointer_eq, peek_tick _ (isMemory_zeroPage _), peek_tick _ (isMemory_zeroPage _)]; rfl

theorem addrIndirectIndexedAlways_eq (z : Byte) (s : State) : addrIndirectIndexedAlways z s =
    (indexed (addrOf (peek (zeroPage z) s) (peek (zeroPage (z + 1)) s)) s.y, ticks 3 s) := by
  rw [addrIndirectIndexedAlways, zeroPagePointer_eq]; rfl

/-- The address of a read operand and the ticks before its access; an immediate has none (R146 to R157). -/
def readTarget (m : ReadOperand) (s : State) : Option (Addr × Nat) :=
  match m with
  | .imm _ => none
  | .zp z => some (zeroPage z, 0)
  | .zpx z => some (zeroPage (z + s.x), 1)
  | .zpy z => some (zeroPage (z + s.y), 1)
  | .abs a => some (a, 0)
  | .abx base => some (indexed base s.x, if readCrosses m s then 1 else 0)
  | .aby base => some (indexed base s.y, if readCrosses m s then 1 else 0)
  | .izx z => some (peekZeroPagePointer (z + s.x) s, 3)
  | .izy z => some (indexed (peekZeroPagePointer z s) s.y, if readCrosses m s then 3 else 2)

/-- An operand read is an immediate, or ticks and one timed read. -/
theorem readOp_cases (m : ReadOperand) (s : State) :
    (∃ v, m = .imm v ∧ readTarget m s = none ∧ readOp m s = (v, s)) ∨
    (∃ a n, readTarget m s = some (a, n) ∧ readOp m s = memRead a (ticks n s)) := by
  cases m with
  | imm v => exact .inl ⟨v, rfl, rfl, rfl⟩
  | zp z => exact .inr ⟨_, _, rfl, rfl⟩
  | zpx z => exact .inr ⟨_, _, rfl, rfl⟩
  | zpy z => exact .inr ⟨_, _, rfl, rfl⟩
  | abs a => exact .inr ⟨_, _, rfl, rfl⟩
  | abx base => exact .inr ⟨_, _, rfl, by simp only [readOp, addrIndexed, payCrossing_eq]; rfl⟩
  | aby base => exact .inr ⟨_, _, rfl, by simp only [readOp, addrIndexed, payCrossing_eq]; rfl⟩
  | izx z => exact .inr ⟨_, _, rfl, by simp only [readOp, addrIndexedIndirect_eq]; rfl⟩
  | izy z =>
    refine .inr ⟨_, _, rfl, ?_⟩
    simp only [readOp, addrIndirectIndexed, zeroPagePointer_eq, addrIndexed, payCrossing_eq, readCrosses, peekZeroPagePointer]
    rw [← ticks_add]
    congr 2
    split <;> rename_i h <;> simp only [h, if_true, if_false, Bool.false_eq_true]

/-- A store's address and the ticks before its access (R147 to R157). -/
theorem writeAddr_ticks (m : WriteOperand) (s : State) : ∃ n, (writeAddr m s).2 = ticks n s := by
  cases m with
  | zp z => exact ⟨0, rfl⟩
  | zpx z => exact ⟨1, rfl⟩
  | zpy z => exact ⟨1, rfl⟩
  | abs a => exact ⟨0, rfl⟩
  | abxe a => exact ⟨1, rfl⟩
  | abye a => exact ⟨1, rfl⟩
  | izx z => exact ⟨3, by rw [writeAddr, addrIndexedIndirect_eq]⟩
  | izye z => exact ⟨3, by rw [writeAddr, addrIndirectIndexedAlways_eq]⟩

/-- A read-modify-write's address and the ticks before its read (R147 to R157). -/
theorem rmwAddr_ticks (m : RmwOperand) (s : State) : ∃ n, (rmwAddr m s).2 = ticks n s := by
  cases m with
  | zp z => exact ⟨0, rfl⟩
  | zpx z => exact ⟨1, rfl⟩
  | abs a => exact ⟨0, rfl⟩
  | abxe a => exact ⟨1, rfl⟩
  | abye a => exact ⟨1, rfl⟩
  | izx z => exact ⟨3, by rw [rmwAddr, addrIndexedIndirect_eq]⟩
  | izye z => exact ⟨3, by rw [rmwAddr, addrIndirectIndexedAlways_eq]⟩

/-- An operand read keeps every CPU register, every memory and every control register. -/
theorem readOp_kept (m : ReadOperand) (s : State) : (readOp m s).2 = s.withCpu (readOp m s).2 ∧
    StorageKept s (readOp m s).2 ∧ ControlsKept s (readOp m s).2 := by
  obtain ⟨v, -, -, h⟩ | ⟨a, n, -, h⟩ := readOp_cases m s <;> rw [h]
  · exact ⟨rfl, storageKept_refl s, controlsKept_refl s⟩
  · refine ⟨?_, storageKept_trans (storageKept_ticks n s) (storageKept_memRead _ _),
      controlsKept_trans (controlsKept_ticks n s) (controlsKept_memRead _ _)⟩
    have hk : ∀ t : State, t.a = s.a → t.x = s.x → t.y = s.y → t.sp = s.sp → t.p = s.p → t.pc = s.pc → t = s.withCpu t := by
      rintro ⟨⟩ rfl rfl rfl rfl rfl rfl; rfl
    apply hk <;> simp

end Sys2Proof.Machine
end

