-- ==== Sys2Proof/Laws/Store.lean ====
section
/-! SUPPORT. What a timed write leaves, by the row of the address map (R81, R83), and what a push leaves. -/

namespace Sys2Proof.Machine

theorem controlsKept_ram {s t : State} (m : Memory) (h : ControlsKept s t) : ControlsKept s { t with ram := m } := h

/-! ## One byte of RAM or PRG-RAM -/

/-- A byte stored in RAM, everything else as kept so far. -/
theorem stored_ram {a : Addr} (v : Byte) {s t : State} (ha : a.toNat ≤ 0x1FFF) (hw : t.ram.wf = true) (hs : StorageKept s t)
    (hc : ControlsKept s t) : Stored [(a, v)] s { t with ram := t.ram.write (a.toNat % 0x800) v } := by
  have hr : t.ram = s.ram := hs.2.1
  refine ⟨?_, ?_, ?_, ?_, fun _ => hs.2.2.1, fun h => absurd (h _ (List.mem_singleton.2 rfl)) (by simp; omega), hs.2.2.2, hc⟩
  · intro e he
    rw [List.mem_singleton.1 he]
    simp only [peek, ha, if_true, Memory.read_write_same _ _ _ hw]
  · intro b hb hne
    have hne := hne _ (List.mem_singleton.2 rfl)
    by_cases hb' : b.toNat ≤ 0x1FFF
    · have hmod : b.toNat % 0x800 ≠ a.toNat % 0x800 := by
        intro he; simp only [sameByte, ha, hb', he] at hne; simp at hne
      simp only [peek, hb', if_true, Memory.read_write_ne _ _ _ _ hmod, hr]
    · rw [← hs.1 b hb]
      simp only [peek, hb', if_false]; rfl
  · show t.cart = _; rw [hs.2.2.1]
  · intro j _; show t.cart.prgRam.read j = _; rw [hs.2.2.1]

/-- A byte stored in PRG-RAM, everything else as kept so far. -/
theorem stored_prgRam {a : Addr} (v : Byte) {s t : State} (ha : 0x6000 ≤ a.toNat) (ha' : a.toNat ≤ 0x7FFF)
    (hw : t.cart.prgRam.wf = true) (hs : StorageKept s t) (hc : ControlsKept s t) :
    Stored [(a, v)] s
      { t with cart := { t.cart with prgRam := t.cart.prgRam.write ((a.toNat - 0x6000) % t.cart.prgRamSize) v } } := by
  have hcart : t.cart = s.cart := hs.2.2.1
  refine ⟨?_, ?_, ?_, ?_, fun h => absurd (h _ (List.mem_singleton.2 rfl)) (by simp; omega), fun _ => hs.2.1, hs.2.2.2, hc⟩
  · intro e he
    rw [List.mem_singleton.1 he]
    have h1 : ¬a.toNat ≤ 0x1FFF := by omega
    have h2 : ¬a.toNat ≤ 0x3FFF := by omega
    have h3 : ¬(a.toNat ≤ 0x4013 ∨ a.toNat = 0x4015) := by omega
    have h4 : ¬a.toNat = 0x4014 := by omega
    have h5 : ¬a.toNat = 0x4016 := by omega
    have h6 : ¬a.toNat = 0x4017 := by omega
    have h7 : ¬a.toNat ≤ 0x5FFF := by omega
    have h8 : a.toNat < 0x8000 := by omega
    simp only [peek, mapperRead, h1, h2, h3, h4, h5, h6, h7, h8, if_true, if_false, Memory.read_write_same _ _ _ hw]
  · intro b hb hne
    have hne := hne _ (List.mem_singleton.2 rfl)
    rw [← hs.1 b hb]
    simp only [isMemory, Bool.or_eq_true, decide_eq_true_eq] at hb
    unfold peek mapperRead
    dsimp only
    split_ifs with h1 h2 h3 h4 h5 h6 h7 h8
    all_goals first | rfl | skip
    refine Memory.read_write_ne _ _ _ _ fun he => ?_
    have e1 : ¬a.toNat ≤ 0x1FFF := by omega
    have e2 : b.toNat ≤ 0x7FFF := by omega
    have e3 : 0x6000 ≤ b.toNat := by omega
    rw [hcart] at he
    simp only [sameByte, e1, ha, ha', e2, e3, he] at hne; simp at hne
  · show ({ t.cart with prgRam := _ } : Cart) = _; rw [hcart]
  · intro j hj
    have hj := hj _ (List.mem_singleton.2 rfl)
    show (t.cart.prgRam.write _ v).read j = _
    rw [hcart]; exact Memory.read_write_ne _ _ _ _ hj

/-! ## PPU registers -/

theorem Ppu.registerWritten_writeReg (n : PpuReg) (v : Byte) (p : Ppu) :
    (p.writeReg n v).ntRam = p.ntRam ∧ (p.writeReg n v).palRam = p.palRam ∧
    (n ≠ .oamData → (p.writeReg n v).oam = p.oam) ∧ (n ≠ .ctrl → (p.writeReg n v).ctrl = p.ctrl) ∧
    (n ≠ .mask → (p.writeReg n v).mask = p.mask) ∧
    (n ≠ .ctrl ∧ n ≠ .scroll ∧ n ≠ .addr → (p.writeReg n v).t = p.t) ∧
    (n ≠ .scroll → (p.writeReg n v).fineX = p.fineX) ∧
    (n ≠ .oamAddr ∧ n ≠ .oamData → (p.writeReg n v).oamAddr = p.oamAddr) := by
  cases n <;> simp [Ppu.writeReg, Ppu.stepAddress] <;> split <;> simp

theorem ppuWrite_cart_chr (a : Nat) (v : Byte) (s : State) :
    (ppuWrite a v s).cart = { s.cart with chr := (ppuWrite a v s).cart.chr } := by
  unfold ppuWrite chrWrite; dsimp only; split_ifs <;> rfl

theorem ppuWrite_ppu_regs (a : Nat) (v : Byte) (s : State) :
    (ppuWrite a v s).ppu = { s.ppu with ntRam := (ppuWrite a v s).ppu.ntRam, palRam := (ppuWrite a v s).ppu.palRam } := by
  unfold ppuWrite chrWrite; dsimp only; split_ifs <;> rfl

/-- A register write changes only the memory and the registers that belong to it, whatever was kept before it. -/
theorem registerWritten_ppuRegWrite (n : PpuReg) (v : Byte) {s u : State} (hs : StorageKept s u) (hc : ControlsKept s u) :
    PpuRegisterWritten n s (ppuRegWrite n v u) ∧ MapperKept s (ppuRegWrite n v u) ∧ HostInputKept s (ppuRegWrite n v u) ∧
    RequestsKept s (ppuRegWrite n v u) ∧ (ppuRegWrite n v u).run = s.run ∧ (ppuRegWrite n v u).ram = s.ram := by
  obtain ⟨⟨c1, c2, c3, c4, c5⟩, ⟨m1, m2, m3⟩, ⟨b1, b2, b3⟩, ⟨q1, q2⟩, hst, hrun⟩ := hc
  obtain ⟨-, hram, hcart, hnt, hpal, hoam⟩ := hs
  refine ⟨?_, ⟨by simp [m1], by simp [m2], by simp [m3]⟩, ⟨by simp [b1], by simp [b2], by simp [b3]⟩,
    ⟨fun h => by simp [q1 h], fun h => by simp [q2 h]⟩, by simp [hrun], by simp [hram]⟩
  by_cases hd : n = .data
  · subst hd
    have hp := ppuWrite_ppu_regs u.ppu.v.toNat v u
    have e : (ppuRegWrite .data v u).ppu = (ppuWrite u.ppu.v.toNat v u).ppu.writeReg .data v := rfl
    obtain ⟨-, -, w3, w4, w5, w6, w7, w8⟩ := Ppu.registerWritten_writeReg .data v (ppuWrite u.ppu.v.toNat v u).ppu
    rw [← e] at w3 w4 w5 w6 w7 w8
    have f : ∀ {α : Type} (g : Ppu → α), g (ppuWrite u.ppu.v.toNat v u).ppu =
      g { u.ppu with ntRam := (ppuWrite u.ppu.v.toNat v u).ppu.ntRam, palRam := (ppuWrite u.ppu.v.toNat v u).ppu.palRam } :=
      fun g => congrArg g hp
    refine ⟨fun h => absurd rfl h, fun _ => (w3 (by decide)).trans ((f Ppu.oam).trans hoam), fun _ => (w4 (by decide)).trans ((f Ppu.ctrl).trans c1),
      fun _ => (w5 (by decide)).trans ((f Ppu.mask).trans c2), fun _ => (w6 (by decide)).trans ((f Ppu.t).trans c3), fun _ => (w7 (by decide)).trans ((f Ppu.fineX).trans c4),
      fun _ => (w8 (by decide)).trans ((f Ppu.oamAddr).trans c5), ?_, by simp [hst]⟩
    rw [← hcart]; exact ppuWrite_cart_chr u.ppu.v.toNat v u
  · obtain ⟨w1, w2, w3, w4, w5, w6, w7, w8⟩ := Ppu.registerWritten_writeReg n v u.ppu
    have e : (ppuRegWrite n v u).ppu = u.ppu.writeReg n v := by simp [ppuRegWrite, hd]
    rw [← e] at w1 w2 w3 w4 w5 w6 w7 w8
    refine ⟨fun _ => ⟨w1.trans hnt, w2.trans hpal, by rw [ppuRegWrite_cart _ _ _ hd, hcart]⟩, fun h => (w3 h).trans hoam, fun h => (w4 h).trans c1,
      fun h => (w5 h).trans c2, fun h => (w6 h).trans c3, fun h => (w7 h).trans c4, fun h => (w8 h).trans c5, ?_, by simp [hst]⟩
    rw [ppuRegWrite_cart _ _ _ hd, hcart]

/-! ## OAM DMA -/

/-- `n` rounds of OAM DMA write the sprite table and step `oam_addr` by `n`; nothing else that time does not move. -/
theorem dmaFrom_kept (page : Byte) (n : Nat) (s : State) :
    (dmaFrom page n s).ppu.ctrl = s.ppu.ctrl ∧ (dmaFrom page n s).ppu.mask = s.ppu.mask ∧ (dmaFrom page n s).ppu.t = s.ppu.t ∧
    (dmaFrom page n s).ppu.fineX = s.ppu.fineX ∧ (dmaFrom page n s).ppu.oamAddr = s.ppu.oamAddr + BitVec.ofNat 8 n ∧
    (dmaFrom page n s).ppu.ntRam = s.ppu.ntRam ∧ (dmaFrom page n s).ppu.palRam = s.ppu.palRam ∧
    MapperKept s (dmaFrom page n s) ∧ HostInputKept s (dmaFrom page n s) ∧ RequestsKept s (dmaFrom page n s) ∧
    (dmaFrom page n s).ctl.strobe = s.ctl.strobe := by
  induction n generalizing s with
  | zero => exact ⟨rfl, rfl, rfl, rfl, by simp [dmaFrom], rfl, rfl, ⟨rfl, rfl, rfl⟩, ⟨rfl, rfl, rfl⟩, ⟨id, id⟩, rfl⟩
  | succ n ih =>
    have hs1 := storageKept_memRead (addrOf (BitVec.ofNat 8 (255 - n)) page) s
    have hc1 := controlsKept_memRead (addrOf (BitVec.ofNat 8 (255 - n)) page) s
    rw [dmaFrom]
    generalize memRead (addrOf (BitVec.ofNat 8 (255 - n)) page) s = r at *
    have hs2 := storageKept_trans hs1 (storageKept_tick r.2)
    have hc2 := controlsKept_trans hc1 (controlsKept_tick r.2)
    obtain ⟨⟨hd, -, k1, k2, k3, k4, -, -, k7⟩, k8, k9, k10, k11, k12⟩ := registerWritten_ppuRegWrite .oamData r.1 hs2 hc2
    obtain ⟨i1, i2, i3, i4, i5, i6, i7, i8, i9, i10, i11⟩ := ih (oamDataWrite r.1 r.2)
    have hd := hd (by decide)
    refine ⟨i1.trans (k1 (by decide)), i2.trans (k2 (by decide)), i3.trans (k3 (by decide)), i4.trans (k4 (by decide)), ?_, i6.trans hd.1,
      i7.trans hd.2.1, mapperKept_trans k8 i8, hostInputKept_trans k9 i9, requestsKept_trans k10 i10, i11.trans k7⟩
    rw [i5]
    have : (oamDataWrite r.1 r.2).ppu.oamAddr = s.ppu.oamAddr + 1 := by
      rw [← hc2.1.2.2.2.2]; rfl
    rw [this, BitVec.add_assoc]
    congr 1
    apply BitVec.eq_of_toNat_eq; simp; omega

/-! ## Every row of the address map -/

theorem Mapper.banks_withoutCounter (m : Mapper) (p c : Nat) : m.withoutCounter.banks p c = m.banks p c := by
  cases m <;> rfl

theorem Mapper.mirroring_withoutCounter (m : Mapper) (w : Mirroring) : m.withoutCounter.mirroring w = m.mirroring w := by
  cases m <;> rfl

theorem Mmc3.write_withoutCounter (r : Mmc3) (a : Addr) (v : Byte) :
    (Mapper.mmc3 ({ r with irqCounter := 0 }.write a v)).withoutCounter = (Mapper.mmc3 (r.write a v)).withoutCounter := by
  unfold Mmc3.write; split <;> rfl

/-- A mapper put in place leaves tables, mirroring and registers that do not depend on the counter that time moves. -/
theorem applyMapper_congr {m k : Mapper} {s u : State} (hc : u.cart = s.cart) (hw : u.mirroring = s.mirroring)
    (h : m.withoutCounter = k.withoutCounter) :
    (u.applyMapper m).banks = (s.applyMapper k).banks ∧ (u.applyMapper m).mirroring = (s.applyMapper k).mirroring ∧
    (u.applyMapper m).mapper.withoutCounter = (s.applyMapper k).mapper.withoutCounter := by
  refine ⟨?_, ?_, h⟩
  · show m.banks _ _ = k.banks _ _
    rw [← m.banks_withoutCounter, ← k.banks_withoutCounter, h, hc]
  · show m.mirroring _ = k.mirroring _
    rw [← m.mirroring_withoutCounter, ← k.mirroring_withoutCounter, h, hw]

/-- The mapper's registers, tables and mirroring after a register write do not depend on the counter that time moves. -/
theorem mapperRegisterWrite_congr (a : Addr) (v : Byte) {s u : State} (hc : u.cart = s.cart) (hm : MapperKept s u) :
    (mapperRegisterWrite a v u).banks = (mapperRegisterWrite a v s).banks ∧
    (mapperRegisterWrite a v u).mirroring = (mapperRegisterWrite a v s).mirroring ∧
    (mapperRegisterWrite a v u).mapper.withoutCounter = (mapperRegisterWrite a v s).mapper.withoutCounter := by
  obtain ⟨hb, hw, hm⟩ := hm
  unfold mapperRegisterWrite
  cases hu : u.mapper <;> cases he : s.mapper <;> rw [hu, he] at hm <;>
    simp only [Mapper.withoutCounter, reduceCtorEq, Mapper.mmc1.injEq, Mapper.mmc3.injEq] at hm
  · exact ⟨hb, hw, by rw [hu, he]⟩
  · exact applyMapper_congr hc hw (by rw [hm])
  · exact applyMapper_congr hc hw rfl
  · rename_i r q
    have key := applyMapper_congr (m := .mmc3 (r.write a v)) (k := .mmc3 (q.write a v)) hc hw
      (by rw [← Mmc3.write_withoutCounter, hm, Mmc3.write_withoutCounter])
    exact key
  · exact applyMapper_congr hc hw rfl

theorem Mapper.number_of_withoutCounter {m k : Mapper} (h : m.withoutCounter = k.withoutCounter) :
    m.number = k.number ∧ m.hasNoPrgRam = k.hasNoPrgRam := by
  cases m <;> cases k <;> simp_all [Mapper.withoutCounter, Mapper.number, Mapper.hasNoPrgRam]

/-! ## A write does not depend on the CPU registers -/

theorem tick_withCpu (c u : State) : tick (c.withCpu u) = c.withCpu (tick u) := rfl

theorem busRead_withCpu (a : Addr) (c u : State) :
    busRead a (c.withCpu u) = ((busRead a u).1, c.withCpu (busRead a u).2) := by
  unfold busRead; dsimp only; split_ifs <;> rfl

theorem oamDataWrite_withCpu (v : Byte) (c u : State) : oamDataWrite v (c.withCpu u) = c.withCpu (oamDataWrite v u) := rfl

theorem dmaFrom_withCpu (page : Byte) (n : Nat) (c u : State) : dmaFrom page n (c.withCpu u) = c.withCpu (dmaFrom page n u) := by
  induction n generalizing u with
  | zero => rfl
  | succ n ih => simp only [dmaFrom, memRead, tick_withCpu, busRead_withCpu, oamDataWrite_withCpu, ih]

theorem dmaOam_withCpu (page : Byte) (c u : State) : dmaOam page (c.withCpu u) = c.withCpu (dmaOam page u) :=
  dmaFrom_withCpu page 256 c u

theorem chrWrite_withCpu (a : Nat) (v : Byte) (c u : State) : chrWrite a v (c.withCpu u) = c.withCpu (chrWrite a v u) := by
  by_cases h : u.cart.chrIsRam = true
  · rw [chrWrite, chrWrite, if_pos h, if_pos (show (c.withCpu u).cart.chrIsRam = true from h)]; rfl
  · rw [chrWrite, chrWrite, if_neg h, if_neg (show ¬(c.withCpu u).cart.chrIsRam = true from h)]

theorem ppuWrite_withCpu (a : Nat) (v : Byte) (c u : State) : ppuWrite a v (c.withCpu u) = c.withCpu (ppuWrite a v u) := by
  unfold ppuWrite; dsimp only
  split_ifs
  · exact chrWrite_withCpu _ v c u
  · rfl
  · rfl

theorem ppuRegWrite_withCpu (n : PpuReg) (v : Byte) (c u : State) :
    ppuRegWrite n v (c.withCpu u) = c.withCpu (ppuRegWrite n v u) := by
  by_cases h : n = .data
  · rw [ppuRegWrite, ppuRegWrite, if_pos h, if_pos h]
    show State.mk .. = _
    rw [show (c.withCpu u).ppu.v = u.ppu.v from rfl, ppuWrite_withCpu]; rfl
  · rw [ppuRegWrite, ppuRegWrite, if_neg h, if_neg h]; rfl

theorem mapperWrite_withCpu (a : Addr) (v : Byte) (c u : State) : mapperWrite a v (c.withCpu u) = c.withCpu (mapperWrite a v u) := by
  unfold mapperWrite mapperRegisterWrite
  show (if a.toNat < 0x8000 then if u.mapper.hasNoPrgRam then _ else _ else _) = _
  split_ifs
  · rfl
  · rfl
  · cases h : u.mapper <;> simp only [State.withCpu, h] <;> rfl

theorem busWrite_withCpu (a : Addr) (v : Byte) (c u : State) : busWrite a v (c.withCpu u) = c.withCpu (busWrite a v u) := by
  unfold busWrite; dsimp only
  split_ifs
  · rfl
  · exact ppuRegWrite_withCpu _ v c u
  · rfl
  · exact dmaOam_withCpu v c u
  · rfl
  · rfl
  · rfl
  · exact mapperWrite_withCpu a v c u

/-- What a write leaves does not depend on the CPU registers at the moment of the write. -/
theorem wrote_withCpu {a : Addr} {v : Byte} {c u s t : State} (h : Wrote (c.withCpu u) a v s t) : Wrote u a v s t := by
  refine ⟨?_, h.2⟩
  have h1 := h.1
  rw [busWrite_withCpu] at h1
  exact h1

/-- A write in a state that time and reads alone have moved on from `s`. -/
theorem wrote_busWrite (a : Addr) (v : Byte) {s u : State} (hram : u.ram.wf = true) (hprg : u.cart.prgRam.wf = true)
    (hs : StorageKept s u) (hc : ControlsKept s u) : Wrote u a v s (busWrite a v u) := by
  have hn := Mapper.number_of_withoutCounter hc.2.1.2.2
  have key : ∀ n : Nat, BitVec.ofNat 16 n = a → n < 65536 → a.toNat = n := by
    rintro n rfl h; simpa using h
  refine ⟨rfl, ?_, ?_, ?_, ?_, ?_, ?_, ?_, ?_⟩
  · intro h
    simp only [isWritable, Bool.or_eq_true, Bool.and_eq_true, decide_eq_true_eq, Bool.not_eq_true'] at h
    unfold busWrite; dsimp only
    rcases h with h | ⟨⟨h1, h2⟩, h3⟩
    · rw [if_pos h]; exact stored_ram v h hram hs hc
    · have h0 : mapperWrite a v u = { u with cart := { u.cart with prgRam := u.cart.prgRam.write ((a.toNat - 0x6000) % u.cart.prgRamSize) v } } := by
        rw [mapperWrite, if_pos (by omega), if_neg (by rw [hn.2, h3]; decide)]
      split_ifs <;> first | (exfalso; omega) | (rw [h0]; exact stored_prgRam v h1 h2 hprg hs hc)
  · rintro ⟨h1, h2⟩
    have e : busWrite a v u = ppuRegWrite (.ofAddr a) v u := by
      rw [busWrite]; rw [if_neg (by omega), if_pos h2]
    rw [e]
    obtain ⟨k1, k2, k3, k4, k5, k6⟩ := registerWritten_ppuRegWrite (.ofAddr a) v hs hc
    exact ⟨k1, k2, k4, k5, k6⟩
  · intro h
    have e : busWrite a v u = u := by
      rw [busWrite]
      rcases h with ⟨h1, h2⟩ | rfl | rfl
      · rw [if_neg (by omega), if_neg (by omega), if_pos (by omega)]
      · rfl
      · rfl
    rw [e]; exact ⟨hs, hc⟩
  · rintro rfl
    have e : busWrite 0x4014 v u = dmaFrom v 256 u := by
      unfold busWrite; dsimp only; split_ifs <;> first | contradiction | rfl
    rw [e]
    obtain ⟨k1, k2, k3, k4, k5, k6, k7, k8, k9, k10, k11⟩ := dmaFrom_kept v 256 u
    have hb := k8.1.trans hc.2.1.1
    have hr := (dmaFrom_ram v 256 u).trans hs.2.1
    have hcart := (dmaFrom_cart v 256 u).trans hs.2.2.1
    refine ⟨fun b hb' => peek_congr hr hcart hb hb', hr, hcart, k6.trans hs.2.2.2.1, k7.trans hs.2.2.2.2.1, ?_⟩
    refine controlsKept_trans hc ⟨⟨k1, k2, k3, k4, k5.trans ?_⟩, k8, k9, k10, k11, dmaFrom_run v 256 u⟩
    exact BitVec.add_zero _
  · rintro rfl
    have e : busWrite 0x4016 v u = ctlWrite (v.getLsbD 0) u := rfl
    rw [e]
    have hst : StorageKept s (ctlWrite (v.getLsbD 0) u) := storageKept_of hs.2.1 hs.2.2.1 hc.2.1.1 hs.2.2.2
    exact ⟨rfl, hst, hc.1, hc.2.1, hc.2.2.2.1, hc.2.2.2.2.2⟩
  · intro h
    simp only [writeHalts, Bool.or_eq_true, Bool.and_eq_true, decide_eq_true_eq] at h
    have e : busWrite a v u = u.halt (haltReason s a v) := by
      rw [busWrite]
      rcases h with ⟨h1, h2⟩ | ⟨⟨h1, h2⟩, h3⟩
      · rw [haltReason, if_pos h2]
        split_ifs <;> first | (exfalso; omega) | rfl
      · have h0 : mapperWrite a v u = u.halt (haltReason s a v) := by
          rw [haltReason, if_neg (show ¬a.toNat ≤ 0x5FFF by omega), mapperWrite, if_pos (show a.toNat < 0x8000 by omega),
            if_pos (by rw [hn.2, h3]), hn.1]
        rw [h0]; split_ifs <;> first | (exfalso; omega) | rfl
    rw [e]
    exact ⟨rfl, hs, hc.1, hc.2.1, hc.2.2.2.1, hc.2.2.2.2.1⟩
  · intro h
    have e : busWrite a v u = mapperRegisterWrite a v u := by
      rw [busWrite]
      rw [mapperWrite, if_neg (show ¬a.toNat < 0x8000 by omega)]
      split_ifs <;> first | (exfalso; omega) | rfl
    rw [e]
    have hcg := mapperRegisterWrite_congr a v hs.2.2.1 hc.2.1
    refine ⟨?_, ?_, ?_, ?_, hcg.1, hcg.2.1, hcg.2.2, ?_, ?_⟩ <;> (unfold mapperRegisterWrite; split)
    all_goals first | exact hs.2.1 | exact hs.2.2.1 | exact hs.2.2.2 | exact hc.1 | exact hc.2.2.2.2.1 | exact hc.2.2.2.2.2
  · have hh := hc.2.2.1
    unfold busWrite; dsimp only
    split_ifs
    · exact hh
    · exact (registerWritten_ppuRegWrite _ v hs hc).2.2.1
    · exact hh
    · exact hostInputKept_trans hh (dmaFrom_kept v 256 u).2.2.2.2.2.2.2.2.1
    · unfold ctlWrite Controller.write; dsimp only; split <;> exact hh
    · exact hh
    · exact hh
    · unfold mapperWrite mapperRegisterWrite; split_ifs
      · exact hh
      · exact hh
      · split <;> exact hh

/-! ## The stack (R14) -/

theorem stackAddr_toNat (sp : Byte) : (stackAddr sp).toNat = 0x100 + sp.toNat := by
  have := sp.isLt
  have h : (0x0100 : Addr).toNat = 256 := rfl
  simp only [stackAddr, BitVec.toNat_add, BitVec.toNat_setWidth, h]; omega

theorem stackAddr_le (sp : Byte) : (stackAddr sp).toNat ≤ 0x1FFF := by
  have := sp.isLt
  rw [stackAddr_toNat]; omega

theorem isMemory_stackAddr (sp : Byte) : isMemory (stackAddr sp) = true := by simp [isMemory, stackAddr_le]

/-- Nothing stored yet. -/
theorem stored_nil {s t : State} (hs : StorageKept s t) (hc : ControlsKept s t) : Stored [] s t :=
  ⟨fun _ h => absurd h List.not_mem_nil, fun b hb _ => hs.1 b hb, by rw [hs.2.2.1], fun _ _ => by rw [hs.2.2.1], fun _ => hs.2.2.1,
    fun _ => hs.2.1, hs.2.2.2, hc⟩

/-- One more byte stored in RAM, after time and reads; the earlier bytes lie elsewhere in RAM. -/
theorem stored_snoc {l : List (Addr × Byte)} {a : Addr} (v : Byte) {s t u : State} (h : Stored l s t) (ha : a.toNat ≤ 0x1FFF)
    (hl : ∀ e ∈ l, e.1.toNat ≤ 0x1FFF ∧ e.1.toNat % 0x800 ≠ a.toNat % 0x800) (hw : u.ram.wf = true) (hs : StorageKept t u)
    (hc : ControlsKept t u) : Stored (l ++ [(a, v)]) s { u with ram := u.ram.write (a.toNat % 0x800) v } := by
  have old := stored_ram v ha hw hs hc
  obtain ⟨h1, h2, h3, h4, h5, h6, h7, h8⟩ := h
  obtain ⟨k1, k2, k3, k4, k5, k6, k7, k8⟩ := old
  have hcart := k5 fun e he => by rw [List.mem_singleton.1 he]; exact ha
  have hsame : ∀ b, sameByte t a b = sameByte s a b := by
    intro b
    have : ¬0x6000 ≤ a.toNat := by omega
    simp [sameByte, this]
  refine ⟨?_, ?_, ?_, ?_, ?_, ?_, ⟨k7.1.trans h7.1, k7.2.1.trans h7.2.1, k7.2.2.trans h7.2.2⟩, controlsKept_trans h8 k8⟩
  · intro e he
    rcases List.mem_append.1 he with he | he
    · rw [k2 e.1 (by simp [isMemory, (hl e he).1]) ?_, h1 e he]
      intro e' he'
      have h6000 : ¬0x6000 ≤ a.toNat := by omega
      have hne := (hl e he).2
      rw [List.mem_singleton.1 he']
      simp [sameByte, h6000]
      intro _ _ he; exact hne he.symm
    · exact k1 e he
  · intro b hb hne
    rw [k2 b hb ?_]
    · exact h2 b hb fun e he => hne e (List.mem_append.2 (.inl he))
    · intro e he
      have he' := List.mem_singleton.1 he
      subst he'
      rw [hsame]; exact hne _ (List.mem_append.2 (.inr he))
  · rw [hcart]; exact h3
  · intro j hj; rw [hcart]; exact h4 j fun e he => hj e (List.mem_append.2 (.inl he))
  · intro hj; rw [hcart]; exact h5 fun e he => hj e (List.mem_append.2 (.inl he))
  · intro hj; exact absurd (hj (a, v) (List.mem_append.2 (.inr (List.mem_singleton.2 rfl)))) (by simp; omega)

/-- A push is a tick, the byte, and `SP` down by one. -/
theorem push_eq (v : Byte) (s : State) :
    push v s = { tick s with ram := s.ram.write (stackAddr s.sp).toNat v, sp := s.sp - 1 } := by
  have := s.sp.isLt
  have hm : (stackAddr s.sp).toNat % 0x800 = (stackAddr s.sp).toNat := by rw [stackAddr_toNat]; omega
  rw [push, memWrite_ram v s (stackAddr_le _), hm]; rfl

/-- A pull is a tick, the byte above `SP`, and `SP` up by one. -/
theorem pull_eq (s : State) :
    pull s = (s.ram.read (stackAddr (s.sp + 1)).toNat, (ticks 1 s).setSp (s.sp + 1)) := by
  have := (s.sp + 1).isLt
  have hm : (stackAddr (s.sp + 1)).toNat % 0x800 = (stackAddr (s.sp + 1)).toNat := by rw [stackAddr_toNat]; omega
  rw [pull, memRead_ramByte _ (stackAddr_le _), hm]; rfl

theorem peek_stackAddr (sp : Byte) (s : State) : peek (stackAddr sp) s = s.ram.read (stackAddr sp).toNat := by
  have := sp.isLt
  have hm : (stackAddr sp).toNat % 0x800 = (stackAddr sp).toNat := by rw [stackAddr_toNat]; omega
  simp [peek, stackAddr_le, hm]

end Sys2Proof.Machine
end

