-- ==== Sys2Proof/Laws/Results.lean ====
section
/-! SUPPORT. How to establish the vocabulary of the statements (Safety.lean): frames by their exceptions, flags of a result. -/

namespace Sys2Proof.Machine

/-- A frame of the registers, one register at a time: excepted or unchanged. -/
theorem registersKept_of {l : List Register} {s t : State} (ha : .a ∈ l ∨ t.a = s.a) (hx : .x ∈ l ∨ t.x = s.x)
    (hy : .y ∈ l ∨ t.y = s.y) (hsp : .sp ∈ l ∨ t.sp = s.sp) : RegistersKept l s t := by
  intro r hr
  cases r
  · exact ha.resolve_left hr
  · exact hx.resolve_left hr
  · exact hy.resolve_left hr
  · exact hsp.resolve_left hr

/-- A frame of the flags. -/
theorem flagsKept_of {l : List Flag} {s t : State} (h : ∀ f, f ∈ l ∨ t.flag f = s.flag f) : FlagsKept l s t :=
  fun f hf => (h f).resolve_left hf

/-- A status byte that did not change keeps every flag. -/
theorem flag_of_p {s t : State} (h : t.p = s.p) (f : Flag) : t.flag f = s.flag f := by simp [State.flag, h]

theorem p_of_flagsKept {s t : State} (h : FlagsKept [] s t) : t.p = s.p := status_ext fun f => h f List.not_mem_nil

theorem hasNZ_setNZ (v : Byte) (s : State) : HasNZ v (s.setNZ v) := ⟨by simp, by simp⟩

theorem hasNZ_loadA (v : Byte) (s : State) : HasNZ v (loadA v s) := hasNZ_setNZ v _

theorem hasNZ_loadX (v : Byte) (s : State) : HasNZ v (loadX v s) := hasNZ_setNZ v _

theorem hasNZ_loadY (v : Byte) (s : State) : HasNZ v (loadY v s) := hasNZ_setNZ v _

theorem readOp_registers (m : ReadOperand) (s : State) :
    (readOp m s).2.a = s.a ∧ (readOp m s).2.x = s.x ∧ (readOp m s).2.y = s.y ∧ (readOp m s).2.sp = s.sp ∧
    (readOp m s).2.p = s.p ∧ (readOp m s).2.pc = s.pc := by
  rw [(readOp_kept m s).1]; exact ⟨rfl, rfl, rfl, rfl, rfl, rfl⟩

/-- A state that differs from the one after an operand read in CPU registers alone. -/
theorem readOnly_of (m : ReadOperand) (s t : State) (h : t = t.withCpu (readOp m s).2) (hpc : t.pc = s.pc) :
    ReadOnly m s t := by
  obtain ⟨-, h2, h3⟩ := readOp_kept m s
  refine ⟨h, hpc, ?_, ?_⟩
  · rw [h]; exact h2
  · rw [h]; exact h3

/-- A state that differs from the one after `n` ticks in CPU registers alone. -/
theorem idled_of (n : Nat) (s t : State) (h : t = t.withCpu (ticks n s)) : Idled n s t := by
  refine ⟨h, ?_, ?_⟩
  · rw [h]; exact storageKept_ticks n s
  · rw [h]; exact controlsKept_ticks n s

/-! ## Arithmetic (R230, R232, R236) -/

theorem compared_compareFlags (r v : Byte) (s : State) : Compared r v (compareFlags r v s) := by
  have e : r - v = 0 ↔ r = v := by
    constructor
    · intro h
      apply BitVec.eq_of_toNat_eq
      have h := congrArg BitVec.toNat h
      have := r.isLt
      have := v.isLt
      simp only [BitVec.toNat_sub, BitVec.ofNat_eq_ofNat, BitVec.toNat_ofNat] at h
      omega
    · rintro rfl; simp
  refine ⟨?_, ?_, ?_⟩
  · simp [compareFlags, BitVec.le_def]
  · simp only [compareFlags, State.flag_setNZ]
    exact decide_eq_decide.2 e
  · simp [compareFlags]

theorem getLsbD_seven (b : Byte) : b.getLsbD 7 = decide (128 ≤ b.toNat) := by revert b; decide

theorem adcSum_toNat (a v : Byte) (c : Bool) : (adcSum a v c).toNat = a.toNat + v.toNat + c.toNat := by
  have ha := a.isLt
  have hv := v.isLt
  have hc : c.toNat ≤ 1 := Bool.toNat_le c
  simp only [adcSum, BitVec.toNat_add, BitVec.toNat_setWidth, BitVec.toNat_ofBool]; omega

theorem added_addWithCarry (v : Byte) (s : State) : Added s.a v (s.flag .carry) (addWithCarry v s) := by
  have ha := s.a.isLt
  have hv := v.isLt
  have hc : (s.flag .carry).toNat ≤ 1 := Bool.toNat_le _
  have hsum := adcSum_toNat s.a v (s.flag .carry)
  have hr : ((adcSum s.a v (s.flag .carry)).setWidth 8 : Byte).toNat = (s.a.toNat + v.toNat + (s.flag .carry).toNat) % 256 := by
    rw [BitVec.toNat_setWidth, hsum]
  refine ⟨hr, ?_, ?_, hasNZ_setNZ _ _⟩
  · have e : (addWithCarry v s).flag .carry = (adcSum s.a v (s.flag .carry)).getLsbD 8 := by simp [addWithCarry]
    rw [e, BitVec.getLsbD, hsum, Nat.testBit_eq_decide_div_mod_eq]
    apply decide_eq_decide.2; omega
  · have e : (addWithCarry v s).flag .overflow =
        ((s.a.getLsbD 7 ^^ ((adcSum s.a v (s.flag .carry)).setWidth 8 : Byte).getLsbD 7) &&
          (v.getLsbD 7 ^^ ((adcSum s.a v (s.flag .carry)).setWidth 8 : Byte).getLsbD 7)) := by
      simp only [addWithCarry, State.flag_setNZ, State.flag_setA, State.flag_setFlag, reduceCtorEq, if_true, if_false,
        BitVec.getLsbD_and, BitVec.getLsbD_xor]
    rw [e, getLsbD_seven, getLsbD_seven, getLsbD_seven, hr, BitVec.toInt_eq_toNat_cond, BitVec.toInt_eq_toNat_cond]
    generalize s.a.toNat = a at *
    generalize v.toNat = w at *
    generalize (s.flag .carry).toNat = c at *
    by_cases h1 : 128 ≤ a <;> by_cases h2 : 128 ≤ w <;> by_cases h3 : 128 ≤ (a + w + c) % 256 <;>
      simp only [h1, h2, h3, decide_true, decide_false, Bool.xor_false, Bool.xor_true, Bool.not_false, Bool.and_true,
        Bool.and_false, Bool.true_eq, Bool.false_eq, decide_eq_true_eq, decide_eq_false_iff_not, Bool.and_self, Bool.xor_self] <;>
      split_ifs <;> omega

/-- Adding the inverted operand is subtraction (R232). -/
theorem subtracted_of_added {a v : Byte} {c : Bool} {t : State} (h : Added a (~~~v) c t) : Subtracted a v c t := by
  obtain ⟨h1, h2, h3, h4⟩ := h
  have ha := a.isLt
  have hv := v.isLt
  have hc : c.toNat ≤ 1 := Bool.toNat_le _
  have hn : (~~~v).toNat = 255 - v.toNat := by rw [BitVec.toNat_not]
  have hi : (~~~v).toInt = -1 - v.toInt := by
    rw [BitVec.toInt_eq_toNat_cond, BitVec.toInt_eq_toNat_cond, hn]; split_ifs <;> omega
  rw [hn] at h1 h2
  rw [hi] at h3
  refine ⟨?_, ?_, ?_, h4⟩
  · rw [h1]; omega
  · rw [h2]; apply decide_eq_decide.2; omega
  · rw [h3]; apply decide_eq_decide.2; omega

end Sys2Proof.Machine
end

