-- ==== Sys2Proof/Laws/Control.lean ====
section
/-! SUPPORT. What the shared operations of control flow do: the branch (R270), the stack as a sequence of stored bytes (R14),
the interrupt sequences and the return from them (R282, R611). -/

namespace Sys2Proof.Machine

/-! ## Branches and pointers -/

theorem pageCross_eq (a b : Addr) : pageCross a b = decide (a.toNat / 256 ≠ b.toNat / 256) := by
  have ha := a.isLt
  have hb := b.isLt
  simp only [pageCross, highByte]
  apply decide_eq_decide.2
  rw [not_iff_not]
  constructor
  · intro h
    have := congrArg BitVec.toNat h
    simp [BitVec.extractLsb'_toNat, Nat.shiftRight_eq_div_pow] at this
    omega
  · intro h
    apply BitVec.eq_of_toNat_eq
    simp [BitVec.extractLsb'_toNat, Nat.shiftRight_eq_div_pow, h]

/-- A branch taken: one tick, or two if the target lies in another page (R270). -/
theorem branch_taken (off : Byte) (s : State) : branch true off s =
    (ticks (if s.pc.toNat / 256 = (relativeTarget s.pc off).toNat / 256 then 1 else 2) s).setPc (relativeTarget s.pc off) := by
  simp only [branch, if_true, pageCross_eq]
  by_cases h : s.pc.toNat / 256 = (relativeTarget s.pc off).toNat / 256 <;> simp [h] <;> rfl

theorem branch_not_taken (off : Byte) (s : State) : branch false off s = s := rfl

theorem relativeTarget_toNat (pc : Addr) (off : Byte) :
    ((relativeTarget pc off).toNat : Int) = ((pc.toNat : Int) + off.toInt) % 65536 := by
  have h : ∀ off : Byte, ((off.signExtend 16).toNat : Int) = off.toInt % 65536 := by decide
  have h1 := pc.isLt
  have h2 := h off
  have h3 := (off.signExtend 16).isLt
  simp only [relativeTarget, BitVec.toNat_add]
  omega

/-! ## The stack as stored bytes -/

/-- What was stored stays stored through time and reads. -/
theorem stored_kept {l : List (Addr × Byte)} {s t u : State} (h : Stored l s t) (hm : ∀ e ∈ l, isMemory e.1 = true)
    (hs : StorageKept t u) (hc : ControlsKept t u) : Stored l s u := by
  obtain ⟨h1, h2, h3, h4, h5, h6, h7, h8⟩ := h
  refine ⟨fun e he => (hs.1 e.1 (hm e he)).trans (h1 e he), fun b hb hne => (hs.1 b hb).trans (h2 b hb hne), ?_, ?_, ?_, ?_,
    ⟨hs.2.2.2.1.trans h7.1, hs.2.2.2.2.1.trans h7.2.1, hs.2.2.2.2.2.trans h7.2.2⟩, controlsKept_trans h8 hc⟩
  · rw [hs.2.2.1]; exact h3
  · rw [hs.2.2.1]; exact h4
  · rw [hs.2.2.1]; exact h5
  · rw [hs.2.1]; exact h6

theorem push_ram_wf (v : Byte) {s : State} (h : s.ram.wf = true) : (push v s).ram.wf = true := by
  rw [push_eq]; exact Memory.wf_write _ _ _ h

/-- One more byte pushed; the earlier ones lie elsewhere in RAM. -/
theorem stored_push {l : List (Addr × Byte)} {s t : State} (v : Byte) (h : Stored l s t)
    (hl : ∀ e ∈ l, e.1.toNat ≤ 0x1FFF ∧ e.1.toNat % 0x800 ≠ (stackAddr t.sp).toNat % 0x800) (hw : t.ram.wf = true) :
    Stored (l ++ [(stackAddr t.sp, v)]) s (push v t) := by
  have := t.sp.isLt
  have hm : (stackAddr t.sp).toNat % 0x800 = (stackAddr t.sp).toNat := by rw [stackAddr_toNat]; omega
  have k := stored_snoc (u := tick t) v h (stackAddr_le _) hl (by simpa using hw) (storageKept_tick t) (controlsKept_tick t)
  rw [hm] at k
  rw [push_eq]; simp only [tick_ram] at k; exact k

/-- Three pushes in a row go to three different bytes, also where `SP` wraps. -/
theorem stackAddr_ne (sp : Byte) : (stackAddr sp).toNat % 0x800 ≠ (stackAddr (sp - 1)).toNat % 0x800 ∧
    (stackAddr sp).toNat % 0x800 ≠ (stackAddr (sp - 2)).toNat % 0x800 ∧
    (stackAddr (sp - 1)).toNat % 0x800 ≠ (stackAddr (sp - 2)).toNat % 0x800 := by
  have h1 := sp.isLt
  have e1 : (sp - 1).toNat = (sp.toNat + 255) % 256 := by rw [BitVec.toNat_sub]; simp; omega
  have e2 : (sp - 2).toNat = (sp.toNat + 254) % 256 := by rw [BitVec.toNat_sub]; simp; omega
  simp only [stackAddr_toNat, e1, e2]; omega

theorem sp_sub (sp : Byte) : sp - 1 - 1 = sp - 2 ∧ sp - 2 - 1 = sp - 3 := by revert sp; decide

@[simp] theorem push_sp (v : Byte) (s : State) : (push v s).sp = s.sp - 1 := by rw [push_eq]

theorem stored_push_two (v w : Byte) {s t : State} (hw : t.ram.wf = true) (hs : StorageKept s t) (hc : ControlsKept s t)
    (hsp : t.sp = s.sp) : Stored [(stackAddr s.sp, v), (stackAddr (s.sp - 1), w)] s (push w (push v t)) := by
  have k1 := stored_push v (stored_nil hs hc) (fun e he => absurd he List.not_mem_nil) hw
  have k2 := stored_push w k1 (fun e he => ?_) (push_ram_wf v hw)
  · simpa only [push_sp, hsp, List.nil_append, List.cons_append] using k2
  · rw [List.nil_append, List.mem_singleton] at he
    subst he
    rw [push_sp]; exact ⟨stackAddr_le _, (stackAddr_ne _).1⟩

theorem stored_push_three (v w x : Byte) {s t : State} (hw : t.ram.wf = true) (hs : StorageKept s t) (hc : ControlsKept s t)
    (hsp : t.sp = s.sp) :
    Stored [(stackAddr s.sp, v), (stackAddr (s.sp - 1), w), (stackAddr (s.sp - 2), x)] s (push x (push w (push v t))) := by
  have k1 := stored_push_two v w hw hs hc hsp
  have k2 := stored_push x k1 (fun e he => ?_) (push_ram_wf w (push_ram_wf v hw))
  · simpa only [push_sp, hsp, (sp_sub s.sp).1, List.nil_append, List.cons_append] using k2
  · simp only [push_sp, hsp, (sp_sub s.sp).1]
    simp only [List.mem_cons, List.not_mem_nil, or_false] at he
    obtain rfl | rfl := he
    · exact ⟨stackAddr_le _, (stackAddr_ne _).2.1⟩
    · exact ⟨stackAddr_le _, (stackAddr_ne _).2.2⟩

/-! ## Pulls and the return -/

/-- Two pulls: the low byte first (R281). -/
theorem pullAddr_eq (s : State) : pullAddr s =
    (addrOf (peek (stackAddr (s.sp + 1)) s) (peek (stackAddr (s.sp + 2)) s), (ticks 2 s).setSp (s.sp + 2)) := by
  have h : s.sp + 1#8 + 1#8 = s.sp + 2#8 := by generalize s.sp = b; revert b; decide
  simp only [pullAddr, pull_eq, peek_stackAddr]
  simp [h, State.setSp, ticks, tick, ppuDot, State.ppuBus]

/-- `RTI` after its two ticks (R282, R626). -/
theorem returnFromInterrupt_eq (s : State) : returnFromInterrupt s =
    { ticks 3 s with p := statusPulled (peek (stackAddr (s.sp + 1)) s), sp := s.sp + 3,
                     pc := addrOf (peek (stackAddr (s.sp + 2)) s) (peek (stackAddr (s.sp + 3)) s) } := by
  have h : s.sp + 1#8 + 1#8 = s.sp + 2#8 ∧ s.sp + 1#8 + 2#8 = s.sp + 3#8 := by generalize s.sp = b; revert b; decide
  simp only [returnFromInterrupt, pullAddr_eq, pull_eq, peek_stackAddr]
  simp [h, State.setSp, State.setP, State.setPc, ticks, tick, ppuDot, State.ppuBus]

/-! ## Vectors -/

/-- A word read from two bytes of memory (R12). -/
theorem memRead16_memory {a : Addr} (s : State) (h : isMemory a = true) (h' : isMemory (a + 1) = true) :
    memRead16 a s = (addrOf (peek a s) (peek (a + 1) s), ticks 2 s) := by
  rw [memRead16, memRead_memory _ h]; dsimp only
  rw [memRead_memory _ h', peek_tick _ h']; rfl

theorem isMemory_vector (k : InterruptKind) : isMemory k.vector = true ∧ isMemory (k.vector + 1) = true := by
  cases k <;> exact ⟨rfl, rfl⟩

/-- `PC` from a kind's vector (R610, R611). -/
theorem loadVector_eq (k : InterruptKind) (s : State) :
    loadVector k.vector s = (ticks 2 s).setPc (addrOf (peek k.vector s) (peek (k.vector + 1) s)) := by
  rw [loadVector, memRead16_memory s (isMemory_vector k).1 (isMemory_vector k).2]

end Sys2Proof.Machine
end

