-- ==== Sys2Proof/Laws/PerInstr.lean ====
section
/-! SUPPORT. The per-instruction family `ByteCount`: an instruction's operand bytes are as many as the length its opcode byte
gives (R130, R131). -/

namespace Sys2Proof.Laws.ByteCount

/-- A well-formed instruction has an opcode byte, and that byte's length (R131) is 1 plus the number of its operand bytes. -/
def Statement (i : Instr) : Prop :=
  i.wf = true → ∃ op, opcodeOf i = some op ∧ instrLength op = 1 + (operandBytes i).length

theorem lda (m : ReadOperand) : Statement (.lda m) := by
  intro h; cases m <;> first | exact ⟨_, rfl, rfl⟩ | cases h

theorem ldx (m : ReadOperand) : Statement (.ldx m) := by
  intro h; cases m <;> first | exact ⟨_, rfl, rfl⟩ | cases h

theorem ldy (m : ReadOperand) : Statement (.ldy m) := by
  intro h; cases m <;> first | exact ⟨_, rfl, rfl⟩ | cases h

theorem sta (m : WriteOperand) : Statement (.sta m) := by
  intro h; cases m <;> first | exact ⟨_, rfl, rfl⟩ | cases h

theorem stx (m : WriteOperand) : Statement (.stx m) := by
  intro h; cases m <;> first | exact ⟨_, rfl, rfl⟩ | cases h

theorem sty (m : WriteOperand) : Statement (.sty m) := by
  intro h; cases m <;> first | exact ⟨_, rfl, rfl⟩ | cases h

theorem tax : Statement .tax := by
  intro _; exact ⟨_, rfl, rfl⟩

theorem tay : Statement .tay := by
  intro _; exact ⟨_, rfl, rfl⟩

theorem txa : Statement .txa := by
  intro _; exact ⟨_, rfl, rfl⟩

theorem tya : Statement .tya := by
  intro _; exact ⟨_, rfl, rfl⟩

theorem tsx : Statement .tsx := by
  intro _; exact ⟨_, rfl, rfl⟩

theorem txs : Statement .txs := by
  intro _; exact ⟨_, rfl, rfl⟩

theorem adc (m : ReadOperand) : Statement (.adc m) := by
  intro h; cases m <;> first | exact ⟨_, rfl, rfl⟩ | cases h

theorem sbc (m : ReadOperand) : Statement (.sbc m) := by
  intro h; cases m <;> first | exact ⟨_, rfl, rfl⟩ | cases h

theorem and (m : ReadOperand) : Statement (.and m) := by
  intro h; cases m <;> first | exact ⟨_, rfl, rfl⟩ | cases h

theorem ora (m : ReadOperand) : Statement (.ora m) := by
  intro h; cases m <;> first | exact ⟨_, rfl, rfl⟩ | cases h

theorem eor (m : ReadOperand) : Statement (.eor m) := by
  intro h; cases m <;> first | exact ⟨_, rfl, rfl⟩ | cases h

theorem cmp (m : ReadOperand) : Statement (.cmp m) := by
  intro h; cases m <;> first | exact ⟨_, rfl, rfl⟩ | cases h

theorem cpx (m : ReadOperand) : Statement (.cpx m) := by
  intro h; cases m <;> first | exact ⟨_, rfl, rfl⟩ | cases h

theorem cpy (m : ReadOperand) : Statement (.cpy m) := by
  intro h; cases m <;> first | exact ⟨_, rfl, rfl⟩ | cases h

theorem bit (m : ReadOperand) : Statement (.bit m) := by
  intro h; cases m <;> first | exact ⟨_, rfl, rfl⟩ | cases h

theorem inc (m : RmwOperand) : Statement (.inc m) := by
  intro h; cases m <;> first | exact ⟨_, rfl, rfl⟩ | cases h

theorem dec (m : RmwOperand) : Statement (.dec m) := by
  intro h; cases m <;> first | exact ⟨_, rfl, rfl⟩ | cases h

theorem inx : Statement .inx := by
  intro _; exact ⟨_, rfl, rfl⟩

theorem iny : Statement .iny := by
  intro _; exact ⟨_, rfl, rfl⟩

theorem dex : Statement .dex := by
  intro _; exact ⟨_, rfl, rfl⟩

theorem dey : Statement .dey := by
  intro _; exact ⟨_, rfl, rfl⟩

theorem asl (m : ShiftOperand) : Statement (.asl m) := by
  intro h
  rcases m with _ | m
  · exact ⟨_, rfl, rfl⟩
  · cases m <;> first | exact ⟨_, rfl, rfl⟩ | cases h

theorem lsr (m : ShiftOperand) : Statement (.lsr m) := by
  intro h
  rcases m with _ | m
  · exact ⟨_, rfl, rfl⟩
  · cases m <;> first | exact ⟨_, rfl, rfl⟩ | cases h

theorem rol (m : ShiftOperand) : Statement (.rol m) := by
  intro h
  rcases m with _ | m
  · exact ⟨_, rfl, rfl⟩
  · cases m <;> first | exact ⟨_, rfl, rfl⟩ | cases h

theorem ror (m : ShiftOperand) : Statement (.ror m) := by
  intro h
  rcases m with _ | m
  · exact ⟨_, rfl, rfl⟩
  · cases m <;> first | exact ⟨_, rfl, rfl⟩ | cases h

theorem bcc (off : Byte) : Statement (.bcc off) := by
  intro _; exact ⟨_, rfl, rfl⟩

theorem bcs (off : Byte) : Statement (.bcs off) := by
  intro _; exact ⟨_, rfl, rfl⟩

theorem beq (off : Byte) : Statement (.beq off) := by
  intro _; exact ⟨_, rfl, rfl⟩

theorem bne (off : Byte) : Statement (.bne off) := by
  intro _; exact ⟨_, rfl, rfl⟩

theorem bmi (off : Byte) : Statement (.bmi off) := by
  intro _; exact ⟨_, rfl, rfl⟩

theorem bpl (off : Byte) : Statement (.bpl off) := by
  intro _; exact ⟨_, rfl, rfl⟩

theorem bvc (off : Byte) : Statement (.bvc off) := by
  intro _; exact ⟨_, rfl, rfl⟩

theorem bvs (off : Byte) : Statement (.bvs off) := by
  intro _; exact ⟨_, rfl, rfl⟩

theorem jmp (m : JumpOperand) : Statement (.jmp m) := by
  intro _; cases m <;> exact ⟨_, rfl, rfl⟩

theorem jsr (target : Addr) : Statement (.jsr target) := by
  intro _; exact ⟨_, rfl, rfl⟩

theorem rts : Statement .rts := by
  intro _; exact ⟨_, rfl, rfl⟩

theorem rti : Statement .rti := by
  intro _; exact ⟨_, rfl, rfl⟩

theorem brk : Statement .brk := by
  intro _; exact ⟨_, rfl, rfl⟩

theorem pha : Statement .pha := by
  intro _; exact ⟨_, rfl, rfl⟩

theorem php : Statement .php := by
  intro _; exact ⟨_, rfl, rfl⟩

theorem pla : Statement .pla := by
  intro _; exact ⟨_, rfl, rfl⟩

theorem plp : Statement .plp := by
  intro _; exact ⟨_, rfl, rfl⟩

theorem clc : Statement .clc := by
  intro _; exact ⟨_, rfl, rfl⟩

theorem sec : Statement .sec := by
  intro _; exact ⟨_, rfl, rfl⟩

theorem cli : Statement .cli := by
  intro _; exact ⟨_, rfl, rfl⟩

theorem sei : Statement .sei := by
  intro _; exact ⟨_, rfl, rfl⟩

theorem cld : Statement .cld := by
  intro _; exact ⟨_, rfl, rfl⟩

theorem sed : Statement .sed := by
  intro _; exact ⟨_, rfl, rfl⟩

theorem clv : Statement .clv := by
  intro _; exact ⟨_, rfl, rfl⟩

theorem nop : Statement .nop := by
  intro _; exact ⟨_, rfl, rfl⟩

theorem lax (m : ReadOperand) : Statement (.lax m) := by
  intro h; cases m <;> first | exact ⟨_, rfl, rfl⟩ | cases h

theorem sax (m : WriteOperand) : Statement (.sax m) := by
  intro h; cases m <;> first | exact ⟨_, rfl, rfl⟩ | cases h

theorem dcp (m : RmwOperand) : Statement (.dcp m) := by
  intro _; cases m <;> exact ⟨_, rfl, rfl⟩

theorem isb (m : RmwOperand) : Statement (.isb m) := by
  intro _; cases m <;> exact ⟨_, rfl, rfl⟩

theorem slo (m : RmwOperand) : Statement (.slo m) := by
  intro _; cases m <;> exact ⟨_, rfl, rfl⟩

theorem rla (m : RmwOperand) : Statement (.rla m) := by
  intro _; cases m <;> exact ⟨_, rfl, rfl⟩

theorem sre (m : RmwOperand) : Statement (.sre m) := by
  intro _; cases m <;> exact ⟨_, rfl, rfl⟩

theorem rra (m : RmwOperand) : Statement (.rra m) := by
  intro _; cases m <;> exact ⟨_, rfl, rfl⟩

theorem aac (op : Byte) (v : Byte) : Statement (.aac op v) := by
  intro h
  refine ⟨op, if_pos h, ?_⟩
  suffices k : ∀ op : Byte, (Instr.aac op 0).wf = true → instrLength op = 2 from k op h
  decide

theorem asr (v : Byte) : Statement (.asr v) := by
  intro _; exact ⟨_, rfl, rfl⟩

theorem arr (v : Byte) : Statement (.arr v) := by
  intro _; exact ⟨_, rfl, rfl⟩

theorem atx (v : Byte) : Statement (.atx v) := by
  intro _; exact ⟨_, rfl, rfl⟩

theorem axs (v : Byte) : Statement (.axs v) := by
  intro _; exact ⟨_, rfl, rfl⟩

theorem sya (base : Addr) : Statement (.sya base) := by
  intro _; exact ⟨_, rfl, rfl⟩

theorem sxa (base : Addr) : Statement (.sxa base) := by
  intro _; exact ⟨_, rfl, rfl⟩

theorem sbcDuplicate (v : Byte) : Statement (.sbcDuplicate v) := by
  intro _; exact ⟨_, rfl, rfl⟩

theorem nopImplied (op : Byte) : Statement (.nopImplied op) := by
  intro h
  refine ⟨op, if_pos h, ?_⟩
  revert op; decide

theorem nopImmediate (op : Byte) (v : Byte) : Statement (.nopImmediate op v) := by
  intro h
  refine ⟨op, if_pos h, ?_⟩
  suffices k : ∀ op : Byte, (Instr.nopImmediate op 0).wf = true → instrLength op = 2 from k op h
  decide

theorem nopZeroPage (op : Byte) (m : ReadOperand) : Statement (.nopZeroPage op m) := by
  intro h
  refine ⟨op, if_pos h, ?_⟩
  cases m <;> first
    | cases h
    | exact (by decide : ∀ op : Byte, (Instr.nopZeroPage op (.zp 0)).wf = true → instrLength op = 2) op h
    | exact (by decide : ∀ op : Byte, (Instr.nopZeroPage op (.zpx 0)).wf = true → instrLength op = 2) op h

theorem nopAbsolute (op : Byte) (m : ReadOperand) : Statement (.nopAbsolute op m) := by
  intro h
  refine ⟨op, if_pos h, ?_⟩
  cases m <;> first
    | cases h
    | exact (by decide : ∀ op : Byte, (Instr.nopAbsolute op (.abs 0)).wf = true → instrLength op = 3) op h
    | exact (by decide : ∀ op : Byte, (Instr.nopAbsolute op (.abx 0)).wf = true → instrLength op = 3) op h

theorem undecodable (op : Byte) : Statement (.undecodable op) := by
  intro h
  refine ⟨op, if_pos h, ?_⟩
  revert op; decide

end Sys2Proof.Laws.ByteCount
end

