-- ==== Sys2Proof/Laws/Write.lean ====
section
/-! SUPPORT. What the write templates `WriteOp` and `RmwOp` do (R161): the one write, and the registers and flags around it. -/

namespace Sys2Proof.Machine

theorem hasNZ_of_p {v : Byte} {s t : State} (h : t.p = s.p) (k : HasNZ v s) : HasNZ v t :=
  ⟨by rw [flag_of_p h]; exact k.1, by rw [flag_of_p h]; exact k.2⟩

/-- A write after time alone: no register and no flag changes. -/
theorem busWrite_after_ticks (a : Addr) (v : Byte) (n : Nat) {s : State} (hi : s.Inv) :
    Wrote (ticks n s) a v s (busWrite a v (ticks n s)) ∧ RegistersKept [] s (busWrite a v (ticks n s)) ∧
    FlagsKept [] s (busWrite a v (ticks n s)) ∧ (busWrite a v (ticks n s)).pc = s.pc := by
  refine ⟨wrote_busWrite _ _ ?_ ?_ (storageKept_ticks _ _) (controlsKept_ticks _ _), ?_, ?_, ?_⟩
  · rw [ticks_ram]; exact hi.1.1
  · rw [ticks_cart]; exact hi.2.2.1.2.2.2.2.2.1
  · apply registersKept_of <;> simp
  · exact flagsKept_of fun f => .inr (flag_of_p (by simp) f)
  · simp

/-- `WriteOp(m, v)` (R161). -/
theorem wrote_writeOp (m : WriteOperand) (v : Byte) {s : State} (hi : s.Inv) :
    Wrote (writeReady m s) (writeAddr m s).1 v s (writeOp m v s) ∧ RegistersKept [] s (writeOp m v s) ∧
    FlagsKept [] s (writeOp m v s) ∧
    (writeOp m v s).pc = s.pc := by
  obtain ⟨n, hn⟩ := writeAddr_ticks m s
  have r : writeReady m s = ticks (n + 1) s := by rw [writeReady, hn, tick_ticks]
  have e : writeOp m v s = busWrite (writeAddr m s).1 v (ticks (n + 1) s) := by rw [← r]; rfl
  rw [e, r]; exact busWrite_after_ticks _ _ _ hi

/-- `RmwOp(m, f)` on memory for an `f` that changes CPU registers alone: what `f` returns is written, and the registers are
those that `f` leaves of a state `u` with the registers of `s` (R161). -/
theorem wrote_rmwOp (m : RmwOperand) (f : Byte → State → Byte × State) {s : State} (hi : s.Inv)
    (hf : ∀ v u, (f v u).2 = (f v u).2.withCpu u) :
    let a := (rmwAddr m s).1
    let v := (memRead a (rmwAddr m s).2).1
    ∃ u : State, (u.a = s.a ∧ u.x = s.x ∧ u.y = s.y ∧ u.sp = s.sp ∧ u.p = s.p ∧ u.pc = s.pc) ∧
      Wrote (rmwReady m s) a (f v u).1 s (rmwOp m f s) ∧
      (rmwOp m f s).a = (f v u).2.a ∧ (rmwOp m f s).x = (f v u).2.x ∧ (rmwOp m f s).y = (f v u).2.y ∧
      (rmwOp m f s).sp = (f v u).2.sp ∧ (rmwOp m f s).p = (f v u).2.p ∧ (rmwOp m f s).pc = (f v u).2.pc := by
  intro a v
  obtain ⟨n, hn⟩ := rmwAddr_ticks m s
  let u := tick (memRead a (ticks n s)).2
  have hu1 : StorageKept s u :=
    storageKept_trans (storageKept_ticks n s) (storageKept_trans (storageKept_memRead a _) (storageKept_tick _))
  have hu2 : ControlsKept s u :=
    controlsKept_trans (controlsKept_ticks n s) (controlsKept_trans (controlsKept_memRead a _) (controlsKept_tick _))
  have e : rmwOp m f s = busWrite a (f v u).1 (tick (f v u).2) := by simp only [rmwOp, memWrite, u, v, a, hn]
  have hs : StorageKept s (tick (f v u).2) := storageKept_trans (by rw [hf]; exact hu1) (storageKept_tick _)
  have hc : ControlsKept s (tick (f v u).2) := controlsKept_trans (by rw [hf]; exact hu2) (controlsKept_tick _)
  refine ⟨u, by simp [u, memRead], ?_, ?_⟩
  · have r : tick (f v u).2 = (f v u).2.withCpu (rmwReady m s) := by
      rw [hf, tick_withCpu, rmwReady, hn]; rfl
    rw [e]
    refine wrote_withCpu (c := (f v u).2) (r ▸ wrote_busWrite _ _ ?_ ?_ hs hc)
    · rw [hs.2.1]; exact hi.1.1
    · rw [hs.2.2.1]; exact hi.2.2.1.2.2.2.2.2.1
  · rw [e]; simp

end Sys2Proof.Machine
end

