-- ==== Sys2Proof/Tests/Slice0.lean ====
section
/-! SUPPORT. The model's own tests. Expected results come from the spec: the encoding tables and examples of the rules named
at each group, and 95_test_vectors.md. After them, for each statement of the certificates that has hypotheses, a witness
`witness_<name>`: concrete states and operands that meet them, at the boundaries of the ranges. -/

namespace Sys2Proof.Tests

open Machine

/-! ## Well-formedness refuses -/

/-- One ill-formed term for each mode check (R200 to R205, R231 to R242, R261, R320, R321). -/
theorem test_ill_formed_modes :
    (Instr.lda (.zpy 0)).wf = false ∧ (Instr.ldx (.zpx 0)).wf = false ∧ (Instr.ldy (.aby 0)).wf = false ∧
    (Instr.sta (.zpy 0)).wf = false ∧ (Instr.stx (.abye 0)).wf = false ∧ (Instr.sty (.abxe 0)).wf = false ∧
    (Instr.cpx (.zpx 0)).wf = false ∧ (Instr.cpy (.izy 0)).wf = false ∧ (Instr.bit (.imm 0)).wf = false ∧
    (Instr.inc (.abye 0)).wf = false ∧ (Instr.asl (.mem (.izx 0))).wf = false ∧ (Instr.lax (.imm 0)).wf = false ∧
    (Instr.sax (.zpx 0)).wf = false := by decide

/-- One ill-formed term for each list of opcode bytes (R328, R336 to R340). -/
theorem test_ill_formed_opcodes :
    (Instr.aac 0x4B 0).wf = false ∧ (Instr.nopImplied 0xEA).wf = false ∧ (Instr.nopImmediate 0x04 0).wf = false ∧
    (Instr.nopZeroPage 0x14 (.zp 0)).wf = false ∧ (Instr.nopZeroPage 0x04 (.izx 0)).wf = false ∧
    (Instr.nopAbsolute 0x0C (.abx 0)).wf = false ∧ (Instr.undecodable 0xEA).wf = false := by decide

/-- An ill-formed instruction has no encoding. -/
theorem test_ill_formed_has_no_encoding :
    encode (.lda (.zpy 0)) = none ∧ encode (.undecodable 0xEA) = none ∧ encode (.aac 0x4B 0) = none := by decide

/-! ## Decoding, the words from the encoding tables of R200 to R340 -/

theorem test_decode_loads :
    decode [0xA9, 0x05] = .ok (.lda (.imm 0x05)) [] ∧
    decode [0xB6, 0xF0] = .ok (.ldx (.zpy 0xF0)) [] ∧
    decode [0xBC, 0x34, 0x12] = .ok (.ldy (.abx 0x1234)) [] := by decide

theorem test_encode_loads :
    encode (.lda (.imm 0x05)) = some [0xA9, 0x05] ∧
    encode (.ldx (.zpy 0xF0)) = some [0xB6, 0xF0] ∧
    encode (.ldy (.abx 0x1234)) = some [0xBC, 0x34, 0x12] := by decide

theorem test_decode_stores :
    decode [0x91, 0x20] = .ok (.sta (.izye 0x20)) [] ∧
    decode [0x96, 0x10] = .ok (.stx (.zpy 0x10)) [] ∧
    decode [0x94, 0x10] = .ok (.sty (.zpx 0x10)) [] := by decide

theorem test_encode_stores :
    encode (.sta (.izye 0x20)) = some [0x91, 0x20] ∧
    encode (.stx (.zpy 0x10)) = some [0x96, 0x10] ∧
    encode (.sty (.zpx 0x10)) = some [0x94, 0x10] := by decide

theorem test_decode_transfers :
    decode [0xAA] = .ok (.tax) [] ∧
    decode [0xA8] = .ok (.tay) [] ∧
    decode [0x8A] = .ok (.txa) [] ∧
    decode [0x98] = .ok (.tya) [] ∧
    decode [0xBA] = .ok (.tsx) [] ∧
    decode [0x9A] = .ok (.txs) [] := by decide

theorem test_encode_transfers :
    encode (.tax) = some [0xAA] ∧
    encode (.tay) = some [0xA8] ∧
    encode (.txa) = some [0x8A] ∧
    encode (.tya) = some [0x98] ∧
    encode (.tsx) = some [0xBA] ∧
    encode (.txs) = some [0x9A] := by decide

theorem test_decode_arithmetic :
    decode [0x79, 0x34, 0x12] = .ok (.adc (.aby 0x1234)) [] ∧
    decode [0xE1, 0x20] = .ok (.sbc (.izx 0x20)) [] ∧
    decode [0x3D, 0x34, 0x12] = .ok (.and (.abx 0x1234)) [] ∧
    decode [0x0D, 0x34, 0x12] = .ok (.ora (.abs 0x1234)) [] ∧
    decode [0x51, 0x20] = .ok (.eor (.izy 0x20)) [] := by decide

theorem test_encode_arithmetic :
    encode (.adc (.aby 0x1234)) = some [0x79, 0x34, 0x12] ∧
    encode (.sbc (.izx 0x20)) = some [0xE1, 0x20] ∧
    encode (.and (.abx 0x1234)) = some [0x3D, 0x34, 0x12] ∧
    encode (.ora (.abs 0x1234)) = some [0x0D, 0x34, 0x12] ∧
    encode (.eor (.izy 0x20)) = some [0x51, 0x20] := by decide

theorem test_decode_compares :
    decode [0xD5, 0x20] = .ok (.cmp (.zpx 0x20)) [] ∧
    decode [0xE4, 0x20] = .ok (.cpx (.zp 0x20)) [] ∧
    decode [0xCC, 0x34, 0x12] = .ok (.cpy (.abs 0x1234)) [] ∧
    decode [0x2C, 0x34, 0x12] = .ok (.bit (.abs 0x1234)) [] := by decide

theorem test_encode_compares :
    encode (.cmp (.zpx 0x20)) = some [0xD5, 0x20] ∧
    encode (.cpx (.zp 0x20)) = some [0xE4, 0x20] ∧
    encode (.cpy (.abs 0x1234)) = some [0xCC, 0x34, 0x12] ∧
    encode (.bit (.abs 0x1234)) = some [0x2C, 0x34, 0x12] := by decide

theorem test_decode_counts :
    decode [0xFE, 0x34, 0x12] = .ok (.inc (.abxe 0x1234)) [] ∧
    decode [0xD6, 0x20] = .ok (.dec (.zpx 0x20)) [] ∧
    decode [0xE8] = .ok (.inx) [] ∧
    decode [0xC8] = .ok (.iny) [] ∧
    decode [0xCA] = .ok (.dex) [] ∧
    decode [0x88] = .ok (.dey) [] := by decide

theorem test_encode_counts :
    encode (.inc (.abxe 0x1234)) = some [0xFE, 0x34, 0x12] ∧
    encode (.dec (.zpx 0x20)) = some [0xD6, 0x20] ∧
    encode (.inx) = some [0xE8] ∧
    encode (.iny) = some [0xC8] ∧
    encode (.dex) = some [0xCA] ∧
    encode (.dey) = some [0x88] := by decide

theorem test_decode_shifts :
    decode [0x0A] = .ok (.asl .acc) [] ∧
    decode [0x1E, 0x34, 0x12] = .ok (.asl (.mem (.abxe 0x1234))) [] ∧
    decode [0x46, 0x20] = .ok (.lsr (.mem (.zp 0x20))) [] ∧
    decode [0x36, 0x20] = .ok (.rol (.mem (.zpx 0x20))) [] ∧
    decode [0x6E, 0x34, 0x12] = .ok (.ror (.mem (.abs 0x1234))) [] := by decide

theorem test_encode_shifts :
    encode (.asl .acc) = some [0x0A] ∧
    encode (.asl (.mem (.abxe 0x1234))) = some [0x1E, 0x34, 0x12] ∧
    encode (.lsr (.mem (.zp 0x20))) = some [0x46, 0x20] ∧
    encode (.rol (.mem (.zpx 0x20))) = some [0x36, 0x20] ∧
    encode (.ror (.mem (.abs 0x1234))) = some [0x6E, 0x34, 0x12] := by decide

theorem test_decode_branches :
    decode [0x90, 0x7F] = .ok (.bcc 0x7F) [] ∧
    decode [0xB0, 0xFD] = .ok (.bcs 0xFD) [] ∧
    decode [0xF0, 0xFC] = .ok (.beq 0xFC) [] ∧
    decode [0xD0, 0x05] = .ok (.bne 0x05) [] ∧
    decode [0x30, 0x00] = .ok (.bmi 0x00) [] ∧
    decode [0x10, 0x80] = .ok (.bpl 0x80) [] ∧
    decode [0x50, 0x02] = .ok (.bvc 0x02) [] ∧
    decode [0x70, 0x02] = .ok (.bvs 0x02) [] := by decide

theorem test_encode_branches :
    encode (.bcc 0x7F) = some [0x90, 0x7F] ∧
    encode (.bcs 0xFD) = some [0xB0, 0xFD] ∧
    encode (.beq 0xFC) = some [0xF0, 0xFC] ∧
    encode (.bne 0x05) = some [0xD0, 0x05] ∧
    encode (.bmi 0x00) = some [0x30, 0x00] ∧
    encode (.bpl 0x80) = some [0x10, 0x80] ∧
    encode (.bvc 0x02) = some [0x50, 0x02] ∧
    encode (.bvs 0x02) = some [0x70, 0x02] := by decide

theorem test_decode_jumps :
    decode [0x4C, 0x45, 0x03] = .ok (.jmp (.abs 0x0345)) [] ∧
    decode [0x6C, 0xFF, 0x02] = .ok (.jmp (.ind 0x02FF)) [] ∧
    decode [0x20, 0x00, 0x03] = .ok (.jsr 0x0300) [] ∧
    decode [0x60] = .ok (.rts) [] ∧
    decode [0x40] = .ok (.rti) [] ∧
    decode [0x00] = .ok (.brk) [] := by decide

theorem test_encode_jumps :
    encode (.jmp (.abs 0x0345)) = some [0x4C, 0x45, 0x03] ∧
    encode (.jmp (.ind 0x02FF)) = some [0x6C, 0xFF, 0x02] ∧
    encode (.jsr 0x0300) = some [0x20, 0x00, 0x03] ∧
    encode (.rts) = some [0x60] ∧
    encode (.rti) = some [0x40] ∧
    encode (.brk) = some [0x00] := by decide

theorem test_decode_stack :
    decode [0x48] = .ok (.pha) [] ∧
    decode [0x08] = .ok (.php) [] ∧
    decode [0x68] = .ok (.pla) [] ∧
    decode [0x28] = .ok (.plp) [] := by decide

theorem test_encode_stack :
    encode (.pha) = some [0x48] ∧
    encode (.php) = some [0x08] ∧
    encode (.pla) = some [0x68] ∧
    encode (.plp) = some [0x28] := by decide

theorem test_decode_flags :
    decode [0x18] = .ok (.clc) [] ∧
    decode [0x38] = .ok (.sec) [] ∧
    decode [0x58] = .ok (.cli) [] ∧
    decode [0x78] = .ok (.sei) [] ∧
    decode [0xD8] = .ok (.cld) [] ∧
    decode [0xF8] = .ok (.sed) [] ∧
    decode [0xB8] = .ok (.clv) [] ∧
    decode [0xEA] = .ok (.nop) [] := by decide

theorem test_encode_flags :
    encode (.clc) = some [0x18] ∧
    encode (.sec) = some [0x38] ∧
    encode (.cli) = some [0x58] ∧
    encode (.sei) = some [0x78] ∧
    encode (.cld) = some [0xD8] ∧
    encode (.sed) = some [0xF8] ∧
    encode (.clv) = some [0xB8] ∧
    encode (.nop) = some [0xEA] := by decide

theorem test_decode_unofficial_reads_and_stores :
    decode [0xB7, 0x20] = .ok (.lax (.zpy 0x20)) [] ∧
    decode [0x83, 0x20] = .ok (.sax (.izx 0x20)) [] ∧
    decode [0x9C, 0x00, 0x03] = .ok (.sya 0x0300) [] ∧
    decode [0x9E, 0x00, 0x03] = .ok (.sxa 0x0300) [] := by decide

theorem test_encode_unofficial_reads_and_stores :
    encode (.lax (.zpy 0x20)) = some [0xB7, 0x20] ∧
    encode (.sax (.izx 0x20)) = some [0x83, 0x20] ∧
    encode (.sya 0x0300) = some [0x9C, 0x00, 0x03] ∧
    encode (.sxa 0x0300) = some [0x9E, 0x00, 0x03] := by decide

theorem test_decode_unofficial_read_modify_write :
    decode [0xDB, 0x34, 0x12] = .ok (.dcp (.abye 0x1234)) [] ∧
    decode [0xF3, 0x20] = .ok (.isb (.izye 0x20)) [] ∧
    decode [0x03, 0x20] = .ok (.slo (.izx 0x20)) [] ∧
    decode [0x3B, 0x34, 0x12] = .ok (.rla (.abye 0x1234)) [] ∧
    decode [0x57, 0x20] = .ok (.sre (.zpx 0x20)) [] ∧
    decode [0x6F, 0x34, 0x12] = .ok (.rra (.abs 0x1234)) [] := by decide

theorem test_encode_unofficial_read_modify_write :
    encode (.dcp (.abye 0x1234)) = some [0xDB, 0x34, 0x12] ∧
    encode (.isb (.izye 0x20)) = some [0xF3, 0x20] ∧
    encode (.slo (.izx 0x20)) = some [0x03, 0x20] ∧
    encode (.rla (.abye 0x1234)) = some [0x3B, 0x34, 0x12] ∧
    encode (.sre (.zpx 0x20)) = some [0x57, 0x20] ∧
    encode (.rra (.abs 0x1234)) = some [0x6F, 0x34, 0x12] := by decide

theorem test_decode_unofficial_immediates :
    decode [0x0B, 0xF0] = .ok (.aac 0x0B 0xF0) [] ∧
    decode [0x2B, 0x0F] = .ok (.aac 0x2B 0x0F) [] ∧
    decode [0x4B, 0x03] = .ok (.asr 0x03) [] ∧
    decode [0x6B, 0xFF] = .ok (.arr 0xFF) [] ∧
    decode [0xAB, 0x0F] = .ok (.atx 0x0F) [] ∧
    decode [0xCB, 0x02] = .ok (.axs 0x02) [] ∧
    decode [0xEB, 0x01] = .ok (.sbcDuplicate 0x01) [] := by decide

theorem test_encode_unofficial_immediates :
    encode (.aac 0x0B 0xF0) = some [0x0B, 0xF0] ∧
    encode (.aac 0x2B 0x0F) = some [0x2B, 0x0F] ∧
    encode (.asr 0x03) = some [0x4B, 0x03] ∧
    encode (.arr 0xFF) = some [0x6B, 0xFF] ∧
    encode (.atx 0x0F) = some [0xAB, 0x0F] ∧
    encode (.axs 0x02) = some [0xCB, 0x02] ∧
    encode (.sbcDuplicate 0x01) = some [0xEB, 0x01] := by decide

theorem test_decode_unofficial_nops :
    decode [0xFA] = .ok (.nopImplied 0xFA) [] ∧
    decode [0xE2, 0x55] = .ok (.nopImmediate 0xE2 0x55) [] ∧
    decode [0x64, 0x10] = .ok (.nopZeroPage 0x64 (.zp 0x10)) [] ∧
    decode [0xF4, 0x10] = .ok (.nopZeroPage 0xF4 (.zpx 0x10)) [] ∧
    decode [0x0C, 0x20, 0x40] = .ok (.nopAbsolute 0x0C (.abs 0x4020)) [] ∧
    decode [0xFC, 0xFF, 0x03] = .ok (.nopAbsolute 0xFC (.abx 0x03FF)) [] := by decide

theorem test_encode_unofficial_nops :
    encode (.nopImplied 0xFA) = some [0xFA] ∧
    encode (.nopImmediate 0xE2 0x55) = some [0xE2, 0x55] ∧
    encode (.nopZeroPage 0x64 (.zp 0x10)) = some [0x64, 0x10] ∧
    encode (.nopZeroPage 0xF4 (.zpx 0x10)) = some [0xF4, 0x10] ∧
    encode (.nopAbsolute 0x0C (.abs 0x4020)) = some [0x0C, 0x20, 0x40] ∧
    encode (.nopAbsolute 0xFC (.abx 0x03FF)) = some [0xFC, 0xFF, 0x03] := by decide

theorem test_decode_undecodable :
    decode [0x02] = .ok (.undecodable 0x02) [] ∧
    decode [0x8B] = .ok (.undecodable 0x8B) [] ∧
    decode [0xBB] = .ok (.undecodable 0xBB) [] := by decide

theorem test_encode_undecodable :
    encode (.undecodable 0x02) = some [0x02] ∧
    encode (.undecodable 0x8B) = some [0x8B] ∧
    encode (.undecodable 0xBB) = some [0xBB] := by decide

/-- Missing bytes reject by name. -/
theorem test_decode_short :
    decode [] = .rejected .noOpcode ∧ decode [0xA9] = .rejected (.operandMissing 0xA9) ∧
    decode [0x4C, 0x45] = .rejected (.operandMissing 0x4C) := by decide

/-- The word form of the opcode table: the first byte lowest. -/
theorem test_decode_table_word :
    decodeTableWord 24 0x0345_4C = some (.jmp (.abs 0x0345)) ∧ decodeTableWord 8 0xEA = some .nop ∧
    decodeTableWord 16 0x05D0 = some (.bne 0x05) := by decide

/-- The instruction placed for the fetch is the one that runs. -/
theorem test_with_fetch_word :
    (match step (State.reset.withFetchWord 16 0x80A9) with | .next t => t.a | _ => 0) = 0x80 := by decide

/-! ## One step of each instruction, on the start state of 95_test_vectors.md section 2 -/

/-- The default start state of the vectors: `P` = $24, `PC` = $0200. -/
def base : State := { State.reset with p := 0x24, pc := 0x0200 }

/-- What a function shows of the state one step after `s` with these bytes at `PC` and these cells. -/
def after {α : Type} (bytes : List Byte) (cells : List (Addr × Byte)) (s : State) (f : State → α) : Option α :=
  match step (cells.foldl (fun s c => s.placeByte c.1 c.2) (s.placeBytes s.pc bytes)) with
  | .next t => some (f t)
  | .fault _ => none
  | .refused _ => none


/-! ### Loads, stores, transfers (examples of R200 to R211) -/

theorem test_lda_page_cross :
    after [0xBD, 0xFF, 0x10] [(0x1100, 0x7F)] { base with x := 0x01 } (fun t => (t.a, t.p, t.pc, t.cycleCount)) =
    some (0x7F, 0x24, 0x0203, 5) := by decide

theorem test_lda_pointer_wraps :
    after [0xB1, 0xFF] [(0x0000, 0x03), (0x00FF, 0xF8), (0x0408, 0xCD)] { base with y := 0x10 } (fun t => (t.a, t.p, t.pc, t.cycleCount)) =
    some (0xCD, 0xA4, 0x0202, 6) := by decide

theorem test_ldx_zero_page_y :
    after [0xB6, 0xF0] [(0x0010, 0x33)] { base with y := 0x20 } (fun t => (t.x, t.p, t.pc, t.cycleCount)) =
    some (0x33, 0x24, 0x0202, 4) := by decide

theorem test_ldy_immediate : after [0xA0, 0x7F] [] base (fun t => (t.y, t.p, t.pc, t.cycleCount)) =
    some (0x7F, 0x24, 0x0202, 2) := by decide

theorem test_sta_absolute_x :
    after [0x9D, 0x00, 0x03] [] { base with a := 0x42, x := 0x05 } (fun t => (peek 0x0305 t, t.pc, t.cycleCount)) =
    some (0x42, 0x0203, 5) := by decide

theorem test_sta_indirect_y :
    after [0x91, 0x20] [(0x0020, 0xFF), (0x0021, 0x02)] { base with a := 0x99, y := 0x01 } (fun t => (peek 0x0300 t, t.pc, t.cycleCount)) =
    some (0x99, 0x0202, 6) := by decide

theorem test_stx_zero_page_y :
    after [0x96, 0x10] [] { base with x := 0x77, y := 0xF8 } (fun t => (peek 0x0008 t, t.pc, t.cycleCount)) =
    some (0x77, 0x0202, 4) := by decide

theorem test_sty_absolute :
    after [0x8C, 0x00, 0x03] [] { base with y := 0x01 } (fun t => (peek 0x0300 t, t.pc, t.cycleCount)) =
    some (0x01, 0x0203, 4) := by decide

theorem test_tax : after [0xAA] [] { base with a := 0x80 } (fun t => (t.x, t.p, t.pc, t.cycleCount)) =
    some (0x80, 0xA4, 0x0201, 2) := by decide

theorem test_tay : after [0xA8] [] { base with a := 0x00, y := 0x05 } (fun t => (t.y, t.p, t.pc, t.cycleCount)) =
    some (0x00, 0x26, 0x0201, 2) := by decide

theorem test_txa : after [0x8A] [] { base with x := 0x10, a := 0xFF } (fun t => (t.a, t.p, t.pc, t.cycleCount)) =
    some (0x10, 0x24, 0x0201, 2) := by decide

theorem test_tya : after [0x98] [] { base with y := 0xFF } (fun t => (t.a, t.p, t.pc, t.cycleCount)) =
    some (0xFF, 0xA4, 0x0201, 2) := by decide

theorem test_tsx : after [0xBA] [] base (fun t => (t.x, t.p, t.pc, t.cycleCount)) =
    some (0xFD, 0xA4, 0x0201, 2) := by decide

theorem test_txs_keeps_flags : after [0x9A] [] { base with x := 0x00 } (fun t => (t.sp, t.p, t.pc, t.cycleCount)) =
    some (0x00, 0x24, 0x0201, 2) := by decide


/-! ### Arithmetic and logic (examples of R231 to R246) -/

theorem test_adc_overflow : after [0x69, 0x01] [] { base with a := 0x7F } (fun t => (t.a, t.p, t.pc, t.cycleCount)) =
    some (0x80, 0xE4, 0x0202, 2) := by decide

theorem test_adc_carry_and_overflow : after [0x69, 0x80] [] { base with a := 0x80 } (fun t => (t.a, t.p)) =
    some (0x00, 0x67) := by decide

theorem test_sbc_overflow :
    after [0xE9, 0x01] [] { base with a := 0x80, p := 0x25 } (fun t => (t.a, t.p, t.pc, t.cycleCount)) =
    some (0x7F, 0x65, 0x0202, 2) := by decide

theorem test_and : after [0x29, 0x0F] [] { base with a := 0xF0 } (fun t => (t.a, t.p, t.pc, t.cycleCount)) =
    some (0x00, 0x26, 0x0202, 2) := by decide

theorem test_ora : after [0x09, 0x80] [] { base with a := 0x01 } (fun t => (t.a, t.p, t.pc, t.cycleCount)) =
    some (0x81, 0xA4, 0x0202, 2) := by decide

theorem test_eor : after [0x49, 0xFF] [] { base with a := 0xFF } (fun t => (t.a, t.p, t.pc, t.cycleCount)) =
    some (0x00, 0x26, 0x0202, 2) := by decide

theorem test_cmp_equal : after [0xC9, 0x10] [] { base with a := 0x10 } (fun t => (t.a, t.p, t.pc, t.cycleCount)) =
    some (0x10, 0x27, 0x0202, 2) := by decide

theorem test_cpx : after [0xE0, 0x00] [] { base with x := 0xFF } (fun t => (t.p, t.pc, t.cycleCount)) =
    some (0xA5, 0x0202, 2) := by decide

theorem test_cpy : after [0xC0, 0x80] [] { base with y := 0x7F } (fun t => (t.p, t.pc, t.cycleCount)) =
    some (0xA4, 0x0202, 2) := by decide

theorem test_bit_sets : after [0x24, 0x10] [(0x0010, 0xC0)] { base with a := 0x01 } (fun t => (t.p, t.pc, t.cycleCount)) =
    some (0xE6, 0x0202, 3) := by decide

theorem test_bit_clears : after [0x24, 0x10] [(0x0010, 0x3F)] { base with a := 0xFF, p := 0xE4 } (fun t => t.p) =
    some 0x24 := by decide

theorem test_inc_wraps : after [0xE6, 0x10] [(0x0010, 0xFF)] base (fun t => (peek 0x0010 t, t.p, t.pc, t.cycleCount)) =
    some (0x00, 0x26, 0x0202, 5) := by decide

theorem test_inc_absolute_x :
    after [0xFE, 0xFF, 0x02] [(0x0300, 0x7F)] { base with x := 0x01 } (fun t => (peek 0x0300 t, t.p, t.pc, t.cycleCount)) =
    some (0x80, 0xA4, 0x0203, 7) := by decide

theorem test_dec_wraps : after [0xC6, 0x10] [(0x0010, 0x00)] base (fun t => (peek 0x0010 t, t.p, t.pc, t.cycleCount)) =
    some (0xFF, 0xA4, 0x0202, 5) := by decide

theorem test_inx : after [0xE8] [] { base with x := 0xFF } (fun t => (t.x, t.p, t.pc, t.cycleCount)) =
    some (0x00, 0x26, 0x0201, 2) := by decide

theorem test_iny : after [0xC8] [] { base with y := 0x7F } (fun t => (t.y, t.p, t.pc, t.cycleCount)) =
    some (0x80, 0xA4, 0x0201, 2) := by decide

theorem test_dex : after [0xCA] [] { base with x := 0x00 } (fun t => (t.x, t.p, t.pc, t.cycleCount)) =
    some (0xFF, 0xA4, 0x0201, 2) := by decide

theorem test_dey : after [0x88] [] { base with y := 0x01 } (fun t => (t.y, t.p, t.pc, t.cycleCount)) =
    some (0x00, 0x26, 0x0201, 2) := by decide


/-! ### Shifts (examples of R261 to R264) -/

theorem test_asl_accumulator : after [0x0A] [] { base with a := 0x81 } (fun t => (t.a, t.p, t.pc, t.cycleCount)) =
    some (0x02, 0x25, 0x0201, 2) := by decide

theorem test_asl_memory : after [0x06, 0x10] [(0x0010, 0x40)] base (fun t => (peek 0x0010 t, t.p, t.pc, t.cycleCount)) =
    some (0x80, 0xA4, 0x0202, 5) := by decide

theorem test_lsr_accumulator : after [0x4A] [] { base with a := 0x01 } (fun t => (t.a, t.p, t.pc, t.cycleCount)) =
    some (0x00, 0x27, 0x0201, 2) := by decide

theorem test_lsr_absolute_x :
    after [0x5E, 0x00, 0x03] [(0x0302, 0x82)] { base with x := 0x02 } (fun t => (peek 0x0302 t, t.p, t.pc, t.cycleCount)) =
    some (0x41, 0x24, 0x0203, 7) := by decide

theorem test_rol_carry_in : after [0x2A] [] { base with a := 0x80, p := 0x25 } (fun t => (t.a, t.p, t.pc, t.cycleCount)) =
    some (0x01, 0x25, 0x0201, 2) := by decide

theorem test_rol_negative : after [0x2A] [] { base with a := 0x40 } (fun t => (t.a, t.p)) =
    some (0x80, 0xA4) := by decide

theorem test_ror_carry_in : after [0x6A] [] { base with a := 0x00, p := 0x25 } (fun t => (t.a, t.p, t.pc, t.cycleCount)) =
    some (0x80, 0xA4, 0x0201, 2) := by decide

theorem test_ror_memory :
    after [0x66, 0x10] [(0x0010, 0x03)] { base with p := 0x25 } (fun t => (peek 0x0010 t, t.p, t.pc, t.cycleCount)) =
    some (0x81, 0xA5, 0x0202, 5) := by decide


/-! ### Control flow (examples of R271 to R283) -/

theorem test_bcc_page_cross : after [0x90, 0x7F] [] { base with pc := 0x02F0 } (fun t => (t.pc, t.cycleCount)) =
    some (0x0371, 4) := by decide

theorem test_bcs_backward : after [0xB0, 0xFD] [] { base with p := 0x25 } (fun t => (t.pc, t.cycleCount)) =
    some (0x01FF, 4) := by decide

theorem test_beq : after [0xF0, 0xFC] [] { base with p := 0x26 } (fun t => (t.pc, t.cycleCount)) =
    some (0x01FE, 4) := by decide

theorem test_bne_taken : after [0xD0, 0x05] [] base (fun t => (t.pc, t.cycleCount)) =
    some (0x0207, 3) := by decide

theorem test_bne_not_taken : after [0xD0, 0x05] [] { base with p := 0x26 } (fun t => (t.pc, t.cycleCount)) =
    some (0x0202, 2) := by decide

theorem test_bmi : after [0x30, 0x00] [] { base with p := 0xA4 } (fun t => (t.pc, t.cycleCount)) =
    some (0x0202, 3) := by decide

theorem test_bpl : after [0x10, 0x80] [] base (fun t => (t.pc, t.cycleCount)) =
    some (0x0182, 4) := by decide

theorem test_bvc : after [0x50, 0x02] [] base (fun t => (t.pc, t.cycleCount)) =
    some (0x0204, 3) := by decide

theorem test_bvs_taken : after [0x70, 0x02] [] { base with p := 0x64 } (fun t => (t.pc, t.cycleCount)) =
    some (0x0204, 3) := by decide

theorem test_bvs_not_taken : after [0x70, 0x02] [] base (fun t => (t.pc, t.cycleCount)) =
    some (0x0202, 2) := by decide

theorem test_jmp_absolute : after [0x4C, 0x45, 0x03] [] base (fun t => (t.pc, t.cycleCount)) =
    some (0x0345, 3) := by decide

theorem test_jmp_indirect_page_wrap :
    after [0x6C, 0xFF, 0x02] [(0x02FF, 0x34), (0x0300, 0x99)] base (fun t => (t.pc, t.cycleCount)) =
    some (0x6C34, 5) := by decide

theorem test_jsr : after [0x20, 0x00, 0x03] [] base (fun t => (peek 0x01FD t, peek 0x01FC t, t.sp, t.pc, t.cycleCount)) =
    some (0x02, 0x02, 0xFB, 0x0300, 6) := by decide

theorem test_rts :
    after [0x60] [(0x01FC, 0x02), (0x01FD, 0x02)] { base with sp := 0xFB } (fun t => (t.pc, t.sp, t.cycleCount)) =
    some (0x0203, 0xFD, 6) := by decide

theorem test_rti :
    after [0x40] [(0x01FB, 0xFF), (0x01FC, 0x34), (0x01FD, 0x12)] { base with sp := 0xFA } (fun t => (t.p, t.pc, t.sp, t.cycleCount)) =
    some (0xEF, 0x1234, 0xFD, 6) := by decide

theorem test_brk :
    after [0x00] [(0xFFFE, 0x00), (0xFFFF, 0x90)] base (fun t => ((peek 0x01FD t, peek 0x01FC t, peek 0x01FB t), t.sp, t.p, t.pc, t.cycleCount)) =
    some ((0x02, 0x02, 0x34), 0xFA, 0x24, 0x9000, 7) := by decide


/-! ### Stack, flags, no operation (examples of R300 to R311) -/

theorem test_pha : after [0x48] [] { base with a := 0x5A } (fun t => (peek 0x01FD t, t.sp, t.pc, t.cycleCount)) =
    some (0x5A, 0xFC, 0x0201, 3) := by decide

theorem test_php : after [0x08] [] { base with p := 0x81 } (fun t => (peek 0x01FD t, t.sp, t.p, t.pc, t.cycleCount)) =
    some (0xB1, 0xFC, 0x81, 0x0201, 3) := by decide

theorem test_pla :
    after [0x68] [(0x01FD, 0x00)] { base with sp := 0xFC, a := 0x11 } (fun t => (t.a, t.sp, t.p, t.pc, t.cycleCount)) =
    some (0x00, 0xFD, 0x26, 0x0201, 4) := by decide

theorem test_plp_set : after [0x28] [(0x01FD, 0xFF)] { base with sp := 0xFC } (fun t => (t.p, t.sp, t.pc, t.cycleCount)) =
    some (0xEF, 0xFD, 0x0201, 4) := by decide

theorem test_plp_clear : after [0x28] [(0x01FD, 0x00)] { base with sp := 0xFC, p := 0xFF } (fun t => t.p) =
    some 0x20 := by decide

theorem test_clc : after [0x18] [] { base with p := 0x25 } (fun t => (t.p, t.pc, t.cycleCount)) =
    some (0x24, 0x0201, 2) := by decide

theorem test_sec : after [0x38] [] base (fun t => (t.p, t.pc, t.cycleCount)) =
    some (0x25, 0x0201, 2) := by decide

theorem test_cli : after [0x58] [] base (fun t => (t.p, t.pc, t.cycleCount)) =
    some (0x20, 0x0201, 2) := by decide

theorem test_sei : after [0x78] [] { base with p := 0x20 } (fun t => (t.p, t.pc, t.cycleCount)) =
    some (0x24, 0x0201, 2) := by decide

theorem test_cld : after [0xD8] [] { base with p := 0x2C } (fun t => (t.p, t.pc, t.cycleCount)) =
    some (0x24, 0x0201, 2) := by decide

theorem test_sed : after [0xF8] [] base (fun t => (t.p, t.pc, t.cycleCount)) =
    some (0x2C, 0x0201, 2) := by decide

theorem test_clv : after [0xB8] [] { base with p := 0x64 } (fun t => (t.p, t.pc, t.cycleCount)) =
    some (0x24, 0x0201, 2) := by decide

theorem test_nop : after [0xEA] [] base (fun t => ((t.a, t.x, t.y), t.sp, t.p, t.pc, t.cycleCount)) =
    some ((0x00, 0x00, 0x00), 0xFD, 0x24, 0x0201, 2) := by decide


/-! ### Unofficial instructions (examples of R320 to R340) -/

theorem test_lax : after [0xA7, 0x10] [(0x0010, 0x8F)] base (fun t => (t.a, t.x, t.p, t.pc, t.cycleCount)) =
    some (0x8F, 0x8F, 0xA4, 0x0202, 3) := by decide

theorem test_lax_page_cross :
    after [0xB3, 0x20] [(0x0020, 0xFF), (0x0021, 0x02), (0x0300, 0x00)] { base with y := 0x01 } (fun t => (t.a, t.x, t.p, t.cycleCount)) =
    some (0x00, 0x00, 0x26, 6) := by decide

theorem test_sax : after [0x87, 0x10] [] { base with a := 0xF0, x := 0x3C } (fun t => (peek 0x0010 t, t.p, t.cycleCount)) =
    some (0x30, 0x24, 3) := by decide

theorem test_sax_indexed_indirect :
    after [0x83, 0x20] [(0x0024, 0x00), (0x0025, 0x03)] { base with a := 0x0F, x := 0x04 } (fun t => (peek 0x0300 t, t.cycleCount)) =
    some (0x04, 6) := by decide

theorem test_dcp_equal :
    after [0xC7, 0x10] [(0x0010, 0x41)] { base with a := 0x40 } (fun t => (peek 0x0010 t, t.p, t.cycleCount)) =
    some (0x40, 0x27, 5) := by decide

theorem test_dcp_borrow : after [0xC7, 0x10] [(0x0010, 0x00)] { base with a := 0x10 } (fun t => (peek 0x0010 t, t.p)) =
    some (0xFF, 0x24) := by decide

theorem test_isb :
    after [0xE7, 0x10] [(0x0010, 0x0F)] { base with a := 0x10, p := 0x25 } (fun t => (peek 0x0010 t, t.a, t.p, t.cycleCount)) =
    some (0x10, 0x00, 0x27, 5) := by decide

theorem test_isb_indirect_y :
    after [0xF3, 0x20] [(0x0020, 0x00), (0x0021, 0x03), (0x0300, 0x2F)] { base with a := 0x50 } (fun t => (peek 0x0300 t, t.a, t.p, t.cycleCount)) =
    some (0x30, 0x1F, 0x25, 8) := by decide

theorem test_slo :
    after [0x07, 0x10] [(0x0010, 0xC0)] { base with a := 0x01 } (fun t => (peek 0x0010 t, t.a, t.p, t.cycleCount)) =
    some (0x80, 0x81, 0xA5, 5) := by decide

theorem test_rla :
    after [0x27, 0x10] [(0x0010, 0x80)] { base with a := 0xFF, p := 0x25 } (fun t => (peek 0x0010 t, t.a, t.p, t.cycleCount)) =
    some (0x01, 0x01, 0x25, 5) := by decide

theorem test_rla_no_carry :
    after [0x27, 0x10] [(0x0010, 0x55)] { base with a := 0x0F } (fun t => (peek 0x0010 t, t.a, t.p)) =
    some (0xAA, 0x0A, 0x24) := by decide

theorem test_sre :
    after [0x47, 0x10] [(0x0010, 0x03)] { base with a := 0xFF } (fun t => (peek 0x0010 t, t.a, t.p, t.cycleCount)) =
    some (0x01, 0xFE, 0xA5, 5) := by decide

theorem test_rra :
    after [0x67, 0x10] [(0x0010, 0x02)] { base with a := 0x10, p := 0x25 } (fun t => (peek 0x0010 t, t.a, t.p, t.cycleCount)) =
    some (0x81, 0x91, 0xA4, 5) := by decide

theorem test_rra_overflow :
    after [0x67, 0x10] [(0x0010, 0x03)] { base with a := 0x7F } (fun t => (peek 0x0010 t, t.a, t.p)) =
    some (0x01, 0x81, 0xE4) := by decide

theorem test_aac : after [0x0B, 0xF0] [] { base with a := 0x8F } (fun t => (t.a, t.p, t.cycleCount)) =
    some (0x80, 0xA5, 2) := by decide

theorem test_aac_second_byte : after [0x2B, 0x0F] [] { base with a := 0x8F, p := 0x25 } (fun t => (t.a, t.p)) =
    some (0x0F, 0x24) := by decide

theorem test_asr : after [0x4B, 0x03] [] { base with a := 0xFF } (fun t => (t.a, t.p, t.cycleCount)) =
    some (0x01, 0x25, 2) := by decide

theorem test_asr_zero : after [0x4B, 0xFE] [] { base with a := 0x01 } (fun t => (t.a, t.p)) =
    some (0x00, 0x26) := by decide

theorem test_arr : after [0x6B, 0xFF] [] { base with a := 0xC0, p := 0x25 } (fun t => (t.a, t.p, t.cycleCount)) =
    some (0xE0, 0xA5, 2) := by decide

theorem test_arr_overflow : after [0x6B, 0xFF] [] { base with a := 0x40 } (fun t => (t.a, t.p)) =
    some (0x20, 0x64) := by decide

theorem test_atx : after [0xAB, 0x0F] [] { base with a := 0xFC, x := 0x11 } (fun t => (t.a, t.x, t.p, t.cycleCount)) =
    some (0x0C, 0x0C, 0x24, 2) := by decide

theorem test_axs : after [0xCB, 0x02] [] { base with a := 0x0F, x := 0x07 } (fun t => (t.x, t.p, t.cycleCount)) =
    some (0x05, 0x25, 2) := by decide

theorem test_axs_borrow : after [0xCB, 0x10] [] { base with a := 0xFF, x := 0x08 } (fun t => (t.x, t.p)) =
    some (0xF8, 0xA4) := by decide

theorem test_sbc_duplicate : after [0xEB, 0x01] [] { base with a := 0x10, p := 0x25 } (fun t => (t.a, t.p, t.cycleCount)) =
    some (0x0F, 0x25, 2) := by decide

theorem test_sya : after [0x9C, 0x00, 0x03] [] { base with y := 0xFF, x := 0x05 } (fun t => (peek 0x0305 t, t.cycleCount)) =
    some (0x04, 5) := by decide

theorem test_sya_page_cross : after [0x9C, 0xF0, 0x06] [] { base with y := 0x05, x := 0x20 } (fun t => peek 0x0710 t) =
    some 0x05 := by decide

theorem test_sxa : after [0x9E, 0x00, 0x03] [] { base with x := 0xFF, y := 0x05 } (fun t => (peek 0x0305 t, t.cycleCount)) =
    some (0x04, 5) := by decide

theorem test_sxa_low_page : after [0x9E, 0x00, 0x02] [] { base with x := 0xF5, y := 0x40 } (fun t => peek 0x0240 t) =
    some 0x01 := by decide

theorem test_nop_implied : after [0x1A] [] base (fun t => (t.pc, t.cycleCount)) =
    some (0x0201, 2) := by decide

theorem test_nop_immediate : after [0x80, 0x55] [] base (fun t => (t.pc, t.cycleCount)) =
    some (0x0202, 2) := by decide

theorem test_nop_zero_page : after [0x04, 0x10] [] base (fun t => (t.pc, t.cycleCount)) =
    some (0x0202, 3) := by decide

theorem test_nop_zero_page_x : after [0x14, 0x10] [] { base with x := 0x03 } (fun t => (t.pc, t.cycleCount)) =
    some (0x0202, 4) := by decide

theorem test_nop_absolute : after [0x0C, 0x00, 0x03] [] base (fun t => (t.pc, t.cycleCount)) =
    some (0x0203, 4) := by decide

theorem test_nop_absolute_x_cross : after [0x1C, 0xFF, 0x03] [] { base with x := 0x01 } (fun t => t.cycleCount) =
    some 5 := by decide

theorem test_undecodable : after [0x02] [] base (fun t => (t.run, t.pc, t.cycleCount)) =
    some (.halted (.undecodableOpcode 0x02 0x0200), 0x0201, 1) := by decide

/-! ### Stops and interrupts (R15, R601, R602, R613, R614, R651) -/

theorem test_unmapped_write_halts : after [0x8D, 0x00, 0x50] [] { base with a := 0x01 } (fun t => (t.run, t.cycleCount)) =
    some (.halted (.unmappedWrite 0x5000 0x01), 4) := by decide

theorem test_halted_faults : step { base with run := .halted (.badPaletteSize 5) } = .fault (.halted (.badPaletteSize 5)) := rfl

theorem test_halted_stays_halted :
    let s : State := { base with run := .halted (.badPaletteSize 5) }
    (s.insert .blank .nrom).run = .halted (.badPaletteSize 5) ∧ (powerOff s).run = .halted (.badPaletteSize 5) ∧
    (State.reset.insert .blank .nrom).run = .loaded ∧ (powerOff State.reset).run = .loaded ∧
    (match powerOn (s.insert .blank .nrom) with | .next t => t.run | _ => .loaded) = .running := by decide

theorem test_short_snapshot_halts :
    (match loadSnapshot (some { bytes := [], savedOn := (State.reset.applyMapper (.axrom 0)).cartKind }) State.reset with
      | .next t => t.run | _ => .running) = .halted (.shortFile .snapshot) ∧ snapshotSize State.reset = 2065 + 2369 + 8 + 8192 + 3 := by
  decide

theorem test_not_powered_on_refuses : step { base with run := .loaded } = .refused .notPoweredOn := rfl

theorem test_nmi_entry : after [] [(0xFFFA, 0x00), (0xFFFB, 0x90), (0x9000, 0xEA)] { base with nmiFlag := true }
    (fun t => (peek 0x01FB t, t.sp, t.pc, t.nmiFlag, t.cycleCount)) = some (0x04, 0xFA, 0x9001, false, 9) := by decide +kernel

theorem test_irq_entry : after [] [(0xFFFE, 0x00), (0xFFFF, 0x90), (0x9000, 0xEA)] { base with irqFlag := true, p := 0x20 }
    (fun t => (peek 0x01FB t, t.p, t.pc, t.irqFlag, t.cycleCount)) = some (0x00, 0x24, 0x9001, true, 9) := by decide

theorem test_irq_masked : after [0xEA] [] { base with irqFlag := true } (fun t => (t.pc, t.irqFlag)) = some (0x0201, true) := by
  decide

theorem test_reset_sequence :
    (match reset (base.placeByte 0xFFFD 0x80) with | .next t => (t.sp, t.p, t.pc, t.cycleCount) | _ => (0, 0, 0, 0)) =
    (0xFA, 0x24, 0x8000, 8) := by decide +kernel

/-! ### Devices (vectors T1 to T43 of 95_test_vectors.md) -/

theorem test_ram_mirror : peek 0x1800 (busWrite 0x0000 0x5A State.reset) = 0x5A := by decide

theorem test_unmapped_read : busRead 0x4018 State.reset = (0, State.reset) := by decide

theorem test_status_read_clears :
    let r := busRead 0x2002 { base with ppu := { Ppu.powerOn with status := 0xE0, busLatch := 0x1F, w := true } }
    r.1 = 0xFF ∧ r.2.ppu.status = 0x60 ∧ r.2.ppu.w = false := by decide

theorem test_palette_mirror :
    palIndex 0x3F10 = 0 ∧ palIndex 0x3F14 = 4 ∧ palIndex 0x3F11 = 0x11 ∧ palIndex 0x3FFF = 0x1F := by decide

theorem test_horizontal_mirroring :
    ntMirror .horizontal 0x2400 = 0 ∧ ntMirror .horizontal 0x2800 = 0x400 ∧ ntMirror .horizontal 0x3EFF = 0x6FF := by decide

theorem test_unrom_has_no_prg_ram :
    (busWrite 0x6000 0x3C (State.reset.applyMapper (.unrom 0))).run = .halted (.romRegionWrite 2 0x6000 0x3C) := by decide

theorem test_scroll_wraps : hScroll 0x001F = 0x0400 ∧ vScroll 0x73A0 = 0x0800 ∧ vScroll 0x73E0 = 0x0000 := by decide

theorem test_assembler : branchDisplacement 0x0200 0x0207 = some 0x05 ∧ branchDisplacement 0x0200 0x0300 = none := by decide

/-! ## Witnesses -/

/-- The reset machine satisfies the invariant, which most statements assume. -/
theorem witness_invariant : State.reset.Inv ∧ State.reset.run = .running := by decide

/-- The reset machine with its PPU at a dot. -/
def ppuAt (scanline dot : Nat) : State :=
  { State.reset with ppu := { Ppu.powerOn with scanline := scanline, dot := dot, phase := phaseOf scanline } }

/-- The reset machine with another mapper. -/
def withMapper (m : Mapper) : State := State.reset.applyMapper m

theorem witness_DecodeEncode : (Instr.lda (.izy 0xFF)).wf = true ∧ (Instr.undecodable 0xF2).wf = true := by decide

theorem witness_EncodeDecode : decode [0xB1, 0xFF, 0x00] = .ok (.lda (.izy 0xFF)) [0x00] := by decide

theorem witness_StepKeepsInvariant : ∃ t, State.reset.Inv ∧ step State.reset = .next t := ⟨_, by decide, rfl⟩

theorem witness_StepRunsDecoded :
    State.reset.run = .running ∧ State.reset.nmiFlag = false ∧ (State.reset.irqFlag = true → State.reset.flag .interruptDisable = true) ∧
    isMemory State.reset.pc = true ∧ isMemory (State.reset.pc + 1) = true ∧ isMemory (State.reset.pc + 2) = true ∧
    decode [peek State.reset.pc State.reset, peek (State.reset.pc + 1) State.reset, peek (State.reset.pc + 2) State.reset] =
      .ok .brk [0, 0] := by decide

/-- The boundaries of memory for the fetch. -/
theorem witness_StepRunsDecoded_edges :
    isMemory 0x1FFF = true ∧ isMemory 0x2000 = false ∧ isMemory 0x5FFF = false ∧ isMemory 0x6000 = true ∧ isMemory 0xFFFF = true := by
  decide

theorem witness_StepPolls :
    ({ base with nmiFlag := true } : State).run = .running ∧
    (let s : State := { base with irqFlag := true, p := 0x20 }
     s.run = .running ∧ s.nmiFlag = false ∧ s.irqFlag = true ∧ s.flag .interruptDisable = false) ∧
    (base.run = .running ∧ base.nmiFlag = false ∧ (base.irqFlag = false ∨ base.flag .interruptDisable = true)) := by decide

theorem witness_OnlyRunningSteps :
    State.reset.run = .running ∧ ({ base with run := .halted (.badPaletteSize 0) } : State).run = .halted (.badPaletteSize 0) ∧
    State.noCartridge.run = .noCartridge ∧ ({ base with run := .loaded } : State).run = .loaded := by decide

theorem witness_StepKeepsCartridge :
    (∃ t, step State.reset = .next t) ∧ State.reset.cart.chrIsRam = false ∧ (withMapper (.unrom 0)).mapper.hasNoPrgRam = true ∧
    (∃ t, step (withMapper (.unrom 0)) = .next t) := ⟨⟨_, rfl⟩, by decide, by decide, ⟨_, rfl⟩⟩

theorem witness_OnlyMmc3DrivesIrq : ∃ t, step State.reset = .next t ∧ State.reset.mapper.number ≠ 4 := ⟨_, rfl, by decide⟩

theorem witness_RunFrameEnds : State.reset.run = .running := by decide

theorem witness_OperandAddresses :
    ∃ (m : ReadOperand) (w : WriteOperand) (r : RmwOperand), m = .izy 0xFF ∧ w = .izye 0xFF ∧ r = .izye 0xFF :=
  ⟨_, _, _, rfl, rfl, rfl⟩

/-- The clauses of what a write leaves, each at the edges of its range; no address is under two of them. -/
theorem witness_StoreResults :
    (isWritable State.reset 0x0000 = true ∧ isWritable State.reset 0x1FFF = true ∧ isWritable State.reset 0x6000 = true ∧
      isWritable State.reset 0x7FFF = true) ∧
    (isWritable State.reset 0x2000 = false ∧ isWritable State.reset 0x5FFF = false ∧ isWritable State.reset 0x8000 = false) ∧
    (writeHalts State.reset 0x4017 = false ∧ writeHalts State.reset 0x4018 = true ∧ writeHalts State.reset 0x5FFF = true ∧
      writeHalts State.reset 0x6000 = false) ∧
    (let s := withMapper (.axrom 0)
     s.Inv ∧ writeHalts s 0x6000 = true ∧ writeHalts s 0x7FFF = true ∧ writeHalts s 0x8000 = false ∧ isWritable s 0x6000 = false) ∧
    (writeAddr (.abs 0x4014) State.reset).1 = 0x4014 ∧ (writeAddr (.abs 0x4016) State.reset).1 = 0x4016 ∧
    (writeAddr (.abs 0x2000) State.reset).1 = 0x2000 ∧ (writeAddr (.abs 0x3FFF) State.reset).1 = 0x3FFF ∧
    (writeAddr (.abs 0x4013) State.reset).1 = 0x4013 ∧ (writeAddr (.abs 0xFFFF) State.reset).1 = 0xFFFF := by decide

theorem witness_BranchResults :
    (!State.reset.flag .carry) = true ∧ State.reset.flag .carry = false ∧ ({ base with p := 0xC3 } : State).flag .negative = true := by
  decide

theorem witness_JumpResults :
    isMemory 0x02FF = true ∧ isMemory (BitVec.ofNat 16 ((0x02FF : Addr).toNat / 256 * 256 + ((0x02FF : Addr).toNat + 1) % 256)) = true := by
  decide

theorem witness_CallResults : State.reset.Inv ∧ isMemory State.reset.pc = true := by decide

theorem witness_SubroutineReturns : ∃ t, State.reset.Inv ∧ exec (.jsr 0x0300) State.reset = .next t ∧ t.sp = t.sp ∧ t.ram = t.ram :=
  ⟨_, by decide, rfl, rfl, rfl⟩

theorem witness_InterruptReturns :
    State.reset.Inv ∧ (InterruptKind.nmi = .nmi ∨ InterruptKind.nmi = .irq) ∧
    (interrupt .nmi State.reset).sp = (interrupt .nmi State.reset).sp ∧
    (interrupt .nmi State.reset).ram = (interrupt .nmi State.reset).ram := ⟨by decide, .inl rfl, rfl, rfl⟩

theorem witness_FlagResults :
    (Instr.clv, (0xB8 : Byte), Flag.overflow, false) ∈
      [(Instr.clc, (0x18 : Byte), Flag.carry, false), (Instr.clv, 0xB8, Flag.overflow, false)] := by decide

theorem witness_AddressMap :
    (0x1FFF : Addr).toNat ≤ 0x1FFF ∧
    (0x2000 ≤ (0x2007 : Addr).toNat ∧ (0x2007 : Addr).toNat ≤ 0x3FFF ∧ (0x3FFF : Addr).toNat ≤ 0x3FFF ∧
      (0x2007 : Addr).toNat % 8 = (0x3FFF : Addr).toNat % 8) ∧
    (0x4000 ≤ (0x4000 : Addr).toNat ∧ (0x4013 : Addr).toNat ≤ 0x4013) ∧
    (0x4018 ≤ (0x4018 : Addr).toNat ∧ (0x5FFF : Addr).toNat ≤ 0x5FFF) := by decide

theorem witness_OamDmaCopiesPage :
    State.reset.Inv ∧ (0x1F : Byte).toNat ≤ 0x1F ∧ 0x60 ≤ (0x60 : Byte).toNat ∧ 0x60 ≤ (0xFF : Byte).toNat := by decide

theorem witness_ControllerReads : (0x01 : Byte).getLsbD 0 = true ∧ (0xFE : Byte).getLsbD 0 = false := by decide

theorem witness_StatusRead :
    (0x2000 ≤ (0x2002 : Addr).toNat ∧ (0x2002 : Addr).toNat % 8 = 2) ∧ ((0x3FFA : Addr).toNat ≤ 0x3FFF ∧ (0x3FFA : Addr).toNat % 8 = 2) := by
  decide

theorem witness_PlainRegisterWrites :
    State.reset.Inv ∧ (0x2000 : Addr).toNat % 8 = 0 ∧ (0x2001 : Addr).toNat % 8 = 1 ∧ (0x2002 : Addr).toNat % 8 = 2 ∧
    (0x3FFB : Addr).toNat % 8 = 3 ∧ (0x3FFC : Addr).toNat % 8 = 4 ∧ (0x3FFC : Addr).toNat ≤ 0x3FFF := by decide

theorem witness_TwoWriteRegisters :
    State.reset.ppu.w = false ∧ (0x2005 : Addr).toNat % 8 = 5 ∧ (0x3FFE : Addr).toNat % 8 = 6 ∧ (0x3FFE : Addr).toNat ≤ 0x3FFF := by
  decide

/-- The address in `v` at the edges of the three regions, over CHR-ROM and CHR-RAM. -/
theorem witness_DataPort :
    let at' (v : BitVec 15) : State := { State.reset with ppu := { Ppu.powerOn with v := v } }
    let ram : State := { State.reset with cart := { Cart.blank with chrIsRam := true } }
    (0x2000 ≤ (0x2007 : Addr).toNat ∧ (0x3FFF : Addr).toNat ≤ 0x3FFF ∧ (0x2007 : Addr).toNat % 8 = 7 ∧ (0x3FFF : Addr).toNat % 8 = 7) ∧
    ((at' 0x1FFF).Inv ∧ (at' 0x1FFF).ppu.v.toNat % 0x4000 < 0x2000 ∧ (at' 0x1FFF).cart.chrIsRam = false) ∧
    (ram.Inv ∧ ram.ppu.v.toNat % 0x4000 < 0x2000 ∧ ram.cart.chrIsRam = true) ∧
    ((at' 0x2000).Inv ∧ 0x2000 ≤ (at' 0x2000).ppu.v.toNat % 0x4000 ∧ (at' 0x7EFF).ppu.v.toNat % 0x4000 < 0x3F00) ∧
    ((at' 0x3F00).Inv ∧ 0x3F00 ≤ (at' 0x3F00).ppu.v.toNat % 0x4000 ∧ 0x3F00 ≤ (at' 0x7FFF).ppu.v.toNat % 0x4000) := by
  and_intros <;> decide

theorem witness_PpuMirrors : 0x2000 ≤ 0x2000 ∧ 0x2000 < 0x3F00 ∧ 0x2000 ≤ 0x3EFF ∧ 0x3EFF < 0x3F00 := by decide

theorem witness_VBlankAndNmi :
    ((ppuAt 241 1).Inv ∧ (ppuAt 241 1).ppu.scanline = 241 ∧ (ppuAt 241 1).ppu.dot = 1) ∧
    ((ppuAt 261 1).Inv ∧ (ppuAt 261 1).ppu.scanline = 261 ∧ (ppuAt 261 1).ppu.dot = 1) ∧
    ((ppuAt 241 0).Inv ∧ (ppuAt 241 0).ppu.dot ≠ 1) ∧ ((ppuAt 0 1).Inv ∧ (ppuAt 0 1).ppu.scanline ≠ 241 ∧ (ppuAt 0 1).ppu.scanline ≠ 261) := by
  and_intros <;> decide

theorem witness_SpriteEvaluation : Ppu.powerOn.Inv ∧ (ppuAt 261 257).ppu.Inv ∧ (ppuAt 239 257).ppu.Inv := by decide

/-- A PPU at the first pixel of a visible line, background and sprites shown, one opaque sprite at the left
edge, in the second slot. -/
def pixelPpu : Ppu :=
  { Ppu.powerOn with
    dot := 2, mask := 0x1E
    spr := .empty :: { id := 0, y := 0, tile := 0, attr := 0, x := 0, dataLo := 0x80, dataHi := 0 } :: List.replicate 6 .empty }

/-- Rendering off; on with no sprite there, and with sprites hidden in the left columns; on with a sprite, the first in a slot
after an empty one. -/
theorem witness_PixelOutput :
    let p := pixelPpu
    let i : SpriteInfo := { id := 0, y := 0, tile := 0, attr := 0, x := 0, dataLo := 0x80, dataHi := 0 }
    ((ppuAt 239 257).ppu.Inv ∧ (ppuAt 239 257).ppu.scanline < 240 ∧ (ppuAt 239 257).ppu.dot ≤ 257 ∧ (ppuAt 239 257).ppu.rendering = false) ∧
    (p.Inv ∧ p.scanline < 240 ∧ 2 ≤ p.dot ∧ p.rendering = true ∧ p.mask.getLsbD 4 = true ∧ p.mask.getLsbD 2 = true ∧
      p.spr = [.empty] ++ i :: List.replicate 6 .empty ∧ (i.id ≠ 64 ∧ i.x.toNat ≤ p.dot - 2 ∧ i.dataLo.getLsbD 7 = true)) ∧
    (let q := { p with mask := 0x1A }
     q.Inv ∧ q.rendering = true ∧ ¬(q.mask.getLsbD 2 = true ∨ 8 ≤ q.dot - 2)) ∧
    (let q := { p with dot := 257 }
     q.Inv ∧ q.rendering = true ∧ ∀ j ∈ q.spr, ¬(j.id ≠ 64 ∧ j.x.toNat ≤ q.dot - 2 ∧ q.dot - 2 < j.x.toNat + 8)) := by
  and_intros <;> decide

/-- The last dot of the pre-render line in an even frame with rendering off, and in an odd one with it on. -/
theorem witness_FrameDots :
    ((ppuAt 0 0).Inv ∧ (ppuAt 0 0).ppu.rendering = false) ∧
    ((ppuAt 261 340).Inv ∧ (ppuAt 261 340).ppu.scanline = 261 ∧ (ppuAt 261 340).ppu.dot = 340) ∧
    (let s : State := { ppuAt 261 340 with ppu := { (ppuAt 261 340).ppu with mask := 0x08, frameOdd := true } }
     s.Inv ∧ s.ppu.scanline = 261 ∧ s.ppu.dot = 340 ∧ (s.ppu.rendering && s.ppu.frameOdd) = true) := by
  and_intros <;> decide

theorem witness_FramePublished :
    ((ppuAt 240 0).Inv ∧ (ppuAt 240 0).ppu.scanline = 240 ∧ (ppuAt 240 0).ppu.dot = 0 ∧
      ((ppuAt 240 0).ppu.work.read 239 255).extractLsb' 6 3 = 0) ∧
    ((ppuAt 240 1).Inv ∧ (ppuAt 240 1).ppu.dot ≠ 0) ∧ ((ppuAt 239 0).Inv ∧ (ppuAt 239 0).ppu.scanline ≠ 240) := by
  and_intros <;> decide

theorem witness_BanksInRange : 0 < 0x4000 ∧ 0x4000 % 0x4000 = 0 ∧ 0 < 0x2000 ∧ 0x2000 % 0x2000 = 0 := by decide

/-- A reset write in the middle of a group, five writes that load, and the banks of each PRG and CHR mode at the edges. -/
theorem witness_Mmc1Serial :
    ({ Mmc1.reset with writeN := 4 } : Mmc1).writeN = 4 ∧ (0x80 : Byte).getLsbD 7 = true ∧
    ({ Mmc1.reset with writeN := 3 } : Mmc1).writeN < 4 ∧ (0x7F : Byte).getLsbD 7 = false ∧
    Mmc1.reset.writeN = 0 ∧ (∀ w ∈ [(0x00 : Byte), 0x01, 0x7F, 0x00, 0x01], w.getLsbD 7 = false) ∧
    (∀ control ∈ [(0x00 : BitVec 5), 0x08, 0x0C, 0x10], (withMapper (.mmc1 { Mmc1.reset with control := control })).Inv) ∧
    0x8000 ≤ (0x8000 : Addr).toNat ∧ 0x8000 ≤ (0xFFFF : Addr).toNat ∧ 0x1FFF < 0x2000 := by
  decide

/-- MMC3 with the IRQ enabled and a period, in both PRG modes and both CHR modes. -/
def mmc3 (select : Byte) : Mmc3 := { Mmc3.reset .horizontal with bankSelect := select, irqEnabled := true, irqPeriod := 3 }

theorem witness_Mmc3Irq :
    (withMapper (.mmc3 (mmc3 0))).mapper = .mmc3 (mmc3 0) ∧ (withMapper (.mmc3 (mmc3 0))).Inv ∧ (mmc3 0).irqCounter = 0 ∧
    (mmc3 0).irqEnabled = true ∧ 3 ≤ (mmc3 0).irqPeriod.toNat := by decide +kernel

theorem witness_Mmc3Irq_modes : (withMapper (.mmc3 (mmc3 0x40))).Inv ∧ (withMapper (.mmc3 (mmc3 0x80))).Inv := by
  constructor <;> decide +kernel

/-- Dot 260 of the first and last lines that count, and of those beside them that do not. -/
theorem witness_Mmc3Irq_lines :
    ∀ line ∈ [0, 239, 240, 260, 261], ({ withMapper (.mmc3 (mmc3 0)) with ppu := (ppuAt line 260).ppu } : State).Inv := by
  decide +kernel

/-- The first even and the last odd address of each range: no address lies in two. -/
theorem witness_Mmc3Irq_addresses :
    (0x8000 ≤ (0x8000 : Addr).toNat ∧ (0x8000 : Addr).toNat % 2 = 0 ∧ (0x9FFF : Addr).toNat < 0xA000 ∧ (0x9FFF : Addr).toNat % 2 = 1) ∧
    (0xA000 ≤ (0xA000 : Addr).toNat ∧ (0xA000 : Addr).toNat % 2 = 0 ∧ (0xBFFF : Addr).toNat < 0xC000 ∧ (0xBFFF : Addr).toNat % 2 = 1) ∧
    (0xC000 ≤ (0xC000 : Addr).toNat ∧ (0xC000 : Addr).toNat % 2 = 0 ∧ (0xDFFF : Addr).toNat < 0xE000 ∧ (0xDFFF : Addr).toNat % 2 = 1) ∧
    (0xE000 ≤ (0xE000 : Addr).toNat ∧ (0xE000 : Addr).toNat % 2 = 0 ∧ (0xFFFF : Addr).toNat % 2 = 1) := by decide

theorem witness_SimpleMapperReads :
    (State.reset.Inv ∧ State.reset.mapper = .nrom) ∧ ((withMapper (.unrom 7)).Inv ∧ (withMapper (.unrom 7)).mapper = .unrom 7) ∧
    ((withMapper (.axrom 7)).Inv ∧ (withMapper (.axrom 7)).mapper = .axrom 7) ∧
    0x8000 ≤ (0x8000 : Addr).toNat ∧ (0xBFFF : Addr).toNat < 0xC000 ∧ 0xC000 ≤ (0xC000 : Addr).toNat := by
  and_intros <;> decide

/-- A complete image of one 16 KB bank with CHR-RAM, for a mapper number. -/
def image (number : Byte) : List Byte :=
  ([0x4E, 0x45, 0x53, 0x1A, 1, 0, number <<< 4, number &&& 0xF0, 0, 0, 0, 0, 0, 0, 0, 0] : List Byte) ++ List.replicate 16384 0

/-- The image is as long as its header says, with a number that is supported (7) and one that is not (3); one byte less is
short. -/
theorem witness_LoadAndPowerOn :
    (image 7).length = 16 + 1 * 16384 + 0 * 8192 ∧ (image 7).getD 4 0 = 1 ∧ (image 7).getD 5 0 = 0 ∧
    ((image 7).getD 7 0).toNat / 16 * 16 + ((image 7).getD 6 0).toNat / 16 = 7 ∧
    ((image 3).getD 7 0).toNat / 16 * 16 + ((image 3).getD 6 0).toNat / 16 = 3 ∧
    ((image 7).drop 1).length < 16 + 1 * 16384 := by
  refine ⟨?_, rfl, rfl, rfl, rfl, ?_⟩
  · simp only [image, List.length_append, List.length_cons, List.length_nil, List.length_replicate]
  · simp only [image, List.length_drop, List.length_append, List.length_cons, List.length_nil, List.length_replicate]
    decide

/-- Two machines of one kind; a file of another kind; an empty file, shorter than any snapshot. -/
theorem witness_SnapshotRoundTrip :
    let s := State.reset
    let u := { base with a := 0x55 }
    (s.Inv ∧ u.Inv ∧ s.run = .running ∧ u.run = .running ∧ s.cycleCount < 2 ^ 64 ∧ u.cartKind = s.cartKind ∧
      s.cart.prgRamSize < 2 ^ 64 ∧ s.cart.chrSize < 2 ^ 64) ∧
    (withMapper (.axrom 0)).cartKind ≠ u.cartKind ∧ ([] : List Byte).length < 2065 + 2369 := by
  and_intros <;> decide

end Sys2Proof.Tests
end

section
/-! SUPPORT. The beam of the PPU (R450, R451, R453): where a dot leads, and that two frames of dots are one turn of the beam and
the frame's parity. -/

namespace Sys2Proof.Machine

/-! ## Where a dot leads -/

/-- The work of a dot keeps the scanline and the parity, and moves the dot by the skip only. -/
theorem Ppu.dotWork_beam (p : Ppu) (b : PpuBus) :
    (p.dotWork b).scanline = p.scanline ∧ (p.dotWork b).frameOdd = p.frameOdd ∧
      (p.dotWork b).dot = if p.skips then p.dot + 1 else p.dot :=
  have ⟨hline, hdot⟩ := p.counters_dotWork b
  ⟨congrArg (fun l => l.1) hline, congrArg (fun l => l.2.2) hline, hdot⟩

theorem Ppu.skips_of_dot_ne {p : Ppu} (h : p.dot ≠ 340) : p.skips = false := by simp [Ppu.skips, h]

theorem Ppu.skips_of_not_rendering {p : Ppu} (h : p.rendering = false) : p.skips = false := by simp [Ppu.skips, h]

theorem Ppu.dotStep_of_lt {p : Ppu} (b : PpuBus) (h : p.dot < 340) :
    (p.dotStep b).scanline = p.scanline ∧ (p.dotStep b).dot = p.dot + 1 ∧ (p.dotStep b).frameOdd = p.frameOdd := by
  obtain ⟨hline, hodd, hdot⟩ := p.dotWork_beam b
  rw [Ppu.skips_of_dot_ne (by omega), if_neg Bool.false_ne_true] at hdot
  rw [Ppu.dotStep, Ppu.advance, if_neg (by omega)]
  exact ⟨hline, congrArg (· + 1) hdot, hodd⟩

theorem Ppu.dotStep_of_last {p : Ppu} (b : PpuBus) (h : p.dot = 340) :
    (p.dotStep b).scanline = nextScanline p.scanline ∧ (p.dotStep b).dot = (if p.skips then 1 else 0) ∧
      (p.dotStep b).frameOdd = (if p.scanline + 1 > 261 then !p.frameOdd else p.frameOdd) ∧
      (p.dotStep b).phase = phaseOf (nextScanline p.scanline) := by
  obtain ⟨hline, hodd, hdot⟩ := p.dotWork_beam b
  have hwrap : ((p.dotWork b).dot + 1) % 341 = if p.skips then 1 else 0 := by rw [hdot, h]; split <;> rfl
  have hlast : (p.dotWork b).dot + 1 > 340 := by rw [hdot, h]; split <;> decide
  rw [Ppu.dotStep, Ppu.advance, if_pos hlast]
  simp only [hline, hodd, hwrap, and_self]

/-! ## The beam of a PPU that does not render -/

/-- The dot's place in a frame: 341 dots a scanline, 89342 a frame (R450). -/
def Ppu.place (p : Ppu) : Nat := p.scanline * 341 + p.dot

theorem Ppu.place_lt {p : Ppu} (h : p.Inv) : p.place < 89342 := by
  obtain ⟨⟨hs, hd, -⟩, -⟩ := h
  simp only [Config.scanlines, Config.dots] at hs hd
  simp only [Ppu.place]
  omega

theorem Ppu.eq_of_place_eq {p q : Ppu} (hp : p.Inv) (hq : q.Inv) (h : q.place = p.place) :
    q.scanline = p.scanline ∧ q.dot = p.dot := by
  obtain ⟨⟨-, hpd, -⟩, -⟩ := hp
  obtain ⟨⟨-, hqd, -⟩, -⟩ := hq
  simp only [Config.dots] at hpd hqd
  simp only [Ppu.place] at h
  omega

/-- The last place of a frame leads to the first one of a frame of the other parity, any other place to the next. -/
theorem Ppu.place_dotStep {p : Ppu} (b : PpuBus) (h : p.Inv) (hr : p.rendering = false) :
    (p.place = 89341 ∧ (p.dotStep b).place = 0 ∧ (p.dotStep b).frameOdd = !p.frameOdd) ∨
    (p.place < 89341 ∧ (p.dotStep b).place = p.place + 1 ∧ (p.dotStep b).frameOdd = p.frameOdd) := by
  obtain ⟨⟨hs, hd, -⟩, -⟩ := h
  simp only [Config.scanlines, Config.dots] at hs hd
  by_cases hlast : p.dot = 340
  · obtain ⟨hline, hdot, hodd, -⟩ := Ppu.dotStep_of_last b hlast
    rw [Ppu.skips_of_not_rendering hr, if_neg Bool.false_ne_true] at hdot
    simp only [Ppu.place, hline, hdot, hodd, nextScanline]
    by_cases hframe : p.scanline + 1 > 261
    · simp only [if_pos hframe, and_true]; omega
    · simp only [if_neg hframe, and_true]; omega
  · obtain ⟨hline, hdot, hodd⟩ := Ppu.dotStep_of_lt b (by omega : p.dot < 340)
    simp only [Ppu.place, hline, hdot, hodd, and_true]
    omega

/-- The dots since the start of the last even frame. -/
def Ppu.beam (p : Ppu) : Nat := (if p.frameOdd then 89342 else 0) + p.place

theorem Ppu.beam_dotStep {p : Ppu} (b : PpuBus) (h : p.Inv) (hr : p.rendering = false) :
    (p.dotStep b).beam = (p.beam + 1) % 178684 := by
  obtain ⟨hlast, hfirst, hodd⟩ | ⟨hlt, hnext, hodd⟩ := Ppu.place_dotStep b h hr
  · cases hp : p.frameOdd <;> simp [Ppu.beam, hlast, hfirst, hodd, hp]
  · simp only [Ppu.beam, hnext, hodd]
    split <;> omega

@[simp] theorem ppuDot_rendering (s : State) : (ppuDot s).ppu.rendering = s.ppu.rendering := by
  have hmask : (ppuDot s).ppu.mask = s.ppu.mask := congrArg PpuKept.mask (ppuDot_kept s)
  simp only [Ppu.rendering, hmask]

theorem State.ppu_inv {s : State} (h : s.Inv) : s.ppu.Inv := h.2.1

/-- Dots of a machine that does not render keep its invariant and move the beam on, one place each. -/
theorem ppuDot_iterate {s : State} (h : s.Inv) (hr : s.ppu.rendering = false) (n : Nat) :
    (ppuDot^[n] s).Inv ∧ (ppuDot^[n] s).ppu.rendering = false ∧
      (ppuDot^[n] s).ppu.beam % 178684 = (s.ppu.beam + n) % 178684 := by
  induction n with
  | zero => exact ⟨h, hr, by rw [Function.iterate_zero_apply, Nat.add_zero]⟩
  | succ n ih =>
    obtain ⟨hinv, hoff, hbeam⟩ := ih
    rw [Function.iterate_succ_apply']
    refine ⟨State.inv_ppuDot hinv, (ppuDot_rendering _).trans hoff, ?_⟩
    have hstep : (ppuDot (ppuDot^[n] s)).ppu.beam = ((ppuDot^[n] s).ppu.beam + 1) % 178684 :=
      Ppu.beam_dotStep _ (State.ppu_inv hinv) hoff
    omega

/-- Two PPUs half a turn of the beam apart stand at one place in frames of opposite parity. -/
theorem Ppu.beam_half_turn {p q : Ppu} (hp : p.Inv) (hq : q.Inv) (h : q.beam % 178684 = (p.beam + 89342) % 178684) :
    q.scanline = p.scanline ∧ q.dot = p.dot ∧ q.frameOdd = !p.frameOdd := by
  have hplt := Ppu.place_lt hp
  have hqlt := Ppu.place_lt hq
  have hodd : q.frameOdd = !p.frameOdd := by
    refine Bool.eq_not.mpr fun hsame => ?_
    simp only [Ppu.beam, hsame] at h
    omega
  have hplace : q.place = p.place := by
    cases hpo : p.frameOdd
    all_goals
      simp only [Ppu.beam, hodd, hpo, Bool.not_true, Bool.not_false, Bool.false_eq_true, if_true, if_false] at h
      omega
  obtain ⟨hline, hdot⟩ := Ppu.eq_of_place_eq hp hq hplace
  exact ⟨hline, hdot, hodd⟩

/-- Settles O53: the beam counts dots modulo two frames, so one frame of dots turns only the parity; the last dot of the
pre-render line is `Ppu.dotStep_of_last`. -/
theorem frameDots : Obligations.FrameDots := by
  intro s
  refine ⟨rfl, fun h hr => ?_, fun h hline hdot => ?_⟩
  · obtain ⟨hinv, -, hbeam⟩ := ppuDot_iterate h hr 89342
    exact Ppu.beam_half_turn (State.ppu_inv h) (State.ppu_inv hinv) hbeam
  · have hphase : s.ppu.phase = .preRender := by
      obtain ⟨⟨-, -, hp⟩, -⟩ := State.ppu_inv h
      rw [hp, hline]; rfl
    have hskip : s.ppu.skips = (s.ppu.rendering && s.ppu.frameOdd) := by simp [Ppu.skips, hphase, hdot]
    have hlast := Ppu.dotStep_of_last s.ppuBus hdot
    rw [hline, hskip] at hlast
    exact hlast

end Sys2Proof.Machine
end

section
/-! SUPPORT. What a step is made of, said once: an inductive relation of the state's elementary operations that every
instruction, interrupt sequence and fetch runs through, so that a fact about steps needs one case for each of them. -/

namespace Sys2Proof.Machine

/-- `t` comes out of `s` by CPU register changes, ticks, bus accesses, acknowledged NMIs and halts, in any number and
order (R11, R12, R15, R83, R611). -/
inductive Activity (s : State) : State → Prop
  | start : Activity s s
  | cpu {t : State} (c : State) : Activity s t → Activity s (c.withCpu t)
  | tick {t : State} : Activity s t → Activity s (tick t)
  | read {t : State} (a : Addr) : Activity s t → Activity s (busRead a t).2
  | write {t : State} (a : Addr) (v : Byte) : Activity s t → Activity s (busWrite a v t)
  | acknowledgeNmi {t : State} : Activity s t → Activity s { t with nmiFlag := false }
  | halt {t : State} (r : FatalReason) : Activity s t → Activity s (t.halt r)

namespace Activity

variable {s t : State}

/-! ## Register and flag writes -/

theorem setA (v : Byte) (h : Activity s t) : Activity s (t.setA v) := h.cpu (t.setA v)

theorem setX (v : Byte) (h : Activity s t) : Activity s (t.setX v) := h.cpu (t.setX v)

theorem setY (v : Byte) (h : Activity s t) : Activity s (t.setY v) := h.cpu (t.setY v)

theorem setSp (v : Byte) (h : Activity s t) : Activity s (t.setSp v) := h.cpu (t.setSp v)

theorem setP (v : Byte) (h : Activity s t) : Activity s (t.setP v) := h.cpu (t.setP v)

theorem setPc (v : Addr) (h : Activity s t) : Activity s (t.setPc v) := h.cpu (t.setPc v)

theorem setFlag (f : Flag) (b : Bool) (h : Activity s t) : Activity s (t.setFlag f b) := h.setP _

theorem setNZ (v : Byte) (h : Activity s t) : Activity s (t.setNZ v) := (h.setFlag _ _).setFlag _ _

theorem loadA (v : Byte) (h : Activity s t) : Activity s (Machine.loadA v t) := (h.setA v).setNZ v

theorem loadX (v : Byte) (h : Activity s t) : Activity s (Machine.loadX v t) := (h.setX v).setNZ v

theorem loadY (v : Byte) (h : Activity s t) : Activity s (Machine.loadY v t) := (h.setY v).setNZ v

theorem compareFlags (r v : Byte) (h : Activity s t) : Activity s (Machine.compareFlags r v t) := (h.setFlag _ _).setNZ _

theorem addWithCarry (v : Byte) (h : Activity s t) : Activity s (Machine.addWithCarry v t) :=
  (((h.setFlag _ _).setFlag _ _).setA _).setNZ _

theorem bitTest (v : Byte) (h : Activity s t) : Activity s (Machine.bitTest v t) :=
  ((h.setFlag _ _).setFlag _ _).setFlag _ _

/-- The shifts and rotates, which differ in the byte and in the bit shifted out (R260). -/
theorem shiftFlags (out : Bool) (r : Byte) (h : Activity s t) : Activity s (Machine.shiftFlags out r t).2 :=
  (h.setFlag _ _).setNZ _

/-! ## Timed accesses and ticks -/

theorem memRead (a : Addr) (h : Activity s t) : Activity s (Machine.memRead a t).2 := h.tick.read a

theorem memWrite (a : Addr) (v : Byte) (h : Activity s t) : Activity s (Machine.memWrite a v t) := h.tick.write a v

theorem ticks (n : Nat) (h : Activity s t) : Activity s (Machine.ticks n t) := by
  induction n generalizing t with
  | zero => exact h
  | succ n ih => exact ih h.tick

/-! ## Templates (R161) -/

theorem readOp (m : ReadOperand) (h : Activity s t) : Activity s (Machine.readOp m t).2 := by
  obtain ⟨v, -, -, e⟩ | ⟨a, n, -, e⟩ := readOp_cases m t <;> rw [e]
  · exact h
  · exact (h.ticks n).memRead a

theorem writeOp (m : WriteOperand) (v : Byte) (h : Activity s t) : Activity s (Machine.writeOp m v t) := by
  obtain ⟨n, e⟩ := writeAddr_ticks m t
  have hready : Activity s (writeAddr m t).2 := e ▸ h.ticks n
  exact hready.memWrite _ v

theorem rmwOp (m : RmwOperand) {f : Byte → State → Byte × State} (hf : ∀ v {u}, Activity s u → Activity s (f v u).2)
    (h : Activity s t) : Activity s (Machine.rmwOp m f t) := by
  obtain ⟨n, e⟩ := rmwAddr_ticks m t
  have hready : Activity s (rmwAddr m t).2 := e ▸ h.ticks n
  exact (hf _ (hready.memRead _).tick).memWrite _ _

theorem shiftOp (m : ShiftOperand) {f : Byte → State → Byte × State} (hf : ∀ v {u}, Activity s u → Activity s (f v u).2)
    (h : Activity s t) : Activity s (Machine.shiftOp m f t) := by
  cases m with
  | acc => exact (hf t.a h.tick).setA _
  | mem m => exact h.rmwOp m hf

/-! ## Stack, vectors and control flow (R14, R270, R611) -/

theorem push (v : Byte) (h : Activity s t) : Activity s (Machine.push v t) := (h.memWrite _ v).setSp _

theorem pull (h : Activity s t) : Activity s (Machine.pull t).2 := (h.setSp _).memRead _

theorem pushAddr (a : Addr) (h : Activity s t) : Activity s (Machine.pushAddr a t) := (h.push _).push _

theorem pullAddr (h : Activity s t) : Activity s (Machine.pullAddr t).2 := by
  rw [pullAddr_eq]; exact (h.ticks 2).setSp _

theorem loadVector (a : Addr) (h : Activity s t) : Activity s (Machine.loadVector a t) :=
  ((h.memRead a).memRead (a + 1)).setPc _

theorem interruptSave (k : InterruptKind) (h : Activity s t) : Activity s (Machine.interruptSave k t) := by
  cases k with
  | rst => exact ((h.ticks 3).setSp _).ticks 3
  | nmi | irq => exact (h.tick.tick.pushAddr _).push _
  | brk => exact (h.tick.pushAddr _).push _

theorem interrupt (k : InterruptKind) (h : Activity s t) : Activity s (Machine.interrupt k t) := by
  have hvector := ((h.interruptSave k).setFlag .interruptDisable true).loadVector k.vector
  rw [Machine.interrupt]
  split
  · exact hvector.acknowledgeNmi
  · exact hvector

theorem pollInterrupts (h : Activity s t) : Activity s (Machine.pollInterrupts t) := by
  unfold Machine.pollInterrupts
  split_ifs
  · exact h.interrupt .nmi
  · exact h.interrupt .irq
  · exact h

theorem returnFromInterrupt (h : Activity s t) : Activity s (Machine.returnFromInterrupt t) :=
  (h.pull.setP _).pullAddr.setPc _

theorem branch (cond : Bool) (off : Byte) (h : Activity s t) : Activity s (Machine.branch cond off t) := by
  cases cond with
  | false => exact h
  | true => rw [branch_taken]; exact (h.ticks _).setPc _

/-! ## Instructions, the fetch and the step (R162, R620) -/

/-- Every instruction answers a next state, which comes out of the state it runs in. -/
theorem exec (i : Instr) (h : Activity s t) : ∃ u, Machine.exec i t = .next u ∧ Activity s u := by
  cases i with
  | lda m | and m | ora m | eor m => exact ⟨_, rfl, (h.readOp m).loadA _⟩
  | ldx m => exact ⟨_, rfl, (h.readOp m).loadX _⟩
  | ldy m => exact ⟨_, rfl, (h.readOp m).loadY _⟩
  | lax m => exact ⟨_, rfl, ((h.readOp m).setA _).loadX _⟩
  | adc m | sbc m => exact ⟨_, rfl, (h.readOp m).addWithCarry _⟩
  | cmp m | cpx m | cpy m => exact ⟨_, rfl, (h.readOp m).compareFlags _ _⟩
  | bit m => exact ⟨_, rfl, (h.readOp m).bitTest _⟩
  | nopImmediate op v => exact ⟨_, rfl, h⟩
  | nopZeroPage op m | nopAbsolute op m => exact ⟨_, rfl, h.readOp m⟩
  | sta m | stx m | sty m | sax m => exact ⟨_, rfl, h.writeOp m _⟩
  | sya base | sxa base => exact ⟨_, rfl, h.tick.memWrite _ _⟩
  | inc m | dec m => exact ⟨_, rfl, h.rmwOp m fun _ _ hu => hu.setNZ _⟩
  | dcp m => exact ⟨_, rfl, h.rmwOp m fun _ _ hu => hu.compareFlags _ _⟩
  | isb m => exact ⟨_, rfl, h.rmwOp m fun _ _ hu => hu.addWithCarry _⟩
  | slo m | rla m | sre m => exact ⟨_, rfl, h.rmwOp m fun _ _ hu => (hu.shiftFlags _ _).loadA _⟩
  | rra m => exact ⟨_, rfl, h.rmwOp m fun _ _ hu => (hu.shiftFlags _ _).addWithCarry _⟩
  | asl m | lsr m | rol m | ror m => exact ⟨_, rfl, h.shiftOp m fun _ _ hu => hu.shiftFlags _ _⟩
  | txa | tya => exact ⟨_, rfl, h.tick.loadA _⟩
  | tax | tsx | inx | dex => exact ⟨_, rfl, h.tick.loadX _⟩
  | tay | iny | dey => exact ⟨_, rfl, h.tick.loadY _⟩
  | txs => exact ⟨_, rfl, h.tick.setSp _⟩
  | clc | sec | cli | sei | cld | sed | clv => exact ⟨_, rfl, h.tick.setFlag _ _⟩
  | nop | nopImplied op => exact ⟨_, rfl, h.tick⟩
  | aac op v => exact ⟨_, rfl, (h.loadA _).setFlag _ _⟩
  | asr v => exact ⟨_, rfl, (h.shiftFlags _ _).setA _⟩
  | arr v => exact ⟨_, rfl, ((h.loadA _).setFlag _ _).setFlag _ _⟩
  | atx v => exact ⟨_, rfl, (h.setA _).loadX _⟩
  | axs v => exact ⟨_, rfl, (h.setFlag _ _).loadX _⟩
  | sbcDuplicate v => exact ⟨_, rfl, h.addWithCarry _⟩
  | bcc off | bcs off | beq off | bne off | bmi off | bpl off | bvc off | bvs off => exact ⟨_, rfl, h.branch _ off⟩
  | jmp m =>
    cases m with
    | abs a => exact ⟨_, rfl, h.setPc a⟩
    | ind ptr => exact ⟨_, rfl, ((h.memRead _).memRead _).setPc _⟩
  | jsr target => exact ⟨_, rfl, ((h.tick.pushAddr _).memRead _).setPc _⟩
  | rts => exact ⟨_, rfl, h.tick.tick.pullAddr.tick.setPc _⟩
  | rti => exact ⟨_, rfl, h.tick.tick.returnFromInterrupt⟩
  | brk => exact ⟨_, rfl, (h.setPc _).interrupt .brk⟩
  | pha | php => exact ⟨_, rfl, h.tick.push _⟩
  | pla => exact ⟨_, rfl, h.tick.tick.pull.loadA _⟩
  | plp => exact ⟨_, rfl, h.tick.tick.pull.setP _⟩
  | undecodable op => exact ⟨_, rfl, h.halt _⟩

theorem fetchByte (h : Activity s t) : Activity s (Machine.fetchByte t).2 := (h.memRead _).setPc _

theorem fetchOperands (op : Byte) (h : Activity s t) : Activity s (Machine.fetchOperands op t).2 := by
  unfold Machine.fetchOperands
  split
  · exact h.fetchByte
  · split
    · exact h.fetchByte
    · exact h.fetchByte.fetchByte
    · exact h

theorem fetchInstruction (h : Activity s t) : Activity s (Machine.fetchInstruction t).2 := h.fetchByte.fetchOperands _

theorem executeInstruction {u : State} (h : Activity s t) (he : Machine.executeInstruction t = .next u) : Activity s u := by
  unfold Machine.executeInstruction at he
  dsimp only at he
  split at he
  case h_1 i rest hdecode =>
    obtain ⟨w, hexec, hw⟩ := h.fetchInstruction.exec i
    rw [hexec] at he
    exact Host.Outcome.next.inj he ▸ hw
  case h_2 => cases he

end Activity

/-- What a step can do: its next state comes out of the state before it by elementary operations. -/
theorem activity_of_step {s t : State} (h : step s = .next t) : Activity s t := by
  unfold step at h
  split at h
  case h_1 => exact (Activity.start.pollInterrupts).executeInstruction h
  all_goals cases h

end Sys2Proof.Machine
end

section
/-! SUPPORT. What every elementary operation keeps, and so every step: the invariant of the machine (R45) and what was
fixed when the cartridge was loaded (R50, R512). -/

namespace Sys2Proof.Machine

/-! ## The invariant -/

theorem State.inv_activity {s t : State} (hs : s.Inv) (h : Activity s t) : t.Inv := by
  induction h with
  | start => exact hs
  | cpu c _ ih => exact ih
  | tick _ ih => exact State.inv_tick ih
  | read a _ ih => exact State.inv_busRead a ih
  | write a v _ ih => exact State.inv_busWrite a v ih
  | acknowledgeNmi _ ih => exact ih
  | halt r _ ih => exact ih

/-- Settles O5: each elementary operation a step is made of keeps the invariant. -/
theorem stepKeepsInvariant : Obligations.StepKeepsInvariant :=
  fun _ _ hs h => State.inv_activity hs (activity_of_step h)

/-- Settles O6, by evaluating the invariant on the one state. -/
theorem resetInvariant : Obligations.ResetInvariant := by
  unfold Obligations.ResetInvariant
  decide

/-! ## The cartridge -/

theorem Mapper.hasNoPrgRam_eq_number (m : Mapper) : m.hasNoPrgRam = (m.number == 2 || m.number == 7) := by cases m <;> rfl

/-- What the load of the cartridge and the host fixed is as it was: what `Obligations.StepKeepsCartridge` says of a step,
as a relation that chains. -/
structure CartridgeKept (s t : State) : Prop where
  prg : t.cart.prg = s.cart.prg
  chrRom : s.cart.chrIsRam = false → t.cart.chr = s.cart.chr
  prgSize : t.cart.prgSize = s.cart.prgSize
  chrSize : t.cart.chrSize = s.cart.chrSize
  prgRamSize : t.cart.prgRamSize = s.cart.prgRamSize
  chrIsRam : t.cart.chrIsRam = s.cart.chrIsRam
  initialMirroring : t.cart.initialMirroring = s.cart.initialMirroring
  number : t.mapper.number = s.mapper.number
  noPrgRam : s.mapper.hasNoPrgRam = true → t.cart.prgRam = s.cart.prgRam
  hostInput : HostInputKept s t

/-- An operation that changes no byte of the cartridge but CHR-RAM. -/
theorem cartridgeKept_of_chr {s t : State} (hc : t.cart = { s.cart with chr := t.cart.chr })
    (hrom : s.cart.chrIsRam = false → t.cart.chr = s.cart.chr) (hn : t.mapper.number = s.mapper.number)
    (hh : HostInputKept s t) : CartridgeKept s t where
  prg := by rw [hc]
  chrRom := hrom
  prgSize := by rw [hc]
  chrSize := by rw [hc]
  prgRamSize := by rw [hc]
  chrIsRam := by rw [hc]
  initialMirroring := by rw [hc]
  number := hn
  noPrgRam _ := by rw [hc]
  hostInput := hh

/-- An operation that leaves the cartridge alone. -/
theorem cartridgeKept_of_cart {s t : State} (hc : t.cart = s.cart) (hn : t.mapper.number = s.mapper.number)
    (hh : HostInputKept s t) : CartridgeKept s t :=
  cartridgeKept_of_chr (by rw [hc]) (fun _ => by rw [hc]) hn hh

theorem cartridgeKept_refl (s : State) : CartridgeKept s s := cartridgeKept_of_cart rfl rfl ⟨rfl, rfl, rfl⟩

theorem cartridgeKept_trans {s t u : State} (h : CartridgeKept s t) (k : CartridgeKept t u) : CartridgeKept s u where
  prg := k.prg.trans h.prg
  chrRom hrom := (k.chrRom (h.chrIsRam.trans hrom)).trans (h.chrRom hrom)
  prgSize := k.prgSize.trans h.prgSize
  chrSize := k.chrSize.trans h.chrSize
  prgRamSize := k.prgRamSize.trans h.prgRamSize
  chrIsRam := k.chrIsRam.trans h.chrIsRam
  initialMirroring := k.initialMirroring.trans h.initialMirroring
  number := k.number.trans h.number
  noPrgRam hno := by
    have hno' : t.mapper.hasNoPrgRam = true := by
      rw [Mapper.hasNoPrgRam_eq_number, h.number, ← Mapper.hasNoPrgRam_eq_number, hno]
    exact (k.noPrgRam hno').trans (h.noPrgRam hno)
  hostInput := hostInputKept_trans h.hostInput k.hostInput

/-- Time and reads leave the cartridge alone. -/
theorem cartridgeKept_of_kept {s t : State} (hs : StorageKept s t) (hc : ControlsKept s t) : CartridgeKept s t := by
  obtain ⟨-, -, hcart, -⟩ := hs
  obtain ⟨-, ⟨-, -, hmapper⟩, hhost, -⟩ := hc
  exact cartridgeKept_of_cart hcart (Mapper.number_of_withoutCounter hmapper).1 hhost

/-! ### Writes, by the rows of the address map (R81) -/

/-- CHR-ROM takes no write (R516). -/
theorem ppuWrite_cart_of_rom (a : Nat) (v : Byte) {s : State} (h : s.cart.chrIsRam = false) :
    (ppuWrite a v s).cart = s.cart := by
  unfold ppuWrite chrWrite
  dsimp only
  split_ifs with h1 h2
  · rw [h] at h2; cases h2
  all_goals rfl

/-- A PPU register write reaches no byte of the cartridge but CHR-RAM. -/
theorem cartridgeKept_ppuRegWrite (n : PpuReg) (v : Byte) (s : State) : CartridgeKept s (ppuRegWrite n v s) := by
  have hhost : HostInputKept s (ppuRegWrite n v s) := ⟨by simp, by simp, by simp⟩
  by_cases hn : n = .data
  · subst hn
    have hcart : (ppuRegWrite .data v s).cart = (ppuWrite s.ppu.v.toNat v s).cart := rfl
    refine cartridgeKept_of_chr ?_ (fun hrom => ?_) (by rw [ppuRegWrite_mapper]) hhost
    · rw [hcart]; exact ppuWrite_cart_chr _ v s
    · rw [hcart, ppuWrite_cart_of_rom _ _ hrom]
  · exact cartridgeKept_of_cart (ppuRegWrite_cart n v s hn) (by rw [ppuRegWrite_mapper]) hhost

theorem cartridgeKept_dmaOam (page : Byte) (s : State) : CartridgeKept s (dmaOam page s) := by
  obtain ⟨-, -, -, -, -, -, -, ⟨-, -, hmapper⟩, hhost, -⟩ := dmaFrom_kept page 256 s
  exact cartridgeKept_of_cart (dmaFrom_cart page 256 s) (Mapper.number_of_withoutCounter hmapper).1 hhost

theorem cartridgeKept_ctlWrite (strobe : Bool) (s : State) : CartridgeKept s (ctlWrite strobe s) := by
  refine cartridgeKept_of_cart rfl rfl ?_
  unfold ctlWrite Controller.write
  dsimp only
  split <;> exact ⟨rfl, rfl, rfl⟩

theorem cartridgeKept_mapperRegisterWrite (a : Addr) (v : Byte) (s : State) :
    CartridgeKept s (mapperRegisterWrite a v s) := by
  unfold mapperRegisterWrite
  split <;> exact cartridgeKept_of_cart rfl (by simp [State.applyMapper, Mapper.number, *]) ⟨rfl, rfl, rfl⟩

theorem cartridgeKept_mapperWrite (a : Addr) (v : Byte) (s : State) : CartridgeKept s (mapperWrite a v s) := by
  unfold mapperWrite
  split_ifs with hlow hno
  · exact cartridgeKept_of_cart rfl rfl ⟨rfl, rfl, rfl⟩
  · exact ⟨rfl, fun _ => rfl, rfl, rfl, rfl, rfl, rfl, rfl, fun h => absurd h hno, ⟨rfl, rfl, rfl⟩⟩
  · exact cartridgeKept_mapperRegisterWrite a v s

theorem cartridgeKept_busWrite (a : Addr) (v : Byte) (s : State) : CartridgeKept s (busWrite a v s) := by
  unfold busWrite
  dsimp only
  split_ifs
  · exact cartridgeKept_of_cart rfl rfl ⟨rfl, rfl, rfl⟩
  · exact cartridgeKept_ppuRegWrite _ v s
  · exact cartridgeKept_refl s
  · exact cartridgeKept_dmaOam v s
  · exact cartridgeKept_ctlWrite _ s
  · exact cartridgeKept_refl s
  · exact cartridgeKept_of_cart rfl rfl ⟨rfl, rfl, rfl⟩
  · exact cartridgeKept_mapperWrite a v s

theorem cartridgeKept_activity {s t : State} (h : Activity s t) : CartridgeKept s t := by
  induction h with
  | start => exact cartridgeKept_refl s
  | cpu c _ ih => exact cartridgeKept_trans ih (cartridgeKept_of_cart rfl rfl ⟨rfl, rfl, rfl⟩)
  | tick _ ih => exact cartridgeKept_trans ih (cartridgeKept_of_kept (storageKept_tick _) (controlsKept_tick _))
  | read a _ ih => exact cartridgeKept_trans ih (cartridgeKept_of_kept (storageKept_busRead a _) (controlsKept_busRead a _))
  | write a v _ ih => exact cartridgeKept_trans ih (cartridgeKept_busWrite a v _)
  | acknowledgeNmi _ ih => exact cartridgeKept_trans ih (cartridgeKept_of_cart rfl rfl ⟨rfl, rfl, rfl⟩)
  | halt r _ ih => exact cartridgeKept_trans ih (cartridgeKept_of_cart rfl rfl ⟨rfl, rfl, rfl⟩)

/-- Settles O11: each elementary operation a step is made of keeps what the load of the cartridge and the host fixed. -/
theorem stepKeepsCartridge : Obligations.StepKeepsCartridge := by
  intro s t h
  have k := cartridgeKept_activity (activity_of_step h)
  exact ⟨k.prg, k.chrRom, ⟨k.prgSize, k.chrSize, k.prgRamSize, k.chrIsRam, k.initialMirroring⟩, k.number, k.noPrgRam,
    k.hostInput⟩

end Sys2Proof.Machine
end

section
/-! SUPPORT. The RST sequence (R612, R651). -/

namespace Sys2Proof.Machine

/-! ## Time does not depend on the CPU registers -/

theorem ticks_setSp (n : Nat) (v : Byte) (s : State) : ticks n (s.setSp v) = (ticks n s).setSp v := by
  induction n generalizing s with
  | zero => rfl
  | succ n ih => exact ih (tick s)

theorem ticks_setFlag (n : Nat) (f : Flag) (b : Bool) (s : State) : ticks n (s.setFlag f b) = (ticks n s).setFlag f b := by
  induction n generalizing s with
  | zero => rfl
  | succ n ih => exact ih (tick s)

/-- A memory address reads what it read before time passed and `SP` and a flag were written. -/
theorem peek_ticks_setSp_setFlag (n : Nat) (v : Byte) (f : Flag) (b : Bool) (s : State) {a : Addr} (h : isMemory a = true) :
    peek a (((ticks n s).setSp v).setFlag f b) = peek a s :=
  (peek_congr (s := ticks n s) rfl rfl rfl h).trans (peek_ticks n s h)

/-- The RST sequence: eight ticks and three register writes; the vector is read of the memory as it was (R611, R612). -/
theorem interrupt_rst_eq (s : State) : interrupt .rst s =
    (((ticks 8 s).setSp (s.sp - 3)).setFlag .interruptDisable true).setPc (addrOf (peek 0xFFFC s) (peek 0xFFFD s)) := by
  have hsave : interruptSave .rst s = (ticks 6 s).setSp (s.sp - 3) := by rw [interruptSave, ticks_setSp, ← ticks_add]
  rw [interrupt, if_neg (by decide), hsave, loadVector_eq, ticks_setFlag, ticks_setSp, ← ticks_add,
    peek_ticks_setSp_setFlag _ _ _ _ _ (isMemory_vector .rst).1, peek_ticks_setSp_setFlag _ _ _ _ _ (isMemory_vector .rst).2]
  rfl

theorem State.setPc_setFlag_setSp_eq_withCpu (v : Byte) (f : Flag) (b : Bool) (a : Addr) (s : State) :
    ((s.setSp v).setFlag f b).setPc a = (((s.setSp v).setFlag f b).setPc a).withCpu s := rfl

/-- What ticks and writes of `SP`, one flag and `PC` leave. -/
theorem setPc_setFlag_setSp_ticks_kept (n : Nat) (v : Byte) (f : Flag) (b : Bool) (a : Addr) (s : State) :
    let t := (((ticks n s).setSp v).setFlag f b).setPc a
    t.pc = a ∧ t.sp = v ∧ RegistersKept [.sp] s t ∧ t.flag f = b ∧ FlagsKept [f] s t ∧ Idled n s t := by
  refine ⟨rfl, rfl, registersKept_of ?_ ?_ ?_ ?_, by simp, flagsKept_of fun g => ?_, idled_of n _ _ ?_⟩
  case refine_5 =>
    by_cases hg : g = f
    · exact .inl (List.mem_singleton.2 hg)
    · exact .inr (by simp [hg, flag_of_p (ticks_p n s)])
  case refine_6 => exact State.setPc_setFlag_setSp_eq_withCpu v f b a (ticks n s)
  all_goals simp

/-- Settles O35, by the closed form of the RST sequence. -/
theorem resetOperation : Obligations.ResetOperation := by
  intro s hrun
  refine ⟨interrupt .rst s, by rw [reset, hrun], ?_⟩
  rw [interrupt_rst_eq]
  exact setPc_setFlag_setSp_ticks_kept 8 _ _ _ _ s

end Sys2Proof.Machine
end

section
/-! SUPPORT. The rows of the address map that answer the same byte or do the same write from every state (R84 to R89), and the
controller ports (R88, R562, R563): a latched port is read as a register that shifts right, a 1 entering at bit 7. -/

namespace Sys2Proof.Machine

/-! ## The rows of the address map -/

/-- A read of RAM is the byte there (R84). -/
theorem busRead_ramByte {a : Addr} (s : State) (h : a.toNat ≤ 0x1FFF) : busRead a s = (s.ram.read (a.toNat % 0x800), s) := by
  rw [busRead, if_pos h]

/-- A write of RAM is one byte (R84). -/
theorem busWrite_ramByte {a : Addr} (v : Byte) (s : State) (h : a.toNat ≤ 0x1FFF) :
    busWrite a v s = { s with ram := s.ram.write (a.toNat % 0x800) v } := by
  rw [busWrite, if_pos h]

/-- A PPU register is selected by the address modulo 8 (R85). -/
theorem PpuReg.ofAddr_congr {a b : Addr} (h : a.toNat % 8 = b.toNat % 8) : PpuReg.ofAddr a = PpuReg.ofAddr b := by
  rw [PpuReg.ofAddr, PpuReg.ofAddr, h]

theorem busRead_ppuReg {a : Addr} (s : State) (h : 0x2000 ≤ a.toNat ∧ a.toNat ≤ 0x3FFF) :
    busRead a s = ppuRegRead (.ofAddr a) s := by
  rw [busRead, if_neg (by omega), if_pos h.2]

theorem busWrite_ppuReg {a : Addr} (v : Byte) (s : State) (h : 0x2000 ≤ a.toNat ∧ a.toNat ≤ 0x3FFF) :
    busWrite a v s = ppuRegWrite (.ofAddr a) v s := by
  rw [busWrite, if_neg (by omega), if_pos h.2]

/-- The APU stub reads $FF (R86). -/
theorem busRead_apu {a : Addr} (s : State) (h : (0x4000 ≤ a.toNat ∧ a.toNat ≤ 0x4013) ∨ a = 0x4015) :
    busRead a s = (0xFF, s) := by
  rcases h with h | rfl
  · rw [busRead, if_neg (by omega), if_neg (by omega), if_pos (.inl h.2)]
  · rfl

/-- The APU stub ignores writes (R86). -/
theorem busWrite_apu {a : Addr} (v : Byte) (s : State) (h : (0x4000 ≤ a.toNat ∧ a.toNat ≤ 0x4013) ∨ a = 0x4015) :
    busWrite a v s = s := by
  rcases h with h | rfl
  · rw [busWrite, if_neg (by omega), if_neg (by omega), if_pos (.inl h.2)]
  · rfl

/-- The DMA register and the unmapped range read 0 (R87, R89). -/
theorem busRead_unmapped {a : Addr} (s : State) (h : a = 0x4014 ∨ (0x4018 ≤ a.toNat ∧ a.toNat ≤ 0x5FFF)) :
    busRead a s = (0, s) := by
  rcases h with rfl | h
  · rfl
  · rw [busRead, if_neg (by omega), if_neg (by omega), if_neg (by omega), if_neg (by omega), if_neg (by omega),
      if_neg (by omega), if_pos h.2]

/-- Settles O41, by the row each address lies in. -/
theorem addressMap : Obligations.AddressMap := by
  intro a b v s
  refine ⟨⟨rfl, rfl⟩, fun h => ⟨busRead_ramByte s h, busWrite_ramByte v s h⟩, fun ha hb hab => ?_,
    fun h => ⟨busRead_apu s h, busWrite_apu v s h⟩, fun h => busRead_unmapped s h, ?_⟩
  · rw [busRead_ppuReg s ha, busRead_ppuReg s hb, busWrite_ppuReg v s ha, busWrite_ppuReg v s hb, PpuReg.ofAddr_congr hab]
    exact ⟨rfl, rfl⟩
  · rintro rfl
    rfl

/-! ## The strobe (R562) -/

/-- The ports latch exactly where the strobe falls. -/
theorem Controller.write_eq (c : Controller) (strobe : Bool) : c.write strobe = { c with
    strobe := strobe
    shift0 := if c.strobe && !strobe then c.buttons0 else c.shift0
    shift1 := if c.strobe && !strobe then c.buttons1 else c.shift1 } := by
  unfold Controller.write
  split <;> rfl

theorem busWrite_strobe (v : Byte) (s : State) : busWrite 0x4016 v s = { s with ctl := s.ctl.write (v.getLsbD 0) } := rfl

/-- Raising the strobe latches nothing. -/
theorem busWrite_strobe_high {v : Byte} (s : State) (h : v.getLsbD 0 = true) :
    busWrite 0x4016 v s = { s with ctl := { s.ctl with strobe := true } } := by
  rw [busWrite_strobe, Controller.write_eq, h, Bool.not_true, Bool.and_false]
  rfl

/-- A strobe, up and down again, leaves the buttons in both shift registers. -/
theorem busWrite_strobe_high_low {high low : Byte} (s : State) (hhigh : high.getLsbD 0 = true) (hlow : low.getLsbD 0 = false) :
    busWrite 0x4016 low (busWrite 0x4016 high s) =
      { s with ctl := { s.ctl with strobe := false, shift0 := s.ctl.buttons0, shift1 := s.ctl.buttons1 } } := by
  rw [busWrite_strobe_high s hhigh, busWrite_strobe, Controller.write_eq, hlow]
  rfl

/-! ## Reads of a port (R563) -/

/-- The address a port is read at (R88). -/
def Port.addr : Port → Addr
  | .port0 => 0x4016
  | .port1 => 0x4017

theorem busRead_port (p : Port) (s : State) : busRead p.addr s = (s.ctl.peek p, { s with ctl := s.ctl.afterRead p }) := by
  cases p <;> rfl

/-- The byte a port answers, as a mask: the library's lemma with the mask a `Byte` literal. -/
theorem and_one_eq_bit_zero (v : Byte) : v &&& 1 = (BitVec.ofBool (v.getLsbD 0)).setWidth 8 :=
  BitVec.and_one_eq_setWidth_ofBool_getLsbD

theorem Controller.peek_of_strobe {c : Controller} (p : Port) (h : c.strobe = true) : c.peek p = c.buttons p &&& 1 := by
  rw [Controller.peek, if_pos h, and_one_eq_bit_zero]

theorem Controller.peek_of_not_strobe {c : Controller} (p : Port) (h : c.strobe = false) : c.peek p = c.shift p &&& 1 := by
  rw [Controller.peek, if_neg (by simp [h]), and_one_eq_bit_zero]

/-- While the strobe is high a port reads bit 0 of its buttons and nothing changes. -/
theorem busRead_port_of_strobe {s : State} (p : Port) (h : s.ctl.strobe = true) :
    busRead p.addr s = (s.ctl.buttons p &&& 1, s) := by
  rw [busRead_port, Controller.peek_of_strobe p h, Controller.afterRead, if_pos h]

/-- A shift register after one read of its port. -/
def shiftIn (v : Byte) : Byte := (v >>> 1) ||| 0x80

/-- After `n` reads the upper `n` bits are 1, and below them stand the bits not yet read. -/
theorem getLsbD_shiftIn_iterate (n : Nat) {k : Nat} (v : Byte) (hk : k < 8) :
    (shiftIn^[n] v).getLsbD k = (decide (8 ≤ k + n) || v.getLsbD (k + n)) := by
  induction n generalizing k with
  | zero => simp [hk]
  | succ n ih =>
    rw [Function.iterate_succ_apply', shiftIn, BitVec.getLsbD_or, BitVec.getLsbD_ushiftRight]
    by_cases h7 : k = 7
    · subst h7
      rw [decide_eq_true (show 8 ≤ 7 + (n + 1) by omega), Bool.true_or]
      exact Bool.or_true _
    · rw [ih (by omega)]
      have hbit : (0x80 : Byte).getLsbD k = false :=
        (by decide : ∀ k < 7, (0x80 : Byte).getLsbD k = false) k (by omega)
      rw [hbit, Bool.or_false, show 1 + k + n = k + (n + 1) by omega]

/-- Bit 0 after `n` reads: button `n`, and 1 when the eight are through. -/
theorem shiftIn_iterate_and_one (n : Nat) (v : Byte) : shiftIn^[n] v &&& 1 = if n < 8 then (v >>> n) &&& 1 else 1 := by
  rw [and_one_eq_bit_zero, getLsbD_shiftIn_iterate n v (by omega), Nat.zero_add]
  split
  next h => rw [decide_eq_false (by omega), Bool.false_or, and_one_eq_bit_zero, BitVec.getLsbD_ushiftRight, Nat.add_zero]
  next h =>
    rw [decide_eq_true (by omega), Bool.true_or]
    rfl

/-- While the strobe is low, reads of a port shift its register and change nothing else. -/
theorem busRead_port_iterate (p : Port) (n : Nat) {s : State} (h : s.ctl.strobe = false) :
    (fun u => (busRead p.addr u).2)^[n] s = { s with ctl := s.ctl.setShift p (shiftIn^[n] (s.ctl.shift p)) } := by
  induction n with
  | zero => cases p <;> rfl
  | succ n ih =>
    rw [Function.iterate_succ_apply', Function.iterate_succ_apply', ih, busRead_port]
    cases p <;> simp [Controller.afterRead, Controller.setShift, Controller.shift, shiftIn, h]

/-- The read of a port after `n` reads of it, the strobe low throughout. -/
theorem busRead_port_after_iterate (p : Port) (n : Nat) {s : State} (h : s.ctl.strobe = false) :
    (busRead p.addr ((fun u => (busRead p.addr u).2)^[n] s)).1 = if n < 8 then (s.ctl.shift p >>> n) &&& 1 else 1 := by
  rw [busRead_port_iterate p n h, busRead_port, ← shiftIn_iterate_and_one]
  cases p <;> exact Controller.peek_of_not_strobe _ h

/-- Settles O43, by the controller after a strobe and the shift register after `n` reads. -/
theorem controllerReads : Obligations.ControllerReads := by
  intro high low v s hhigh hlow held latched falls next
  have hheld : held = { s with ctl := { s.ctl with strobe := true } } := busWrite_strobe_high s hhigh
  have hlatched : latched = { s with ctl := { s.ctl with
      strobe := false, shift0 := s.ctl.buttons0, shift1 := s.ctl.buttons1 } } := busWrite_strobe_high_low s hhigh hlow
  rw [hheld, hlatched, busWrite_strobe, Controller.write_eq]
  exact ⟨rfl,
    fun n => busRead_port_after_iterate .port0 n rfl,
    fun n => busRead_port_after_iterate .port1 n rfl,
    busRead_port_of_strobe .port0 rfl,
    busRead_port_of_strobe .port1 rfl,
    fun n => congrArg (·.ctl.shift1) (busRead_port_iterate .port0 n rfl),
    fun n => congrArg (·.ctl.shift0) (busRead_port_iterate .port1 n rfl)⟩

end Sys2Proof.Machine
end

section
/-! SUPPORT. The encoding (R130, R131, R142, R162): what a cell of the opcode map makes of operand bytes, that the decoder
answers exactly that, and that the map and the encoding tables of the instructions say the same. -/

namespace Sys2Proof

/-! ## The cells of the opcode map -/

/-- The instruction a cell builds, of the operand byte `n` (F2) or the 16-bit operand `a` (F3); F1 uses neither (R130). -/
def Layout.instr (n : Byte) (a : Addr) : Layout → Instr
  | .f1 i => i
  | .f2 build => build n
  | .f3 build => build a

/-- The operand bytes a cell reads that instruction from. -/
def Layout.operand (n : Byte) (a : Addr) : Layout → List Byte
  | .f1 _ => []
  | .f2 _ => [n]
  | .f3 _ => addrBytes a

theorem instrLength_eq (op n : Byte) (a : Addr) : instrLength op = ((layoutOf op).operand n a).length + 1 := by
  rw [instrLength]
  cases layoutOf op <;> rfl

/-! ## Byte order (R91, R132) -/

@[simp] theorem addrOf_lowByte_highByte (a : Addr) : addrOf (lowByte a) (highByte a) = a := by
  rw [addrOf, lowByte, highByte, BitVec.extractLsb'_append_extractLsb'_eq_extractLsb' (by decide)]
  exact BitVec.extractLsb'_eq_self

@[simp] theorem addrBytes_addrOf (l h : Byte) : addrBytes (addrOf l h) = [l, h] := by
  rw [addrBytes, addrOf, lowByte, highByte, BitVec.extractLsb'_append_eq_right, BitVec.extractLsb'_append_eq_left]

/-! ## The decoder -/

/-- The decoder answers the instruction of the opcode byte's cell, whatever bytes follow. -/
theorem decode_operand (op n : Byte) (a : Addr) (rest : List Byte) :
    decode (op :: ((layoutOf op).operand n a ++ rest)) = .ok ((layoutOf op).instr n a) rest := by
  unfold decode
  dsimp only
  generalize layoutOf op = l
  cases l with
  | f1 i => rfl
  | f2 build => rfl
  | f3 build => exact congrArg (fun b => DecodeResult.ok (build b) rest) (addrOf_lowByte_highByte a)

/-- The decoder answers nothing else. -/
theorem exists_operand_of_decode {bytes rest : List Byte} {i : Instr} (h : decode bytes = .ok i rest) :
    ∃ op n a, bytes = op :: ((layoutOf op).operand n a ++ rest) ∧ i = (layoutOf op).instr n a := by
  unfold decode at h
  split at h
  case h_1 => cases h
  case h_2 op tail =>
    refine ⟨op, ?_⟩
    generalize layoutOf op = l at h
    split at h
    case h_1 i tail =>
      cases h
      exact ⟨0, 0, rfl, rfl⟩
    case h_2 build n tail =>
      cases h
      exact ⟨n, 0, rfl, rfl⟩
    case h_3 build lo hi tail =>
      cases h
      exact ⟨0, addrOf lo hi, by simp [Layout.operand], rfl⟩
    all_goals cases h

/-- Past the opcode byte, only missing operand bytes reject (R131, R163). -/
theorem decode_cons_rejected_iff (op : Byte) (tail : List Byte) :
    (∃ e, decode (op :: tail) = .rejected e) ↔ tail.length + 1 < instrLength op := by
  unfold decode instrLength
  dsimp only
  generalize layoutOf op = l
  cases l with
  | f1 i => simp
  | f2 build =>
    cases tail with
    | nil => simp
    | cons n tail => simp
  | f3 build =>
    match tail with
    | [] => simp
    | [lo] => simp
    | lo :: hi :: tail => simp

/-- Settles O3: the empty list is rejected, and any other exactly where its operand bytes are missing. -/
theorem onlyShortBytesReject : Obligations.OnlyShortBytesReject := by
  intro bytes
  cases bytes with
  | nil => exact ⟨fun _ _ _ h => (List.cons_ne_nil _ _ h.symm).elim, fun _ => ⟨_, rfl⟩⟩
  | cons op tail =>
    rw [decode_cons_rejected_iff]
    constructor
    · intro h op' tail' he
      obtain ⟨rfl, rfl⟩ := List.cons.inj he
      exact h
    · intro h
      exact h op tail rfl

/-! ## The map and the encoder -/

/-- Whatever its operand, a cell's instruction is well-formed, and its encoding table gives it the cell's opcode byte and the
operand bytes it was read from: one goal for each opcode byte. -/
theorem instr_encoding (op n : Byte) (a : Addr) :
    ((layoutOf op).instr n a).wf = true ∧ opcodeOf ((layoutOf op).instr n a) = some op ∧
      operandBytes ((layoutOf op).instr n a) = (layoutOf op).operand n a := by
  obtain ⟨k, hk, rfl⟩ : ∃ k < 256, op = BitVec.ofNat 8 k := ⟨op.toNat, op.isLt, by simp⟩
  interval_cases k
  all_goals exact ⟨rfl, rfl, rfl⟩

/-- The encoding of a cell's instruction is the opcode byte and the operand bytes it was read from. -/
theorem encode_instr (op n : Byte) (a : Addr) :
    encode ((layoutOf op).instr n a) = some (op :: (layoutOf op).operand n a) := by
  obtain ⟨-, hop, hbytes⟩ := instr_encoding op n a
  rw [encode, hop, hbytes, Option.map_some]

/-- Settles O2: what decodes is the instruction of a cell, whose encoding is the bytes read. -/
theorem encodeDecode : Obligations.EncodeDecode := by
  intro bytes rest i h
  obtain ⟨op, n, a, rfl, rfl⟩ := exists_operand_of_decode h
  obtain ⟨hwf, -, -⟩ := instr_encoding op n a
  exact ⟨hwf, _, encode_instr op n a, rfl⟩

/-- `i` stands in the opcode map: in the cell of the opcode byte that its encoding table gives it. -/
def Instr.InMap (i : Instr) : Prop := ∃ op n a, opcodeOf i = some op ∧ i = (layoutOf op).instr n a

/-- Every well-formed instruction stands in the opcode map. -/
theorem inMap_of_wf (i : Instr) (h : i.wf = true) : i.InMap := by
  cases i with
  | lda m | adc m | sbc m | and m | ora m | eor m | cmp m =>
    cases m with
    | zpy z => cases h
    | imm n | zp n | zpx n | izx n | izy n => exact ⟨_, n, 0, rfl, rfl⟩
    | abs a | abx a | aby a => exact ⟨_, 0, a, rfl, rfl⟩
  | ldx m =>
    cases m with
    | zpx _ | abx _ | izx _ | izy _ => cases h
    | imm n | zp n | zpy n => exact ⟨_, n, 0, rfl, rfl⟩
    | abs a | aby a => exact ⟨_, 0, a, rfl, rfl⟩
  | ldy m =>
    cases m with
    | zpy _ | aby _ | izx _ | izy _ => cases h
    | imm n | zp n | zpx n => exact ⟨_, n, 0, rfl, rfl⟩
    | abs a | abx a => exact ⟨_, 0, a, rfl, rfl⟩
  | cpx m | cpy m =>
    cases m with
    | zpx _ | zpy _ | abx _ | aby _ | izx _ | izy _ => cases h
    | imm n | zp n => exact ⟨_, n, 0, rfl, rfl⟩
    | abs a => exact ⟨_, 0, a, rfl, rfl⟩
  | bit m =>
    cases m with
    | imm _ | zpx _ | zpy _ | abx _ | aby _ | izx _ | izy _ => cases h
    | zp n => exact ⟨_, n, 0, rfl, rfl⟩
    | abs a => exact ⟨_, 0, a, rfl, rfl⟩
  | lax m =>
    cases m with
    | imm _ | zpx _ | abx _ => cases h
    | zp n | zpy n | izx n | izy n => exact ⟨_, n, 0, rfl, rfl⟩
    | abs a | aby a => exact ⟨_, 0, a, rfl, rfl⟩
  | sta m =>
    cases m with
    | zpy _ => cases h
    | zp n | zpx n | izx n | izye n => exact ⟨_, n, 0, rfl, rfl⟩
    | abs a | abxe a | abye a => exact ⟨_, 0, a, rfl, rfl⟩
  | stx m =>
    cases m with
    | zpx _ | abxe _ | abye _ | izx _ | izye _ => cases h
    | zp n | zpy n => exact ⟨_, n, 0, rfl, rfl⟩
    | abs a => exact ⟨_, 0, a, rfl, rfl⟩
  | sty m =>
    cases m with
    | zpy _ | abxe _ | abye _ | izx _ | izye _ => cases h
    | zp n | zpx n => exact ⟨_, n, 0, rfl, rfl⟩
    | abs a => exact ⟨_, 0, a, rfl, rfl⟩
  | sax m =>
    cases m with
    | zpx _ | abxe _ | abye _ | izye _ => cases h
    | zp n | zpy n | izx n => exact ⟨_, n, 0, rfl, rfl⟩
    | abs a => exact ⟨_, 0, a, rfl, rfl⟩
  | inc m | dec m =>
    cases m with
    | abye _ | izx _ | izye _ => cases h
    | zp n | zpx n => exact ⟨_, n, 0, rfl, rfl⟩
    | abs a | abxe a => exact ⟨_, 0, a, rfl, rfl⟩
  | asl m | lsr m | rol m | ror m =>
    cases m with
    | acc => exact ⟨_, 0, 0, rfl, rfl⟩
    | mem m =>
      cases m with
      | abye _ | izx _ | izye _ => cases h
      | zp n | zpx n => exact ⟨_, n, 0, rfl, rfl⟩
      | abs a | abxe a => exact ⟨_, 0, a, rfl, rfl⟩
  | dcp m | isb m | slo m | rla m | sre m | rra m =>
    cases m with
    | zp n | zpx n | izx n | izye n => exact ⟨_, n, 0, rfl, rfl⟩
    | abs a | abxe a | abye a => exact ⟨_, 0, a, rfl, rfl⟩
  | jmp m =>
    cases m with
    | abs a | ind a => exact ⟨_, 0, a, rfl, rfl⟩
  | jsr a | sya a | sxa a => exact ⟨_, 0, a, rfl, rfl⟩
  | bcc n | bcs n | beq n | bne n | bmi n | bpl n | bvc n | bvs n | asr n | arr n | atx n | axs n | sbcDuplicate n =>
    exact ⟨_, n, 0, rfl, rfl⟩
  | tax | tay | txa | tya | tsx | txs | inx | iny | dex | dey | rts | rti | brk | pha | php | pla | plp | clc | sec | cli | sei
  | cld | sed | clv | nop => exact ⟨_, 0, 0, rfl, rfl⟩
  | aac op n =>
    obtain rfl | rfl : op = 0x0B ∨ op = 0x2B := by simpa [Instr.wf] using h
    all_goals exact ⟨_, n, 0, rfl, rfl⟩
  | nopImplied op | undecodable op =>
    have hop := List.mem_of_elem_eq_true h
    fin_cases hop
    all_goals exact ⟨_, 0, 0, rfl, rfl⟩
  | nopImmediate op n =>
    have hop := List.mem_of_elem_eq_true h
    fin_cases hop
    all_goals exact ⟨_, n, 0, rfl, rfl⟩
  | nopZeroPage op m =>
    have hop := List.mem_of_elem_eq_true h
    cases m with
    | zp n | zpx n =>
      fin_cases hop
      all_goals exact ⟨_, n, 0, rfl, rfl⟩
    | imm _ | zpy _ | abs _ | abx _ | aby _ | izx _ | izy _ => cases h
  | nopAbsolute op m =>
    have hop := List.mem_of_elem_eq_true h
    cases m with
    | abs a | abx a =>
      fin_cases hop
      all_goals exact ⟨_, 0, a, rfl, rfl⟩
    | imm _ | zp _ | zpx _ | zpy _ | aby _ | izx _ | izy _ => cases h

/-- Settles O1: a well-formed instruction stands in the map, and the decoder answers the instruction of a cell from the bytes
that the encoder gives it. -/
theorem decodeEncode : Obligations.DecodeEncode := by
  intro i rest h
  obtain ⟨op, n, a, -, rfl⟩ := inMap_of_wf i h
  exact ⟨_, encode_instr op n a, decode_operand op n a rest⟩

end Sys2Proof
end

section
/-! SUPPORT. The fetch from memory (R101, R130, R131, R162): the bytes at `PC`, as many as the opcode byte's length. -/

namespace Sys2Proof.Machine

/-- The bytes read before an instruction's meaning runs: its length, but for `JSR`, which reads its third byte itself (R280). -/
def fetchLength (op : Byte) : Nat := if op = jsrOpcode then 2 else instrLength op

theorem fetchTicks_instr (op n : Byte) (a : Addr) : fetchTicks ((layoutOf op).instr n a) = fetchLength op := by
  obtain ⟨k, hk, rfl⟩ : ∃ k < 256, op = BitVec.ofNat 8 k := ⟨op.toNat, op.isLt, by simp⟩
  interval_cases k
  all_goals rfl

theorem instrLength_cases (op : Byte) : instrLength op = 1 ∨ instrLength op = 2 ∨ instrLength op = 3 := by
  unfold instrLength
  cases layoutOf op <;> simp

/-- A memory address reads what it read before time passed and `PC` moved. -/
theorem peek_ticks_setPc (k : Nat) (pc : Addr) (s : State) {a : Addr} (h : isMemory a = true) :
    peek a ((ticks k s).setPc pc) = peek a s :=
  (peek_congr (s := ticks k s) rfl rfl rfl h).trans (peek_ticks k s h)

/-- A fetch from memory, after `k` ticks, is the byte there and one more tick. -/
theorem fetchByte_ticks_setPc (k : Nat) (s : State) {a : Addr} (h : isMemory a = true) :
    fetchByte ((ticks k s).setPc a) = (peek a s, (ticks (k + 1) s).setPc (a + 1)) := by
  rw [fetchByte, State.setPc_pc, memRead_memory _ h, peek_ticks_setPc k a s h, ← tick_ticks]
  rfl

theorem fetchByte_memory (s : State) (h : isMemory s.pc = true) :
    fetchByte s = (peek s.pc s, (ticks 1 s).setPc (s.pc + 1)) :=
  fetchByte_ticks_setPc 0 s h

/-- The fetch where the three addresses from `PC` are memory: the bytes the opcode byte asks for, one tick each but for the
third byte of `JSR`, which is peeked. -/
theorem fetchInstruction_memory (s : State) (h0 : isMemory s.pc = true) (h1 : isMemory (s.pc + 1) = true)
    (h2 : isMemory (s.pc + 2) = true) : fetchInstruction s =
      ([peek s.pc s, peek (s.pc + 1) s, peek (s.pc + 2) s].take (instrLength (peek s.pc s)),
        (ticks (fetchLength (peek s.pc s)) s).setPc (s.pc + BitVec.ofNat 16 (fetchLength (peek s.pc s)))) := by
  have hpc : s.pc + 1 + 1 = s.pc + 2 := by rw [BitVec.add_assoc]; rfl
  have hpc3 : s.pc + 2 + 1 = s.pc + 3 := by rw [BitVec.add_assoc]; rfl
  rw [fetchInstruction, fetchByte_memory s h0]
  generalize peek s.pc s = op
  dsimp only
  rw [fetchOperands, fetchByte_ticks_setPc 1 s h1, hpc]
  dsimp only
  rw [fetchByte_ticks_setPc 2 s h2, hpc3, State.setPc_pc, fetchLength]
  by_cases hjsr : op = jsrOpcode
  · rw [if_pos hjsr, if_pos hjsr, peek_ticks_setPc 2 _ s h2, hjsr]
    rfl
  · rw [if_neg hjsr, if_neg hjsr]
    obtain h | h | h := instrLength_cases op
    all_goals
      rw [h]
      rfl

/-- The decoder reads no more bytes than the opcode byte's length (R131), and the instruction pays for those that are fetched. -/
theorem decode_take_instrLength {op : Byte} {tail rest : List Byte} {i : Instr} (h : decode (op :: tail) = .ok i rest) :
    decode ((op :: tail).take (instrLength op)) = .ok i [] ∧ fetchTicks i = fetchLength op := by
  obtain ⟨op', n, a, hbytes, rfl⟩ := exists_operand_of_decode h
  obtain ⟨rfl, rfl⟩ := List.cons.inj hbytes
  refine ⟨?_, fetchTicks_instr op n a⟩
  rw [instrLength_eq op n a, List.take_succ_cons, List.take_left, ← List.append_nil ((layoutOf op).operand n a)]
  exact decode_operand op n a []

theorem pollInterrupts_of_none {s : State} (hnmi : s.nmiFlag = false)
    (hirq : s.irqFlag = true → s.flag .interruptDisable = true) : pollInterrupts s = s := by
  have hmask : (s.irqFlag && !s.flag .interruptDisable) = false := by
    cases h : s.irqFlag with
    | false => rfl
    | true => rw [hirq h]; rfl
  rw [pollInterrupts, hnmi, hmask]
  rfl

/-- Settles O8, by the fetch from memory, of which the decoder reads what it reads of all three bytes. -/
theorem stepRunsDecoded : Obligations.StepRunsDecoded := by
  intro s i rest hrun hnmi hirq h0 h1 h2 hdecode
  obtain ⟨htake, hticks⟩ := decode_take_instrLength hdecode
  rw [step, hrun]
  dsimp only
  rw [pollInterrupts_of_none hnmi hirq, executeInstruction, fetchInstruction_memory s h0 h1 h2]
  dsimp only
  rw [htake, hticks]

end Sys2Proof.Machine
end

section
/-! SUPPORT. The operand addresses of the modes and the ticks before the access (R146 to R157). -/

namespace Sys2Proof.Machine

/-- The read of an operand that has an address. -/
theorem readOp_of_readTarget {m : ReadOperand} {s : State} {a : Addr} {n : Nat} (h : readTarget m s = some (a, n)) :
    readOp m s = memRead a (ticks n s) := by
  obtain ⟨v, -, hnone, -⟩ | ⟨b, k, hsome, hread⟩ := readOp_cases m s
  · rw [hnone] at h; cases h
  · rw [hsome] at h; cases h; exact hread

/-- Settles O15: the indexed and indirect reads by their targets, the indirect stores by the closed forms of their modes; every
other mode is its definition. -/
theorem operandAddresses : Obligations.OperandAddresses := by
  intro m w r s
  refine ⟨?imm, ?zp, ?zpx, ?zpy, ?abs, ?abx, ?aby, ?izx, ?izy,
    ?writeZp, ?writeZpx, ?writeZpy, ?writeAbs, ?writeAbxe, ?writeAbye, ?writeIzx, ?writeIzye,
    ?rmwZp, ?rmwZpx, ?rmwAbs, ?rmwAbxe, ?rmwAbye, ?rmwIzx, ?rmwIzye⟩
  case abx | aby | izx | izy =>
    rintro operand rfl
    exact readOp_of_readTarget rfl
  case writeIzx | rmwIzx =>
    rintro z rfl
    exact addrIndexedIndirect_eq z s
  case writeIzye | rmwIzye =>
    rintro z rfl
    exact addrIndirectIndexedAlways_eq z s
  all_goals
    rintro operand rfl
    rfl

end Sys2Proof.Machine
end

section
/-! SUPPORT. Loads, stores and transfers (R200 to R211, R320, R321): what a load into a register changes of the CPU, whatever
time or reads come before it. `u = s.withCpu u` says that `u` has the CPU registers of `s`. -/

namespace Sys2Proof.Machine

/-- `SetNZ` writes `Z` and `N` alone (R10). -/
theorem flagsKept_setNZ (v : Byte) {s t : State} (h : t.p = s.p) : FlagsKept [.zero, .negative] s (t.setNZ v) := by
  intro f hf
  simp only [List.mem_cons, List.not_mem_nil, or_false, not_or] at hf
  obtain ⟨hz, hn⟩ := hf
  rw [State.flag_setNZ, if_neg hn, if_neg hz, flag_of_p h]

/-! ## The load of one register -/

section
variable (v : Byte) {s u : State} (h : u = s.withCpu u)
include h

theorem registersKept_loadA : RegistersKept [.a] s (loadA v u) := by
  rw [h]
  exact registersKept_of (.inl (List.mem_singleton_self _)) (.inr rfl) (.inr rfl) (.inr rfl)

theorem registersKept_loadX : RegistersKept [.x] s (loadX v u) := by
  rw [h]
  exact registersKept_of (.inr rfl) (.inl (List.mem_singleton_self _)) (.inr rfl) (.inr rfl)

theorem registersKept_loadY : RegistersKept [.y] s (loadY v u) := by
  rw [h]
  exact registersKept_of (.inr rfl) (.inr rfl) (.inl (List.mem_singleton_self _)) (.inr rfl)

theorem registersKept_loadX_setA : RegistersKept [.a, .x] s (loadX v (u.setA v)) := by
  rw [h]
  exact registersKept_of (.inl (by simp)) (.inl (by simp)) (.inr rfl) (.inr rfl)

end

/-! ## Settled statements -/

/-- Settles O16: a load of the byte its operand read gives, after a read that keeps the CPU registers. -/
theorem loadResults : Obligations.LoadResults := by
  intro m s v
  obtain ⟨hcpu, -, -⟩ := readOp_kept m s
  obtain ⟨-, -, -, -, hp, hpc⟩ := readOp_registers m s
  refine ⟨?lda, ?ldx, ?ldy, ?lax⟩
  case lda => exact ⟨_, rfl, rfl, hasNZ_loadA _ _, registersKept_loadA _ hcpu, flagsKept_setNZ _ hp, readOnly_of m s _ rfl hpc⟩
  case ldx => exact ⟨_, rfl, rfl, hasNZ_loadX _ _, registersKept_loadX _ hcpu, flagsKept_setNZ _ hp, readOnly_of m s _ rfl hpc⟩
  case ldy => exact ⟨_, rfl, rfl, hasNZ_loadY _ _, registersKept_loadY _ hcpu, flagsKept_setNZ _ hp, readOnly_of m s _ rfl hpc⟩
  case lax =>
    exact ⟨_, rfl, rfl, rfl, hasNZ_loadX _ _, registersKept_loadX_setA _ hcpu, flagsKept_setNZ _ hp, readOnly_of m s _ rfl hpc⟩

/-- Settles O17: each store is the write template of its register's value. -/
theorem storeResults : Obligations.StoreResults := by
  intro m s h a u
  exact ⟨⟨_, rfl, wrote_writeOp m s.a h⟩, ⟨_, rfl, wrote_writeOp m s.x h⟩, ⟨_, rfl, wrote_writeOp m s.y h⟩,
    ⟨_, rfl, wrote_writeOp m (s.a &&& s.x) h⟩⟩

/-- Settles O4: each word is an opcode byte and the operand bytes of its cell of the opcode map. -/
theorem sampleWordsDecode : Obligations.SampleWordsDecode :=
  ⟨decode_operand 0xB1 0x20 0 [0x55], decode_operand 0x9D 0 0x0300 [], decode_operand 0x6C 0 0x02FF [],
    decode_operand 0x00 0 0 [], decode_operand 0xD0 0x05 0 [], decode_operand 0xE6 0x10 0 [],
    decode_operand 0x3B 0 0x1234 [], decode_operand 0x02 0 0 []⟩

/-- Settles O19: a transfer is a tick, which keeps the CPU registers, and a load of the source; `TXS` writes `SP` alone. -/
theorem transferResults : Obligations.TransferResults := by
  intro s
  have hcpu : tick s = s.withCpu (tick s) := rfl
  refine ⟨⟨rfl, rfl, rfl, rfl, rfl, rfl⟩, ?tax, ?tay, ?txa, ?tya, ?tsx, ?txs⟩
  case tax | tsx =>
    exact ⟨_, rfl, rfl, hasNZ_loadX _ _, registersKept_loadX _ hcpu, flagsKept_setNZ _ rfl, rfl, idled_of 1 s _ rfl⟩
  case tay =>
    exact ⟨_, rfl, rfl, hasNZ_loadY _ _, registersKept_loadY _ hcpu, flagsKept_setNZ _ rfl, rfl, idled_of 1 s _ rfl⟩
  case txa | tya =>
    exact ⟨_, rfl, rfl, hasNZ_loadA _ _, registersKept_loadA _ hcpu, flagsKept_setNZ _ rfl, rfl, idled_of 1 s _ rfl⟩
  case txs =>
    exact ⟨_, rfl, rfl, registersKept_of (.inr rfl) (.inr rfl) (.inr rfl) (.inl (List.mem_singleton_self _)),
      fun _ _ => rfl, rfl, idled_of 1 s _ rfl⟩

end Sys2Proof.Machine
end

section
/-! SUPPORT. Arithmetic, logic, compare, increment and decrement (R230 to R247, R335): which registers and flags each shared
helper writes, whatever time or reads come before it. `u = s.withCpu u` says that `u` has the CPU registers of `s`. -/

namespace Sys2Proof.Machine

/-! ## Flags written one after another -/

theorem flagsKept_of_p {l : List Flag} {s t : State} (h : t.p = s.p) : FlagsKept l s t := fun f _ => flag_of_p h f

theorem flagsKept_setFlag {l : List Flag} {f : Flag} (b : Bool) {s t : State} (hf : f ∈ l) (h : FlagsKept l s t) :
    FlagsKept l s (t.setFlag f b) := by
  intro g hg
  have hgf : g ≠ f := fun e => hg (e ▸ hf)
  rw [State.flag_setFlag, if_neg hgf, h g hg]

/-- `AddWithCarry` writes `C`, `V`, `Z` and `N` alone (R230). -/
theorem flagsKept_addWithCarry (v : Byte) {s t : State} (h : t.p = s.p) :
    FlagsKept [.carry, .overflow, .zero, .negative] s (addWithCarry v t) :=
  flagsKept_setFlag _ (by decide) <| flagsKept_setFlag _ (by decide) <| flagsKept_setFlag _ (by decide) <|
    flagsKept_setFlag _ (by decide) (flagsKept_of_p h)

/-- `Compare` writes `C`, `Z` and `N` alone (R236). -/
theorem flagsKept_compareFlags (r v : Byte) {s t : State} (h : t.p = s.p) :
    FlagsKept [.carry, .zero, .negative] s (compareFlags r v t) :=
  flagsKept_setFlag _ (by decide) <| flagsKept_setFlag _ (by decide) <| flagsKept_setFlag _ (by decide) <|
    flagsKept_of_p h

/-- `BIT` writes `Z`, `V` and `N` alone (R240). -/
theorem flagsKept_bitTest (v : Byte) {s t : State} (h : t.p = s.p) :
    FlagsKept [.zero, .overflow, .negative] s (bitTest v t) :=
  flagsKept_setFlag _ (by decide) <| flagsKept_setFlag _ (by decide) <| flagsKept_setFlag _ (by decide) <|
    flagsKept_of_p h

/-! ## Registers -/

section
variable {s u : State} (h : u = s.withCpu u)
include h

/-- A state that differs from `u` in `P` alone. -/
theorem registersKept_setP (p : Byte) : RegistersKept [] s (u.setP p) := by
  rw [h]
  exact registersKept_of (.inr rfl) (.inr rfl) (.inr rfl) (.inr rfl)

theorem registersKept_addWithCarry (v : Byte) : RegistersKept [.a] s (addWithCarry v u) := by
  rw [h]
  exact registersKept_of (.inl (List.mem_singleton_self _)) (.inr rfl) (.inr rfl) (.inr rfl)

end

/-! ## Results -/

/-- The sum is that of the `A` and the carry of `s`, which time and reads leave. -/
theorem added_addWithCarry_of_kept (v : Byte) {s u : State} (ha : u.a = s.a) (hp : u.p = s.p) :
    Added s.a v (s.flag .carry) (addWithCarry v u) := by
  rw [← ha, ← flag_of_p hp]
  exact added_addWithCarry v u

theorem bitTest_flags (v : Byte) (s : State) : (bitTest v s).flag .zero = decide (s.a &&& v = 0) ∧
    (bitTest v s).flag .overflow = v.getLsbD 6 ∧ (bitTest v s).flag .negative = v.getLsbD 7 := by
  simp [bitTest]

theorem toNat_sub_one (b : Byte) : (b - 1).toNat = (b.toNat + 255) % 256 := by
  rw [BitVec.toNat_sub, Nat.add_comm]
  rfl

/-! ## Counting in memory (R241, R242) -/

/-- The function of a read-modify-write that makes a byte `g v` of the byte `v` read and sets `Z` and `N` from it. -/
def countByte (g : Byte → Byte) (v : Byte) (s : State) : Byte × State := (g v, s.setNZ (g v))

theorem increment_eq_countByte : increment = countByte (· + 1) := rfl

theorem decrement_eq_countByte : decrement = countByte (· - 1) := rfl

/-- `RmwOp(m, f)` with such an `f` writes `g v` back and changes `Z` and `N` alone. -/
theorem rmwOp_countByte (m : RmwOperand) (g : Byte → Byte) {s : State} (hi : s.Inv) :
    let a := (rmwAddr m s).1
    let r := g (memRead a (rmwAddr m s).2).1
    let t := rmwOp m (countByte g) s
    Wrote (rmwReady m s) a r s t ∧ HasNZ r t ∧ RegistersKept [] s t ∧ FlagsKept [.zero, .negative] s t ∧ t.pc = s.pc := by
  intro a r t
  obtain ⟨u, ⟨hua, hux, huy, husp, hup, hupc⟩, hwrote, hta, htx, hty, htsp, htp, htpc⟩ :=
    wrote_rmwOp m (countByte g) hi fun _ _ => rfl
  refine ⟨hwrote, hasNZ_of_p htp (hasNZ_setNZ r u), ?registers, ?flags, htpc.trans hupc⟩
  case registers =>
    exact registersKept_of (.inr (hta.trans hua)) (.inr (htx.trans hux)) (.inr (hty.trans huy)) (.inr (htsp.trans husp))
  case flags =>
    intro f hf
    rw [flag_of_p htp f]
    exact flagsKept_setNZ r hup f hf

/-! ## Settled statements -/

/-- Settles O20: each is the add path, on the operand or on its inverse, after a read that keeps `A` and the carry. -/
theorem addSubtractResults : Obligations.AddSubtractResults := by
  intro m n s v
  obtain ⟨hcpu, -, -⟩ := readOp_kept m s
  obtain ⟨ha, -, -, -, hp, hpc⟩ := readOp_registers m s
  refine ⟨?adc, ?sbc, ?sbcDuplicate⟩
  case adc =>
    exact ⟨_, rfl, added_addWithCarry_of_kept v ha hp, registersKept_addWithCarry hcpu v, flagsKept_addWithCarry v hp,
      readOnly_of m s _ rfl hpc⟩
  case sbc =>
    exact ⟨_, rfl, subtracted_of_added (added_addWithCarry_of_kept (~~~v) ha hp), registersKept_addWithCarry hcpu _,
      flagsKept_addWithCarry _ hp, readOnly_of m s _ rfl hpc⟩
  case sbcDuplicate =>
    exact ⟨_, rfl, subtracted_of_added (added_addWithCarry (~~~n) s), registersKept_addWithCarry rfl _,
      flagsKept_addWithCarry _ rfl, rfl, idled_of 0 s _ rfl⟩

/-- Settles O21: each is a load of the combined byte into `A`, after a read that keeps the CPU registers. -/
theorem logicResults : Obligations.LogicResults := by
  intro m s v
  obtain ⟨hcpu, -, -⟩ := readOp_kept m s
  obtain ⟨-, -, -, -, hp, hpc⟩ := readOp_registers m s
  refine ⟨?and, ?ora, ?eor⟩
  case and =>
    exact ⟨_, rfl, fun _ => BitVec.getLsbD_and, hasNZ_loadA _ _, registersKept_loadA _ hcpu, flagsKept_setNZ _ hp,
      readOnly_of m s _ rfl hpc⟩
  case ora =>
    exact ⟨_, rfl, fun _ => BitVec.getLsbD_or, hasNZ_loadA _ _, registersKept_loadA _ hcpu, flagsKept_setNZ _ hp,
      readOnly_of m s _ rfl hpc⟩
  case eor =>
    exact ⟨_, rfl, fun _ => BitVec.getLsbD_xor, hasNZ_loadA _ _, registersKept_loadA _ hcpu, flagsKept_setNZ _ hp,
      readOnly_of m s _ rfl hpc⟩

/-- Settles O22: each writes flags alone, after a read that keeps the CPU registers. -/
theorem compareAndBitResults : Obligations.CompareAndBitResults := by
  intro m s v
  obtain ⟨hcpu, -, -⟩ := readOp_kept m s
  obtain ⟨ha, -, -, -, hp, hpc⟩ := readOp_registers m s
  refine ⟨?cmp, ?cpx, ?cpy, ?bit⟩
  case cmp | cpx | cpy =>
    exact ⟨_, rfl, compared_compareFlags _ v _, registersKept_setP hcpu _, flagsKept_compareFlags _ v hp,
      readOnly_of m s _ rfl hpc⟩
  case bit =>
    obtain ⟨hz, hv, hn⟩ := bitTest_flags v (readOp m s).2
    rw [ha] at hz
    exact ⟨_, rfl, hz, hv, hn, registersKept_setP hcpu _, flagsKept_bitTest v hp, readOnly_of m s _ rfl hpc⟩

/-- Settles O24: `INC` and `DEC` are the read-modify-write template of the byte plus or minus one. -/
theorem memoryCountResults : Obligations.MemoryCountResults := by
  intro m s hi a v u
  exact ⟨⟨_, rfl, increment_eq_countByte ▸ rmwOp_countByte m (· + 1) hi⟩,
    ⟨_, rfl, decrement_eq_countByte ▸ rmwOp_countByte m (· - 1) hi⟩⟩

/-- Settles O23: a count is a tick, which keeps the CPU registers, and a load of the register plus or minus one. -/
theorem registerCountResults : Obligations.RegisterCountResults := by
  intro s
  have hcpu : tick s = s.withCpu (tick s) := rfl
  refine ⟨⟨rfl, rfl, rfl, rfl⟩, ?inx, ?iny, ?dex, ?dey⟩
  case inx =>
    exact ⟨_, rfl, BitVec.toNat_add _ _, hasNZ_loadX _ _, registersKept_loadX _ hcpu, flagsKept_setNZ _ rfl, rfl,
      idled_of 1 s _ rfl⟩
  case iny =>
    exact ⟨_, rfl, BitVec.toNat_add _ _, hasNZ_loadY _ _, registersKept_loadY _ hcpu, flagsKept_setNZ _ rfl, rfl,
      idled_of 1 s _ rfl⟩
  case dex =>
    exact ⟨_, rfl, toNat_sub_one _, hasNZ_loadX _ _, registersKept_loadX _ hcpu, flagsKept_setNZ _ rfl, rfl,
      idled_of 1 s _ rfl⟩
  case dey =>
    exact ⟨_, rfl, toNat_sub_one _, hasNZ_loadY _ _, registersKept_loadY _ hcpu, flagsKept_setNZ _ rfl, rfl,
      idled_of 1 s _ rfl⟩

end Sys2Proof.Machine
end

section
/-! SUPPORT. Shifts and rotates (R260 to R264): what a helper makes of a byte and of the carry, said on numbers, and what both
forms of an instruction make of such a helper. -/

namespace Sys2Proof.Machine

/-! ## The flags of a shift -/

@[simp] theorem shiftFlags_fst (out : Bool) (r : Byte) (s : State) : (shiftFlags out r s).1 = r := rfl

@[simp] theorem shiftFlags_snd (out : Bool) (r : Byte) (s : State) :
    (shiftFlags out r s).2 = (s.setFlag .carry out).setNZ r := rfl

theorem hasNZ_shiftFlags (out : Bool) (r : Byte) (s : State) : HasNZ r (shiftFlags out r s).2 := hasNZ_setNZ r _

theorem carry_shiftFlags (out : Bool) (r : Byte) (s : State) : (shiftFlags out r s).2.flag .carry = out := by simp

/-- A shift writes `C`, `Z` and `N` alone (R260). -/
theorem flagsKept_shiftFlags (out : Bool) (r : Byte) {s t : State} (h : t.p = s.p) :
    FlagsKept [.carry, .zero, .negative] s (shiftFlags out r t).2 :=
  flagsKept_setFlag _ (by decide) <| flagsKept_setFlag _ (by decide) <| flagsKept_setFlag _ (by decide) <|
    flagsKept_of_p h

/-! ## The four helpers (R260) -/

/-- The helper `f` makes the byte `g v c` of the byte `v` and the old carry `c`, and `out v` is the bit it shifts out. -/
def ShiftsByte (f : Byte → State → Byte × State) (g : Nat → Nat → Nat) (out : Nat → Prop) [DecidablePred out] : Prop :=
  ∀ (v : Byte) (s : State), ∃ r : Byte, f v s = shiftFlags (decide (out v.toNat)) r s ∧
    r.toNat = g v.toNat (s.flag .carry).toNat

theorem getLsbD_zero_eq_odd (v : Byte) : v.getLsbD 0 = decide (v.toNat % 2 = 1) := Nat.testBit_zero _

theorem toNat_shiftLeft_one (v : Byte) : (v <<< 1).toNat = 2 * v.toNat % 256 := by
  rw [BitVec.toNat_shiftLeft, Nat.shiftLeft_eq, Nat.mul_comm]

theorem toNat_shiftRight_one (v : Byte) : (v >>> 1).toNat = v.toNat / 2 := by
  rw [BitVec.toNat_ushiftRight, Nat.shiftRight_eq_div_pow]

theorem toNat_carryByte (c : Bool) : ((BitVec.ofBool c).setWidth 8 : Byte).toNat = c.toNat := by cases c <;> rfl

theorem toNat_carryByte_high (c : Bool) : ((BitVec.ofBool c).setWidth 8 <<< 7 : Byte).toNat = 128 * c.toNat := by
  cases c <;> rfl

/-- The carry enters at bit 0, which the shift left clear. -/
theorem toNat_rotateLeft (v : Byte) (c : Bool) :
    ((v <<< 1) ||| (BitVec.ofBool c).setWidth 8 : Byte).toNat = (2 * v.toNat + c.toNat) % 256 := by
  have hc : c.toNat < 2 ^ 1 := Bool.toNat_lt c
  have heven : 2 * v.toNat % 256 = 2 ^ 1 * (v.toNat % 128) := by omega
  rw [BitVec.toNat_or, toNat_shiftLeft_one, toNat_carryByte, heven, ← Nat.two_pow_add_eq_or_of_lt hc]
  omega

/-- The carry enters at bit 7, which the shift left clear. -/
theorem toNat_rotateRight (v : Byte) (c : Bool) :
    ((v >>> 1) ||| ((BitVec.ofBool c).setWidth 8 <<< 7) : Byte).toNat = v.toNat / 2 + 128 * c.toNat := by
  have hv : v.toNat / 2 < 2 ^ 7 := by have := v.isLt; omega
  rw [BitVec.toNat_or, toNat_shiftRight_one, toNat_carryByte_high, Nat.lor_comm, Nat.add_comm]
  exact (Nat.two_pow_add_eq_or_of_lt hv c.toNat).symm

theorem asl_shiftsByte : ShiftsByte asl (fun v _ => 2 * v % 256) (fun v => 128 ≤ v) := fun v s =>
  ⟨v <<< 1, by rw [asl, getLsbD_seven], toNat_shiftLeft_one v⟩

theorem lsr_shiftsByte : ShiftsByte lsr (fun v _ => v / 2) (fun v => v % 2 = 1) := fun v s =>
  ⟨v >>> 1, by rw [lsr, getLsbD_zero_eq_odd], toNat_shiftRight_one v⟩

theorem rol_shiftsByte : ShiftsByte rol (fun v c => (2 * v + c) % 256) (fun v => 128 ≤ v) := fun v s =>
  ⟨_, by rw [rol, getLsbD_seven], toNat_rotateLeft v (s.flag .carry)⟩

theorem ror_shiftsByte : ShiftsByte ror (fun v c => v / 2 + 128 * c) (fun v => v % 2 = 1) := fun v s =>
  ⟨_, by rw [ror, getLsbD_zero_eq_odd], toNat_rotateRight v (s.flag .carry)⟩

/-! ## The two forms (R161) -/

section
variable {f : Byte → State → Byte × State} {g : Nat → Nat → Nat} {out : Nat → Prop} [DecidablePred out]
  (hf : ShiftsByte f g out)
include hf

theorem ShiftsByte.cpuOnly (v : Byte) (s : State) : (f v s).2 = (f v s).2.withCpu s := by
  obtain ⟨r, hr, -⟩ := hf v s
  rw [hr]
  rfl

/-- On `A`: a tick, which keeps the CPU registers, the helper, and its byte into `A`. -/
theorem ShiftsByte.shiftOp_acc_results (s : State) :
    let t := shiftOp .acc f s
    t.a.toNat = g s.a.toNat (s.flag .carry).toNat ∧ HasNZ t.a t ∧ t.flag .carry = decide (out s.a.toNat) ∧
    RegistersKept [.a] s t ∧ FlagsKept [.carry, .zero, .negative] s t ∧ t.pc = s.pc ∧ Idled 1 s t := by
  obtain ⟨r, hr, hval⟩ := hf s.a (tick s)
  have ht : shiftOp .acc f s = (shiftFlags (decide (out s.a.toNat)) r (tick s)).2.setA r := by
    simp only [shiftOp, hr, shiftFlags_fst]
  dsimp only
  rw [ht]
  refine ⟨hval, hasNZ_shiftFlags _ r (tick s), carry_shiftFlags _ r (tick s), ?registers, ?flags, ?pc, idled_of 1 s _ rfl⟩
  case registers => apply registersKept_of <;> simp
  case flags => exact flagsKept_shiftFlags _ r (tick_p s)
  case pc => simp

/-- On memory: the helper's byte is written back, and the flags are those the helper leaves of the `P` of `s`. -/
theorem ShiftsByte.rmwOp_results (m : RmwOperand) {s : State} (hi : s.Inv) :
    let a := (rmwAddr m s).1
    let v := (memRead a (rmwAddr m s).2).1
    let t := rmwOp m f s
    ∃ r : Byte, r.toNat = g v.toNat (s.flag .carry).toNat ∧ Wrote (rmwReady m s) a r s t ∧ HasNZ r t ∧
      t.flag .carry = decide (out v.toNat) ∧ RegistersKept [] s t ∧ FlagsKept [.carry, .zero, .negative] s t ∧
      t.pc = s.pc := by
  intro a v t
  obtain ⟨u, ⟨hua, hux, huy, husp, hup, hupc⟩, hwrote, hta, htx, hty, htsp, htp, htpc⟩ := wrote_rmwOp m f hi hf.cpuOnly
  obtain ⟨r, hr, hval⟩ := hf v u
  rw [hr] at hwrote hta htx hty htsp htp htpc
  refine ⟨r, flag_of_p hup .carry ▸ hval, hwrote, hasNZ_of_p htp (hasNZ_shiftFlags _ r u), ?carry, ?registers, ?flags,
    htpc.trans hupc⟩
  case carry => exact (flag_of_p htp .carry).trans (carry_shiftFlags _ r u)
  case registers =>
    exact registersKept_of (.inr (hta.trans hua)) (.inr (htx.trans hux)) (.inr (hty.trans huy)) (.inr (htsp.trans husp))
  case flags => exact fun b hb => (flag_of_p htp b).trans (flagsKept_shiftFlags _ r hup b hb)

/-- An instruction that is the template of such a helper. -/
theorem ShiftsByte.shiftsAs {build : ShiftOperand → Instr}
    (hexec : ∀ m s, exec (build m) s = .next (shiftOp m f s)) : ShiftsAs build g out := by
  refine ⟨fun s => ⟨_, hexec .acc s, hf.shiftOp_acc_results s⟩, fun m s hi => ?_⟩
  obtain ⟨r, hval, hrest⟩ := hf.rmwOp_results m hi
  exact ⟨_, r, hexec (.mem m) s, hval, hrest⟩

end

/-! ## Settled statements -/

/-- Settles O25: each instruction is the read-modify-write template of its helper. -/
theorem shiftResults : Obligations.ShiftResults :=
  ⟨asl_shiftsByte.shiftsAs fun _ _ => rfl, lsr_shiftsByte.shiftsAs fun _ _ => rfl,
    rol_shiftsByte.shiftsAs fun _ _ => rfl, ror_shiftsByte.shiftsAs fun _ _ => rfl⟩

end Sys2Proof.Machine
end

section
/-! SUPPORT. Control flow (R270 to R282): each instruction as ticks and register writes, what a pull finds after a push, and the
ticks of every instruction (R675, R676). -/

namespace Sys2Proof.Machine

/-! ## Branches (R270) -/

/-- Ticks and a write of `PC` keep every register and flag. -/
theorem setPc_ticks_kept (a : Addr) (n : Nat) (s : State) :
    RegistersKept [] s ((ticks n s).setPc a) ∧ FlagsKept [] s ((ticks n s).setPc a) ∧ Idled n s ((ticks n s).setPc a) := by
  refine ⟨?_, flagsKept_of_p (ticks_p n s), idled_of n s _ rfl⟩
  apply registersKept_of <;> simp

/-- An instruction that is the branch helper on a condition. -/
theorem branchesOn_of {build : Byte → Instr} {cond : State → Bool}
    (hexec : ∀ off s, exec (build off) s = .next (branch (cond s) off s)) : BranchesOn build cond := by
  intro off s
  refine ⟨_, hexec off s, ?notTaken, ?taken⟩
  case notTaken =>
    intro h
    rw [h, branch_not_taken]
  case taken =>
    intro h
    rw [h, branch_taken]
    exact ⟨relativeTarget_toNat s.pc off, setPc_ticks_kept _ _ s⟩

/-- Settles O28: each instruction is the branch helper on its flag. -/
theorem branchResults : Obligations.BranchResults :=
  ⟨branchesOn_of fun _ _ => rfl, branchesOn_of fun _ _ => rfl, branchesOn_of fun _ _ => rfl, branchesOn_of fun _ _ => rfl,
    branchesOn_of fun _ _ => rfl, branchesOn_of fun _ _ => rfl, branchesOn_of fun _ _ => rfl, branchesOn_of fun _ _ => rfl⟩

/-! ## Jumps (R158, R279) -/

/-- The second byte of an indirect jump's pointer lies in the page of the first. -/
theorem addrOf_lowByte_succ (a : Addr) :
    addrOf (lowByte a + 1) (highByte a) = BitVec.ofNat 16 (a.toNat / 256 * 256 + (a.toNat + 1) % 256) := by
  have ha := a.isLt
  have hlow : (lowByte a + 1).toNat = (a.toNat + 1) % 256 := by simp [lowByte]
  have hhigh : (highByte a).toNat = a.toNat / 256 := by
    simp [highByte, Nat.shiftRight_eq_div_pow]
    omega
  apply BitVec.eq_of_toNat_eq
  rw [addrOf, BitVec.toNat_append, ← Nat.shiftLeft_add_eq_or_of_lt (BitVec.isLt _), hlow, hhigh, Nat.shiftLeft_eq,
    BitVec.toNat_ofNat]
  omega

/-- `Addr_IND` through memory: two ticks and the word (R158). -/
theorem addrIndirect_memory {ptr : Addr} (s : State) (h : isMemory ptr = true)
    (h' : isMemory (addrOf (lowByte ptr + 1) (highByte ptr)) = true) : addrIndirect ptr s =
      (addrOf (peek ptr s) (peek (addrOf (lowByte ptr + 1) (highByte ptr)) s), ticks 2 s) := by
  rw [addrIndirect, memRead_memory s h]
  dsimp only
  rw [memRead_memory _ h', peek_tick s h']
  rfl

/-- Wherever its pointer lies, an indirect jump is two reads and a write of `PC`. -/
theorem addrIndirect_kept (ptr a : Addr) (s : State) :
    let t := (addrIndirect ptr s).2.setPc a
    RegistersKept [] s t ∧ FlagsKept [] s t ∧ StorageKept s t ∧ ControlsKept s t := by
  refine ⟨?_, flagsKept_of_p ?_, storageKept_trans (storageKept_memRead ptr s) (storageKept_memRead _ _),
    controlsKept_trans (controlsKept_memRead ptr s) (controlsKept_memRead _ _)⟩
  · apply registersKept_of <;> simp [addrIndirect]
  · simp [addrIndirect]

/-- Settles O29: the direct jump writes `PC` alone, the indirect one after two reads. -/
theorem jumpResults : Obligations.JumpResults := by
  intro a s
  refine ⟨⟨s.setPc a, rfl, rfl, setPc_ticks_kept a 0 s⟩, ?indirect⟩
  obtain ⟨hregs, hflags, hstorage, hcontrols⟩ := addrIndirect_kept a (addrIndirect a s).1 s
  refine ⟨_, rfl, hregs, hflags, hstorage, hcontrols, ?_⟩
  dsimp only
  rw [← addrOf_lowByte_succ]
  intro h h'
  rw [addrIndirect_memory s h h']
  exact ⟨rfl, idled_of 2 s _ rfl⟩

/-! ## Subroutines (R280, R281) -/

@[simp] theorem push_a (v : Byte) (s : State) : (push v s).a = s.a := by rw [push_eq]; rfl
@[simp] theorem push_x (v : Byte) (s : State) : (push v s).x = s.x := by rw [push_eq]; rfl
@[simp] theorem push_y (v : Byte) (s : State) : (push v s).y = s.y := by rw [push_eq]; rfl
@[simp] theorem push_p (v : Byte) (s : State) : (push v s).p = s.p := by rw [push_eq]; rfl
@[simp] theorem push_cycleCount (v : Byte) (s : State) : (push v s).cycleCount = s.cycleCount + 1 := by rw [push_eq]; rfl

/-- The machine in which `JSR` reads its third byte: a tick and the two pushes of the return address (R280). -/
abbrev jsrPushed (s : State) : State := pushAddr s.pc (tick s)

theorem jsrPushed_sp (s : State) : (jsrPushed s).sp = s.sp - 2 := by
  rw [jsrPushed, pushAddr, push_sp, push_sp, tick_sp, (sp_sub s.sp).1]

/-- `JSR` stores the return address alone, wherever its third byte lies. -/
theorem stored_jsr (target : Addr) {s : State} (hi : s.Inv) :
    Stored [(stackAddr s.sp, highByte s.pc), (stackAddr (s.sp - 1), lowByte s.pc)] s
      ((memRead s.pc (jsrPushed s)).2.setPc target) := by
  have hram : (tick s).ram.wf = true := hi.1.1
  refine stored_kept (stored_push_two _ _ hram (storageKept_tick s) (controlsKept_tick s) rfl) ?memory
    (storageKept_memRead s.pc _) (controlsKept_memRead s.pc _)
  case memory => simp [isMemory_stackAddr]

/-- What ticks and writes of `SP` and `PC` leave. -/
theorem setPc_setSp_ticks_kept (a : Addr) (v : Byte) (n : Nat) (s : State) :
    let t := ((ticks n s).setSp v).setPc a
    t.pc = a ∧ t.sp = v ∧ RegistersKept [.sp] s t ∧ FlagsKept [] s t ∧ Idled n s t := by
  refine ⟨rfl, rfl, ?_, flagsKept_of_p (ticks_p n s), idled_of n s _ rfl⟩
  apply registersKept_of <;> simp

theorem tick_setSp (v : Byte) (s : State) : tick (s.setSp v) = (tick s).setSp v := rfl

/-- `RTS`: five ticks, and one past the address pulled (R281). -/
theorem execRts_eq (s : State) : execRts s = .next (((ticks 5 s).setSp (s.sp + 2)).setPc
    (addrOf (peek (stackAddr (s.sp + 1)) s) (peek (stackAddr (s.sp + 2)) s) + 1)) := by
  have hbefore : tick (tick s) = ticks 2 s := rfl
  rw [execRts, hbefore, pullAddr_eq, ticks_sp, peek_ticks _ _ (isMemory_stackAddr _), peek_ticks _ _ (isMemory_stackAddr _),
    ← ticks_add, tick_setSp, tick_ticks]

theorem peek_setPc (a b : Addr) (s : State) : peek a (s.setPc b) = peek a s := rfl

/-- Settles O30: `JSR` by its two pushes and one read, `RTS` by its closed form. -/
theorem callResults : Obligations.CallResults := by
  intro target s hi
  refine ⟨⟨_, rfl, ?jsrSp, ?jsrRegisters, ?jsrFlags, fun hpc => ⟨?jsrPc, stored_jsr _ hi⟩⟩,
    ⟨_, execRts_eq s, setPc_setSp_ticks_kept _ _ 5 s⟩⟩
  case jsrSp => simpa using jsrPushed_sp s
  case jsrRegisters => apply registersKept_of <;> simp [pushAddr]
  case jsrFlags => exact flagsKept_of_p (by simp [pushAddr])
  case jsrPc =>
    rw [memRead_memory _ hpc]
    dsimp only
    rw [State.setPc_pc, peek_setPc, peek_tick _ hpc]

/-- The stack reads the same in machines with the same RAM. -/
theorem peek_stackAddr_congr {s t : State} (h : t.ram = s.ram) (sp : Byte) : peek (stackAddr sp) t = peek (stackAddr sp) s := by
  rw [peek_stackAddr, peek_stackAddr, h]

/-- Settles O31: the two bytes that `RTS` pulls are those that `JSR` stored. -/
theorem subroutineReturns : Obligations.SubroutineReturns := by
  rintro target s t u hi hjsr hsp hram
  obtain rfl := Host.Outcome.next.inj hjsr
  obtain ⟨hbytes, -⟩ := stored_jsr (addrOf (lowByte target) (memRead s.pc (jsrPushed s)).1) hi
  have hhigh := hbytes (stackAddr s.sp, highByte s.pc) (by simp)
  have hlow := hbytes (stackAddr (s.sp - 1), lowByte s.pc) (by simp)
  have hsp' : u.sp = s.sp - 2 := by rw [hsp]; simpa using jsrPushed_sp s
  have hsp1 : u.sp + 1 = s.sp - 1 := by rw [hsp']; bv_omega
  have hsp2 : u.sp + 2 = s.sp := by rw [hsp']; bv_omega
  refine ⟨_, execRts_eq u, ?pc, hsp2⟩
  case pc =>
    rw [State.setPc_pc, hsp1, hsp2, peek_stackAddr_congr hram, peek_stackAddr_congr hram]
    exact congrArg (· + 1) ((congrArg₂ addrOf hlow hhigh).trans (addrOf_lowByte_highByte s.pc))

/-! ## The return from an interrupt (R282, R626) -/

/-- What `RTI` loads of a byte: bit 4 cleared, bit 5 set (R303). -/
theorem getLsbD_statusPulled (v : Byte) (k : Nat) :
    (statusPulled v).getLsbD k = if k = 4 then false else if k = 5 then true else v.getLsbD k := by
  by_cases hk : k < 8
  · have hbits : ∀ (v : Byte) (k : Fin 8),
        (statusPulled v).getLsbD k = if k.val = 4 then false else if k.val = 5 then true else v.getLsbD k := by decide
    exact hbits v ⟨k, hk⟩
  · rw [if_neg (by omega), if_neg (by omega), BitVec.getLsbD_of_ge _ _ (by omega), BitVec.getLsbD_of_ge _ _ (by omega)]

theorem State.setPc_setSp_setP (a : Addr) (v p : Byte) (s : State) :
    ((s.setP p).setSp v).setPc a = { s with p := p, sp := v, pc := a } := rfl

/-- `RTI`: five ticks and what it pulls (R282). -/
theorem execRti_eq (s : State) : execRti s =
    .next ((((ticks 5 s).setP (statusPulled (peek (stackAddr (s.sp + 1)) s))).setSp (s.sp + 3)).setPc
      (addrOf (peek (stackAddr (s.sp + 2)) s) (peek (stackAddr (s.sp + 3)) s))) := by
  have hbefore : tick (tick s) = ticks 2 s := rfl
  have hall : ticks 3 (ticks 2 s) = ticks 5 s := (ticks_add 2 3 s).symm
  rw [execRti, hbefore, returnFromInterrupt_eq, hall, ticks_sp, peek_ticks _ _ (isMemory_stackAddr _),
    peek_ticks _ _ (isMemory_stackAddr _), peek_ticks _ _ (isMemory_stackAddr _), State.setPc_setSp_setP]

/-- What ticks and writes of `P`, `SP` and `PC` leave. -/
theorem setPc_setSp_setP_ticks_kept (a : Addr) (v p : Byte) (n : Nat) (s : State) :
    let t := (((ticks n s).setP p).setSp v).setPc a
    RegistersKept [.sp] s t ∧ Idled n s t := by
  refine ⟨?_, idled_of n s _ rfl⟩
  apply registersKept_of <;> simp

/-- Settles O32, by the closed form of `RTI`. -/
theorem rtiResult : Obligations.RtiResult := by
  intro s
  exact ⟨_, execRti_eq s, rfl, rfl, getLsbD_statusPulled _, setPc_setSp_setP_ticks_kept _ _ _ 5 s⟩

end Sys2Proof.Machine
end

section
/-! SUPPORT. The ticks of every instruction (R161, R675, R676): what each template and shared helper adds to `cycle_count`, and
the instruction's row from it. -/

namespace Sys2Proof.Machine

/-! ## The templates (R161) -/

/-- An operand read, with the ticks of the instruction's bytes, takes its class's ticks and one for a page crossed. -/
theorem readOp_cycleCount (m : ReadOperand) (s : State) : (readOp m s).2.cycleCount + fetchTicks (.lda m) =
    s.cycleCount + readTicks m + if readCrosses m s then 1 else 0 := by
  cases m with
  | imm v => rfl
  | zp z | zpx z | zpy z | abs a | izx z =>
    rw [readOp_of_readTarget rfl, memRead_cycleCount, ticks_cycleCount]
    rfl
  | abx a | aby a | izy z =>
    rw [readOp_of_readTarget rfl, memRead_cycleCount, ticks_cycleCount]
    dsimp only [fetchTicks, readTicks]
    split <;> rfl

/-- A store's address, the write and the instruction's bytes take its class's ticks. -/
theorem writeAddr_cycleCount (m : WriteOperand) (s : State) :
    (writeAddr m s).2.cycleCount + 1 + fetchTicks (.sta m) = s.cycleCount + writeTicks m := by
  cases m with
  | zp _ | zpx _ | zpy _ | abs _ | abxe _ | abye _ => rfl
  | izx z => rw [writeAddr, addrIndexedIndirect_eq, ticks_cycleCount]; rfl
  | izye z => rw [writeAddr, addrIndirectIndexedAlways_eq, ticks_cycleCount]; rfl

/-- A read-modify-write's address, its three ticks and the instruction's bytes take its class's ticks. -/
theorem rmwAddr_cycleCount (m : RmwOperand) (s : State) :
    (rmwAddr m s).2.cycleCount + 3 + fetchTicks (.inc m) = s.cycleCount + rmwTicks m := by
  cases m with
  | zp _ | zpx _ | abs _ | abxe _ | abye _ => rfl
  | izx z => rw [rmwAddr, addrIndexedIndirect_eq, ticks_cycleCount]; rfl
  | izye z => rw [rmwAddr, addrIndirectIndexedAlways_eq, ticks_cycleCount]; rfl

/-- A read-modify-write whose function spends no tick (R161). -/
theorem rmwOp_cycleCount (m : RmwOperand) {f : Byte → State → Byte × State}
    (hf : ∀ v u, (f v u).2.cycleCount = u.cycleCount) (s : State) : (rmwOp m f s).cycleCount =
      (rmwAddr m s).2.cycleCount + 3 + if (rmwAddr m s).1 = 0x4014 then 512 else 0 := by
  rw [rmwOp, memWrite_cycleCount, hf, tick_cycleCount, memRead_cycleCount]

/-! ## The shared helpers (R14, R270, R611) -/

theorem extraTicks_of_branchTaken {i : Instr} {s : State} {off : Byte} {cond : Bool} (h : branchTaken i s = some (off, cond)) :
    extraTicks i s = if cond then if pageCross s.pc (relativeTarget s.pc off) then 2 else 1 else 0 := by
  unfold extraTicks
  split
  case h_16 =>
    rw [h]
    cases cond <;> rfl
  all_goals cases h

theorem branch_cycleCount (cond : Bool) (off : Byte) (s : State) : (branch cond off s).cycleCount =
    s.cycleCount + if cond then if pageCross s.pc (relativeTarget s.pc off) then 2 else 1 else 0 := by
  unfold branch
  split
  · dsimp only
    split <;> rfl
  · rfl

theorem pull_cycleCount (s : State) : (pull s).2.cycleCount = s.cycleCount + 1 := by
  rw [pull, memRead_cycleCount, State.setSp_cycleCount]

theorem pushAddr_cycleCount (a : Addr) (s : State) : (pushAddr a s).cycleCount = s.cycleCount + 2 := by
  rw [pushAddr, push_cycleCount, push_cycleCount]

theorem interrupt_brk_cycleCount (s : State) : (interrupt .brk s).cycleCount = s.cycleCount + 6 := by
  rw [interrupt, if_neg (by decide), loadVector_eq, State.setPc_cycleCount, ticks_cycleCount, State.setFlag_cycleCount,
    interruptSave, push_cycleCount, pushAddr_cycleCount, tick_cycleCount]

/-! ## The rows (R676) -/

/-- From `s` to `t`, with the ticks of its bytes, the instruction takes those of its row. -/
def TakesRowTicks (i : Instr) (s t : State) : Prop :=
  t.cycleCount + fetchTicks i = s.cycleCount + baseTicks i + extraTicks i s + dmaTicks i s

section
variable {i : Instr} {s t : State}

/-- An instruction whose meaning takes `n` ticks in every state. -/
theorem takesRowTicks_fixed (n : Nat) (ht : t.cycleCount = s.cycleCount + n)
    (hrow : n + fetchTicks i = baseTicks i + extraTicks i s + dmaTicks i s) : TakesRowTicks i s t := by
  unfold TakesRowTicks
  omega

theorem dmaTicks_of_noStore (h : storeTarget i s = none) : dmaTicks i s = 0 := by
  rw [dmaTicks, h]
  rfl

theorem dmaTicks_of_store {a : Addr} (h : storeTarget i s = some a) : dmaTicks i s = if a = 0x4014 then 512 else 0 := by
  rw [dmaTicks, h]
  simp only [Option.some.injEq]

/-- The read class: an operand read, then CPU registers alone (R676). -/
theorem takesRowTicks_read (m : ReadOperand) (ht : t.cycleCount = (readOp m s).2.cycleCount)
    (hfetch : fetchTicks i = fetchTicks (.lda m)) (hbase : baseTicks i = readTicks m)
    (hextra : extraTicks i s = if readCrosses m s then 1 else 0) (hstore : storeTarget i s = none) : TakesRowTicks i s t := by
  rw [TakesRowTicks, ht, hfetch, hbase, hextra, dmaTicks_of_noStore hstore]
  exact readOp_cycleCount m s

/-- The store class: the write template (R676). -/
theorem takesRowTicks_write (m : WriteOperand) (v : Byte) (hfetch : fetchTicks i = fetchTicks (.sta m))
    (hbase : baseTicks i = writeTicks m) (hextra : extraTicks i s = 0) (hstore : storeTarget i s = some (writeAddr m s).1) :
    TakesRowTicks i s (writeOp m v s) := by
  rw [TakesRowTicks, hfetch, hbase, hextra, dmaTicks_of_store hstore, writeOp, memWrite_cycleCount]
  have := writeAddr_cycleCount m s
  omega

/-- The read-modify-write class on memory (R676). -/
theorem takesRowTicks_rmw (m : RmwOperand) {f : Byte → State → Byte × State}
    (hf : ∀ v u, (f v u).2.cycleCount = u.cycleCount) (hfetch : fetchTicks i = fetchTicks (.inc m))
    (hbase : baseTicks i = rmwTicks m) (hextra : extraTicks i s = 0) (hstore : storeTarget i s = some (rmwAddr m s).1) :
    TakesRowTicks i s (rmwOp m f s) := by
  rw [TakesRowTicks, hfetch, hbase, hextra, dmaTicks_of_store hstore, rmwOp_cycleCount m hf]
  have := rmwAddr_cycleCount m s
  omega

/-- The branches (R270). -/
theorem takesRowTicks_branch (cond : Bool) (off : Byte) (hfetch : fetchTicks i = 2) (hbase : baseTicks i = 2)
    (hbranch : branchTaken i s = some (off, cond)) (hstore : storeTarget i s = none) :
    TakesRowTicks i s (branch cond off s) := by
  rw [TakesRowTicks, hfetch, hbase, extraTicks_of_branchTaken hbranch, dmaTicks_of_noStore hstore, branch_cycleCount]
  omega

end

/-- Settles O13, by the class of the instruction's row. -/
theorem instructionTicks : Obligations.InstructionTicks := by
  intro i s
  cases i with
  | lda m | ldx m | ldy m | lax m | adc m | sbc m | and m | ora m | eor m | cmp m | cpx m | cpy m | bit m
  | nopZeroPage op m | nopAbsolute op m => exact ⟨_, rfl, takesRowTicks_read m rfl rfl rfl rfl rfl⟩
  | sta m | stx m | sty m | sax m => exact ⟨_, rfl, takesRowTicks_write m _ rfl rfl rfl rfl⟩
  | inc m | dec m | dcp m | isb m | slo m | rla m | sre m | rra m =>
    exact ⟨_, rfl, takesRowTicks_rmw m (fun _ _ => rfl) rfl rfl rfl rfl⟩
  | asl m | lsr m | rol m | ror m =>
    cases m with
    | acc => exact ⟨_, rfl, takesRowTicks_fixed 1 rfl rfl⟩
    | mem m => exact ⟨_, rfl, takesRowTicks_rmw m (fun _ _ => rfl) rfl rfl rfl rfl⟩
  | sya base => exact ⟨_, rfl, takesRowTicks_write (.abxe base) _ rfl rfl rfl rfl⟩
  | sxa base => exact ⟨_, rfl, takesRowTicks_write (.abye base) _ rfl rfl rfl rfl⟩
  | bcc off | bcs off | beq off | bne off | bmi off | bpl off | bvc off | bvs off =>
    exact ⟨_, rfl, takesRowTicks_branch _ off rfl rfl rfl rfl⟩
  | tax | tay | txa | tya | tsx | txs | inx | iny | dex | dey | clc | sec | cli | sei | cld | sed | clv | nop
  | nopImplied op => exact ⟨_, rfl, takesRowTicks_fixed 1 rfl rfl⟩
  | aac op v | asr v | arr v | atx v | axs v | sbcDuplicate v | nopImmediate op v | undecodable op =>
    exact ⟨_, rfl, takesRowTicks_fixed 0 rfl rfl⟩
  | jmp m =>
    cases m with
    | abs a => exact ⟨_, rfl, takesRowTicks_fixed 0 rfl rfl⟩
    | ind ptr =>
      have hcount : (addrIndirect ptr s).2.cycleCount = s.cycleCount + 2 := by
        rw [addrIndirect, memRead_cycleCount, memRead_cycleCount]
      exact ⟨_, rfl, takesRowTicks_fixed 2 hcount rfl⟩
  | jsr target =>
    have hcount : (memRead s.pc (jsrPushed s)).2.cycleCount = s.cycleCount + 4 := by
      rw [memRead_cycleCount, pushAddr_cycleCount, tick_cycleCount]
    exact ⟨_, rfl, takesRowTicks_fixed 4 hcount rfl⟩
  | rts =>
    refine ⟨_, execRts_eq s, takesRowTicks_fixed 5 ?_ rfl⟩
    rw [State.setPc_cycleCount, State.setSp_cycleCount, ticks_cycleCount]
  | rti =>
    refine ⟨_, execRti_eq s, takesRowTicks_fixed 5 ?_ rfl⟩
    rw [State.setPc_cycleCount, State.setSp_cycleCount, State.setP_cycleCount, ticks_cycleCount]
  | brk => exact ⟨_, rfl, takesRowTicks_fixed 6 (interrupt_brk_cycleCount (s.setPc (s.pc + 1))) rfl⟩
  | pha | php => exact ⟨_, rfl, takesRowTicks_fixed 2 (push_cycleCount _ (tick s)) rfl⟩
  | pla | plp => exact ⟨_, rfl, takesRowTicks_fixed 3 (pull_cycleCount (tick (tick s))) rfl⟩

end Sys2Proof.Machine
end

section
/-! SUPPORT. The stack, flag and no-operation instructions (R300 to R311, R336 to R339): what one push and one pull do around
their ticks, what a flag write leaves, and what an operand read leaves when its byte is discarded. -/

namespace Sys2Proof.Machine

/-! ## The stack (R300 to R303) -/

@[simp] theorem push_pc (v : Byte) (s : State) : (push v s).pc = s.pc := by rw [push_eq]; rfl

/-- A tick and a push store one byte and move `SP` down; nothing else changes. -/
theorem push_tick_results (v : Byte) {s : State} (hi : s.Inv) :
    let t := push v (tick s)
    Stored [(stackAddr s.sp, v)] s t ∧ t.sp = s.sp - 1 ∧ RegistersKept [.sp] s t ∧ FlagsKept [] s t ∧ t.pc = s.pc := by
  have hram : (tick s).ram.wf = true := hi.1.1
  have hstored := stored_push v (stored_nil (storageKept_tick s) (controlsKept_tick s))
    (fun e he => absurd he List.not_mem_nil) hram
  refine ⟨hstored, by simp, ?registers, flagsKept_of_p (by simp), by simp⟩
  case registers => apply registersKept_of <;> simp

/-- Two ticks and a pull: three ticks, the byte above `SP`, and `SP` up by one. -/
theorem pull_tick_tick (s : State) :
    pull (tick (tick s)) = (peek (stackAddr (s.sp + 1)) s, (ticks 3 s).setSp (s.sp + 1)) := by
  rw [pull_eq, peek_stackAddr]
  rfl

/-- `PLA`: three ticks and a load of the byte pulled (R302). -/
theorem execPla_eq (s : State) :
    execPla s = .next (loadA (peek (stackAddr (s.sp + 1)) s) ((ticks 3 s).setSp (s.sp + 1))) := by
  rw [execPla, pull_tick_tick]

/-- `PLP`: three ticks and the status from the byte pulled (R303). -/
theorem execPlp_eq (s : State) :
    execPlp s = .next (((ticks 3 s).setSp (s.sp + 1)).setP (statusPulled (peek (stackAddr (s.sp + 1)) s))) := by
  rw [execPlp, pull_tick_tick]

/-- What ticks, a write of `SP` and a load of `A` leave. -/
theorem loadA_setSp_ticks_results (v sp : Byte) (n : Nat) (s : State) :
    let t := loadA v ((ticks n s).setSp sp)
    HasNZ t.a t ∧ t.sp = sp ∧ RegistersKept [.a, .sp] s t ∧ FlagsKept [.zero, .negative] s t ∧ t.pc = s.pc ∧ Idled n s t := by
  refine ⟨hasNZ_loadA v _, rfl, ?registers, flagsKept_setNZ v (ticks_p n s), ticks_pc n s, idled_of n s _ rfl⟩
  case registers => apply registersKept_of <;> simp [loadA]

/-- What ticks and writes of `SP` and `P` leave. -/
theorem setP_setSp_ticks_results (p sp : Byte) (n : Nat) (s : State) :
    let t := ((ticks n s).setSp sp).setP p
    t.sp = sp ∧ RegistersKept [.sp] s t ∧ t.pc = s.pc ∧ Idled n s t := by
  refine ⟨rfl, ?registers, ticks_pc n s, idled_of n s _ rfl⟩
  case registers => apply registersKept_of <;> simp

/-- Settles O37: a push or a pull after its bare ticks; the pulls by their closed forms. -/
theorem stackResults : Obligations.StackResults := by
  intro s hi
  exact ⟨⟨_, rfl, push_tick_results s.a hi⟩, ⟨_, rfl, push_tick_results _ hi⟩,
    ⟨_, execPla_eq s, rfl, loadA_setSp_ticks_results _ _ 3 s⟩,
    ⟨_, execPlp_eq s, getLsbD_statusPulled _, setP_setSp_ticks_results _ _ 3 s⟩⟩

/-! ## Flags (R304 to R310) -/

/-- A tick and a flag write: the flag has its value, and nothing else changes. -/
theorem setFlag_tick_results (f : Flag) (b : Bool) (s : State) :
    let t := (tick s).setFlag f b
    t.flag f = b ∧ FlagsKept [f] s t ∧ RegistersKept [] s t ∧ t.pc = s.pc ∧ Idled 1 s t :=
  ⟨by simp, flagsKept_setFlag b (List.mem_singleton_self f) (flagsKept_of_p rfl), registersKept_setP rfl _, rfl,
    idled_of 1 s _ rfl⟩

/-- Settles O38: each instruction of the list is a tick and the write of its flag. -/
theorem flagResults : Obligations.FlagResults := by
  intro i op f b s hrow
  simp only [List.mem_cons, List.not_mem_nil, or_false, Prod.mk.injEq] at hrow
  obtain ⟨rfl, rfl, rfl, rfl⟩ | ⟨rfl, rfl, rfl, rfl⟩ | ⟨rfl, rfl, rfl, rfl⟩ | ⟨rfl, rfl, rfl, rfl⟩ | ⟨rfl, rfl, rfl, rfl⟩ |
    ⟨rfl, rfl, rfl, rfl⟩ | ⟨rfl, rfl, rfl, rfl⟩ := hrow
  all_goals exact ⟨rfl, _, rfl, setFlag_tick_results _ _ s⟩

/-! ## No operation (R311, R336 to R339) -/

/-- An operand read whose byte is discarded changes no register and no flag. -/
theorem readOp_discarded (m : ReadOperand) (s : State) :
    let t := (readOp m s).2
    RegistersKept [] s t ∧ FlagsKept [] s t ∧ ReadOnly m s t := by
  obtain ⟨ha, hx, hy, hsp, hp, hpc⟩ := readOp_registers m s
  exact ⟨registersKept_of (.inr ha) (.inr hx) (.inr hy) (.inr hsp), flagsKept_of_p hp, readOnly_of m s _ rfl hpc⟩

/-- Settles O39: the implied forms are a tick, the immediate one reads no memory, the others are their operand's read. -/
theorem nopResults : Obligations.NopResults := by
  intro op v m s
  exact ⟨rfl, rfl, rfl, ⟨_, rfl, readOp_discarded m s⟩, ⟨_, rfl, readOp_discarded m s⟩⟩

end Sys2Proof.Machine
end

section
/-! SUPPORT. The unofficial instructions (R322 to R334): the high-byte stores, what a read-modify-write leaves of the CPU when
its helper changes nothing else, and the immediate combinations. -/

namespace Sys2Proof.Machine

/-! ## `SYA` and `SXA` (R333, R334) -/

theorem highByte_eq_ofNat (a : Addr) : highByte a = BitVec.ofNat 8 (a.toNat / 256) :=
  congrArg (BitVec.ofNat 8) (Nat.shiftRight_eq_div_pow a.toNat 8)

/-- The byte stored, on numbers: the register under the base's high byte plus one. -/
theorem andHighPlusOne_eq (r : Byte) (base : Addr) : andHighPlusOne r base = r &&& BitVec.ofNat 8 (base.toNat / 256 + 1) := by
  rw [andHighPlusOne, highByte_eq_ofNat, BitVec.ofNat_add]
  rfl

/-- Settles O18: each is a write after two ticks of the byte `andHighPlusOne` makes. -/
theorem highByteStores : Obligations.HighByteStores := by
  intro base s hi
  rw [← andHighPlusOne_eq, ← andHighPlusOne_eq]
  exact ⟨⟨_, rfl, busWrite_after_ticks _ (andHighPlusOne s.y base) 2 hi⟩,
    ⟨_, rfl, busWrite_after_ticks _ (andHighPlusOne s.x base) 2 hi⟩⟩

/-! ## Frames -/

theorem registersKept_a {s t : State} (hx : t.x = s.x) (hy : t.y = s.y) (hsp : t.sp = s.sp) : RegistersKept [.a] s t :=
  registersKept_of (.inl (List.mem_singleton_self _)) (.inr hx) (.inr hy) (.inr hsp)

theorem flagsKept_setNZ_of_mem {l : List Flag} (v : Byte) {s t : State} (hz : .zero ∈ l) (hn : .negative ∈ l)
    (h : FlagsKept l s t) : FlagsKept l s (t.setNZ v) :=
  flagsKept_setFlag _ hn (flagsKept_setFlag _ hz h)

/-- A flag other than `Z` and `N` written after them leaves them. -/
theorem hasNZ_setFlag {v : Byte} {f : Flag} (b : Bool) {t : State} (hz : f ≠ .zero) (hn : f ≠ .negative) (h : HasNZ v t) :
    HasNZ v (t.setFlag f b) := by
  obtain ⟨hzero, hneg⟩ := h
  exact ⟨by rw [State.flag_setFlag, if_neg hz.symm, hzero], by rw [State.flag_setFlag, if_neg hn.symm, hneg]⟩

/-- From `s` to `t` CPU registers alone changed, of them only `regs` and, in `P`, only `flags`. -/
structure ChangesCpu (regs : List Register) (flags : List Flag) (s t : State) : Prop where
  cpuOnly : t = t.withCpu s
  registers : RegistersKept regs s t
  flags : FlagsKept flags s t
  pc : t.pc = s.pc

/-- Two changes one after another, the first of no more than the second may change. -/
theorem ChangesCpu.trans {regs regs' : List Register} {flags flags' : List Flag} {s t u : State}
    (h : ChangesCpu regs flags s t) (k : ChangesCpu regs' flags' t u) (hr : regs ⊆ regs') (hf : flags ⊆ flags') :
    ChangesCpu regs' flags' s u where
  cpuOnly := by rw [k.cpuOnly, h.cpuOnly]; rfl
  registers r hr' := (k.registers r hr').trans (h.registers r fun hmem => hr' (hr hmem))
  flags f hf' := (k.flags f hf').trans (h.flags f fun hmem => hf' (hf hmem))
  pc := k.pc.trans h.pc

theorem changesCpu_compareFlags (r v : Byte) (s : State) :
    ChangesCpu [] [.carry, .zero, .negative] s (compareFlags r v s) :=
  ⟨rfl, registersKept_setP (u := s) rfl _, flagsKept_compareFlags r v rfl, rfl⟩

theorem changesCpu_addWithCarry (v : Byte) (s : State) :
    ChangesCpu [.a] [.carry, .overflow, .zero, .negative] s (addWithCarry v s) :=
  ⟨rfl, registersKept_addWithCarry rfl v, flagsKept_addWithCarry v rfl, rfl⟩

theorem changesCpu_shiftFlags (out : Bool) (r : Byte) (s : State) :
    ChangesCpu [] [.carry, .zero, .negative] s (shiftFlags out r s).2 :=
  ⟨rfl, registersKept_setP (u := s) rfl _, flagsKept_shiftFlags out r rfl, rfl⟩

theorem changesCpu_loadA {flags : List Flag} (v : Byte) (s : State) (hz : .zero ∈ flags) (hn : .negative ∈ flags) :
    ChangesCpu [.a] flags s (loadA v s) :=
  ⟨rfl, registersKept_loadA v rfl, flagsKept_setNZ_of_mem v hz hn (flagsKept_of_p rfl), rfl⟩

/-! ## Combined read-modify-writes (R322 to R327) -/

/-- `RmwOp(m, f)` for an `f` that changes CPU registers alone: `f` runs on the CPU registers of `s`, its byte is written, and
the CPU registers after the write are those `f` leaves. -/
theorem rmwOp_changesCpu (m : RmwOperand) {f : Byte → State → Byte × State} {regs : List Register} {flags : List Flag}
    (hf : ∀ v u, ChangesCpu regs flags u (f v u).2) {s : State} (hi : s.Inv) :
    let a := (rmwAddr m s).1
    let v := (memRead a (rmwAddr m s).2).1
    let t := rmwOp m f s
    ∃ u : State, t = (f v (s.withCpu u)).2.withCpu t ∧ Wrote (rmwReady m s) a (f v (s.withCpu u)).1 s t ∧
      RegistersKept regs s t ∧ FlagsKept flags s t ∧ t.pc = s.pc := by
  intro a v t
  obtain ⟨u, ⟨hua, hux, huy, husp, hup, hupc⟩, hwrote, hta, htx, hty, htsp, htp, htpc⟩ :=
    wrote_rmwOp m f hi fun v u => (hf v u).cpuOnly
  have hu : u = s.withCpu u := by rw [State.withCpu, ← hua, ← hux, ← huy, ← husp, ← hup, ← hupc]
  have ht : t = (f v (s.withCpu u)).2.withCpu t := by
    rw [← hu, State.withCpu, ← hta, ← htx, ← hty, ← htsp, ← htp, ← htpc]
  refine ⟨u, ht, hu ▸ hwrote, ?registers, ?flags, ?pc⟩
  case registers => rw [ht]; exact (hf v (s.withCpu u)).registers
  case flags => rw [ht]; exact (hf v (s.withCpu u)).flags
  case pc => rw [ht]; exact (hf v (s.withCpu u)).pc

/-- `DCP`: the byte less one is written and compared with `A` (R322). -/
theorem rmwOp_dcpByte (m : RmwOperand) {s : State} (hi : s.Inv) :
    let a := (rmwAddr m s).1
    let v := (memRead a (rmwAddr m s).2).1
    let t := rmwOp m dcpByte s
    Wrote (rmwReady m s) a (v - 1) s t ∧ Compared s.a (v - 1) t ∧ RegistersKept [] s t ∧
      FlagsKept [.carry, .zero, .negative] s t ∧ t.pc = s.pc := by
  intro a v t
  obtain ⟨u, (ht : t = _), hwrote, hrest⟩ := rmwOp_changesCpu m (f := dcpByte) (fun _ _ => changesCpu_compareFlags _ _ _) hi
  refine ⟨hwrote, ?compared, hrest⟩
  case compared => rw [ht]; exact compared_compareFlags s.a (v - 1) (s.withCpu u)

/-- `ISB`: the byte plus one is written and subtracted from `A` (R323). -/
theorem rmwOp_isbByte (m : RmwOperand) {s : State} (hi : s.Inv) :
    let a := (rmwAddr m s).1
    let v := (memRead a (rmwAddr m s).2).1
    let t := rmwOp m isbByte s
    Wrote (rmwReady m s) a (v + 1) s t ∧ Subtracted s.a (v + 1) (s.flag .carry) t ∧ RegistersKept [.a] s t ∧
      FlagsKept [.carry, .overflow, .zero, .negative] s t ∧ t.pc = s.pc := by
  intro a v t
  obtain ⟨u, (ht : t = _), hwrote, hrest⟩ := rmwOp_changesCpu m (f := isbByte) (fun _ _ => changesCpu_addWithCarry _ _) hi
  refine ⟨hwrote, ?subtracted, hrest⟩
  case subtracted => rw [ht]; exact subtracted_of_added (added_addWithCarry (~~~(v + 1)) (s.withCpu u))

/-- The helper that shifts or rotates the byte by `f` and goes on with `k` on the new byte and the new flags. -/
def shiftThen (f : Byte → State → Byte × State) (k : Byte → State → State) (v : Byte) (s : State) : Byte × State :=
  ((f v s).1, k (f v s).1 (f v s).2)

/-- Loads `A` with its combination by `op` with a byte. -/
def combineA (op : Byte → Byte → Byte) (r : Byte) (s : State) : State := loadA (op s.a r) s

theorem sloByte_eq_shiftThen : sloByte = shiftThen asl (combineA (· ||| ·)) := rfl

theorem rlaByte_eq_shiftThen : rlaByte = shiftThen rol (combineA (· &&& ·)) := rfl

theorem sreByte_eq_shiftThen : sreByte = shiftThen lsr (combineA (· ^^^ ·)) := rfl

theorem rraByte_eq_shiftThen : rraByte = shiftThen ror addWithCarry := rfl

section
variable {f : Byte → State → Byte × State} {g : Nat → Nat → Nat} {out : Nat → Prop} [DecidablePred out]
  (hf : ShiftsByte f g out)
include hf

/-- The shifted byte is written, and `k` goes on in a machine `w` with the `A` of `s` and the bit shifted out in `C`. -/
theorem ShiftsByte.rmwOp_shiftThen {k : Byte → State → State} {flags : List Flag}
    (hk : ∀ r u, ChangesCpu [.a] flags u (k r u)) (hflags : [.carry, .zero, .negative] ⊆ flags) (m : RmwOperand)
    {s : State} (hi : s.Inv) :
    let a := (rmwAddr m s).1
    let v := (memRead a (rmwAddr m s).2).1
    let t := rmwOp m (shiftThen f k) s
    ∃ (r : Byte) (w : State), r.toNat = g v.toNat (s.flag .carry).toNat ∧ w.a = s.a ∧ w.flag .carry = decide (out v.toNat) ∧
      t = (k r w).withCpu t ∧ Wrote (rmwReady m s) a r s t ∧ RegistersKept [.a] s t ∧ FlagsKept flags s t ∧
      t.pc = s.pc := by
  intro a v t
  have hbyte : ∀ v u, ∃ r : Byte, shiftThen f k v u = (r, k r (shiftFlags (decide (out v.toNat)) r u).2) ∧
      r.toNat = g v.toNat (u.flag .carry).toNat := by
    intro v u
    obtain ⟨r, hr, hval⟩ := hf v u
    exact ⟨r, by rw [shiftThen, hr]; rfl, hval⟩
  have hcpu : ∀ v u, ChangesCpu [.a] flags u (shiftThen f k v u).2 := by
    intro v u
    obtain ⟨r, hr, -⟩ := hbyte v u
    rw [hr]
    exact (changesCpu_shiftFlags _ r u).trans (hk r _) (List.nil_subset _) hflags
  obtain ⟨u, ht, hwrote, hrest⟩ := rmwOp_changesCpu m hcpu hi
  obtain ⟨r, hr, hval⟩ := hbyte v (s.withCpu u)
  rw [hr] at ht hwrote
  refine ⟨r, (shiftFlags (decide (out v.toNat)) r (s.withCpu u)).2, hval, rfl, ?carry, ht, hwrote, hrest⟩
  case carry => exact carry_shiftFlags _ r (s.withCpu u)

/-- A shift and a logic operation: `C` is the bit shifted out, `A`, `Z` and `N` are those of the combination (R324 to R326). -/
theorem ShiftsByte.rmwOp_combineA (op : Byte → Byte → Byte) (m : RmwOperand) {s : State} (hi : s.Inv) :
    let a := (rmwAddr m s).1
    let v := (memRead a (rmwAddr m s).2).1
    let t := rmwOp m (shiftThen f (combineA op)) s
    ∃ r : Byte, r.toNat = g v.toNat (s.flag .carry).toNat ∧ Wrote (rmwReady m s) a r s t ∧ t.a = op s.a r ∧
      t.flag .carry = decide (out v.toNat) ∧ HasNZ t.a t ∧ RegistersKept [.a] s t ∧
      FlagsKept [.carry, .zero, .negative] s t ∧ t.pc = s.pc := by
  intro a v t
  obtain ⟨r, w, hval, ha, hcarry, (ht : t = _), hwrote, hrest⟩ :=
    hf.rmwOp_shiftThen (k := combineA op) (fun _ _ => changesCpu_loadA _ _ (by decide) (by decide)) (List.Subset.refl _) m hi
  refine ⟨r, hval, hwrote, ?a, ?carry, ?nz, hrest⟩
  case a => rw [ht, ← ha]; rfl
  case carry => rw [ht, ← hcarry]; exact State.flag_setNZ .carry _ _
  case nz => rw [ht]; exact hasNZ_loadA _ w

end

/-- `RRA`: the byte rotated right is written and added to `A` with the bit rotated out (R327). -/
theorem rmwOp_rraByte (m : RmwOperand) {s : State} (hi : s.Inv) :
    let a := (rmwAddr m s).1
    let v := (memRead a (rmwAddr m s).2).1
    let t := rmwOp m rraByte s
    ∃ r : Byte, r.toNat = v.toNat / 2 + 128 * (s.flag .carry).toNat ∧ Wrote (rmwReady m s) a r s t ∧
      Added s.a r (decide (v.toNat % 2 = 1)) t ∧ RegistersKept [.a] s t ∧
      FlagsKept [.carry, .overflow, .zero, .negative] s t ∧ t.pc = s.pc := by
  intro a v t
  obtain ⟨r, w, hval, ha, hcarry, (ht : t = _), hwrote, hrest⟩ :=
    ror_shiftsByte.rmwOp_shiftThen changesCpu_addWithCarry (by decide) m hi
  refine ⟨r, hval, hwrote, ?added, hrest⟩
  case added => rw [ht, ← ha, ← hcarry]; exact added_addWithCarry r w

/-- Settles O26: each instruction is the read-modify-write template of its helper. -/
theorem combinedResults : Obligations.CombinedResults := by
  intro m s hi a v u c
  refine ⟨⟨_, rfl, rmwOp_dcpByte m hi⟩, ⟨_, rfl, rmwOp_isbByte m hi⟩, ?slo, ?rla, ?sre, ?rra⟩
  case slo =>
    obtain ⟨r, h⟩ := asl_shiftsByte.rmwOp_combineA (· ||| ·) m hi
    exact ⟨_, r, rfl, sloByte_eq_shiftThen ▸ h⟩
  case rla =>
    obtain ⟨r, h⟩ := rol_shiftsByte.rmwOp_combineA (· &&& ·) m hi
    exact ⟨_, r, rfl, rlaByte_eq_shiftThen ▸ h⟩
  case sre =>
    obtain ⟨r, h⟩ := lsr_shiftsByte.rmwOp_combineA (· ^^^ ·) m hi
    exact ⟨_, r, rfl, sreByte_eq_shiftThen ▸ h⟩
  case rra =>
    obtain ⟨r, h⟩ := rmwOp_rraByte m hi
    exact ⟨_, r, rfl, h⟩

/-! ## Immediate combinations (R328 to R332) -/

theorem intCast_toNat_sub (x y : Byte) : ((x - y).toNat : Int) = ((x.toNat : Int) - y.toNat) % 256 := by
  have := y.isLt
  rw [BitVec.toNat_sub]
  omega

/-- `AXS` is the comparison of `A & X` with the operand, whose difference goes into `X` (R332). -/
theorem execAxs_eq (v : Byte) (s : State) :
    execAxs v s = .next ((compareFlags (s.a &&& s.x) v s).setX ((s.a &&& s.x) - v)) := rfl

/-- Settles O27: `AAC`, `ARR` and `ATX` are loads of a combined byte, the first two with their own flags after it; `ASR` has the
flags of a shift, `AXS` those of a comparison. -/
theorem immediateResults : Obligations.ImmediateResults := by
  intro op v s
  refine ⟨?aac, ?asr, ?arr, ?atx, ?axs⟩
  case aac =>
    refine ⟨_, rfl, rfl, ?nz, ?carry, registersKept_a rfl rfl rfl, ?flags, rfl, idled_of 0 s _ rfl⟩
    case nz => exact hasNZ_setFlag _ (by decide) (by decide) (hasNZ_loadA _ s)
    case carry => rw [State.flag_setFlag, if_pos rfl]; rfl
    case flags =>
      exact flagsKept_setFlag _ (by decide) <| flagsKept_setNZ_of_mem _ (by decide) (by decide) (flagsKept_of_p rfl)
  case asr =>
    exact ⟨_, rfl, toNat_shiftRight_one _, hasNZ_shiftFlags _ _ s, carry_shiftFlags _ _ s, registersKept_a rfl rfl rfl,
      flagsKept_shiftFlags _ _ rfl, rfl, idled_of 0 s _ rfl⟩
  case arr =>
    refine ⟨_, rfl, ?value, ?nz, ?carry, ?overflow, registersKept_a rfl rfl rfl, ?flags, rfl, idled_of 0 s _ rfl⟩
    case value => exact toNat_rotateRight _ _
    case nz => exact hasNZ_setFlag _ (by decide) (by decide) (hasNZ_setFlag _ (by decide) (by decide) (hasNZ_loadA _ s))
    case carry => rw [State.flag_setFlag, if_neg (by decide), State.flag_setFlag, if_pos rfl]; rfl
    case overflow => rw [State.flag_setFlag, if_pos rfl]; rfl
    case flags =>
      exact flagsKept_setFlag _ (by decide) <| flagsKept_setFlag _ (by decide) <|
        flagsKept_setNZ_of_mem _ (by decide) (by decide) (flagsKept_of_p rfl)
  case atx =>
    exact ⟨_, rfl, rfl, rfl, hasNZ_loadX _ _, registersKept_loadX_setA (u := s) _ rfl, flagsKept_setNZ _ rfl, rfl,
      idled_of 0 s _ rfl⟩
  case axs =>
    obtain ⟨hcarry, -, -⟩ := compared_compareFlags (s.a &&& s.x) v s
    exact ⟨_, execAxs_eq v s, intCast_toNat_sub _ v, hasNZ_setNZ _ _, hcarry,
      registersKept_of (.inr rfl) (.inl (List.mem_singleton_self _)) (.inr rfl) (.inr rfl),
      flagsKept_compareFlags _ v rfl, rfl, idled_of 0 s _ rfl⟩

end Sys2Proof.Machine
end

section
/-! SUPPORT. The PPU registers written by the CPU (R400 to R415): the bit fields of `t` and `v` (R43), the writes with the two-write
toggle (R411), and PPUDATA by the three regions of the PPU address space (R420). -/

namespace Sys2Proof.Machine

/-! ## The register an address selects (R85) -/

/-- The number of a register (R400). -/
def PpuReg.number : PpuReg → Nat
  | .ctrl => 0
  | .mask => 1
  | .status => 2
  | .oamAddr => 3
  | .oamData => 4
  | .scroll => 5
  | .addr => 6
  | .data => 7

theorem PpuReg.ofAddr_of_mod_eight {a : Addr} (n : PpuReg) (h : a.toNat % 8 = n.number) : PpuReg.ofAddr a = n := by
  rw [PpuReg.ofAddr, h]
  cases n <;> rfl

theorem busRead_register {a : Addr} (n : PpuReg) (s : State) (ha : 0x2000 ≤ a.toNat ∧ a.toNat ≤ 0x3FFF)
    (hn : a.toNat % 8 = n.number) : busRead a s = ppuRegRead n s := by
  rw [busRead_ppuReg s ha, PpuReg.ofAddr_of_mod_eight n hn]

theorem busWrite_register {a : Addr} (n : PpuReg) (v : Byte) (s : State) (ha : 0x2000 ≤ a.toNat ∧ a.toNat ≤ 0x3FFF)
    (hn : a.toNat % 8 = n.number) : busWrite a v s = ppuRegWrite n v s := by
  rw [busWrite_ppuReg v s ha, PpuReg.ofAddr_of_mod_eight n hn]

/-- A write of any register but PPUDATA stays inside the PPU (R401). -/
theorem busWrite_register_of_ne_data {a : Addr} (n : PpuReg) (v : Byte) (s : State)
    (ha : 0x2000 ≤ a.toNat ∧ a.toNat ≤ 0x3FFF) (hn : a.toNat % 8 = n.number) (hd : n ≠ .data) :
    busWrite a v s = { s with ppu := s.ppu.writeReg n v } := by
  rw [busWrite_register n v s ha hn, ppuRegWrite, if_neg hd]

/-! ## Bit fields (R43) -/

/-- A bit of a register after a field is put into it: the field's own bit inside the field, the old bit outside. -/
theorem getLsbD_putField {n : Nat} (r : BitVec 15) (lo : Nat) (f : BitVec n) {k : Nat} (hk : k < 15) :
    (putField r lo f).getLsbD k = if lo ≤ k ∧ k < lo + n then f.getLsbD (k - lo) else r.getLsbD k := by
  simp only [putField, BitVec.getLsbD_or, BitVec.getLsbD_and, BitVec.getLsbD_not, BitVec.getLsbD_shiftLeft,
    BitVec.getLsbD_setWidth, BitVec.getLsbD_allOnes, hk]
  by_cases hlo : lo ≤ k
  · by_cases hhi : k < lo + n
    · simp [hlo, hhi, show ¬ k < lo by omega, show k - lo < 15 by omega, show k - lo < n by omega]
    · simp [hhi, show ¬ k - lo < n by omega, BitVec.getLsbD_of_ge f (k - lo) (by omega)]
  · simp [hlo, show k < lo by omega]

/-- A part of a field just put is that part of the field's value. -/
theorem extractLsb'_putField_inside {n : Nat} (r : BitVec 15) (lo : Nat) (f : BitVec n) {start len : Nat}
    (hf : start + len ≤ n) (hr : lo + n ≤ 15) : (putField r lo f).extractLsb' (lo + start) len = f.extractLsb' start len := by
  ext i hi
  rw [BitVec.getElem_extractLsb', BitVec.getElem_extractLsb', getLsbD_putField _ _ _ (by omega), if_pos (by omega)]
  congr 1
  omega

theorem extractLsb'_putField_same {n : Nat} (r : BitVec 15) (lo : Nat) (f : BitVec n) (h : lo + n ≤ 15) :
    (putField r lo f).extractLsb' lo n = f :=
  (extractLsb'_putField_inside r lo f (Nat.zero_add n).le h).trans BitVec.extractLsb'_eq_self

/-- A field apart from the one put stays. -/
theorem extractLsb'_putField_apart {n : Nat} (r : BitVec 15) (lo : Nat) (f : BitVec n) {start len : Nat}
    (h : start + len ≤ 15) (hd : start + len ≤ lo ∨ lo + n ≤ start) :
    (putField r lo f).extractLsb' start len = r.extractLsb' start len := by
  ext i hi
  rw [BitVec.getElem_extractLsb', BitVec.getElem_extractLsb', getLsbD_putField _ _ _ (by omega), if_neg (by omega)]

/-- A register is its upper seven bits over its low byte. -/
theorem toNat_eq_high_low (r : BitVec 15) : r.toNat = (r.extractLsb' 8 7).toNat * 256 + (r.extractLsb' 0 8).toNat := by
  simp only [BitVec.extractLsb'_toNat, Nat.shiftRight_eq_div_pow]
  omega

/-- The two fields of the second PPUSCROLL write, and the two fields of `t` it leaves (R410). -/
theorem fields_putField_fineY_coarseY (r : BitVec 15) (f : BitVec 3) (c : BitVec 5) :
    let t := putField (putField r 12 f) 5 c
    fineY t = f ∧ coarseY t = c ∧ t.extractLsb' 10 2 = r.extractLsb' 10 2 ∧ coarseX t = coarseX r := by
  have kept {start len : Nat} (h : start + len ≤ 5 ∨ (10 ≤ start ∧ start + len ≤ 12)) :
      (putField (putField r 12 f) 5 c).extractLsb' start len = r.extractLsb' start len := by
    rw [extractLsb'_putField_apart _ _ _ (by omega) (by omega), extractLsb'_putField_apart _ _ _ (by omega) (by omega)]
  exact ⟨(extractLsb'_putField_apart _ _ _ (by decide) (by decide)).trans (extractLsb'_putField_same _ _ _ (by decide)),
    extractLsb'_putField_same _ _ _ (by decide), kept (.inr (by decide)), kept (.inl (by decide))⟩

/-! ## The writes through the toggle (R410, R411, R412) -/

theorem Ppu.w_writeReg_of_twoWrite {n : PpuReg} (v : Byte) (p : Ppu) (h : n = .scroll ∨ n = .addr) :
    (p.writeReg n v).w = !p.w := by
  rcases h with rfl | rfl <;> cases hw : p.w <;> simp [Ppu.writeReg, hw]

theorem Ppu.writeReg_scroll_first (v : Byte) {p : Ppu} (h : p.w = false) :
    p.writeReg .scroll v =
      { p with busLatch := v, fineX := v.extractLsb' 0 3, t := putField p.t 0 (v.extractLsb' 3 5), w := true } := by
  simp [Ppu.writeReg, h]

theorem Ppu.writeReg_scroll_second (v : Byte) {p : Ppu} (h : p.w = true) :
    p.writeReg .scroll v =
      { p with busLatch := v, t := putField (putField p.t 12 (v.extractLsb' 0 3)) 5 (v.extractLsb' 3 5), w := false } := by
  simp [Ppu.writeReg, h]

theorem Ppu.writeReg_addr_first (v : Byte) {p : Ppu} (h : p.w = false) :
    p.writeReg .addr v = { p with busLatch := v, t := putField p.t 8 ((v.extractLsb' 0 6).setWidth 7), w := true } := by
  simp [Ppu.writeReg, h]

theorem Ppu.writeReg_addr_second (v : Byte) {p : Ppu} (h : p.w = true) :
    p.writeReg .addr v = { p with busLatch := v, t := putField p.t 0 v, v := putField p.t 0 v, w := false } := by
  simp [Ppu.writeReg, h]

/-! ## PPUDATA (R413 to R415) -/

theorem Ppu.toNat_v_stepAddress (p : Ppu) :
    p.stepAddress.v.toNat = (p.v.toNat + if p.ctrl.getLsbD 2 then 32 else 1) % 0x8000 := by
  rw [Ppu.stepAddress, Ppu.vramIncr, BitVec.toNat_add]
  split <;> rfl

theorem Ppu.read_mod (p : Ppu) (b : PpuBus) (a : Nat) : p.read b (a % 0x4000) = p.read b a := by
  rw [Ppu.read, Ppu.read, Nat.mod_mod]

theorem Ppu.read_of_chr (p : Ppu) (b : PpuBus) {a : Nat} (h : a % 0x4000 < 0x2000) : p.read b a = b.chrRead (a % 0x4000) := by
  rw [Ppu.read, if_pos (by omega)]

theorem Ppu.read_of_nametable (p : Ppu) (b : PpuBus) {a : Nat} (h : 0x2000 ≤ a % 0x4000) (h' : a % 0x4000 < 0x3F00) :
    p.read b a = p.ntRam.read (ntMirror b.mirroring (a % 0x4000)) := by
  rw [Ppu.read, if_neg (by omega), if_pos (by omega)]

theorem Ppu.read_of_palette (p : Ppu) (b : PpuBus) {a : Nat} (h : 0x3F00 ≤ a % 0x4000) :
    p.read b a = p.palRam.read (palIndex (a % 0x4000)) &&& p.grayMask := by
  rw [Ppu.read, if_neg (by omega), if_neg (by omega)]

theorem ppuWrite_of_chr (v : Byte) (s : State) {a : Nat} (h : a % 0x4000 < 0x2000) :
    ppuWrite a v s = chrWrite (a % 0x4000) v s := by
  rw [ppuWrite, if_pos (by omega)]

theorem ppuWrite_of_nametable (v : Byte) (s : State) {a : Nat} (h : 0x2000 ≤ a % 0x4000) (h' : a % 0x4000 < 0x3F00) :
    ppuWrite a v s =
      { s with ppu := { s.ppu with ntRam := s.ppu.ntRam.write (ntMirror s.mirroring (a % 0x4000)) v } } := by
  rw [ppuWrite, if_neg (by omega), if_pos (by omega)]

theorem ppuWrite_of_palette (v : Byte) (s : State) {a : Nat} (h : 0x3F00 ≤ a % 0x4000) :
    ppuWrite a v s = { s with ppu := { s.ppu with palRam := s.ppu.palRam.write (palIndex (a % 0x4000)) v } } := by
  rw [ppuWrite, if_neg (by omega), if_neg (by omega)]

/-- A CHR-RAM byte reads back as written. -/
theorem chrRead_chrWrite_same (a : Nat) (v : Byte) {s : State} (hram : s.cart.chrIsRam = true) (hwf : s.cart.chr.wf = true) :
    (chrWrite a v s).ppuBus.chrRead a = v := by
  rw [chrWrite, if_pos hram]
  exact Memory.read_write_same _ _ v hwf

/-- A CHR write leaves every byte but the one its slot names (R515). -/
theorem read_chr_chrWrite_ne (a : Nat) (v : Byte) (s : State) {j : Nat} (h : j ≠ chrOffset s.banks.chr s.cart.chrSize a) :
    (chrWrite a v s).cart.chr.read j = s.cart.chr.read j := by
  rw [chrWrite]
  split
  · exact Memory.read_write_ne _ _ j v h
  · rfl

/-- A write of PPUDATA is the PPU write at `v`, the latch and the step of `v` (R413). -/
theorem ppuRegWrite_data_eq (x : Byte) (s : State) :
    ppuRegWrite .data x s =
      { ppuWrite s.ppu.v.toNat x s with
        ppu := { s.ppu.stepAddress with
          busLatch := x
          ntRam := (ppuWrite s.ppu.v.toNat x s).ppu.ntRam
          palRam := (ppuWrite s.ppu.v.toNat x s).ppu.palRam } } := by
  have hregs := ppuWrite_ppu_regs s.ppu.v.toNat x s
  rw [ppuRegWrite, if_pos rfl]
  dsimp only
  rw [hregs]
  rfl

/-! ## Settled statements -/

/-- Settles O45: the bits of the field put for PPUCTRL, the byte written for OAMDATA; the other writes are their own record
updates. -/
theorem plainRegisterWrites : Obligations.PlainRegisterWrites := by
  intro a v s hinv ha t
  have write (n : PpuReg) (hn : a.toNat % 8 = n.number) (hd : n ≠ .data) : t = { s with ppu := s.ppu.writeReg n v } :=
    busWrite_register_of_ne_data n v s ha hn hd
  obtain ⟨-, ⟨-, -, ⟨-, -, ⟨hoam, -⟩⟩, -⟩, -⟩ := hinv
  refine ⟨fun h => ?ctrl, fun h => write .mask h (by decide), fun h => write .status h (by decide),
    fun h => write .oamAddr h (by decide), fun h => ?oamData⟩
  case ctrl =>
    rw [write .ctrl h (by decide)]
    refine ⟨fun k hk => (getLsbD_putField _ _ _ hk).trans ?_, rfl⟩
    by_cases h10 : k = 10
    · subst h10; simp
    · by_cases h11 : k = 11
      · subst h11; simp
      · rw [if_neg (by omega), if_neg h10, if_neg h11]
  case oamData =>
    rw [write .oamData h (by decide)]
    exact ⟨Memory.read_write_same _ _ v hoam, fun j hj => Memory.read_write_ne _ _ j v hj, rfl⟩

/-- Settles O46: the two writes as two fields put into `t`, and each field of the result by what was put into it last. -/
theorem twoWriteRegisters : Obligations.TwoWriteRegisters := by
  intro a b v1 v2 s ha hb once twice
  have first (n : PpuReg) (hn : a.toNat % 8 = n.number) (hd : n ≠ .data) : once = s.ppu.writeReg n v1 :=
    congrArg State.ppu (busWrite_register_of_ne_data n v1 s ha hn hd)
  have second (n : PpuReg) (hn : b.toNat % 8 = n.number) (hd : n ≠ .data) : twice = once.writeReg n v2 :=
    congrArg State.ppu (busWrite_register_of_ne_data n v2 _ hb hn hd)
  refine ⟨fun h => ?toggle, fun hw h5 h5' => ?scroll, fun hw h6 h6' => ?addr, fun hw h5 h6 => ?scrollAddr,
    fun hw h6 h5 => ?addrScroll⟩
  case toggle =>
    rcases h with h | h
    · rw [first .scroll h (by decide), Ppu.w_writeReg_of_twoWrite _ _ (.inl rfl)]
    · rw [first .addr h (by decide), Ppu.w_writeReg_of_twoWrite _ _ (.inr rfl)]
  case scroll =>
    rw [second .scroll h5' (by decide), first .scroll h5 (by decide), Ppu.writeReg_scroll_first _ hw,
      Ppu.writeReg_scroll_second _ rfl]
    obtain ⟨hfineY, hcoarseY, hnametable, hcoarseX⟩ :=
      fields_putField_fineY_coarseY (putField s.ppu.t 0 (v1.extractLsb' 3 5)) (v2.extractLsb' 0 3) (v2.extractLsb' 3 5)
    exact ⟨rfl, hcoarseX.trans (extractLsb'_putField_same _ _ _ (by decide)), hfineY, hcoarseY,
      hnametable.trans (extractLsb'_putField_apart _ _ _ (by decide) (by decide)), rfl⟩
  case addr =>
    rw [second .addr h6' (by decide), first .addr h6 (by decide), Ppu.writeReg_addr_first _ hw, Ppu.writeReg_addr_second _ rfl]
    refine ⟨?_, rfl, rfl⟩
    rw [toNat_eq_high_low, extractLsb'_putField_apart _ _ _ (by decide) (by decide),
      extractLsb'_putField_same _ _ _ (by decide), extractLsb'_putField_same _ _ _ (by decide), BitVec.toNat_setWidth,
      BitVec.extractLsb'_toNat, Nat.shiftRight_zero]
    omega
  case scrollAddr =>
    rw [second .addr h6 (by decide), first .scroll h5 (by decide), Ppu.writeReg_scroll_first _ hw,
      Ppu.writeReg_addr_second _ rfl]
    refine ⟨rfl, extractLsb'_putField_same _ _ _ (by decide), ?_, rfl⟩
    rw [extractLsb'_putField_apart _ _ _ (by decide) (by decide), extractLsb'_putField_apart _ _ _ (by decide) (by decide)]
  case addrScroll =>
    rw [second .scroll h5 (by decide), first .addr h6 (by decide), Ppu.writeReg_addr_first _ hw,
      Ppu.writeReg_scroll_second _ rfl]
    obtain ⟨hfineY, hcoarseY, hnametable, hcoarseX⟩ :=
      fields_putField_fineY_coarseY (putField s.ppu.t 8 ((v1.extractLsb' 0 6).setWidth 7)) (v2.extractLsb' 0 3)
        (v2.extractLsb' 3 5)
    refine ⟨rfl, hfineY, hcoarseY, hnametable.trans ?_,
      hcoarseX.trans (extractLsb'_putField_apart _ _ _ (by decide) (by decide))⟩
    rw [extractLsb'_putField_inside (start := 2) _ 8 _ (by decide) (by decide)]
    ext i hi
    simp [show 2 + i < 6 by omega, show 2 + i < 7 by omega]

/-- Settles O47: the read by what is buffered and what is direct, the write by the three regions of the PPU address space. -/
theorem dataPort : Obligations.DataPort := by
  intro a x s hinv ha h7 at' r t stepped
  have hread : r = ppuRegRead .data s := busRead_register .data s ha h7
  have hwrite : t = _ := (busWrite_register .data x s ha h7).trans (ppuRegWrite_data_eq x s)
  obtain ⟨-, ⟨-, -, ⟨⟨hnt, -⟩, ⟨hpal, -⟩, -⟩, -⟩, ⟨-, -, -, -, ⟨hchr, -⟩, -⟩, -⟩ := hinv
  rw [hread, hwrite]
  refine ⟨s.ppu.toNat_v_stepAddress, s.ppu.toNat_v_stepAddress, rfl, rfl, rfl, fun h => ?buffered, fun h => ?direct,
    fun h => ?chr, fun h h' => ?nametable, fun h => ?palette⟩
  case buffered => exact if_pos (by omega)
  case direct => exact (if_neg (by omega)).trans ((Ppu.read_mod _ _ _).trans (s.ppu.read_of_palette s.ppuBus h))
  case chr =>
    rw [ppuWrite_of_chr x s h, chrWrite_ppu]
    refine ⟨rfl, rfl, fun hrom => ?rom, fun hram => ⟨?readBack, fun j hj => read_chr_chrWrite_ne at' x s hj⟩⟩
    case rom => rw [chrWrite, if_neg (by simp [hrom])]
    case readBack =>
      rw [Ppu.read_mod, Ppu.read_of_chr _ _ h]
      exact chrRead_chrWrite_same _ x hram hchr
  case nametable =>
    rw [ppuWrite_of_nametable x s h h']
    refine ⟨rfl, rfl, ?_, fun j hj => Memory.read_write_ne _ _ j x hj⟩
    rw [Ppu.read_mod, Ppu.read_of_nametable _ _ h h']
    exact Memory.read_write_same _ _ x hnt
  case palette =>
    rw [ppuWrite_of_palette x s h]
    exact ⟨rfl, rfl, Memory.read_write_same _ _ x hpal, fun j hj => Memory.read_write_ne _ _ j x hj⟩

end Sys2Proof.Machine
end

section
/-! SUPPORT. The step as a whole (R15, R162, R614, R620, R660): the poll, that the fetch always gives the decoder an instruction,
and that the IRQ wire is MMC3's. -/

namespace Sys2Proof.Machine

/-! ## The machine after reset (R55) -/

/-- Settles O7: the memory of the state is empty, and the rest is its own record and the two bytes of the vector. -/
theorem resetValues : Obligations.ResetValues := by
  refine ⟨rfl, rfl, fun _ => rfl, ?vector, rfl, ?set, ?clear⟩
  all_goals decide

/-! ## The poll (R620 to R622) -/

theorem step_of_running {s : State} (h : s.run = .running) : step s = executeInstruction (pollInterrupts s) := by
  rw [step, h]

theorem pollInterrupts_of_nmi {s : State} (h : s.nmiFlag = true) : pollInterrupts s = interrupt .nmi s := by
  rw [pollInterrupts, if_pos h]

theorem pollInterrupts_of_irq {s : State} (hnmi : s.nmiFlag = false) (hirq : s.irqFlag = true)
    (hi : s.flag .interruptDisable = false) : pollInterrupts s = interrupt .irq s := by
  rw [pollInterrupts, if_neg (by simp [hnmi]), if_pos (by simp [hirq, hi])]

/-- Settles O9, by what the poll does in each of its three cases. -/
theorem stepPolls : Obligations.StepPolls := by
  intro s hrun
  rw [step_of_running hrun]
  refine ⟨fun hnmi => ?nmi, fun hnmi hirq hi => ?irq, fun hnmi h => ?none⟩
  case nmi => rw [pollInterrupts_of_nmi hnmi]
  case irq => rw [pollInterrupts_of_irq hnmi hirq hi]
  case none =>
    rw [pollInterrupts_of_none hnmi fun hirq => h.resolve_left (by rw [hirq]; decide)]

/-- Settles O40: the halted state is the meaning itself, and a halted machine's step is its fault. -/
theorem undecodableHalts : Obligations.UndecodableHalts := fun _ _ => ⟨_, rfl, rfl, rfl⟩

/-! ## The fetch gives an instruction (R131, R162) -/

/-- Wherever `PC` points, the fetch reads as many bytes as the opcode byte's length, one tick each but for the third byte of
`JSR`. -/
theorem fetchOperands_length_cycleCount (op : Byte) (s : State) :
    (fetchOperands op s).1.length + 1 = instrLength op ∧
      (fetchOperands op s).2.cycleCount + 1 = s.cycleCount + fetchLength op := by
  unfold fetchOperands fetchLength
  by_cases hjsr : op = jsrOpcode
  · subst hjsr
    exact ⟨rfl, by simp [fetchByte]⟩
  · obtain h | h | h := instrLength_cases op <;> simp [hjsr, h, fetchByte]

/-- A machine's fetch decodes to an instruction that pays for the bytes fetched. -/
theorem executeInstruction_eq_exec (s : State) : ∃ i u, executeInstruction s = exec i u ∧
    u.cycleCount = s.cycleCount + fetchTicks i := by
  obtain ⟨hlength, hcount⟩ := fetchOperands_length_cycleCount (fetchByte s).1 (fetchByte s).2
  have hbyte : (fetchByte s).2.cycleCount = s.cycleCount + 1 := by simp [fetchByte]
  rw [executeInstruction, fetchInstruction]
  dsimp only
  cases hdecode : decode ((fetchByte s).1 :: (fetchOperands (fetchByte s).1 (fetchByte s).2).1) with
  | ok i rest =>
    obtain ⟨-, hticks⟩ := decode_take_instrLength hdecode
    refine ⟨i, _, rfl, ?_⟩
    omega
  | rejected e =>
    have hshort := (decode_cons_rejected_iff _ _).1 ⟨e, hdecode⟩
    omega

/-- Settles O10: the fetch always decodes, every instruction has a next state, and the other run states are the step's own
cases. -/
theorem onlyRunningSteps : Obligations.OnlyRunningSteps := by
  intro s
  refine ⟨fun h => ?running, fun r h => by rw [step, h], fun h => ?poweredOff⟩
  case running =>
    obtain ⟨i, u, he, -⟩ := executeInstruction_eq_exec (pollInterrupts s)
    obtain ⟨t, ht, -⟩ := Activity.exec i (Activity.start (s := u))
    exact ⟨t, by rw [step_of_running h, he, ht]⟩
  case poweredOff => rcases h with h | h <;> rw [step, h]

/-! ## The IRQ wire (R614, R672) -/

theorem Mapper.raisesIrq_of_number_ne {m : Mapper} (h : m.number ≠ 4) : m.raisesIrq = false := by
  cases m with
  | mmc3 r => exact absurd rfl h
  | nrom | mmc1 r | unrom bank | axrom bank => rfl

theorem ppuDot_irqFlag_of_number_ne {s : State} (h : s.mapper.number ≠ 4) : (ppuDot s).irqFlag = s.irqFlag := by
  simp [ppuDot, Mapper.raisesIrq_of_number_ne h]

@[simp] theorem ppuDot_mapper_number (s : State) : (ppuDot s).mapper.number = s.mapper.number := by
  unfold ppuDot
  dsimp only
  split <;> simp

@[simp] theorem tick_mapper_number (s : State) : (tick s).mapper.number = s.mapper.number := by simp [tick]

theorem tick_irqFlag_of_number_ne {s : State} (h : s.mapper.number ≠ 4) : (tick s).irqFlag = s.irqFlag := by
  rw [tick, ppuDot_irqFlag_of_number_ne (by simpa using h), ppuDot_irqFlag_of_number_ne (by simpa using h),
    ppuDot_irqFlag_of_number_ne (by simpa using h)]

theorem dmaFrom_irqFlag_of_number_ne (page : Byte) (n : Nat) {s : State} (h : s.mapper.number ≠ 4) :
    (dmaFrom page n s).irqFlag = s.irqFlag := by
  induction n generalizing s with
  | zero => rfl
  | succ n ih =>
    rw [dmaFrom, ih, oamDataWrite, ppuRegWrite_irqFlag, tick_irqFlag_of_number_ne, memRead_irqFlag,
      tick_irqFlag_of_number_ne h]
    all_goals simpa [oamDataWrite] using h

theorem mapperWrite_irqFlag_of_number_ne (a : Addr) (v : Byte) {s : State} (h : s.mapper.number ≠ 4) :
    (mapperWrite a v s).irqFlag = s.irqFlag := by
  unfold mapperWrite mapperRegisterWrite
  split_ifs
  · rfl
  · rfl
  · cases hm : s.mapper with
    | mmc3 r => exact absurd (congrArg Mapper.number hm) h
    | nrom | mmc1 r | unrom bank | axrom bank => rfl

theorem busWrite_irqFlag_of_number_ne (a : Addr) (v : Byte) {s : State} (h : s.mapper.number ≠ 4) :
    (busWrite a v s).irqFlag = s.irqFlag := by
  unfold busWrite
  dsimp only
  split_ifs
  · rfl
  · exact ppuRegWrite_irqFlag _ v s
  · rfl
  · exact dmaFrom_irqFlag_of_number_ne v 256 h
  · rfl
  · rfl
  · rfl
  · exact mapperWrite_irqFlag_of_number_ne a v h

theorem irqFlag_of_activity {s t : State} (h : Activity s t) (hn : s.mapper.number ≠ 4) : t.irqFlag = s.irqFlag := by
  have number {u : State} (hu : Activity s u) : u.mapper.number ≠ 4 := (cartridgeKept_activity hu).number ▸ hn
  induction h with
  | start => rfl
  | cpu c _ ih => exact ih
  | tick hu ih => exact (tick_irqFlag_of_number_ne (number hu)).trans ih
  | read a _ ih => exact (busRead_irqFlag a _).trans ih
  | write a v hu ih => exact (busWrite_irqFlag_of_number_ne a v (number hu)).trans ih
  | acknowledgeNmi _ ih => exact ih
  | halt r _ ih => exact ih

/-- Settles O12: no elementary operation of a step moves the IRQ flag on another mapper than MMC3. -/
theorem onlyMmc3DrivesIrq : Obligations.OnlyMmc3DrivesIrq :=
  fun _ _ h hn => irqFlag_of_activity (activity_of_step h) hn

end Sys2Proof.Machine
end

section
/-! SUPPORT. The frame of `run_frame` (R663): the fewest and the most ticks that a step takes, and the loop of steps. -/

namespace Sys2Proof.Machine

/-! ## The ticks of a step -/

theorem readTicks_bounds (m : ReadOperand) : 2 ≤ readTicks m ∧ readTicks m ≤ 6 := by
  cases m <;> simp [readTicks]

theorem writeTicks_bounds (m : WriteOperand) : 3 ≤ writeTicks m ∧ writeTicks m ≤ 6 := by
  cases m <;> simp [writeTicks]

theorem rmwTicks_bounds (m : RmwOperand) : 5 ≤ rmwTicks m ∧ rmwTicks m ≤ 8 := by
  cases m <;> simp [rmwTicks]

theorem shiftTicks_bounds (m : ShiftOperand) : 2 ≤ shiftTicks m ∧ shiftTicks m ≤ 8 := by
  cases m with
  | acc => decide
  | mem m =>
    have := rmwTicks_bounds m
    simp only [shiftTicks]
    omega

/-- Without OAM DMA an instruction takes 1 to 8 ticks (R676). -/
theorem rowTicks_bounds (i : Instr) (s : State) : 1 ≤ baseTicks i ∧ baseTicks i + extraTicks i s ≤ 8 := by
  have branch {off : Byte} {cond : Bool} (h : branchTaken i s = some (off, cond)) : extraTicks i s ≤ 2 := by
    rw [extraTicks_of_branchTaken h]
    split_ifs <;> decide
  cases i with
  | lda m | ldx m | ldy m | lax m | adc m | sbc m | and m | ora m | eor m | cmp m | cpx m | cpy m | bit m
  | nopZeroPage op m | nopAbsolute op m =>
    have := readTicks_bounds m
    simp only [baseTicks, extraTicks]
    split <;> omega
  | sta m | stx m | sty m | sax m =>
    have := writeTicks_bounds m
    simp only [baseTicks, extraTicks, branchTaken]
    omega
  | inc m | dec m | dcp m | isb m | slo m | rla m | sre m | rra m =>
    have := rmwTicks_bounds m
    simp only [baseTicks, extraTicks, branchTaken]
    omega
  | asl m | lsr m | rol m | ror m =>
    have := shiftTicks_bounds m
    simp only [baseTicks, extraTicks, branchTaken]
    omega
  | bcc off | bcs off | beq off | bne off | bmi off | bpl off | bvc off | bvs off =>
    have := branch rfl
    simp only [baseTicks]
    omega
  | jmp m => cases m <;> simp [baseTicks, extraTicks, branchTaken]
  | _ => simp [baseTicks, extraTicks, branchTaken]

theorem dmaTicks_le (i : Instr) (s : State) : dmaTicks i s ≤ 512 := by
  unfold dmaTicks
  split <;> decide

theorem interrupt_cycleCount {k : InterruptKind} (s : State) (hk : k = .nmi ∨ k = .irq) :
    (interrupt k s).cycleCount = s.cycleCount + 7 := by
  have hvector : (loadVector k.vector ((interruptSave k s).setFlag .interruptDisable true)).cycleCount = s.cycleCount + 7 := by
    rw [loadVector_eq, State.setPc_cycleCount, ticks_cycleCount, State.setFlag_cycleCount]
    rcases hk with rfl | rfl <;> rw [interruptSave, push_cycleCount, pushAddr_cycleCount, tick_cycleCount, tick_cycleCount]
  unfold interrupt
  dsimp only
  split <;> exact hvector

theorem pollInterrupts_cycleCount (s : State) :
    s.cycleCount ≤ (pollInterrupts s).cycleCount ∧ (pollInterrupts s).cycleCount ≤ s.cycleCount + 7 := by
  unfold pollInterrupts
  split_ifs
  · rw [interrupt_cycleCount s (.inl rfl)]; omega
  · rw [interrupt_cycleCount s (.inr rfl)]; omega
  · omega

/-- A running machine's step takes 1 to 527 ticks: 7 of an interrupt, 8 of an instruction, 512 of OAM DMA. -/
theorem step_cycleCount {s : State} (h : s.run = .running) :
    ∃ t, step s = .next t ∧ s.cycleCount + 1 ≤ t.cycleCount ∧ t.cycleCount ≤ s.cycleCount + 527 := by
  obtain ⟨i, u, he, hu⟩ := executeInstruction_eq_exec (pollInterrupts s)
  obtain ⟨t, ht, hticks⟩ := instructionTicks i u
  have hpoll := pollInterrupts_cycleCount s
  have hrow := rowTicks_bounds i u
  have hdma := dmaTicks_le i u
  refine ⟨t, by rw [step_of_running h, he, ht], ?_, ?_⟩ <;> omega

/-! ## The run state over a step (R15) -/

theorem busWrite_run (a : Addr) (v : Byte) (s : State) :
    (busWrite a v s).run = s.run ∨ ∃ r, (busWrite a v s).run = .halted r := by
  unfold busWrite
  dsimp only
  split_ifs
  · exact .inl rfl
  · exact .inl (ppuRegWrite_run _ v s)
  · exact .inl rfl
  · exact .inl (dmaFrom_run v 256 s)
  · exact .inl rfl
  · exact .inl rfl
  · exact .inr ⟨_, rfl⟩
  · unfold mapperWrite mapperRegisterWrite
    split_ifs
    · exact .inr ⟨_, rfl⟩
    · exact .inl rfl
    · cases s.mapper <;> exact .inl rfl

/-- No elementary operation of a step leaves `Halted` or enters another state than that. -/
theorem run_of_activity {s t : State} (h : Activity s t) : t.run = s.run ∨ ∃ r, t.run = .halted r := by
  induction h with
  | start => exact .inl rfl
  | cpu c _ ih => exact ih
  | tick _ ih => exact ih
  | read a _ ih => rwa [busRead_run]
  | write a v _ ih =>
    obtain h | h := busWrite_run a v _
    · rwa [h]
    · exact .inr h
  | acknowledgeNmi _ ih => exact ih
  | halt r _ _ => exact .inr ⟨r, rfl⟩

/-! ## The loop of steps -/

/-- What `run_frame` leaves: a machine that runs with the frame's ticks spent, or one that a fatal condition halted; at most
the ticks of the last step beyond the frame. -/
abbrev FrameEnded (t : State) : Prop :=
  (t.run = .running → 29781 ≤ t.cycleCount) ∧ t.cycleCount ≤ 30307 ∧ (t.run = .running ∨ ∃ r, t.run = .halted r)

/-- The loop ends within as many steps as ticks are left of the frame. -/
theorem runLoop_frameEnded (n : Nat) {s : State} (hrun : s.run = .running ∨ ∃ r, s.run = .halted r)
    (hbound : s.cycleCount ≤ 30307) (hleft : s.run = .running → 29781 ≤ s.cycleCount + n) :
    ∃ t, runLoop n s = .next t ∧ FrameEnded t := by
  induction n generalizing s with
  | zero => exact ⟨s, rfl, hleft, hbound, hrun⟩
  | succ n ih =>
    rw [runLoop]
    by_cases hgo : s.run = .running ∧ s.cycleCount < Config.cyclesPerFrame
    · obtain ⟨hrunning, hlt⟩ := hgo
      have hlt : s.cycleCount < 29781 := hlt
      obtain ⟨t, ht, hmore, hless⟩ := step_cycleCount hrunning
      have hrun' : t.run = .running ∨ ∃ r, t.run = .halted r := hrunning ▸ run_of_activity (activity_of_step ht)
      rw [if_pos ⟨hrunning, hlt⟩, ht]
      exact ih hrun' (by omega) fun _ => by have := hleft hrunning; omega
    · rw [if_neg hgo]
      exact ⟨s, rfl, fun h => Nat.le_of_not_lt fun hlt => hgo ⟨h, hlt⟩, hbound, hrun⟩

theorem runFrame_of_running {s : State} (h : s.run = .running) : runFrame s =
    runLoop Config.cyclesPerFrame { s with cycleCount := s.cycleCount % Config.cyclesPerFrame } := by
  unfold runFrame
  split
  · rfl
  all_goals
    rename_i h'
    rw [h] at h'
    cases h'

/-- Settles O14: each step takes a tick at least and 527 at most, so the loop stops in time and not far beyond the frame. -/
theorem runFrameEnds : Obligations.RunFrameEnds := by
  intro s hrun
  have hmod : s.cycleCount % Config.cyclesPerFrame < 29781 := Nat.mod_lt _ (by decide)
  obtain ⟨t, ht, hend⟩ := runLoop_frameEnded Config.cyclesPerFrame
    (s := { s with cycleCount := s.cycleCount % Config.cyclesPerFrame }) (.inl hrun) (hmod.le.trans (by decide))
    fun _ => Nat.le_add_left _ _
  exact ⟨t, by rw [runFrame_of_running hrun, ht], hend⟩

end Sys2Proof.Machine
end

section
/-! SUPPORT. The sequences of an NMI, an IRQ and `BRK` (R283, R611 to R615): three bytes pushed, I set, `PC` from the vector; and
the return from them (R626). -/

namespace Sys2Proof.Machine

/-- A vector's bytes lie outside RAM and PRG-RAM, so no byte stored there is one of theirs. -/
theorem sameByte_of_vector (s : State) (a : Addr) {b : Addr} (h : 0x8000 ≤ b.toNat) : sameByte s a b = false := by
  have h1 : ¬b.toNat ≤ 0x1FFF := by omega
  have h2 : ¬b.toNat ≤ 0x7FFF := by omega
  simp [sameByte, h1, h2]

theorem vector_bounds (k : InterruptKind) : 0x8000 ≤ k.vector.toNat ∧ 0x8000 ≤ (k.vector + 1).toNat := by cases k <;> decide

/-- The end of a sequence, I set and `PC` from the vector, after bytes were pushed that no flag change came with: what was stored
stays stored, and the vector reads as it did before. -/
theorem setI_loadVector_results (k : InterruptKind) {l : List (Addr × Byte)} {s u : State} (hstored : Stored l s u)
    (hl : ∀ e ∈ l, isMemory e.1 = true) (hregs : RegistersKept [.sp] s u) (hp : u.p = s.p) :
    let t := loadVector k.vector (u.setFlag .interruptDisable true)
    t.pc = addrOf (peek k.vector s) (peek (k.vector + 1) s) ∧ t.sp = u.sp ∧ RegistersKept [.sp] s t ∧
      t.flag .interruptDisable = true ∧ FlagsKept [.interruptDisable] s t ∧ Stored l s t := by
  obtain ⟨hv, hv'⟩ := isMemory_vector k
  obtain ⟨hb, hb'⟩ := vector_bounds k
  obtain ⟨-, hother, -⟩ := id hstored
  have hlow : peek k.vector u = peek k.vector s := hother _ hv fun e _ => sameByte_of_vector s e.1 hb
  have hhigh : peek (k.vector + 1) u = peek (k.vector + 1) s := hother _ hv' fun e _ => sameByte_of_vector s e.1 hb'
  have hsame (a : Addr) : peek a (u.setFlag .interruptDisable true) = peek a u := rfl
  rw [loadVector_eq, hsame, hsame, hlow, hhigh, ticks_setFlag]
  refine ⟨rfl, by simp, ?registers, by simp, flagsKept_of fun f => ?flag, ?stored⟩
  case registers =>
    exact registersKept_of (.inr ((ticks_a 2 u).trans (hregs .a (by decide)))) (.inr ((ticks_x 2 u).trans (hregs .x (by decide))))
      (.inr ((ticks_y 2 u).trans (hregs .y (by decide)))) (.inl (List.mem_singleton_self _))
  case flag =>
    by_cases hf : f = .interruptDisable
    · exact .inl (List.mem_singleton.2 hf)
    · exact .inr (by simp [hf, flag_of_p ((ticks_p 2 u).trans hp)])
  case stored =>
    have hticks := stored_kept hstored hl (storageKept_ticks 2 u) (controlsKept_ticks 2 u)
    generalize ticks 2 u = v at hticks
    exact hticks

/-- The three bytes a sequence pushes, `PC` and a status byte (R611). -/
def pushedBytes (s : State) (pc : Addr) (p : Byte) : List (Addr × Byte) :=
  [(stackAddr s.sp, highByte pc), (stackAddr (s.sp - 1), lowByte pc), (stackAddr (s.sp - 2), p)]

theorem isMemory_pushedBytes (s : State) (pc : Addr) (p : Byte) : ∀ e ∈ pushedBytes s pc p, isMemory e.1 = true := by
  simp [pushedBytes, isMemory_stackAddr]

/-- The pushes of a sequence after its leading ticks. -/
theorem push_pushAddr_ticks_results (n : Nat) (pc : Addr) (p : Byte) {s : State} (hi : s.Inv) :
    let u := push p (pushAddr pc (ticks n s))
    Stored (pushedBytes s pc p) s u ∧ RegistersKept [.sp] s u ∧ u.p = s.p ∧ u.sp = s.sp - 3 := by
  have hram : (ticks n s).ram.wf = true := by rw [ticks_ram]; exact hi.1.1
  refine ⟨stored_push_three _ _ _ hram (storageKept_ticks n s) (controlsKept_ticks n s) (ticks_sp n s), ?_, ?_, ?_⟩
  · apply registersKept_of <;> simp [pushAddr]
  · simp [pushAddr]
  · rw [pushAddr, push_sp, push_sp, push_sp, ticks_sp, (sp_sub s.sp).1, (sp_sub s.sp).2]

/-- The sequence of an NMI or an IRQ before the NMI is acknowledged (R611). -/
theorem loadVector_interruptSave_results {k : InterruptKind} (hk : k = .nmi ∨ k = .irq) {s : State} (hi : s.Inv) :
    let t := loadVector k.vector ((interruptSave k s).setFlag .interruptDisable true)
    t.pc = addrOf (peek k.vector s) (peek (k.vector + 1) s) ∧ t.sp = s.sp - 3 ∧ RegistersKept [.sp] s t ∧
      t.flag .interruptDisable = true ∧ FlagsKept [.interruptDisable] s t ∧ Stored (pushedBytes s s.pc (s.p &&& 0xCF)) s t := by
  have hsave : interruptSave k s = push (s.p &&& 0xCF) (pushAddr s.pc (ticks 2 s)) := by rcases hk with rfl | rfl <;> rfl
  obtain ⟨hstored, hregs, hp, hsp⟩ := push_pushAddr_ticks_results 2 s.pc (s.p &&& 0xCF) hi
  rw [← hsave] at hstored hregs hp hsp
  obtain ⟨h1, h2, h3⟩ := setI_loadVector_results k hstored (isMemory_pushedBytes _ _ _) hregs hp
  exact ⟨h1, h2.trans hsp, h3⟩

theorem interrupt_nmi_eq (s : State) : interrupt .nmi s =
    { loadVector InterruptKind.nmi.vector ((interruptSave .nmi s).setFlag .interruptDisable true) with nmiFlag := false } := by
  rw [interrupt, if_pos rfl]

theorem interrupt_eq_of_ne_nmi {k : InterruptKind} (h : k ≠ .nmi) (s : State) :
    interrupt k s = loadVector k.vector ((interruptSave k s).setFlag .interruptDisable true) := by
  rw [interrupt, if_neg h]

/-- Acknowledging the NMI changes nothing that was stored. -/
theorem stored_acknowledged {l : List (Addr × Byte)} {s t : State} (h : Stored l s t) :
    Stored l { s with nmiFlag := false } { t with nmiFlag := false } := by
  obtain ⟨h1, h2, h3, h4, h5, h6, h7, ⟨hppu, hmapper, hhost, ⟨-, hirq⟩, hrest⟩⟩ := h
  exact ⟨h1, h2, h3, h4, h5, h6, h7, hppu, hmapper, hhost, ⟨id, hirq⟩, hrest⟩

/-- Settles O34: both sequences are the same pushes and the end of the sequence; the NMI's is then acknowledged. -/
theorem interruptEntry : Obligations.InterruptEntry := by
  intro s hi pushed
  refine ⟨?nmi, ?irq⟩
  case nmi =>
    have hcount := interrupt_cycleCount s (.inl rfl : InterruptKind.nmi = .nmi ∨ _)
    obtain ⟨hpc, hsp, hregs, hflag, hflags, hstored⟩ := loadVector_interruptSave_results (.inl rfl : InterruptKind.nmi = .nmi ∨ _) hi
    rw [interrupt_nmi_eq] at hcount ⊢
    generalize loadVector _ _ = t at *
    exact ⟨rfl, hpc, hsp, fun r => hregs r, hflag, fun f => hflags f, stored_acknowledged hstored, hcount⟩
  case irq =>
    have hcount := interrupt_cycleCount s (.inr rfl : _ ∨ InterruptKind.irq = .irq)
    obtain ⟨hpc, hsp, hregs, hflag, hflags, hstored⟩ := loadVector_interruptSave_results (.inr rfl : _ ∨ InterruptKind.irq = .irq) hi
    rw [interrupt_eq_of_ne_nmi (by decide)] at hcount ⊢
    generalize loadVector _ _ = t at *
    exact ⟨hpc, hsp, hregs, hflag, hflags, hstored, hcount⟩

/-- Settles O33: `BRK` is the sequence after one tick, with `PC` past its padding byte. -/
theorem brkResult : Obligations.BrkResult := by
  intro s hi
  have hi' : (s.setPc (s.pc + 1)).Inv := hi
  obtain ⟨hstored, hregs, hp, hsp⟩ := push_pushAddr_ticks_results 1 (s.pc + 1) (s.p ||| 0x30) hi'
  obtain ⟨h1, h2, h3, h4, h5, h6⟩ := setI_loadVector_results .brk hstored (isMemory_pushedBytes _ _ _) hregs hp
  refine ⟨_, rfl, ?_⟩
  rw [interrupt_brk_cycleCount, interrupt_eq_of_ne_nmi (by decide)]
  exact ⟨h1, h2.trans hsp, h3, h4, h5, h6, rfl⟩

/-! ## The return (R282, R626) -/

/-- What `RTI` finds after the entry: `SP` three lower, and the three bytes above it. -/
theorem interrupt_stack {k : InterruptKind} (hk : k = .nmi ∨ k = .irq) {s : State} (hi : s.Inv) :
    (interrupt k s).sp = s.sp - 3 ∧ peek (stackAddr (s.sp - 2)) (interrupt k s) = s.p &&& 0xCF ∧
      peek (stackAddr (s.sp - 1)) (interrupt k s) = lowByte s.pc ∧ peek (stackAddr s.sp) (interrupt k s) = highByte s.pc := by
  obtain ⟨-, hsp, -, -, -, ⟨hbytes, -⟩⟩ := loadVector_interruptSave_results hk hi
  have hhigh := hbytes (stackAddr s.sp, highByte s.pc) (by simp [pushedBytes])
  have hlow := hbytes (stackAddr (s.sp - 1), lowByte s.pc) (by simp [pushedBytes])
  have hstatus := hbytes (stackAddr (s.sp - 2), s.p &&& 0xCF) (by simp [pushedBytes])
  rcases hk with rfl | rfl
  · rw [interrupt_nmi_eq]
    generalize loadVector _ _ = t at *
    exact ⟨hsp, hstatus, hlow, hhigh⟩
  · rw [interrupt_eq_of_ne_nmi (by decide)]
    exact ⟨hsp, hstatus, hlow, hhigh⟩

/-- A flag of the status byte that an interrupt pushed and `RTI` pulled. -/
theorem flag_statusPulled_pushed (p : Byte) (f : Flag) : (statusPulled (p &&& 0xCF)).getLsbD f.index =
    if f = .brk then false else if f = .reserved then true else p.getLsbD f.index := by
  rw [getLsbD_statusPulled, BitVec.getLsbD_and]
  cases f <;> simp [Flag.index]

/-- Settles O36: the bytes that `RTI` pulls are those that the entry pushed. -/
theorem interruptReturns : Obligations.InterruptReturns := by
  intro k s u hi hk husp huram
  obtain ⟨hsp, hstatus, hlow, hhigh⟩ := interrupt_stack hk hi
  rw [hsp] at husp
  have hsp1 : u.sp + 1 = s.sp - 2 := by rw [husp]; bv_omega
  have hsp2 : u.sp + 2 = s.sp - 1 := by rw [husp]; bv_omega
  have hsp3 : u.sp + 3 = s.sp := by rw [husp]; bv_omega
  have hreturn := execRti_eq u
  rw [hsp1, hsp2, hsp3, peek_stackAddr_congr huram, peek_stackAddr_congr huram, peek_stackAddr_congr huram, hstatus, hlow,
    hhigh, addrOf_lowByte_highByte] at hreturn
  have hflag (f : Flag) := flag_statusPulled_pushed s.p f
  refine ⟨_, hreturn, rfl, rfl, fun f hf => (hflag f).trans ?_, (hflag .brk).trans rfl, (hflag .reserved).trans rfl⟩
  simp only [List.mem_cons, List.not_mem_nil, or_false, not_or] at hf
  rw [if_neg hf.1, if_neg hf.2]
  rfl

end Sys2Proof.Machine
end

section
/-! SUPPORT. OAM DMA (R93): its rounds as a fold over the bytes of the page, and what each leaves in the sprite table. -/

namespace Sys2Proof.Machine

/-- Byte `i` of a page. -/
def pageAddr (page : Byte) (i : Nat) : Addr := BitVec.ofNat 16 (page.toNat * 256 + i)

theorem pageAddr_toNat (page : Byte) {i : Nat} (hi : i < 256) : (pageAddr page i).toNat = page.toNat * 256 + i := by
  have := page.isLt
  rw [pageAddr, BitVec.toNat_ofNat, Nat.mod_eq_of_lt (by omega)]

theorem addrOf_eq_pageAddr (page : Byte) {i : Nat} (hi : i < 256) : addrOf (BitVec.ofNat 8 i) page = pageAddr page i := by
  apply BitVec.eq_of_toNat_eq
  rw [pageAddr_toNat page hi, addrOf, BitVec.toNat_append, BitVec.toNat_ofNat, Nat.mod_eq_of_lt (by omega),
    ← Nat.shiftLeft_add_eq_or_of_lt hi, Nat.shiftLeft_eq]

theorem isMemory_pageAddr {page : Byte} (h : page.toNat ≤ 0x1F ∨ 0x60 ≤ page.toNat) {i : Nat} (hi : i < 256) :
    isMemory (pageAddr page i) = true := by
  simp only [isMemory, pageAddr_toNat page hi, Bool.or_eq_true, decide_eq_true_eq]
  omega

/-- One round: a timed read of byte `i` of the page and a timed write of it to $2004. -/
def dmaRound (page : Byte) (s : State) (i : Nat) : State :=
  let r := memRead (pageAddr page i) s
  memWrite 0x2004 r.1 r.2

theorem dmaFrom_succ (page : Byte) (n : Nat) (hn : n < 256) (s : State) :
    dmaFrom page (n + 1) s = dmaFrom page n (dmaRound page s (255 - n)) := by
  rw [dmaFrom, addrOf_eq_pageAddr page (by omega), oamDataWrite_eq]
  rfl

/-- The last `n` rounds are those of the page's last `n` bytes. -/
theorem dmaFrom_eq_foldl (page : Byte) {n : Nat} (hn : n ≤ 256) (s : State) :
    dmaFrom page n s = (List.range' (256 - n) n).foldl (dmaRound page) s := by
  induction n generalizing s with
  | zero => rfl
  | succ n ih =>
    have hfirst : 256 - (n + 1) = 255 - n := by omega
    have hnext : 255 - n + 1 = 256 - n := by omega
    rw [dmaFrom_succ page n (by omega), ih (by omega), hfirst, List.range'_succ, List.foldl_cons, hnext]

section
variable {page : Byte} (hpage : page.toNat ≤ 0x1F ∨ 0x60 ≤ page.toNat)
include hpage

/-- A round on a page of memory stores one byte of the sprite table and steps `oam_addr`. -/
theorem dmaRound_results {i : Nat} (hi : i < 256) (s : State) :
    (dmaRound page s i).ppu.oam = s.ppu.oam.write s.ppu.oamAddr.toNat (peek (pageAddr page i) s) ∧
      (dmaRound page s i).ppu.oamAddr = s.ppu.oamAddr + 1 ∧
      ∀ a, isMemory a = true → peek a (dmaRound page s i) = peek a s := by
  have e : dmaRound page s i = oamDataWrite (peek (pageAddr page i) s) (tick s) := by
    rw [dmaRound, memRead_memory s (isMemory_pageAddr hpage hi), oamDataWrite_eq]
  rw [e]
  refine ⟨?oam, ?oamAddr, fun a ha => peek_congr (by simp) (by simp) (by simp) ha⟩
  case oam => simp [oamDataWrite, ppuRegWrite, Ppu.writeReg]
  case oamAddr => simp [oamDataWrite, ppuRegWrite, Ppu.writeReg]

/-- The last `n` rounds put the page's last `n` bytes into the `n` bytes of the sprite table from `oam_addr` up, modulo 256. -/
theorem dmaFrom_oam {n : Nat} (hn : n ≤ 256) {s : State} (hinv : s.Inv) {j : Nat} (hj : j < 256) :
    (dmaFrom page n s).ppu.oam.read ((s.ppu.oamAddr.toNat + j) % 256) =
      if j < n then peek (pageAddr page (256 - n + j)) s else s.ppu.oam.read ((s.ppu.oamAddr.toNat + j) % 256) := by
  induction n generalizing s j with
  | zero => rfl
  | succ n ih =>
    have hlt : 255 - n < 256 := by omega
    obtain ⟨hoam, haddr, hpeek⟩ := dmaRound_results hpage hlt s
    have hround : (dmaRound page s (255 - n)).Inv := State.inv_memWrite _ _ (State.inv_memRead _ hinv)
    obtain ⟨-, ⟨-, -, ⟨-, -, ⟨hwf, -⟩⟩, -⟩, -⟩ := hinv
    have haddr' : (dmaRound page s (255 - n)).ppu.oamAddr.toNat = (s.ppu.oamAddr.toNat + 1) % 256 := by
      rw [haddr, BitVec.toNat_add]; rfl
    have hown := s.ppu.oamAddr.isLt
    rw [dmaFrom_succ page n (by omega)]
    cases j with
    | zero =>
      have hsame : (s.ppu.oamAddr.toNat + 0) % 256 = ((dmaRound page s (255 - n)).ppu.oamAddr.toNat + 255) % 256 := by omega
      have hstart : 256 - (n + 1) + 0 = 255 - n := by omega
      rw [if_pos (by omega), hsame, ih (by omega) hround (by omega), if_neg (by omega), ← hsame, hoam, hstart,
        Nat.add_zero, Nat.mod_eq_of_lt hown, Memory.read_write_same _ _ _ hwf]
    | succ j =>
      have hnext : (s.ppu.oamAddr.toNat + (j + 1)) % 256 = ((dmaRound page s (255 - n)).ppu.oamAddr.toNat + j) % 256 := by omega
      have hbyte : 256 - (n + 1) + (j + 1) = 256 - n + j := by omega
      rw [hnext, ih (by omega) hround (by omega), ← hnext, hbyte]
      by_cases hjn : j < n
      · rw [if_pos hjn, if_pos (by omega), hpeek _ (isMemory_pageAddr hpage (by omega))]
      · rw [if_neg hjn, if_neg (by omega), hoam, Memory.read_write_ne _ _ _ _ (by omega)]

end

theorem busWrite_dma (page : Byte) (s : State) : busWrite 0x4014 page s = dmaFrom page 256 s := by
  unfold busWrite
  dsimp only
  split_ifs <;> first | contradiction | rfl

/-- Settles O42: the DMA is the fold of its rounds, and all 256 of them go once around the sprite table. -/
theorem oamDmaCopiesPage : Obligations.OamDmaCopiesPage := by
  intro page s t copied
  have ht : t = dmaFrom page 256 s := busWrite_dma page s
  refine ⟨?fold, fun hinv hpage => ?page⟩
  case fold => rw [ht, dmaFrom_eq_foldl page le_rfl, List.range_eq_range']; rfl
  case page =>
    obtain ⟨-, -, -, -, haddr, -⟩ := dmaFrom_kept page 256 s
    rw [ht]
    refine ⟨fun i hi => ?byte, haddr.trans (BitVec.add_zero _), dmaFrom_cycleCount page 256 s⟩
    rw [dmaFrom_oam hpage le_rfl hinv hi, if_pos hi, Nat.sub_self, Nat.zero_add]
    rfl

end Sys2Proof.Machine
end

section
/-! SUPPORT. PPUSTATUS (R406), the mirrors of the PPU address space (R422, R424) and the scroll increments (R463, R464). -/

namespace Sys2Proof.Machine

/-! ## PPUSTATUS (R406) -/

/-- The bits of the masks that split the status byte: the open bus below bit 5, the flags from there, VBlank at bit 7. -/
theorem getLsbD_statusMasks (k : Nat) : (0x1F : Byte).getLsbD k = decide (k < 5) ∧
    (0xE0 : Byte).getLsbD k = (decide (5 ≤ k) && decide (k < 8)) ∧ (0x7F : Byte).getLsbD k = decide (k < 7) := by
  by_cases hk : k < 8
  · interval_cases k <;> decide
  · have h5 : ¬k < 5 := by omega
    have h7 : ¬k < 7 := by omega
    simp [BitVec.getLsbD_of_ge _ k (Nat.le_of_not_lt hk), hk, h5, h7]

/-- Settles O44, by the bits of the two masks. -/
theorem statusRead : Obligations.StatusRead := by
  intro a s ha h2 r
  have hread : r = ppuRegRead .status s := busRead_register .status s ha h2
  rw [hread]
  refine ⟨fun k => ?value, fun k => ?flags, rfl⟩
  all_goals
    obtain ⟨hlow, hhigh, hclear⟩ := getLsbD_statusMasks k
    have hout : 8 ≤ k → s.ppu.status.getLsbD k = false := BitVec.getLsbD_of_ge _ k
  case value =>
    show ((s.ppu.busLatch &&& 0x1F) ||| (s.ppu.status &&& 0xE0)).getLsbD k = _
    rw [BitVec.getLsbD_or, BitVec.getLsbD_and, BitVec.getLsbD_and, hlow, hhigh]
    by_cases h5 : k < 5
    · simp [h5]
    · by_cases h8 : k < 8
      · simp [h5, h8, Nat.le_of_not_lt h5]
      · simp [h5, hout (Nat.le_of_not_lt h8)]
  case flags =>
    show (s.ppu.status &&& 0x7F).getLsbD k = _
    rw [BitVec.getLsbD_and, hclear]
    by_cases h8 : k < 8
    · have : k < 7 ↔ k ≠ 7 := by omega
      simp [this, Bool.and_comm]
    · simp [hout (Nat.le_of_not_lt h8)]

/-! ## Mirrors (R422, R424) -/

theorem half_and_bit_ten (a : Nat) : a / 2 &&& 0x400 = a / 0x400 / 2 % 2 * 0x400 := by
  have h : a / 2 &&& 2 ^ 10 = (Nat.testBit (a / 2) 10).toNat * 2 ^ 10 := Nat.and_two_pow _ _
  rw [Nat.toNat_testBit, Nat.div_right_comm] at h
  exact h

theorem palIndex_eq_of_lt {i : Nat} (h : i < 32) : palIndex i = if i ∈ [16, 20, 24, 28] then i - 16 else i := by
  interval_cases i <;> rfl

theorem palIndex_mod (a : Nat) : palIndex (a % 32) = palIndex a := by
  have h (a : Nat) : a &&& 0x1F = a % 32 := Nat.and_two_pow_sub_one_eq_mod a 5
  rw [palIndex, palIndex, h, h, Nat.mod_mod]

/-- Settles O48: the nametable's half by its bit of the address, the palette index by its five bits. -/
theorem ppuMirrors : Obligations.PpuMirrors := by
  intro a
  refine ⟨fun h h' => ⟨?vertical, ?horizontal, rfl, rfl, ?fourScreen⟩, fun m => ntMirror_lt m a, ?palette⟩
  case horizontal => simp only [ntMirror, half_and_bit_ten]
  case palette => rw [← palIndex_mod, palIndex_eq_of_lt (Nat.mod_lt _ (by decide))]
  all_goals
    simp only [ntMirror]
    omega

/-! ## Scroll increments (R463, R464) -/

theorem coarseX_toNat (r : BitVec 15) : (coarseX r).toNat = r.toNat % 32 := by
  simp [coarseX, BitVec.extractLsb'_toNat]

theorem coarseY_toNat (r : BitVec 15) : (coarseY r).toNat = r.toNat / 32 % 32 := by
  simp [coarseY, BitVec.extractLsb'_toNat, Nat.shiftRight_eq_div_pow]

theorem upperField_toNat (r : BitVec 15) : (r.extractLsb' 11 4).toNat = r.toNat / 0x800 := by
  have := r.isLt
  rw [BitVec.extractLsb'_toNat, Nat.shiftRight_eq_div_pow]
  omega

/-- At the last column, coarse X is cleared and the horizontal nametable bit turned; nothing else changes. -/
theorem fields_xor_horizontal {v : BitVec 15} (h : coarseX v = 31) :
    coarseX (v ^^^ 0x041F) = 0 ∧ coarseY (v ^^^ 0x041F) = coarseY v ∧
      (v ^^^ 0x041F).extractLsb' 11 4 = v.extractLsb' 11 4 ∧ (v ^^^ 0x041F).getLsbD 10 = !v.getLsbD 10 := by
  refine ⟨?_, ?_, ?_, ?_⟩
  · rw [coarseX, BitVec.extractLsb'_xor, ← coarseX, h]; rfl
  · rw [coarseY, BitVec.extractLsb'_xor]; exact BitVec.xor_zero
  · rw [BitVec.extractLsb'_xor]; exact BitVec.xor_zero
  · rw [BitVec.getLsbD_xor]; exact Bool.xor_true _

theorem hScroll_fields (v : BitVec 15) :
    (hScroll v).toNat / 32 % 32 = v.toNat / 32 % 32 ∧ (hScroll v).toNat / 0x800 = v.toNat / 0x800 ∧
      (hScroll v).toNat % 32 = (v.toNat % 32 + 1) % 32 ∧
      (hScroll v).getLsbD 10 = (v.getLsbD 10 ^^ decide (v.toNat % 32 = 31)) := by
  have hlast : coarseX v = 31 ↔ v.toNat % 32 = 31 := by rw [← coarseX_toNat, ← BitVec.toNat_inj]; rfl
  by_cases h : coarseX v = 31
  · obtain ⟨hx, hy, hupper, hbit⟩ := fields_xor_horizontal h
    have hlast := hlast.1 h
    rw [hScroll, if_pos h, ← coarseY_toNat, ← coarseY_toNat, ← upperField_toNat, ← upperField_toNat, ← coarseX_toNat, hx, hy,
      hupper, hbit, hlast]
    exact ⟨rfl, rfl, rfl, (Bool.xor_true _).symm⟩
  · have hnot : v.toNat % 32 ≠ 31 := fun he => h (hlast.2 he)
    have hsum : (v + 1).toNat = v.toNat + 1 := by
      have := v.isLt
      rw [BitVec.toNat_add]
      exact Nat.mod_eq_of_lt (by simp; omega)
    rw [hScroll, if_neg h, BitVec.getLsbD, BitVec.getLsbD, Nat.testBit_eq_decide_div_mod_eq, Nat.testBit_eq_decide_div_mod_eq,
      hsum, decide_eq_false hnot, Bool.xor_false]
    refine ⟨by omega, by omega, by omega, decide_eq_decide.2 (by omega)⟩

theorem putField_apart_fineY (v : BitVec 15) (f : BitVec 3) : coarseX (putField v 12 f) = coarseX v ∧
    coarseY (putField v 12 f) = coarseY v ∧ (putField v 12 f).getLsbD 10 = v.getLsbD 10 ∧
    (putField v 12 f).getLsbD 11 = v.getLsbD 11 ∧ fineY (putField v 12 f) = f :=
  ⟨extractLsb'_putField_apart _ _ _ (by decide) (by decide), extractLsb'_putField_apart _ _ _ (by decide) (by decide),
    getLsbD_putField _ _ _ (by decide), getLsbD_putField _ _ _ (by decide), extractLsb'_putField_same _ _ _ (by decide)⟩

theorem putField_apart_coarseY (v : BitVec 15) (f : BitVec 5) : coarseX (putField v 5 f) = coarseX v ∧
    fineY (putField v 5 f) = fineY v ∧ (putField v 5 f).getLsbD 10 = v.getLsbD 10 ∧
    (putField v 5 f).getLsbD 11 = v.getLsbD 11 ∧ coarseY (putField v 5 f) = f :=
  ⟨extractLsb'_putField_apart _ _ _ (by decide) (by decide), extractLsb'_putField_apart _ _ _ (by decide) (by decide),
    getLsbD_putField _ _ _ (by decide), getLsbD_putField _ _ _ (by decide), extractLsb'_putField_same _ _ _ (by decide)⟩

/-- Turning the vertical nametable bit leaves the three scroll fields and the other nametable bit. -/
theorem fields_xor_vertical (v : BitVec 15) : coarseX (v ^^^ 0x0800) = coarseX v ∧ coarseY (v ^^^ 0x0800) = coarseY v ∧
    fineY (v ^^^ 0x0800) = fineY v ∧ (v ^^^ 0x0800).getLsbD 10 = v.getLsbD 10 ∧ (v ^^^ 0x0800).getLsbD 11 = !v.getLsbD 11 := by
  refine ⟨?_, ?_, ?_, ?_, ?_⟩
  · rw [coarseX, BitVec.extractLsb'_xor]; exact BitVec.xor_zero
  · rw [coarseY, BitVec.extractLsb'_xor]; exact BitVec.xor_zero
  · rw [fineY, BitVec.extractLsb'_xor]; exact BitVec.xor_zero
  · rw [BitVec.getLsbD_xor]; exact Bool.xor_false _
  · rw [BitVec.getLsbD_xor]; exact Bool.xor_true _

theorem vScroll_fields (v : BitVec 15) : coarseX (vScroll v) = coarseX v ∧ (vScroll v).getLsbD 10 = v.getLsbD 10 ∧
    (fineY (vScroll v)).toNat = ((fineY v).toNat + 1) % 8 ∧
    (coarseY (vScroll v)).toNat = (if (fineY v).toNat < 7 then (coarseY v).toNat
      else if (coarseY v).toNat = 29 then 0 else ((coarseY v).toNat + 1) % 32) ∧
    (vScroll v).getLsbD 11 = (v.getLsbD 11 ^^ (decide ((fineY v).toNat = 7) && decide ((coarseY v).toNat = 29))) := by
  have hfine := (fineY v).isLt
  have hcoarse (k : Nat) (hk : k < 32) : coarseY v = BitVec.ofNat 5 k ↔ (coarseY v).toNat = k := by
    rw [← BitVec.toNat_inj, BitVec.toNat_ofNat, Nat.mod_eq_of_lt hk]
  rw [vScroll]
  by_cases h7 : (fineY v).toNat < 7
  · obtain ⟨hx, hy, h10, h11, hf⟩ := putField_apart_fineY v (fineY v + 1)
    have h7' : (fineY v).toNat ≠ 7 := by omega
    rw [if_pos h7, if_pos h7, hx, hy, h10, h11, hf]
    exact ⟨rfl, rfl, rfl, rfl, by simp [h7']⟩
  · have h7' : (fineY v).toNat = 7 := by omega
    obtain ⟨hx, hy, h10, h11, hf⟩ := putField_apart_fineY v 0
    rw [if_neg h7, if_neg h7, h7']
    dsimp only
    rw [hy]
    have put (f : BitVec 5) : _ := putField_apart_coarseY (putField v 12 (0 : BitVec 3)) f
    by_cases h31 : coarseY v = 31
    · obtain ⟨px, pf, p10, p11, py⟩ := put 0
      have h31' := (hcoarse 31 (by decide)).1 h31
      rw [if_pos h31, px, pf, p10, p11, py, hx, hf, h10, h11, h31']
      exact ⟨rfl, rfl, rfl, rfl, by simp⟩
    · by_cases h29 : coarseY v = 29
      · obtain ⟨px, pf, p10, p11, py⟩ := put 0
        obtain ⟨ux, uy, uf, u10, u11⟩ := fields_xor_vertical (putField (putField v 12 (0 : BitVec 3)) 5 (0 : BitVec 5))
        have h29' := (hcoarse 29 (by decide)).1 h29
        rw [if_neg h31, if_pos h29, ux, uy, uf, u10, u11, px, pf, p10, p11, py, hx, hf, h10, h11, h29']
        exact ⟨rfl, rfl, rfl, rfl, by simp⟩
      · obtain ⟨px, pf, p10, p11, py⟩ := put (coarseY v + 1)
        have h29' : (coarseY v).toNat ≠ 29 := fun he => h29 ((hcoarse 29 (by decide)).2 he)
        rw [if_neg h31, if_neg h29, px, pf, p10, p11, py, hx, hf, h10, h11, if_neg h29']
        exact ⟨rfl, rfl, rfl, BitVec.toNat_add _ _, by simp [h29']⟩

/-- Settles O49, by the fields of the two increments. -/
theorem scrollIncrements : Obligations.ScrollIncrements := fun v => ⟨hScroll_fields v, vScroll_fields v⟩

end Sys2Proof.Machine
end

section
/-! SUPPORT. What one dot does to the VBlank flag, the NMI request and the published frame (R455, R456, R488), and sprite
evaluation (R471). -/

namespace Sys2Proof.Machine

/-! ## The VBlank flag and the published frame through the parts of a dot -/

/-- The VBlank flag and what the host reads of the PPU. -/
def Ppu.shown (p : Ppu) : Bool × Frame × RgbFrame := (p.status.getLsbD 7, p.front, p.rgb)

theorem Ppu.shown_hScroll (p : Ppu) : p.hScroll.shown = p.shown := by unfold Ppu.hScroll; split <;> rfl
theorem Ppu.shown_vScroll (p : Ppu) : p.vScroll.shown = p.shown := by unfold Ppu.vScroll; split <;> rfl
theorem Ppu.shown_hUpdate (p : Ppu) : p.hUpdate.shown = p.shown := by unfold Ppu.hUpdate; split <;> rfl
theorem Ppu.shown_vUpdate (p : Ppu) : p.vUpdate.shown = p.shown := by unfold Ppu.vUpdate; split <;> rfl
theorem Ppu.shown_advance (p : Ppu) : p.advance.shown = p.shown := by unfold Ppu.advance; split <;> rfl

theorem Ppu.shown_fetchStep (p : Ppu) (b : PpuBus) (k : Nat) : (p.fetchStep b k).shown = p.shown := by
  unfold Ppu.fetchStep
  split <;> first | rfl | exact Ppu.shown_hScroll _

/-- Another flag of the status byte raised leaves VBlank. -/
theorem Ppu.shown_raise (p : Ppu) {m : Byte} (h : m.getLsbD 7 = false) (c : Bool) :
    { p with status := if c then p.status ||| m else p.status }.shown = p.shown := by
  cases c
  · rfl
  · show ((p.status ||| m).getLsbD 7, p.front, p.rgb) = p.shown
    rw [BitVec.getLsbD_or, h, Bool.or_false]
    rfl

theorem Ppu.shown_pixel (p : Ppu) (b : PpuBus) : (p.pixel b).shown = p.shown := by
  unfold Ppu.pixel
  dsimp only
  split
  · exact Ppu.shown_raise p (m := 0x40) rfl _
  · rfl

theorem Ppu.shown_spritePart (p : Ppu) (b : PpuBus) (pre : Bool) : (p.spritePart b pre).shown = p.shown := by
  unfold Ppu.spritePart
  dsimp only
  split_ifs
  · simp [Ppu.shown, Ppu.clearSecOam]
  · rfl
  · exact Ppu.shown_raise p (m := 0x20) rfl _
  · rfl
  · rfl

/-- Only dot 1 of the pre-render line clears VBlank, and no dot of a rendering line publishes. -/
theorem Ppu.shown_backgroundPart (p : Ppu) (b : PpuBus) {pre : Bool} (h : p.dot ≠ 1 ∨ pre = false) :
    (p.backgroundPart b pre).shown = p.shown := by
  have hp := Ppu.shown_pixel p b
  unfold Ppu.backgroundPart
  dsimp only
  split_ifs with h1 h2 h3 h4 h5 h6 h7
  · exact (Ppu.shown_fetchStep _ _ _).trans hp
  · exact (Ppu.shown_vScroll _).trans ((Ppu.shown_hScroll _).trans hp)
  · exact (Ppu.shown_hUpdate _).trans hp
  · exact Ppu.shown_vUpdate p
  · rfl
  · exact absurd h7 (h.resolve_left (absurd h6) ▸ Bool.false_ne_true)
  all_goals rfl

/-! ## A dot by the phase of its scanline (R450, R451) -/

theorem phaseOf_vblank (n : Nat) : phaseOf n = .vblank ↔ n = 241 := by
  unfold phaseOf
  split_ifs <;> simp <;> omega

theorem phaseOf_preRender (n : Nat) : phaseOf n = .preRender ↔ n = 261 := by
  unfold phaseOf
  split_ifs <;> simp <;> omega

section
variable {p : Ppu} (b : PpuBus) (hphase : p.phase = phaseOf p.scanline)
include hphase

/-- Dot 1 of scanline 241 sets VBlank (R455). -/
theorem Ppu.dotWork_vblankStart (hline : p.scanline = 241) (hdot : p.dot = 1) :
    p.dotWork b = { p with status := p.status ||| 0x80 } := by
  have hvblank : p.phase = .vblank := hphase.trans ((phaseOf_vblank _).2 hline)
  rw [Ppu.dotWork, hvblank]
  exact if_pos hdot

/-- Dot 1 of the pre-render line clears the three flags (R456). -/
theorem Ppu.dotWork_flagsClear (hline : p.scanline = 261) (hdot : p.dot = 1) :
    p.dotWork b = { p.clearSecOam.setFetch (ntAddr p.v) with status := p.status &&& 0x1F } := by
  have hpre : p.phase = .preRender := hphase.trans ((phaseOf_preRender _).2 hline)
  have hsprite : p.spritePart b true = { p.clearSecOam with status := p.status &&& 0x9F } := by
    rw [Ppu.spritePart, if_pos hdot]; rfl
  have hbackground (q : Ppu) (hq : q.dot = 1) :
      q.backgroundPart b true = { q.setFetch (ntAddr q.v) with status := q.status &&& 0x7F } := by
    rw [Ppu.backgroundPart, hq]; rfl
  have hmask : p.status &&& 0x9F &&& 0x7F = p.status &&& 0x1F := by rw [BitVec.and_assoc]; rfl
  rw [Ppu.dotWork, hpre]
  show p.renderDot b true = _
  rw [Ppu.renderDot, hsprite, ← hmask]
  exact hbackground _ hdot

/-- Dot 0 of scanline 240 publishes the frame (R488). -/
theorem Ppu.dotWork_frameDone (hline : p.scanline = 240) (hdot : p.dot = 0) : p.dotWork b = p.frameDone b := by
  have hpost : p.phase = .postRender := by rw [hphase, hline]; rfl
  rw [Ppu.dotWork, hpost]
  exact if_pos ⟨hline, hdot⟩

/-- Every other dot leaves VBlank and the published frame. -/
theorem Ppu.shown_dotWork (hflags : p.dot ≠ 1 ∨ (p.scanline ≠ 241 ∧ p.scanline ≠ 261))
    (hframe : p.scanline ≠ 240 ∨ p.dot ≠ 0) : (p.dotWork b).shown = p.shown := by
  unfold Ppu.dotWork
  split
  case h_1 => rw [Ppu.renderDot, Ppu.shown_backgroundPart _ _ (.inr rfl), Ppu.shown_spritePart]
  case h_2 hpre =>
    have hline : p.scanline = 261 := (phaseOf_preRender _).1 (hphase ▸ hpre)
    have hdot : (p.spritePart b true).dot ≠ 1 := by
      rw [(Ppu.counters_spritePart p b true).2]
      exact hflags.resolve_right fun hn => hn.2 hline
    rw [Ppu.renderDot, Ppu.shown_backgroundPart _ _ (.inl hdot), Ppu.shown_spritePart]
  case h_3 => rw [if_neg (by tauto)]
  case h_4 hvblank =>
    have hline : p.scanline = 241 := (phaseOf_vblank _).1 (hphase ▸ hvblank)
    rw [if_neg (hflags.resolve_right fun hn => hn.1 hline)]

/-- Every dot but the one of R488 leaves the published frame. -/
theorem Ppu.published_dotWork (hframe : p.scanline ≠ 240 ∨ p.dot ≠ 0) :
    (p.dotWork b).front = p.front ∧ (p.dotWork b).rgb = p.rgb := by
  by_cases hflags : p.dot ≠ 1 ∨ (p.scanline ≠ 241 ∧ p.scanline ≠ 261)
  · have hshown := Ppu.shown_dotWork b hphase hflags hframe
    exact ⟨congrArg (fun x => x.2.1) hshown, congrArg (fun x => x.2.2) hshown⟩
  · obtain ⟨hdot, hline | hline⟩ : p.dot = 1 ∧ (p.scanline = 241 ∨ p.scanline = 261) := by omega
    · rw [Ppu.dotWork_vblankStart b hphase hline hdot]; exact ⟨rfl, rfl⟩
    · rw [Ppu.dotWork_flagsClear b hphase hline hdot]; exact ⟨rfl, rfl⟩

end

theorem Ppu.status_advance (p : Ppu) : p.advance.status = p.status := by unfold Ppu.advance; split <;> rfl

/-- The NMI is raised at dot 1 of scanline 241 with PPUCTRL bit 7 set (R455). -/
theorem ppuDot_nmiFlag {s : State} (h : s.Inv) : (ppuDot s).nmiFlag =
    (s.nmiFlag || (decide (s.ppu.scanline = 241) && decide (s.ppu.dot = 1) && s.ppu.ctrl.getLsbD 7)) := by
  obtain ⟨⟨-, -, hphase⟩, -⟩ := State.ppu_inv h
  simp only [ppuDot, Ppu.raisesNmi, Ppu.nmiEnable, hphase, phaseOf_vblank]

/-- Settles O50, by the work of the two dots that move VBlank and by what every other dot leaves. -/
theorem vBlankAndNmi : Obligations.VBlankAndNmi := by
  intro s hinv t
  have hnmi := ppuDot_nmiFlag hinv
  obtain ⟨⟨-, -, hphase⟩, hstatus, -⟩ := State.ppu_inv hinv
  have hstep : t.ppu.status = (s.ppu.dotWork s.ppuBus).status := Ppu.status_advance _
  refine ⟨fun hline hdot => ⟨?set, ?raise⟩, fun hline hdot => ⟨?clear, ?keep⟩, fun hother => ⟨?vblank, ?request⟩⟩
  case set => rw [hstep, Ppu.dotWork_vblankStart _ hphase hline hdot]
  case raise => rw [hnmi, hline, hdot]; rfl
  case clear => rw [hstep, Ppu.dotWork_flagsClear _ hphase hline hdot]; exact hstatus
  case keep => rw [hnmi, hline]; exact Bool.or_false _
  case vblank =>
    rw [hstep]
    by_cases hframe : s.ppu.scanline ≠ 240 ∨ s.ppu.dot ≠ 0
    · exact congrArg Prod.fst (Ppu.shown_dotWork s.ppuBus hphase hother hframe)
    · obtain ⟨hline, hdot⟩ : s.ppu.scanline = 240 ∧ s.ppu.dot = 0 := by omega
      rw [Ppu.dotWork_frameDone _ hphase hline hdot]; rfl
  case request =>
    rw [hnmi]
    rcases hother with hdot | ⟨hline, -⟩
    · simp [hdot]
    · simp [hline]

/-! ## The published frame (R488, R489) -/

theorem Ppu.published_advance (p : Ppu) : p.advance.front = p.front ∧ p.advance.rgb = p.rgb := by
  unfold Ppu.advance; split <;> exact ⟨rfl, rfl⟩

/-- An entry with no emphasis bit is the palette file's triple for its colour (R489). -/
theorem rgbOf_of_no_emphasis (palette : Memory) {e : BitVec 9} (h : e.extractLsb' 6 3 = 0) :
    rgbOf palette e = paletteEntry palette (e.toNat % 64) := by
  rw [rgbOf, if_pos h, BitVec.extractLsb'_toNat, Nat.shiftRight_zero]

/-- Settles O54: the publishing dot fills the array from the work buffer, and every other dot leaves it. -/
theorem framePublished : Obligations.FramePublished := by
  intro s hinv t
  obtain ⟨⟨-, -, hphase⟩, -⟩ := State.ppu_inv hinv
  obtain ⟨hfront, hrgb⟩ : t.ppu.front = (s.ppu.dotWork s.ppuBus).front ∧ t.ppu.rgb = (s.ppu.dotWork s.ppuBus).rgb :=
    Ppu.published_advance _
  rw [hfront, hrgb]
  refine ⟨fun hline hdot => ?published, fun hother => Ppu.published_dotWork _ hphase hother⟩
  case published =>
    rw [Ppu.dotWork_frameDone _ hphase hline hdot]
    refine ⟨rfl, fun y x hy hx he => ?_⟩
    show (RgbFrame.fill fun y x => rgbOf s.palette (s.ppu.work.read y x)).read y x = _
    rw [RgbFrame.read_fill _ hy hx, rgbOf_of_no_emphasis _ he]
    rfl

/-! ## Sprite evaluation (R471) -/

/-- A slot filled right after the first `n`. -/
theorem take_succ_set {l : List SpriteInfo} {n : Nat} (h : n < l.length) (r : SpriteInfo) :
    (l.set n r).take (n + 1) = l.take n ++ [r] := by
  rw [List.take_succ_eq_append_getElem (by rwa [List.length_set]), List.take_set_of_le le_rfl, List.getElem_set_self]

/-- The loop of the evaluation with `n` slots filled fills the next ones from the sprites in range that remain, in their order,
and stops at a ninth. -/
theorem evalFrom_eq (oam : Memory) (height : Nat) (line : Int) (is : List Nat) {n : Nat} {sec : List SpriteInfo} (hn : n ≤ 8)
    (hsec : sec.length = 8) :
    let found := is.filter (spriteInRange oam height line)
    evalFrom oam height line is n sec =
      (sec.take n ++ (found.take (8 - n)).map (spriteRecord oam) ++ sec.drop (min 8 (n + found.length)),
        decide (8 < n + found.length)) := by
  induction is generalizing n sec with
  | nil =>
    have : ¬8 < n := by omega
    simp [evalFrom, this, hn]
  | cons i is ih =>
    rw [evalFrom]
    by_cases hi : spriteInRange oam height line i = true
    · rw [if_pos hi, List.filter_cons_of_pos hi]
      by_cases h8 : n = 8
      · subst h8
        simp [← hsec]
      · have hleft : 8 - n = 8 - (n + 1) + 1 := by omega
        rw [if_neg h8, ih (by omega) (by rw [List.length_set, hsec]), take_succ_set (by omega),
          List.drop_set_of_lt (by omega), hleft]
        dsimp only
        rw [List.take_succ_cons, List.map_cons, List.length_cons, ← Nat.add_assoc, Nat.add_right_comm n _ 1,
          List.append_assoc (sec.take n), List.singleton_append]
    · rw [if_neg hi, List.filter_cons_of_neg hi]
      exact ih hn hsec

/-- A sprite in range, on numbers; the pre-render line has none. -/
theorem spriteInRange_evalLine (oam : Memory) (height scanline i : Nat) : spriteInRange oam height (evalLine scanline) i =
    (decide (scanline ≠ 261) && decide ((oam.read (4 * i)).toNat ≤ scanline) &&
      decide (scanline < (oam.read (4 * i)).toNat + height)) := by
  rw [spriteInRange, evalLine, ← Bool.decide_and, ← Bool.decide_and, ← Bool.decide_and]
  apply decide_eq_decide.2
  split <;> omega

/-- Settles O51, by the loop from no slot filled. -/
theorem spriteEvaluation : Obligations.SpriteEvaluation := by
  intro p hinv inRange record
  obtain ⟨-, -, -, ⟨⟨hsec, -⟩, -⟩, -⟩ := hinv
  have hfound : (List.range 64).filter (spriteInRange p.oam p.sprHeight (evalLine p.scanline)) = inRange :=
    List.filter_congr fun i _ => spriteInRange_evalLine p.oam p.sprHeight p.scanline i
  have heval := evalFrom_eq p.oam p.sprHeight (evalLine p.scanline) (List.range 64) (Nat.zero_le 8) hsec
  dsimp only at heval
  rw [hfound, Nat.zero_add] at heval
  rw [Ppu.evalSprites, heval]
  refine ⟨rfl, ?status⟩
  case status => simp only [decide_eq_true_eq]

end Sys2Proof.Machine
end

section
/-! SUPPORT. The bank-map tables (R510, R511): what each slot of a table holds, that it is a whole slot inside its array (O55), and
the byte of the image an address reads through it; then the mappers without a counter or a serial port (O58). -/

namespace Sys2Proof.Machine

/-! ## The slots of a table -/

theorem setSlots_zero (first : Nat) (base : Int) (step size : Nat) (m : List Nat) : setSlots first 0 base step size m = m := rfl

theorem setSlots_succ (first n : Nat) (base : Int) (step size : Nat) (m : List Nat) :
    setSlots first (n + 1) base step size m =
      (setSlots first n base step size m).set (first + n) ((base + (step * n : Nat)) % (size : Int)).toNat := by
  rw [setSlots, List.range_succ, List.foldl_append]; rfl

@[simp] theorem length_setSlots (first n : Nat) (base : Int) (step size : Nat) (m : List Nat) :
    (setSlots first n base step size m).length = m.length := by
  induction n with
  | zero => rfl
  | succ n ih => rw [setSlots_succ, List.length_set, ih]

@[simp] theorem length_setPrgMap (n slot : Nat) (page : Int) (size : Nat) (m : List Nat) :
    (setPrgMap n slot page size m).length = m.length := length_setSlots _ _ _ _ _ _

@[simp] theorem length_setChrMap (n slot page size : Nat) (m : List Nat) : (setChrMap n slot page size m).length = m.length :=
  length_setSlots _ _ _ _ _ _

/-- The slots from a non-negative base: those written, and the others as they were. -/
theorem getD_setSlots (first n base step size : Nat) {k : Nat} {m : List Nat} (hk : k < m.length) :
    (setSlots first n base step size m).getD k 0 =
      if first ≤ k ∧ k < first + n then (base + step * (k - first)) % size else m.getD k 0 := by
  induction n with
  | zero => rw [setSlots_zero, if_neg (by omega)]
  | succ n ih =>
    rw [setSlots_succ, List.getD_eq_getElem?_getD, List.getElem?_set]
    by_cases hlast : first + n = k
    · subst hlast
      rw [if_pos rfl, length_setSlots, if_pos hk, if_pos (by omega), Nat.add_sub_cancel_left]
      exact Int.toNat_natCast _
    · rw [if_neg hlast, ← List.getD_eq_getElem?_getD, ih]
      exact if_congr (by omega) rfl rfl

theorem getD_setPrgMap (n slot page size : Nat) {k : Nat} {m : List Nat} (hk : k < m.length) :
    (setPrgMap n slot page size m).getD k 0 =
      if n / 8 * slot ≤ k ∧ k < n / 8 * slot + n / 8 then (n * 1024 * page + 0x2000 * (k - n / 8 * slot)) % size
      else m.getD k 0 := by
  have hpage : ¬(page : Int) < 0 := by omega
  rw [setPrgMap, if_neg hpage, ← Nat.cast_mul, getD_setSlots _ _ _ _ _ hk]

/-- A page counted from the end of PRG (R510). -/
theorem setPrgMap_fromEnd (n slot size : Nat) {j : Nat} (m : List Nat) (hj : 0 < j) (hsize : j ≤ size / (n * 1024)) :
    setPrgMap n slot (-j) size m = setPrgMap n slot (size / (n * 1024) - j : Nat) size m := by
  have hneg : -(j : Int) < 0 := by omega
  have hpos : ¬((size / (n * 1024) - j : Nat) : Int) < 0 := by omega
  rw [setPrgMap, setPrgMap, if_pos hneg, if_neg hpos, Nat.cast_sub hsize, Int.sub_eq_add_neg]

theorem getD_setChrMap (n slot page size : Nat) {k : Nat} {m : List Nat} (hk : k < m.length) :
    (setChrMap n slot page size m).getD k 0 =
      if n * slot ≤ k ∧ k < n * slot + n then (n * 1024 * page + 0x400 * (k - n * slot)) % size else m.getD k 0 := by
  rw [setChrMap, ← Nat.cast_mul, getD_setSlots _ _ _ _ _ hk]

/-! ## Whole slots inside the array (O55) -/

/-- Each slot starts at a multiple of `unit` and ends inside an array of `size` bytes. -/
abbrev WholeSlots (unit size : Nat) (l : List Nat) : Prop := ∀ o ∈ l, o % unit = 0 ∧ o + unit ≤ size

theorem add_le_of_dvd_of_lt {unit a b : Nat} (ha : unit ∣ a) (hb : unit ∣ b) (h : a < b) : a + unit ≤ b := by
  have := Nat.le_of_dvd (Nat.sub_pos_of_lt h) (Nat.dvd_sub hb ha)
  omega

theorem wholeSlots_replicate (n : Nat) {unit size : Nat} (hdvd : unit ∣ size) (hpos : 0 < size) :
    WholeSlots unit size (List.replicate n 0) := by
  intro o ho
  obtain rfl := List.eq_of_mem_replicate ho
  exact ⟨Nat.zero_mod _, add_le_of_dvd_of_lt (Nat.dvd_zero _) hdvd hpos⟩

theorem wholeSlots_setSlots {first n step size unit : Nat} {base : Int} {m : List Nat} (hdvd : unit ∣ size) (hpos : 0 < size)
    (hbase : (unit : Int) ∣ base) (hstep : unit ∣ step) (hm : WholeSlots unit size m) :
    WholeSlots unit size (setSlots first n base step size m) := by
  induction n with
  | zero => exact hm
  | succ n ih =>
    rw [setSlots_succ]
    intro o ho
    rcases List.mem_or_eq_of_mem_set ho with ho | rfl
    case inl => exact ih o ho
    case inr =>
      have hsize : (0 : Int) < size := by exact_mod_cast hpos
      have hstart : (unit : Int) ∣ base + (step * n : Nat) :=
        Int.dvd_add hbase (Int.natCast_dvd_natCast.2 (hstep.trans (Nat.dvd_mul_right _ _)))
      have hmod : (unit : Int) ∣ (base + (step * n : Nat)) % size :=
        (EuclideanDomain.dvd_mod_iff (Int.natCast_dvd_natCast.2 hdvd)).2 hstart
      have hnonneg := Int.emod_nonneg (base + (step * n : Nat)) hsize.ne'
      have hlt := Int.emod_lt_of_pos (base + (step * n : Nat)) hsize
      lift (base + (step * n : Nat)) % (size : Int) to Nat using hnonneg with o
      have ho : unit ∣ o := Int.natCast_dvd_natCast.1 hmod
      exact ⟨Nat.mod_eq_zero_of_dvd ho, add_le_of_dvd_of_lt ho hdvd (by exact_mod_cast hlt)⟩

theorem wholeSlots_setPrgMap {n slot size : Nat} (page : Int) {m : List Nat} (hn : 8 ∣ n) (hdvd : 0x2000 ∣ size) (hpos : 0 < size)
    (hm : WholeSlots 0x2000 size m) : WholeSlots 0x2000 size (setPrgMap n slot page size m) := by
  have hbank : 0x2000 ∣ n * 1024 := Nat.mul_dvd_mul_right hn 1024
  exact wholeSlots_setSlots hdvd hpos ((Int.natCast_dvd_natCast.2 hbank).mul_right _) dvd_rfl hm

theorem wholeSlots_setChrMap (n slot page : Nat) {size : Nat} {m : List Nat} (hdvd : 0x400 ∣ size) (hpos : 0 < size)
    (hm : WholeSlots 0x400 size m) : WholeSlots 0x400 size (setChrMap n slot page size m) :=
  wholeSlots_setSlots hdvd hpos ((Int.natCast_dvd_natCast.2 (Nat.dvd_mul_left 1024 n)).mul_right _) dvd_rfl hm

/-- The four single pages of MMC3's CHR half (R544). -/
theorem wholeSlots_foldl_setChrMap (first : Nat) (page : Nat → Nat) {size : Nat} (hdvd : 0x400 ∣ size) (hpos : 0 < size)
    (is : List Nat) {m : List Nat} (hm : WholeSlots 0x400 size m) :
    WholeSlots 0x400 size (is.foldl (fun m i => setChrMap 1 (first + i) (page i) size m) m) := by
  induction is generalizing m with
  | nil => exact hm
  | cons i is ih => exact ih (wholeSlots_setChrMap _ _ _ hdvd hpos hm)

@[simp] theorem length_foldl_setChrMap (first : Nat) (page : Nat → Nat) (size : Nat) (is m : List Nat) :
    (is.foldl (fun m i => setChrMap 1 (first + i) (page i) size m) m).length = m.length := by
  induction is generalizing m with
  | nil => rfl
  | cons i is ih => rw [List.foldl_cons, ih, length_setChrMap]

theorem Mapper.length_prgMap (m : Mapper) (prgSize chrSize : Nat) : (m.banks prgSize chrSize).prg.length = 4 := by
  cases m with
  | nrom | unrom bank | axrom bank => simp [Mapper.banks, noPrgSlots]
  | mmc1 r => simp only [Mapper.banks, Mmc1.prgMap]; split_ifs <;> simp [noPrgSlots]
  | mmc3 r => simp only [Mapper.banks, Mmc3.prgMap]; split_ifs <;> simp [noPrgSlots]

theorem Mapper.length_chrMap (m : Mapper) (prgSize chrSize : Nat) : (m.banks prgSize chrSize).chr.length = 8 := by
  cases m with
  | nrom | unrom bank | axrom bank => simp [Mapper.banks, noChrSlots]
  | mmc1 r => simp only [Mapper.banks, Mmc1.chrMap]; split_ifs <;> simp [noChrSlots]
  | mmc3 r =>
    simp only [Mapper.banks, Mmc3.chrMap]
    split_ifs <;> simp only [length_setChrMap, length_foldl_setChrMap, noChrSlots, List.length_replicate]

theorem Mapper.wholeSlots_prgMap (m : Mapper) {prgSize : Nat} (chrSize : Nat) (hdvd : 0x2000 ∣ prgSize) (hpos : 0 < prgSize) :
    WholeSlots 0x2000 prgSize (m.banks prgSize chrSize).prg := by
  have start : WholeSlots 0x2000 prgSize noPrgSlots := wholeSlots_replicate 4 hdvd hpos
  have set8 {slot : Nat} {page : Int} {l : List Nat} := wholeSlots_setPrgMap (slot := slot) (m := l) page (dvd_refl 8) hdvd hpos
  have set16 {slot : Nat} {page : Int} {l : List Nat} :=
    wholeSlots_setPrgMap (slot := slot) (m := l) page (Dvd.intro 2 rfl : 8 ∣ 16) hdvd hpos
  have set32 {slot : Nat} {page : Int} {l : List Nat} :=
    wholeSlots_setPrgMap (slot := slot) (m := l) page (Dvd.intro 4 rfl : 8 ∣ 32) hdvd hpos
  cases m with
  | nrom => exact set32 start
  | unrom bank => exact set16 (set16 start)
  | axrom bank => exact set32 start
  | mmc1 r =>
    simp only [Mapper.banks, Mmc1.prgMap]
    split_ifs
    · exact set16 (set16 start)
    · exact set16 (set16 start)
    · exact set32 start
  | mmc3 r =>
    simp only [Mapper.banks, Mmc3.prgMap]
    split_ifs <;> exact set8 (set8 (set8 (set8 start)))

theorem Mapper.wholeSlots_chrMap (m : Mapper) (prgSize : Nat) {chrSize : Nat} (hdvd : 0x400 ∣ chrSize) (hpos : 0 < chrSize) :
    WholeSlots 0x400 chrSize (m.banks prgSize chrSize).chr := by
  have start : WholeSlots 0x400 chrSize noChrSlots := wholeSlots_replicate 8 hdvd hpos
  have set {n slot page : Nat} {l : List Nat} := wholeSlots_setChrMap n slot page (m := l) hdvd hpos
  have four {first : Nat} {page : Nat → Nat} {is l : List Nat} := wholeSlots_foldl_setChrMap first page hdvd hpos is (m := l)
  cases m with
  | nrom | unrom bank | axrom bank => exact set start
  | mmc1 r =>
    simp only [Mapper.banks, Mmc1.chrMap]
    split_ifs
    · exact set (set start)
    · exact set start
  | mmc3 r =>
    simp only [Mapper.banks, Mmc3.chrMap]
    split_ifs
    · exact set (set (four start))
    · exact four (set (set start))

/-- Settles O55: every slot that an `Apply()` writes is a whole one inside its array. -/
theorem banksInRange : Obligations.BanksInRange := by
  intro m prgSize chrSize hprg hprgUnit hchr hchrUnit
  have prgSlots := m.wholeSlots_prgMap chrSize (by omega) hprg
  have chrSlots := m.wholeSlots_chrMap prgSize (by omega) hchr
  refine ⟨m.length_prgMap .., m.length_chrMap .., fun o ho => ⟨(prgSlots o ho).1, ?_⟩, fun o ho => ⟨(chrSlots o ho).1, ?_⟩⟩
  · exact Nat.lt_of_succ_le (prgSlots o ho).2
  · exact Nat.lt_of_succ_le (chrSlots o ho).2

/-! ## The byte an address reads -/

/-- A read at or above $8000 is the byte of PRG its window names (R513). -/
theorem peek_cartridge {b : Addr} (s : State) (hb : 0x8000 ≤ b.toNat) :
    peek b s = s.cart.prg.read (prgOffset s.banks s.cart.prgSize b.toNat) := by
  rw [peek, if_neg (by omega), if_neg (by omega), if_neg (by omega), if_neg (by omega), if_neg (by omega), if_neg (by omega),
    if_neg (by omega), mapperRead, if_neg (by omega)]

/-- A write at or above $8000 is the mapper's (R514). -/
theorem busWrite_mapperRegister {a : Addr} (v : Byte) (s : State) (ha : 0x8000 ≤ a.toNat) :
    busWrite a v s = mapperRegisterWrite a v s := by
  rw [busWrite, if_neg (by omega), if_neg (by omega), if_neg (by omega), if_neg (by omega), if_neg (by omega), if_neg (by omega),
    if_neg (by omega), mapperWrite, if_neg (by omega)]

/-- The offset an address reads through a table whose slot for the address's window holds `p` modulo the size. -/
theorem prgOffset_of_slot {banks : BankMaps} {prgSize a p : Nat} (ha : 0x8000 ≤ a)
    (h : banks.prg.getD ((a - 0x8000) / 0x2000) 0 = p % prgSize) : prgOffset banks prgSize a = (p + a % 0x2000) % prgSize := by
  have hoffset : (a - 0x8000) % 0x2000 = a % 0x2000 := by omega
  rw [prgOffset, h, Nat.mod_add_mod, hoffset]

theorem chrOffset_of_slot {chrMap : List Nat} {chrSize a p : Nat} (h : chrMap.getD (a / 0x400) 0 = p % chrSize) :
    chrOffset chrMap chrSize a = (p + a % 0x400) % chrSize := by
  rw [chrOffset, h, Nat.mod_add_mod]

/-- One 32 KB page fills the four windows. -/
theorem getD_setPrgMap_32 (page size : Nat) {k : Nat} (hk : k < 4) :
    (setPrgMap 32 0 page size noPrgSlots).getD k 0 = (0x8000 * page + 0x2000 * k) % size := by
  rw [getD_setPrgMap _ _ _ _ (by simpa [noPrgSlots] using hk), if_pos (by omega)]; rfl

/-- Two 16 KB pages fill two windows each. -/
theorem getD_setPrgMap_16 (low high size : Nat) {k : Nat} (hk : k < 4) :
    (setPrgMap 16 1 high size (setPrgMap 16 0 low size noPrgSlots)).getD k 0 =
      (0x4000 * (if k < 2 then low else high) + 0x2000 * (k % 2)) % size := by
  rw [getD_setPrgMap _ _ _ _ (by simpa [noPrgSlots] using hk), getD_setPrgMap _ _ _ _ (by simpa [noPrgSlots] using hk)]
  by_cases hlow : k < 2
  · rw [if_neg (by omega), if_pos (by omega), if_pos hlow, Nat.mod_eq_of_lt hlow]; rfl
  · have hrest : k % 2 = k - 2 := by omega
    rw [if_pos (by omega), if_neg hlow, hrest]

/-- The last 16 KB page, as the one `-1` names. -/
theorem setPrgMap_last_16 (slot : Nat) {size : Nat} (m : List Nat) (hpos : 0 < size) (hunit : size % 0x4000 = 0) :
    setPrgMap 16 slot (-1) size m = setPrgMap 16 slot (size / 0x4000 - 1 : Nat) size m :=
  setPrgMap_fromEnd (j := 1) 16 slot size m Nat.one_pos (by omega)

/-- One 8 KB page fills the eight CHR windows. -/
theorem getD_setChrMap_8 (page size : Nat) {k : Nat} (hk : k < 8) :
    (setChrMap 8 0 page size noChrSlots).getD k 0 = (0x2000 * page + 0x400 * k) % size := by
  rw [getD_setChrMap _ _ _ _ (by simpa [noChrSlots] using hk), if_pos (by omega)]; rfl

/-! ## NROM, UNROM and AxROM (O58) -/

/-- A read through the current tables of a machine whose window's slot holds `p` modulo the size. -/
theorem peek_of_slot {b : Addr} {s : State} {p : Nat} (hs : s.Inv) (hb : 0x8000 ≤ b.toNat)
    (h : (s.mapper.banks s.cart.prgSize s.cart.chrSize).prg.getD ((b.toNat - 0x8000) / 0x2000) 0 = p % s.cart.prgSize) :
    peek b s = s.cart.prg.read ((p + b.toNat % 0x2000) % s.cart.prgSize) := by
  obtain ⟨-, -, -, -, ⟨hbanks, -⟩, -⟩ := hs
  rw [← hbanks] at h
  rw [peek_cartridge s hb, prgOffset_of_slot hb h]

/-- A read through two 16 KB pages. -/
theorem peek_of_pages_16 {b : Addr} {s : State} {low high : Nat} (hs : s.Inv) (hb : 0x8000 ≤ b.toNat)
    (h : (s.mapper.banks s.cart.prgSize s.cart.chrSize).prg =
      setPrgMap 16 1 high s.cart.prgSize (setPrgMap 16 0 low s.cart.prgSize noPrgSlots)) :
    peek b s =
      s.cart.prg.read ((0x4000 * (if b.toNat < 0xC000 then low else high) + b.toNat % 0x4000) % s.cart.prgSize) := by
  have hk : (b.toNat - 0x8000) / 0x2000 < 4 := by omega
  have hhalf : (b.toNat - 0x8000) / 0x2000 < 2 ↔ b.toNat < 0xC000 := by omega
  have hplace : 0x2000 * ((b.toNat - 0x8000) / 0x2000 % 2) + b.toNat % 0x2000 = b.toNat % 0x4000 := by omega
  rw [← hplace, ← Nat.add_assoc, ← if_congr hhalf rfl rfl]
  refine peek_of_slot hs hb ?_
  rw [h, getD_setPrgMap_16 _ _ _ hk]

/-- A read through one 32 KB page. -/
theorem peek_of_page_32 {b : Addr} {s : State} {page : Nat} (hs : s.Inv) (hb : 0x8000 ≤ b.toNat)
    (h : (s.mapper.banks s.cart.prgSize s.cart.chrSize).prg = setPrgMap 32 0 page s.cart.prgSize noPrgSlots) :
    peek b s = s.cart.prg.read ((0x8000 * page + (b.toNat - 0x8000)) % s.cart.prgSize) := by
  have hk : (b.toNat - 0x8000) / 0x2000 < 4 := by omega
  have hplace : 0x2000 * ((b.toNat - 0x8000) / 0x2000) + b.toNat % 0x2000 = b.toNat - 0x8000 := by omega
  rw [← hplace, ← Nat.add_assoc]
  refine peek_of_slot hs hb ?_
  rw [h, getD_setPrgMap_32 _ _ hk]

theorem peek_unrom {b : Addr} {s : State} {bank : Byte} (hs : s.Inv) (hb : 0x8000 ≤ b.toNat) (hm : s.mapper = .unrom bank) :
    peek b s = s.cart.prg.read ((0x4000 * (if b.toNat < 0xC000 then bank.toNat % 16 else s.cart.prgSize / 0x4000 - 1) +
      b.toNat % 0x4000) % s.cart.prgSize) := by
  obtain ⟨-, -, ⟨⟨hpos, hunit⟩, -⟩, -⟩ := id hs
  refine peek_of_pages_16 hs hb ?_
  rw [hm, ← setPrgMap_last_16 1 _ hpos hunit]
  rfl

/-- Settles O58, by the pages of each mapper and the tables a bank write computes. -/
theorem simpleMapperReads : Obligations.SimpleMapperReads := by
  intro a b v s hs ha hb t
  have ht : t.Inv := State.inv_busWrite a v hs
  have hwrite : t = mapperRegisterWrite a v s := busWrite_mapperRegister v s ha
  obtain ⟨-, -, ⟨⟨hpos, hunit⟩, -⟩, -⟩ := id hs
  refine ⟨fun hm => ?nrom, fun old hm => ?unrom, fun old hm => ?axrom⟩
  case nrom =>
    refine ⟨by rw [hwrite, mapperRegisterWrite, hm], ?_⟩
    rw [peek_of_page_32 (page := 0) hs hb (by rw [hm]; rfl), Nat.mul_zero, Nat.zero_add]
  case unrom =>
    rw [mapperRegisterWrite, hm] at hwrite
    have hread := peek_unrom (bank := v) ht hb (by rw [hwrite]; rfl)
    have hcart : t.cart = s.cart := by rw [hwrite]; rfl
    rw [hcart] at hread
    rw [hread]
    refine ⟨fun hlow => ?_, fun hhigh => ?_⟩
    · have hplace : v.toNat % 16 * 0x4000 + b.toNat - 0x8000 = 0x4000 * (v.toNat % 16) + b.toNat % 0x4000 := by omega
      rw [if_pos hlow, hplace]
    · have hlast : 0x4000 * (s.cart.prgSize / 0x4000 - 1) + b.toNat % 0x4000 = s.cart.prgSize - 0x4000 + (b.toNat - 0xC000) := by
        omega
      rw [if_neg (by omega), hlast, Nat.mod_eq_of_lt (by omega)]
  case axrom =>
    rw [mapperRegisterWrite, hm] at hwrite
    have hcart : t.cart = s.cart := by rw [hwrite]; rfl
    refine ⟨?_, by rw [hwrite]; rfl⟩
    rw [peek_of_page_32 (page := v.toNat % 16) ht hb (by rw [hwrite]; rfl), hcart, Nat.mul_comm]

end Sys2Proof.Machine
end

section
/-! SUPPORT. MMC1 (R526, R527): the serial port, write by write, and the banks its registers map (O56). -/

namespace Sys2Proof.Machine

/-! ## Bits as numbers -/

/-- Two neighbouring bits as a number. -/
theorem toNat_two_bits {w : Nat} (x : BitVec w) (i : Nat) :
    x.toNat / 2 ^ i % 4 = 2 * (x.getLsbD (i + 1)).toNat + (x.getLsbD i).toNat := by
  have hhigh : (x.getLsbD (i + 1)).toNat = x.toNat / 2 ^ (i + 1) % 2 := Nat.toNat_testBit ..
  have hlow : (x.getLsbD i).toNat = x.toNat / 2 ^ i % 2 := Nat.toNat_testBit ..
  rw [hhigh, hlow, pow_succ, ← Nat.div_div_eq_div_mul]
  omega

/-! ## The serial port (R526) -/

/-- One bit enters the shift register from the top. -/
theorem shiftRight_or_top_eq (shift : BitVec 5) (b : Bool) :
    shift >>> 1 ||| (if b then 0x10 else 0) = BitVec.ofNat 5 (shift.toNat / 2 + 16 * b.toNat) := by
  revert shift b; decide

/-- The shift register after one more bit. -/
def Mmc1.shiftBit (shift : BitVec 5) (v : Byte) : BitVec 5 := BitVec.ofNat 5 (shift.toNat / 2 + 16 * (v.toNat % 2))

theorem Mmc1.toNat_shiftBit (shift : BitVec 5) (v : Byte) :
    (Mmc1.shiftBit shift v).toNat = shift.toNat / 2 + 16 * (v.toNat % 2) := by
  have := shift.isLt
  rw [Mmc1.shiftBit, BitVec.toNat_ofNat, Nat.mod_eq_of_lt (by omega)]

theorem Mmc1.shiftBit_eq (shift : BitVec 5) (v : Byte) :
    shift >>> 1 ||| (if v.getLsbD 0 then 0x10 else 0) = Mmc1.shiftBit shift v := by
  have hbit : (v.getLsbD 0).toNat = v.toNat / 2 ^ 0 % 2 := Nat.toNat_testBit ..
  rw [shiftRight_or_top_eq, hbit, pow_zero, Nat.div_one, Mmc1.shiftBit]

/-- The shift register after four bits. -/
def Mmc1.shiftedFour (shift : BitVec 5) (v1 v2 v3 v4 : Byte) : BitVec 5 :=
  Mmc1.shiftBit (Mmc1.shiftBit (Mmc1.shiftBit (Mmc1.shiftBit shift v1) v2) v3) v4

/-- Five bits push out what the shift register held. -/
theorem Mmc1.shiftBit_shiftedFour (shift : BitVec 5) (v1 v2 v3 v4 v5 : Byte) :
    Mmc1.shiftBit (Mmc1.shiftedFour shift v1 v2 v3 v4) v5 = BitVec.ofNat 5 (v1.toNat % 2 + 2 * (v2.toNat % 2) +
      4 * (v3.toNat % 2) + 8 * (v4.toNat % 2) + 16 * (v5.toNat % 2)) := by
  have := shift.isLt
  apply BitVec.eq_of_toNat_eq
  rw [BitVec.toNat_ofNat, Mmc1.shiftedFour]
  simp only [Mmc1.toNat_shiftBit]
  omega

/-- The four registers, in the order address bits 14:13 select them. -/
def Mmc1.registers (r : Mmc1) : List (BitVec 5) := [r.control, r.chr0, r.chr1, r.prg]

theorem Mmc1.write_shift {r : Mmc1} {v : Byte} (a : Addr) (hv : v.getLsbD 7 = false) (hn : r.writeN < 4) :
    r.write a v = { r with shift := Mmc1.shiftBit r.shift v, writeN := r.writeN + 1 } := by
  rw [Mmc1.write, hv, if_neg Bool.false_ne_true, if_neg (by omega), Mmc1.shiftBit_eq]

/-- The port with `n` bits in it. -/
def Mmc1.shifted (r : Mmc1) (shift : BitVec 5) (n : Nat) : Mmc1 := { r with shift := shift, writeN := n }

theorem Mmc1.write_shifted (r : Mmc1) (shift : BitVec 5) {n : Nat} {v : Byte} (a : Addr) (hv : v.getLsbD 7 = false) (hn : n < 4) :
    (r.shifted shift n).write a v = r.shifted (Mmc1.shiftBit shift v) (n + 1) := Mmc1.write_shift a hv hn

theorem Mmc1.eq_shifted {r : Mmc1} {n : Nat} (hn : r.writeN = n) : r = r.shifted r.shift n := by rw [← hn]; rfl

/-- The fifth write loads the register that the address selects and empties the port. -/
theorem Mmc1.write_load {r : Mmc1} {v : Byte} (a : Addr) (hv : v.getLsbD 7 = false) (hn : r.writeN = 4) :
    (r.write a v).writeN = 0 ∧
      (r.write a v).registers = r.registers.set (a.toNat / 0x2000 % 4) (Mmc1.shiftBit r.shift v) := by
  have hselect : a.toNat / 0x2000 % 4 = 2 * (a.getLsbD 14).toNat + (a.getLsbD 13).toNat := toNat_two_bits a 13
  rw [Mmc1.write, hv, if_neg Bool.false_ne_true, if_pos (by omega), Mmc1.shiftBit_eq, hselect]
  cases a.getLsbD 14 <;> cases a.getLsbD 13 <;> exact ⟨rfl, rfl⟩

/-! ## The banks (R527) -/

/-- Two 4 KB pages fill four CHR windows each. -/
theorem getD_setChrMap_4 (low high size : Nat) {k : Nat} (hk : k < 8) :
    (setChrMap 4 1 high size (setChrMap 4 0 low size noChrSlots)).getD k 0 =
      (0x1000 * (if k < 4 then low else high) + 0x400 * (k % 4)) % size := by
  rw [getD_setChrMap _ _ _ _ (by simpa [noChrSlots] using hk), getD_setChrMap _ _ _ _ (by simpa [noChrSlots] using hk)]
  by_cases hlow : k < 4
  · rw [if_neg (by omega), if_pos (by omega), if_pos hlow, Nat.mod_eq_of_lt hlow]; rfl
  · have hrest : k % 4 = k - 4 := by omega
    rw [if_pos (by omega), if_neg hlow, hrest]

/-- A PPU read below $2000 is the byte of CHR its window names (R515). -/
theorem ppuRead_cartridge {c : Nat} (s : State) (hc : c < 0x2000) :
    s.ppu.read s.ppuBus c = s.cart.chr.read (chrOffset s.banks.chr s.cart.chrSize c) := by
  have hmod : c % 0x4000 = c := Nat.mod_eq_of_lt (hc.trans_le (by decide))
  rw [Ppu.read_of_chr _ _ (hmod.symm ▸ hc), hmod]
  rfl

/-- A PPU read below $2000 through the current tables of a machine whose window's slot holds `p` modulo the size. -/
theorem ppuRead_of_slot {c : Nat} {s : State} {p : Nat} (hs : s.Inv) (hc : c < 0x2000)
    (h : (s.mapper.banks s.cart.prgSize s.cart.chrSize).chr.getD (c / 0x400) 0 = p % s.cart.chrSize) :
    s.ppu.read s.ppuBus c = s.cart.chr.read ((p + c % 0x400) % s.cart.chrSize) := by
  obtain ⟨-, -, -, -, ⟨hbanks, -⟩, -⟩ := hs
  rw [← hbanks] at h
  rw [ppuRead_cartridge s hc, chrOffset_of_slot h]

theorem peek_mmc1 {b : Addr} {s : State} {r : Mmc1} (hs : s.Inv) (hb : 0x8000 ≤ b.toNat) (hm : s.mapper = .mmc1 r) :
    let bank := r.prg.toNat % 16
    let half := (b.toNat - 0x8000) / 0x4000
    let prgMode := r.control.toNat / 4 % 4
    let page :=
      if prgMode < 2 then bank / 2 * 2 + half
      else if prgMode = 2 then (if half = 0 then 0 else bank)
      else if half = 0 then bank else s.cart.prgSize / 0x4000 - 1
    peek b s = s.cart.prg.read ((page * 0x4000 + b.toNat % 0x4000) % s.cart.prgSize) := by
  intro bank half prgMode page
  obtain ⟨-, -, ⟨⟨hpos, hunit⟩, -⟩, -⟩ := id hs
  have hmode : prgMode = 2 * (r.control.getLsbD 3).toNat + (r.control.getLsbD 2).toNat := toNat_two_bits r.control 2
  have hhalf : b.toNat < 0xC000 ↔ half = 0 := by omega
  have hprg : (s.mapper.banks s.cart.prgSize s.cart.chrSize).prg = r.prgMap s.cart.prgSize := by rw [hm]; rfl
  rw [Mmc1.prgMap] at hprg
  cases h3 : r.control.getLsbD 3
  case false =>
    rw [h3, if_neg Bool.false_ne_true] at hprg
    have hpage : page = bank / 2 * 2 + half := if_pos (by rw [hmode, h3]; cases r.control.getLsbD 2 <;> decide)
    have hplace : (bank / 2 * 2 + half) * 0x4000 + b.toNat % 0x4000 = 0x8000 * (bank / 2) + (b.toNat - 0x8000) := by omega
    rw [peek_of_page_32 hs hb hprg, hpage, hplace]
  case true =>
    rw [h3, if_pos rfl] at hprg
    cases h2 : r.control.getLsbD 2
    case false =>
      rw [h2, if_neg Bool.false_ne_true] at hprg
      rw [h3, h2] at hmode
      have hpage : page = if half = 0 then 0 else bank :=
        (if_neg (by rw [hmode]; decide)).trans (if_pos (by rw [hmode]; decide))
      rw [peek_of_pages_16 (low := 0) hs hb hprg, hpage, if_congr hhalf rfl rfl, Nat.mul_comm]
    case true =>
      rw [h2, if_pos rfl, setPrgMap_last_16 1 _ hpos hunit] at hprg
      rw [h3, h2] at hmode
      have hpage : page = if half = 0 then bank else s.cart.prgSize / 0x4000 - 1 :=
        (if_neg (by rw [hmode]; decide)).trans (if_neg (by rw [hmode]; decide))
      rw [peek_of_pages_16 hs hb hprg, hpage, if_congr hhalf rfl rfl, Nat.mul_comm]

theorem ppuRead_mmc1 {c : Nat} {s : State} {r : Mmc1} (hs : s.Inv) (hc : c < 0x2000) (hm : s.mapper = .mmc1 r) :
    let chrPage :=
      if r.control.getLsbD 4 then (if c < 0x1000 then r.chr0.toNat else r.chr1.toNat)
      else r.chr0.toNat / 2 * 2 + c / 0x1000
    s.ppu.read s.ppuBus c = s.cart.chr.read ((chrPage * 0x1000 + c % 0x1000) % s.cart.chrSize) := by
  intro chrPage
  have hk : c / 0x400 < 8 := by omega
  have hchr : (s.mapper.banks s.cart.prgSize s.cart.chrSize).chr = r.chrMap s.cart.chrSize := by rw [hm]; rfl
  rw [Mmc1.chrMap] at hchr
  cases h4 : r.control.getLsbD 4
  case false =>
    rw [h4, if_neg Bool.false_ne_true] at hchr
    have hpage : chrPage = r.chr0.toNat / 2 * 2 + c / 0x1000 := if_neg (by rw [h4]; exact Bool.false_ne_true)
    have hplace : chrPage * 0x1000 + c % 0x1000 = 0x2000 * (r.chr0.toNat / 2) + 0x400 * (c / 0x400) + c % 0x400 := by omega
    rw [hplace, ppuRead_of_slot hs hc]
    rw [hchr, getD_setChrMap_8 _ _ hk]
  case true =>
    rw [h4, if_pos rfl] at hchr
    have hhalf : c / 0x400 < 4 ↔ c < 0x1000 := by omega
    have hpage : chrPage = if c / 0x400 < 4 then r.chr0.toNat else r.chr1.toNat :=
      (if_pos h4).trans (if_congr hhalf.symm rfl rfl)
    have hplace : chrPage * 0x1000 + c % 0x1000 = 0x1000 * chrPage + 0x400 * (c / 0x400 % 4) + c % 0x400 := by omega
    rw [hplace, ppuRead_of_slot hs hc]
    rw [hchr, getD_setChrMap_4 _ _ _ hk, hpage]

theorem mirroring_mmc1 (r : Mmc1) :
    r.mirroring = [.oneScreenLow, .oneScreenHigh, .vertical, .horizontal].getD (r.control.toNat % 4) .horizontal := by
  have hmode := toNat_two_bits r.control 0
  rw [pow_zero, Nat.div_one] at hmode
  rw [Mmc1.mirroring, hmode]
  cases r.control.getLsbD 1 <;> cases r.control.getLsbD 0 <;> rfl

/-- Settles O56: the port write by write, and the pages each mode selects. -/
theorem mmc1Serial : Obligations.Mmc1Serial := by
  refine ⟨fun r a v => ⟨fun hv => ?restart, fun hv hn => Mmc1.write_shift a hv hn⟩, ?five, fun r b c s hs hm hb hc => ?banks⟩
  case restart => rw [Mmc1.write, if_pos hv]
  case five =>
    intro r a1 a2 a3 a4 a5 v1 v2 v3 v4 v5 hn hclear loaded value four old
    simp only [List.forall_mem_cons] at hclear
    obtain ⟨h1, h2, h3, h4, h5, -⟩ := hclear
    have hfour : (((r.write a1 v1).write a2 v2).write a3 v3).write a4 v4 = r.shifted (Mmc1.shiftedFour r.shift v1 v2 v3 v4) 4 := by
      conv_lhs => rw [Mmc1.eq_shifted hn]
      rw [Mmc1.write_shifted r _ a1 h1 (by decide), Mmc1.write_shifted r _ a2 h2 (by decide),
        Mmc1.write_shifted r _ a3 h3 (by decide), Mmc1.write_shifted r _ a4 h4 (by decide), Mmc1.shiftedFour]
    obtain ⟨hempty, hload⟩ := Mmc1.write_load (r := r.shifted (Mmc1.shiftedFour r.shift v1 v2 v3 v4) 4) a5 h5 rfl
    have hloaded : loaded = (r.shifted (Mmc1.shiftedFour r.shift v1 v2 v3 v4) 4).write a5 v5 :=
      congrArg (fun m => m.write a5 v5) hfour
    have hfourRegisters : four = loaded.registers := rfl
    rw [hfourRegisters, hloaded]
    refine ⟨hempty, hload.trans ?_⟩
    exact congrArg (List.set old _) (Mmc1.shiftBit_shiftedFour r.shift v1 v2 v3 v4 v5)
  case banks =>
    obtain ⟨-, -, -, -, ⟨-, hmirroring⟩, -⟩ := id hs
    refine ⟨peek_mmc1 hs hb hm, ppuRead_mmc1 hs hc hm, ?_⟩
    rw [hmirroring, hm]
    exact mirroring_mmc1 r

end Sys2Proof.Machine
end

section
/-! SUPPORT. MMC3 (R542 to R548): the scanline counter, each register write by its address, and the banks its registers map
(O57). -/

namespace Sys2Proof.Machine

/-! ## The scanline counter (R465, R548) -/

theorem phaseOf_visible (n : Nat) : phaseOf n = .visible ↔ n < 240 := by
  unfold phaseOf
  split_ifs <;> simp_all

theorem Ppu.signalsScanline_iff {p : Ppu} (hphase : p.phase = phaseOf p.scanline) :
    p.signalsScanline = decide ((p.scanline < 240 ∨ p.scanline = 261) ∧ p.dot = 260) := by
  have hevery : (p.rendering || !Config.scanlineIrqRequiresRendering) = true := Bool.or_true _
  rw [Bool.eq_iff_iff, Ppu.signalsScanline, hevery, hphase]
  simp only [Bool.and_true, Bool.and_eq_true, Bool.or_eq_true, decide_eq_true_eq, phaseOf_visible, phaseOf_preRender]
  rfl

theorem Mapper.iterate_countScanline_mmc3 (r : Mmc3) (k : Nat) :
    Mapper.countScanline^[k] (.mmc3 r) = .mmc3 (Mmc3.countScanline^[k] r) :=
  (Function.Semiconj.iterate_right (f := Mapper.mmc3) (fun _ => rfl) k r).symm

/-- From a counter at 0, the first count loads the period and each of the next ones takes one off. -/
theorem Mmc3.iterate_countScanline {r : Mmc3} (hcounter : r.irqCounter = 0) {k : Nat} (hk : k ≤ r.irqPeriod.toNat) :
    Mmc3.countScanline^[k + 1] r = { r with irqCounter := BitVec.ofNat 8 (r.irqPeriod.toNat - k) } := by
  induction k with
  | zero => simp [Mmc3.countScanline, hcounter]
  | succ k ih =>
    have hlt := r.irqPeriod.isLt
    have hne : BitVec.ofNat 8 (r.irqPeriod.toNat - k) ≠ 0 := by
      rw [Ne, ← BitVec.toNat_inj, BitVec.toNat_ofNat, Nat.mod_eq_of_lt (by omega)]
      exact Nat.sub_ne_zero_of_lt hk
    have hstep : BitVec.ofNat 8 (r.irqPeriod.toNat - k) - 1 = BitVec.ofNat 8 (r.irqPeriod.toNat - (k + 1)) := by bv_omega
    rw [Function.iterate_succ_apply', ih (by omega), Mmc3.countScanline]
    simp only [hne, if_false, hstep]

theorem Mmc3.iterate_countScanline_irqEnabled (r : Mmc3) (k : Nat) : (Mmc3.countScanline^[k] r).irqEnabled = r.irqEnabled := by
  induction k with
  | zero => rfl
  | succ k ih => rw [Function.iterate_succ_apply']; exact ih

/-- A period `n` raises the IRQ at the count after `n` others, and at none of those. -/
theorem Mmc3.raisesIrq_iterate {r : Mmc3} (hcounter : r.irqCounter = 0) (henabled : r.irqEnabled = true) {k : Nat}
    (hk : k ≤ r.irqPeriod.toNat) :
    (Mapper.countScanline^[k] (.mmc3 r)).raisesIrq = decide (k = r.irqPeriod.toNat) := by
  have hlt := r.irqPeriod.isLt
  rw [Mapper.iterate_countScanline_mmc3, Mapper.raisesIrq, Mmc3.iterate_countScanline_irqEnabled, henabled, Bool.true_and,
    ← Function.iterate_succ_apply' Mmc3.countScanline, Mmc3.iterate_countScanline hcounter hk]
  apply decide_eq_decide.2
  rw [← BitVec.toNat_inj, BitVec.toNat_ofNat, Nat.mod_eq_of_lt (by omega)]
  show _ = 0 ↔ _
  omega

theorem ppuDot_mmc3 {s : State} {r : Mmc3} (hs : s.Inv) (hm : s.mapper = .mmc3 r) :
    let counter := if r.irqCounter = 0 then r.irqPeriod else r.irqCounter - 1
    let counts := (s.ppu.scanline < 240 ∨ s.ppu.scanline = 261) ∧ s.ppu.dot = 260
    (ppuDot s).mapper = (if counts then .mmc3 { r with irqCounter := counter } else .mmc3 r) ∧
      (ppuDot s).irqFlag = (s.irqFlag || decide (counts ∧ r.irqEnabled = true ∧ counter = 0)) := by
  intro counter counts
  obtain ⟨⟨-, -, hphase⟩, -⟩ := State.ppu_inv hs
  have hsignal := Ppu.signalsScanline_iff hphase
  constructor
  · show (if s.ppu.signalsScanline then s.mapper.countScanline else s.mapper) = _
    rw [hm, hsignal]
    exact if_congr decide_eq_true_iff rfl rfl
  · show (s.irqFlag || (s.ppu.signalsScanline && s.mapper.raisesIrq)) = _
    rw [hm, hsignal, Mapper.raisesIrq, Bool.decide_and counts, Bool.decide_and]
    simp [counter, Mmc3.countScanline]

/-! ## The registers (R542 to R547) -/

theorem bool_eq_of_toNat_eq {a b : Bool} (h : a.toNat = b.toNat) : a = b := by
  revert a b; decide

/-- Address bits 14, 13 and 0 from the 8 KB range and the parity. -/
theorem mmc3Select {a : Addr} {high low odd : Bool} (hrange : a.toNat / 0x2000 % 4 = 2 * high.toNat + low.toNat)
    (hodd : a.toNat % 2 = odd.toNat) : a.getLsbD 14 = high ∧ a.getLsbD 13 = low ∧ a.getLsbD 0 = odd := by
  have hbits : a.toNat / 0x2000 % 4 = 2 * (a.getLsbD 14).toNat + (a.getLsbD 13).toNat := toNat_two_bits a 13
  have hbit : (a.getLsbD 0).toNat = a.toNat / 2 ^ 0 % 2 := Nat.toNat_testBit ..
  rw [pow_zero, Nat.div_one] at hbit
  have h14 := (a.getLsbD 14).toNat_le
  have h13 := (a.getLsbD 13).toNat_le
  have hh := high.toNat_le
  have hl := low.toNat_le
  exact ⟨bool_eq_of_toNat_eq (by omega), bool_eq_of_toNat_eq (by omega), bool_eq_of_toNat_eq (by omega)⟩

theorem isMmc3Acknowledge_eq_false {a : Addr} (ha : 0x8000 ≤ a.toNat) (h : a.toNat < 0xE000 ∨ a.toNat % 2 = 1) :
    isMmc3Acknowledge a = false := by
  by_contra hne
  simp only [isMmc3Acknowledge, Bool.not_eq_false, Bool.and_eq_true, Bool.not_eq_true'] at hne
  obtain ⟨⟨h14, h13⟩, h0⟩ := hne
  have hrange : a.toNat / 0x2000 % 4 = 3 := (toNat_two_bits a 13).trans (by rw [h14, h13]; rfl)
  have heven : a.toNat % 2 = 0 := by simpa [BitVec.getLsbD] using h0
  have hlt : a.toNat < 0x10000 := a.isLt
  omega

theorem busWrite_mmc3 {a : Addr} (v : Byte) {s : State} {r : Mmc3} (ha : 0x8000 ≤ a.toNat) (hm : s.mapper = .mmc3 r) :
    busWrite a v s = { s.applyMapper (.mmc3 (r.write a v)) with irqFlag := s.irqFlag && !isMmc3Acknowledge a } := by
  rw [busWrite_mapperRegister v s ha, mapperRegisterWrite, hm]

/-! ## The banks (R544) -/

/-- Four 8 KB pages, in the order `Mmc3Apply()` sets them. -/
theorem getD_setPrgMap_8 (p0 p1 p2 p3 size : Nat) {k : Nat} (hk : k < 4) :
    (setPrgMap 8 2 p2 size (setPrgMap 8 0 p0 size (setPrgMap 8 3 p3 size (setPrgMap 8 1 p1 size noPrgSlots)))).getD k 0 =
      0x2000 * [p0, p1, p2, p3].getD k 0 % size := by
  simp (disch := simpa [noPrgSlots] using hk) only [getD_setPrgMap]
  interval_cases k <;> simp

/-- The last two 8 KB pages, as `-1` and `-2` name them. -/
theorem setPrgMap_fromEnd_8 (slot : Nat) {size j : Nat} (m : List Nat) (hj : 0 < j) (hj2 : j ≤ 2) (hpos : 0 < size)
    (hunit : size % 0x4000 = 0) : setPrgMap 8 slot (-j) size m = setPrgMap 8 slot (size / 0x2000 - j : Nat) size m :=
  setPrgMap_fromEnd 8 slot size m hj (by omega)

theorem getD_setChrMap_2 (slot page size : Nat) {k : Nat} {m : List Nat} (hk : k < m.length) :
    (setChrMap 2 slot page size m).getD k 0 = if k / 2 = slot then 0x400 * (page * 2 + k % 2) % size else m.getD k 0 := by
  have hrange : 2 * slot ≤ k ∧ k < 2 * slot + 2 ↔ k / 2 = slot := by omega
  rw [getD_setChrMap _ _ _ _ hk, if_congr hrange rfl rfl]
  split
  next hslot =>
    have hplace : 2 * 1024 * page + 0x400 * (k - 2 * slot) = 0x400 * (page * 2 + k % 2) := by omega
    rw [hplace]
  next => rfl

theorem getD_setChrMap_1 (slot page size : Nat) {k : Nat} {m : List Nat} (hk : k < m.length) :
    (setChrMap 1 slot page size m).getD k 0 = if k = slot then 0x400 * page % size else m.getD k 0 := by
  have hrange : 1 * slot ≤ k ∧ k < 1 * slot + 1 ↔ k = slot := by omega
  rw [getD_setChrMap _ _ _ _ hk, if_congr hrange rfl rfl]
  split
  next hslot =>
    have hplace : 1 * 1024 * page + 0x400 * (k - 1 * slot) = 0x400 * page := by omega
    rw [hplace]
  next => rfl

theorem getD_chrMap_mmc3 (r : Mmc3) (size : Nat) {n : Nat} (hn : n < 8) :
    let k := if r.bankSelect.getLsbD 7 then (n + 4) % 8 else n
    (r.chrMap size).getD n 0 = 0x400 * (if k < 4 then r.page (k / 2) / 2 * 2 + k % 2 else r.page (k - 2)) % size := by
  intro k
  have hrange : List.range 4 = [0, 1, 2, 3] := rfl
  rw [Mmc3.chrMap]
  cases h7 : r.bankSelect.getLsbD 7
  all_goals
    simp only [k, h7, hrange, List.foldl, if_true, Bool.false_eq_true, if_false]
    simp (disch := simpa [noChrSlots] using hn) only [getD_setChrMap_1, getD_setChrMap_2]
    interval_cases n <;> simp

theorem getD_prgMap_mmc3 (r : Mmc3) {size : Nat} (hpos : 0 < size) (hunit : size % 0x4000 = 0) {k : Nat} (hk : k < 4) :
    let last := size / 0x2000 - 1
    (r.prgMap size).getD k 0 = 0x2000 * (if k = 1 then r.page 7 else if k = 3 then last
      else if k = 0 ↔ r.bankSelect.getLsbD 6 = false then r.page 6 else last - 1) % size := by
  intro last
  have hlast (slot : Nat) (m : List Nat) : setPrgMap 8 slot (-1) size m = setPrgMap 8 slot (last : Nat) size m :=
    setPrgMap_fromEnd_8 (j := 1) slot m (by decide) (by decide) hpos hunit
  have hnext (slot : Nat) (m : List Nat) : setPrgMap 8 slot (-2) size m = setPrgMap 8 slot (last - 1 : Nat) size m :=
    setPrgMap_fromEnd_8 (j := 2) slot m (by decide) (by decide) hpos hunit
  rw [Mmc3.prgMap]
  cases r.bankSelect.getLsbD 6
  case false =>
    rw [if_neg Bool.false_ne_true, hnext, hlast, getD_setPrgMap_8 _ _ _ _ _ hk]
    interval_cases k <;> rfl
  case true =>
    rw [if_pos rfl, hnext, hlast, getD_setPrgMap_8 _ _ _ _ _ hk]
    interval_cases k <;> rfl

theorem peek_mmc3 {b : Addr} {s : State} {r : Mmc3} (hs : s.Inv) (hb : 0x8000 ≤ b.toNat) (hm : s.mapper = .mmc3 r) :
    let last := s.cart.prgSize / 0x2000 - 1
    let window := (b.toNat - 0x8000) / 0x2000
    let page :=
      if window = 1 then r.page 7
      else if window = 3 then last
      else if window = 0 ↔ r.bankSelect.getLsbD 6 = false then r.page 6 else last - 1
    peek b s = s.cart.prg.read ((page * 0x2000 + b.toNat % 0x2000) % s.cart.prgSize) := by
  intro last window page
  obtain ⟨-, -, ⟨⟨hpos, hunit⟩, -⟩, -⟩ := id hs
  have hwindow : window < 4 := by omega
  rw [Nat.mul_comm page]
  refine peek_of_slot hs hb ?_
  rw [hm]
  exact getD_prgMap_mmc3 r hpos hunit hwindow

theorem ppuRead_mmc3 {c : Nat} {s : State} {r : Mmc3} (hs : s.Inv) (hc : c < 0x2000) (hm : s.mapper = .mmc3 r) :
    let k := if r.bankSelect.getLsbD 7 then (c / 0x400 + 4) % 8 else c / 0x400
    let chrPage := if k < 4 then r.page (k / 2) / 2 * 2 + k % 2 else r.page (k - 2)
    s.ppu.read s.ppuBus c = s.cart.chr.read ((chrPage * 0x400 + c % 0x400) % s.cart.chrSize) := by
  intro k chrPage
  have hwindow : c / 0x400 < 8 := by omega
  rw [Nat.mul_comm chrPage]
  refine ppuRead_of_slot hs hc ?_
  rw [hm]
  exact getD_chrMap_mmc3 r s.cart.chrSize hwindow

/-- Settles O57: the counter, each write by its address, and the page each window shows. -/
theorem mmc3Irq : Obligations.Mmc3Irq := by
  intro r a v s hm t
  refine ⟨fun hs => ppuDot_mmc3 hs hm, fun hcounter henabled k hk => Mmc3.raisesIrq_iterate hcounter henabled hk, ?_⟩
  have ht (ha : 0x8000 ≤ a.toNat) : t = { s.applyMapper (.mmc3 (r.write a v)) with
      irqFlag := s.irqFlag && !isMmc3Acknowledge a } := busWrite_mmc3 v ha hm
  have hmapper (ha : 0x8000 ≤ a.toNat) : t.mapper = .mmc3 (r.write a v) := by rw [ht ha]; rfl
  have hlt : a.toNat < 0x10000 := a.isLt
  refine ⟨fun ha ha' h => ?bankSelect, fun ha ha' h => ?bankData, fun ha ha' h => ?mirroring, fun ha ha' h => ?ignored,
    fun ha ha' h => ?period, fun ha ha' h => ?reload, fun ha h => ?acknowledge, fun ha h => ?enable, fun ha h => ?irqKept,
    fun b c hs hb hc => ?banks⟩
  case bankSelect =>
    obtain ⟨h14, h13, h0⟩ := mmc3Select (a := a) (high := false) (low := false) (odd := false) (by grind) h
    rw [hmapper (by omega), Mmc3.write, h14, h13, h0]
  case bankData =>
    obtain ⟨h14, h13, h0⟩ := mmc3Select (a := a) (high := false) (low := false) (odd := true) (by grind) h
    rw [hmapper (by omega), Mmc3.write, h14, h13, h0]
  case mirroring =>
    obtain ⟨h14, h13, h0⟩ := mmc3Select (a := a) (high := false) (low := true) (odd := false) (by grind) h
    rw [ht (by omega), Mmc3.write, h14, h13, h0]; exact ⟨rfl, rfl⟩
  case ignored =>
    obtain ⟨h14, h13, h0⟩ := mmc3Select (a := a) (high := false) (low := true) (odd := true) (by grind) h
    rw [hmapper (by omega), Mmc3.write, h14, h13, h0]
  case period =>
    obtain ⟨h14, h13, h0⟩ := mmc3Select (a := a) (high := true) (low := false) (odd := false) (by grind) h
    rw [hmapper (by omega), Mmc3.write, h14, h13, h0]
  case reload =>
    obtain ⟨h14, h13, h0⟩ := mmc3Select (a := a) (high := true) (low := false) (odd := true) (by grind) h
    rw [hmapper (by omega), Mmc3.write, h14, h13, h0]
  case acknowledge =>
    obtain ⟨h14, h13, h0⟩ := mmc3Select (a := a) (high := true) (low := true) (odd := false) (by grind) h
    rw [ht (by omega), Mmc3.write, h14, h13, h0, isMmc3Acknowledge, h14, h13, h0]; exact ⟨Bool.and_false _, rfl⟩
  case enable =>
    obtain ⟨h14, h13, h0⟩ := mmc3Select (a := a) (high := true) (low := true) (odd := true) (by grind) h
    rw [hmapper (by omega), Mmc3.write, h14, h13, h0]
  case irqKept => rw [ht ha, isMmc3Acknowledge_eq_false ha h]; exact Bool.and_true _
  case banks =>
    obtain ⟨-, -, -, -, ⟨-, hmirroring⟩, -⟩ := id hs
    refine ⟨peek_mmc3 hs hb hm, ppuRead_mmc3 hs hc hm, ?_⟩
    rw [hmirroring, hm]
    rfl

end Sys2Proof.Machine
end

section
/-! SUPPORT. Loading an image (R500 to R505) and powering on (R650): the header as numbers, the three ways a load can end, and the
machine that `power_on` starts (O59). -/

namespace Sys2Proof.Machine

/-! ## The header (R500 to R505) -/

theorem toNat_and_highNibble (v : Byte) : (v &&& 0xF0).toNat = v.toNat / 16 * 16 := by
  have hshift : v &&& (0xF0 : Byte) = v >>> 4 <<< 4 := by
    ext i hi
    interval_cases i <;> simp
  have hlt := v.isLt
  rw [hshift, BitVec.toNat_shiftLeft, BitVec.toNat_ushiftRight, Nat.shiftRight_eq_div_pow, Nat.shiftLeft_eq,
    Nat.mod_eq_of_lt (by omega)]

theorem headerMapper_eq (file : List Byte) :
    headerMapper file = (file.getD 7 0).toNat / 16 * 16 + (file.getD 6 0).toNat / 16 := by
  rw [headerMapper, toNat_and_highNibble, BitVec.toNat_ushiftRight, Nat.shiftRight_eq_div_pow]
  rfl

/-- The image holds all that its header promises, and the header promises PRG. -/
abbrev CompleteRom (file : List Byte) : Prop :=
  16 ≤ file.length ∧ 0 < (file.getD 4 0).toNat ∧
    16 + (file.getD 4 0).toNat * 16384 + (file.getD 5 0).toNat * 8192 ≤ file.length

theorem isShortRom_iff (file : List Byte) : isShortRom file = true ↔ ¬CompleteRom file := by
  simp only [isShortRom, Bool.or_eq_true, decide_eq_true_eq]
  simp only [CompleteRom, headerPrgSize, headerChrRomSize, fileByte]
  omega

theorem Mapper.ofNumber_of_mem {n : Nat} (h : n ∈ [0, 1, 2, 4, 7]) (header : Mirroring) :
    ∃ m, Mapper.ofNumber n header = some m ∧ m.number = n := by
  simp only [List.mem_cons, List.not_mem_nil, or_false] at h
  rcases h with rfl | rfl | rfl | rfl | rfl <;> exact ⟨_, rfl, rfl⟩

theorem Mapper.ofNumber_of_not_mem {n : Nat} (h : n ∉ [0, 1, 2, 4, 7]) (header : Mirroring) :
    Mapper.ofNumber n header = none := by
  simp only [List.mem_cons, List.not_mem_nil, or_false, not_or] at h
  obtain ⟨h0, h1, h2, h4, h7⟩ := h
  rw [Mapper.ofNumber] <;> assumption

/-- The bytes of an image from the offset `16` up, as the loaded PRG holds them. -/
theorem read_cartOfFile {file : List Byte} {i : Nat} (hi : i < headerPrgSize file) :
    (cartOfFile file).prg.read i = file.getD (16 + i) 0 := by
  show (Memory.ofBytes _).read i = _
  rw [Memory.read_ofBytes, List.getD_eq_getElem?_getD, List.getElem?_take_of_lt hi, List.getElem?_drop,
    List.getD_eq_getElem?_getD]

/-! ## The three ways a load ends -/

theorem loadRom_short {file : List Byte} (s : State) (h : ¬CompleteRom file) : loadRom file s = s.failLoad (.shortFile .rom) := by
  rw [loadRom, if_pos ((isShortRom_iff file).2 h)]

theorem loadRom_unsupported {file : List Byte} (s : State) (h : CompleteRom file) (hn : headerMapper file ∉ [0, 1, 2, 4, 7]) :
    loadRom file s = s.failLoad (.unsupportedMapper (headerMapper file)) := by
  rw [loadRom, if_neg (mt (isShortRom_iff file).1 (not_not.2 h)), Mapper.ofNumber_of_not_mem hn]

theorem loadRom_supported {file : List Byte} (s : State) (h : CompleteRom file) (hn : headerMapper file ∈ [0, 1, 2, 4, 7]) :
    ∃ m, loadRom file s = s.insert (cartOfFile file) m ∧ m.number = headerMapper file := by
  obtain ⟨m, hm, hnumber⟩ := Mapper.ofNumber_of_mem hn (headerMirroring file)
  exact ⟨m, by rw [loadRom, if_neg (mt (isShortRom_iff file).1 (not_not.2 h)), hm], hnumber⟩

/-! ## Power on (R650) -/

/-- The machine of `power_on` but for `PC`. -/
def State.poweredOn (s : State) : State :=
  { s with
    ram := [], a := 0, x := 0, y := 0, sp := 0xFD, p := 0x34, cycleCount := 0, nmiFlag := false, irqFlag := false,
    ppu := .powerOn, ctl := .powerOn, run := .running }

theorem powerOn_of_cartridge {s : State} (h : s.cart.prgSize ≠ 0) :
    powerOn s = .next (s.poweredOn.setPc (addrOf (peek 0xFFFC s.poweredOn) (peek 0xFFFD s.poweredOn))) := by
  rw [powerOn, if_neg h]
  rfl

/-- Settles O59, by the way the load ends and by what `power_on` keeps of it. -/
theorem loadAndPowerOn : Obligations.LoadAndPowerOn := by
  intro file s header complete number
  have hnumber : headerMapper file = number := headerMapper_eq file
  refine ⟨fun h => ?short, fun h hn => ?unsupported, fun h hn => ?loaded, fun h hn => ?started⟩
  case short => rw [loadRom_short s h]; rfl
  case unsupported => rw [loadRom_unsupported s h (hnumber ▸ hn), hnumber]; rfl
  case loaded =>
    obtain ⟨m, hload, -⟩ := loadRom_supported s h (hnumber ▸ hn)
    rw [hload, State.insert_run]
    exact ⟨fun r hr => by rw [hr, RunState.unlessHalted_halted], fun hr => RunState.unlessHalted_of_ne hr _⟩
  case started =>
    obtain ⟨m, hload, hm⟩ := loadRom_supported s h (hnumber ▸ hn)
    obtain ⟨-, hprg, -⟩ := id h
    have hsize : (loadRom file s).cart.prgSize ≠ 0 := by
      rw [hload]
      exact (Nat.mul_pos hprg (by decide)).ne'
    refine ⟨_, powerOn_of_cartridge hsize, ?_⟩
    have hcart : (loadRom file s).cart = cartOfFile file := by rw [hload]; rfl
    have hmapper : (loadRom file s).mapper.number = number := by rw [hload]; exact hm.trans hnumber
    refine ⟨rfl, hmapper, congrArg Cart.prgSize hcart, (congrArg Cart.chrIsRam hcart).trans ?ram, fun i hi => ?prg, rfl, rfl,
      fun _ => rfl, rfl⟩
    case ram => exact decide_eq_decide.2 BitVec.toNat_inj.symm
    case prg => exact (congrArg (fun c => c.prg.read i) hcart).trans (read_cartOfFile hi)

end Sys2Proof.Machine
end

section
/-! SUPPORT. The pixel (R480 to R484): the background's and the sprites' indices as numbers, the entry that goes into the work buffer,
and the shift of the background registers (O52). -/

namespace Sys2Proof.Machine

/-! ## The background's index (R480) -/

/-- Two bits as a number. -/
abbrev twoBits (high low : Bool) : Nat := 2 * high.toNat + low.toNat

theorem toNat_ofBool_append (high low : Bool) : (BitVec.ofBool high ++ BitVec.ofBool low).toNat = twoBits high low := by
  revert high low; decide

/-- The two pattern bits at the fine-X tap. -/
abbrev Ppu.bgPattern (p : Ppu) : Nat :=
  twoBits (p.bg.bgShiftHi.getLsbD (15 - p.fineX.toNat)) (p.bg.bgShiftLo.getLsbD (15 - p.fineX.toNat))

/-- The two palette bits at the fine-X tap. -/
abbrev Ppu.bgPalette (p : Ppu) : Nat :=
  twoBits (p.bg.atShiftHi.getLsbD (7 - p.fineX.toNat)) (p.bg.atShiftLo.getLsbD (7 - p.fineX.toNat))

/-- The mask shows the layer with the enable bit `on` and the left-column bit `left` at column `x`. -/
abbrev Ppu.shows (p : Ppu) (on left x : Nat) : Prop := p.mask.getLsbD on = true ∧ (p.mask.getLsbD left = true ∨ 8 ≤ x)

theorem Ppu.shows_iff (p : Ppu) (on left x : Nat) :
    (p.mask.getLsbD on && !(!p.mask.getLsbD left && decide (x < 8))) = true ↔ p.shows on left x := by
  simp [Ppu.shows]

theorem toNat_setWidth_append (palette pattern : BitVec 2) :
    ((palette ++ pattern).setWidth 5).toNat = pattern.toNat + 4 * palette.toNat := by
  revert palette pattern; decide

theorem Ppu.toNat_bgPixel (p : Ppu) (x : Nat) :
    (p.bgPixel x).toNat = if p.shows 3 1 x ∧ p.bgPattern ≠ 0 then p.bgPattern + 4 * p.bgPalette else 0 := by
  rw [Ppu.bgPixel]
  by_cases hshown : p.shows 3 1 x
  case neg => rw [if_neg (mt (p.shows_iff 3 1 x).1 hshown), if_neg fun h => hshown h.1]; rfl
  case pos =>
    rw [if_pos ((p.shows_iff 3 1 x).2 hshown)]
    dsimp only
    by_cases hpattern : p.bgPattern = 0
    · rw [if_pos (BitVec.eq_of_toNat_eq ((toNat_ofBool_append _ _).trans hpattern)), if_neg fun h => h.2 hpattern]; rfl
    · rw [if_neg fun h => hpattern ((toNat_ofBool_append _ _).symm.trans (congrArg BitVec.toNat h)),
        if_pos ⟨hshown, hpattern⟩, toNat_setWidth_append, toNat_ofBool_append, toNat_ofBool_append]

/-! ## The sprites' index (R480, R481) -/

/-- The two pattern bits of a slot at column `x`, as a number. -/
def SpriteInfo.dots (i : SpriteInfo) (x : Nat) : Nat :=
  if i.id ≠ 64 ∧ i.x.toNat ≤ x ∧ x < i.x.toNat + 8 then
    twoBits (i.dataHi.getLsbD (7 - (x - i.x.toNat))) (i.dataLo.getLsbD (7 - (x - i.x.toNat)))
  else 0

theorem SpriteInfo.toNat_pixel (i : SpriteInfo) (x : Nat) : (i.pixel x).toNat = i.dots x := by
  rw [SpriteInfo.pixel, SpriteInfo.dots]
  by_cases hid : i.id = 64
  · rw [if_pos hid, if_neg fun h => h.1 hid]; rfl
  · by_cases hx : x < i.x.toNat ∨ i.x.toNat + 8 ≤ x
    · rw [if_neg hid, if_pos hx, if_neg (by omega)]; rfl
    · rw [if_neg hid, if_neg hx, if_pos ⟨hid, by omega⟩]
      exact toNat_ofBool_append _ _

theorem SpriteInfo.opaque_iff (i : SpriteInfo) (x : Nat) : (i.pixel x != 0) = true ↔ i.dots x ≠ 0 := by
  rw [bne_iff_ne, Ne, ← BitVec.toNat_inj, i.toNat_pixel]
  rfl

theorem toNat_paletteIndex (i : SpriteInfo) (x : Nat) : (i.paletteIndex x).toNat = 16 + i.attr.toNat % 4 * 4 + i.dots x := by
  have happend (attr pattern : BitVec 2) : (1#1 ++ attr ++ pattern).toNat = 16 + attr.toNat * 4 + pattern.toNat := by
    revert attr pattern; decide
  rw [SpriteInfo.paletteIndex, happend, i.toNat_pixel, BitVec.extractLsb'_toNat, Nat.shiftRight_zero]

theorem Ppu.spriteAt_eq_none {p : Ppu} {x : Nat} (h : ¬p.shows 4 2 x ∨ ∀ i ∈ p.spr, i.dots x = 0) : p.spriteAt x = none := by
  rw [Ppu.spriteAt]
  by_cases hshown : p.shows 4 2 x
  · rw [if_pos ((p.shows_iff 4 2 x).2 hshown), List.find?_eq_none]
    exact fun i hi hopaque => (i.opaque_iff x).1 hopaque (h.resolve_left (not_not.2 hshown) i hi)
  · rw [if_neg (mt (p.shows_iff 4 2 x).1 hshown)]

theorem Ppu.spriteAt_eq_some {p : Ppu} {x : Nat} {before after : List SpriteInfo} {i : SpriteInfo} (hshown : p.shows 4 2 x)
    (hslots : p.spr = before ++ i :: after) (hbefore : ∀ j ∈ before, j.dots x = 0) (hi : i.dots x ≠ 0) :
    p.spriteAt x = some i := by
  rw [Ppu.spriteAt, if_pos ((p.shows_iff 4 2 x).2 hshown), hslots, List.find?_append,
    List.find?_eq_none.2 fun j hj hopaque => (j.opaque_iff x).1 hopaque (hbefore j hj), Option.none_or,
    List.find?_cons_of_pos (p := fun i : SpriteInfo => i.pixel x != 0) ((i.opaque_iff x).2 hi)]

/-! ## The entry and the registers (R482 to R484) -/

/-- The frame-buffer entry for the palette index `i`. -/
def Ppu.entryOf (p : Ppu) (b : PpuBus) (i : Nat) : BitVec 9 :=
  (p.mask.extractLsb' 5 3).setWidth 9 <<< 6 ||| ((p.read b (0x3F00 + i)).setWidth 9 &&& 0x3F)

theorem append_extractLsb'_eq (m : BitVec 3) (v : Byte) :
    m ++ v.extractLsb' 0 6 = m.setWidth 9 <<< 6 ||| (v.setWidth 9 &&& (0x3F : BitVec 9)) := by
  apply BitVec.eq_of_getLsbD_eq
  intro i hi
  rw [BitVec.getLsbD_append]
  interval_cases i <;> simp

theorem Ppu.entry_eq (p : Ppu) (b : PpuBus) (x : Nat) :
    p.entry b x = p.entryOf b (if p.rendering then (p.compose x).toNat else 0) := append_extractLsb'_eq _ _

theorem Ppu.pixel_eq {p : Ppu} (b : PpuBus) (hline : p.scanline < 240) (hfirst : 2 ≤ p.dot) (hlast : p.dot ≤ 257) :
    p.pixel b = { p.output b (p.dot - 2) with bg := p.bg.shift } := by
  rw [Ppu.pixel, if_pos ⟨hline, hfirst, by omega⟩]
  rfl

/-- Settles O52, by the case of the sprite at the column. -/
theorem pixelOutput : Obligations.PixelOutput := by
  intro p b hinv hline hfirst hlast x q two pattern palette bgShown bg spritesShown dots entry
  have hq : q = { p.output b x with bg := p.bg.shift } := Ppu.pixel_eq b hline hfirst hlast
  obtain ⟨-, -, -, -, ⟨hwork, -⟩, -⟩ := hinv
  have hentry : q.work.read p.scanline x = entry (if p.rendering then (p.compose x).toNat else 0) := by
    rw [hq]
    exact (Frame.read_write_same _ _ _ _ hwork).trans (Ppu.entry_eq p b x)
  have hstatus : q.status = if p.hitsSprite0 x then p.status ||| 0x40 else p.status := by rw [hq]; rfl
  have hbg : (p.bgPixel x).toNat = bg := p.toNat_bgPixel x
  rw [hentry, hstatus, Ppu.compose, Ppu.hitsSprite0]
  refine ⟨fun hr => ?off, fun hr hnone => ?background, fun before after i hshown hslots hbefore hi => ?sprite,
    fun y' x' hne => ?others, ?registers⟩
  case off =>
    obtain ⟨-, h4⟩ := Bool.or_eq_false_iff.1 hr
    rw [Ppu.spriteAt_eq_none (.inl fun h => Bool.false_ne_true (h4.symm.trans h.1)), hr]
    exact ⟨rfl, rfl⟩
  case background =>
    rw [Ppu.spriteAt_eq_none hnone, hr, if_pos rfl, hbg]
    exact ⟨rfl, rfl⟩
  case sprite =>
    have hbg0 : p.bgPixel x = 0 ↔ bg = 0 := by rw [← hbg, ← BitVec.toNat_inj]; rfl
    have hr : p.rendering = true := Bool.or_eq_true_iff.2 (.inr hshown.1)
    rw [Ppu.spriteAt_eq_some hshown hslots hbefore hi, hr, if_pos rfl]
    dsimp only
    refine ⟨congrArg entry ?index, if_congr ?hit rfl rfl⟩
    case index =>
      rw [apply_ite BitVec.toNat, toNat_paletteIndex, hbg]
      exact if_congr (or_congr hbg0 Iff.rfl) rfl rfl
    case hit =>
      rw [Bool.and_eq_true, Bool.and_eq_true, decide_eq_true_eq, decide_eq_true_eq, decide_eq_true_eq, Ne, hbg0, and_assoc]
  case others =>
    rw [hq]
    exact Frame.read_write_ne _ _ _ _ _ _ hwork hne
  case registers =>
    rw [hq]
    exact ⟨rfl, rfl, toNat_rotateLeft _ _, toNat_rotateLeft _ _⟩

end Sys2Proof.Machine
end

section
/-! SUPPORT. Snapshots (R580 to R591): what reading each kind of field gives of what writing it left, then each of the four parts, and
the lengths of a snapshot file (O60). -/

namespace Sys2Proof.Machine

/-! ## One field (R581) -/

@[simp] theorem ReadResult.andThen_ok {α β : Type} (v : α) (rest : List Byte) (f : α → List Byte → ReadResult β) :
    (ReadResult.ok v rest).andThen f = f v rest := rfl

@[simp] theorem ReadResult.check_ok {α : Type} (v : α) (rest : List Byte) (good : α → Bool) :
    (ReadResult.ok v rest).check good = if good v then .ok v rest else .foreign := rfl

@[simp] theorem readByte_cons (b : Byte) (rest : List Byte) : readByte (b :: rest) = .ok b rest := rfl

@[simp] theorem readBool_boolByte (b : Bool) (rest : List Byte) : readBool (boolByte b :: rest) = .ok b rest := by
  cases b <;> rfl

@[simp] theorem readMirroring_code (m : Mirroring) (rest : List Byte) : readMirroring (m.code :: rest) = .ok m rest := by
  cases m <;> rfl

@[simp] theorem readPhase_code (p : Phase) (rest : List Byte) : readPhase (p.code :: rest) = .ok p rest := by
  cases p <;> rfl

@[simp] theorem length_leBytes (n v : Nat) : (leBytes n v).length = n := by
  induction n generalizing v with
  | zero => rfl
  | succ n ih => rw [leBytes, List.length_cons, ih]

theorem readLe_leBytes {n v : Nat} (h : v < 256 ^ n) (rest : List Byte) : readLe n (leBytes n v ++ rest) = .ok v rest := by
  induction n generalizing v with
  | zero => rw [Nat.lt_one_iff.1 h]; rfl
  | succ n ih =>
    have hrest : v / 256 < 256 ^ n := Nat.div_lt_of_lt_mul (by rwa [← Nat.pow_succ'])
    have hsum : (BitVec.ofNat 8 v).toNat + 256 * (v / 256) = v := Nat.mod_add_div v 256
    rw [leBytes, List.cons_append, readLe, readByte_cons, ReadResult.andThen_ok, ih hrest, ReadResult.andThen_ok, hsum]

theorem readBits_leBytes {w : Nat} (n : Nat) (h : 2 ^ w ≤ 256 ^ n) (v : BitVec w) (rest : List Byte) :
    readBits w n (leBytes n v.toNat ++ rest) = .ok v rest := by
  rw [readBits, readLe_leBytes (v.isLt.trans_le h), ReadResult.andThen_ok, if_pos v.isLt, BitVec.ofNat_toNat, BitVec.setWidth_eq]

/-- A register of at most eight bits in a field of one byte. -/
theorem readBits_setWidth {w : Nat} (h : w ≤ 8) (v : BitVec w) (rest : List Byte) :
    readBits w 1 (v.setWidth 8 :: rest) = .ok v rest := by
  have hbyte : v.setWidth 8 :: rest = leBytes 1 v.toNat ++ rest := by
    rw [leBytes, BitVec.ofNat_toNat]; rfl
  rw [hbyte, readBits_leBytes 1 (by rw [pow_one]; exact Nat.pow_le_pow_right (by decide) h)]

theorem readMemory_toBytes {n : Nat} {m : Memory} (h : m.Inside n) (rest : List Byte) :
    readMemory n (m.toBytes n ++ rest) = .ok m rest := by
  have hlength := Memory.length_toBytes n m
  rw [readMemory, readBytes, if_neg (by rw [List.length_append, hlength]; omega), ReadResult.andThen_ok,
    List.take_left' hlength, List.drop_left' hlength, Memory.ofBytes_toBytes h]

theorem readVector_saveVector {n : Nat} {m : Memory} (hn : n < 2 ^ 64) (h : m.Inside n) (rest : List Byte) :
    readVector n (saveVector n m ++ rest) = .ok m rest := by
  rw [readVector, saveVector, le64, List.append_assoc, readLe_leBytes hn, ReadResult.andThen_ok, if_pos rfl, readMemory_toBytes h]

/-! ## The four parts (R582 to R585) -/

theorem loadCpu_saveCpu (u : State) {s : State} (hram : s.ram.Inside Config.ramSize) (hcycles : s.cycleCount < 2 ^ 64)
    (rest : List Byte) :
    loadCpu u (saveCpu s ++ rest) =
      .ok { u with ram := s.ram, a := s.a, x := s.x, y := s.y, pc := s.pc, sp := s.sp, p := s.p, nmiFlag := s.nmiFlag,
                   irqFlag := s.irqFlag, cycleCount := s.cycleCount } rest := by
  have hpc := readBits_leBytes 2 (le_refl (2 ^ 16)) s.pc
  have hcount := @readLe_leBytes 8 _ hcycles
  simp only [loadCpu, saveCpu, le16, le64, List.append_assoc, List.cons_append, List.nil_append, readMemory_toBytes hram, hpc, hcount,
    ReadResult.andThen_ok, readByte_cons, readBool_boolByte]

/-- The background latches, as `savePpu` writes them. -/
def saveBackground (g : Background) : List Byte :=
  le16 g.fetchAddr.toNat ++ [g.ntByte, g.atByte, g.bgLo, g.bgHi] ++ le16 g.bgShiftLo.toNat ++ le16 g.bgShiftHi.toNat ++
    [g.atShiftLo, g.atShiftHi, boolByte g.atLatchLo, boolByte g.atLatchHi]

/-- The counters, as `savePpu` writes them. -/
def saveCounters (p : Ppu) : List Byte := [p.phase.code] ++ le16 p.dot ++ le16 p.scanline ++ [boolByte p.frameOdd]

/-- The registers, as `savePpu` writes them. -/
def savePpuRegisters (p : Ppu) : List Byte :=
  [p.ctrl, p.mask, p.status, p.busLatch, p.readBuffer, p.oamAddr] ++ le16 p.v.toNat ++ le16 p.t.toNat ++
    [p.fineX.setWidth 8, boolByte p.w]

theorem savePpu_eq (m : Mirroring) (p : Ppu) :
    savePpu m p = p.ntRam.toBytes Config.ntRamSize ++ p.palRam.toBytes Config.palRamSize ++ p.oam.toBytes Config.oamSize ++
      [m.code] ++ saveCounters p ++ savePpuRegisters p ++ saveBackground p.bg := by
  simp only [savePpu, saveCounters, savePpuRegisters, saveBackground, List.append_assoc, List.cons_append, List.nil_append]

theorem loadBackground_saveBackground (g : Background) (rest : List Byte) :
    loadBackground (saveBackground g ++ rest) = .ok g rest := by
  have word := fun (v : BitVec 16) => readBits_leBytes 2 (le_refl (2 ^ 16)) v
  simp only [loadBackground, saveBackground, le16, List.append_assoc, List.cons_append, List.nil_append, word, ReadResult.andThen_ok,
    readByte_cons, readBool_boolByte]

theorem loadCounters_saveCounters (q : Ppu) {p : Ppu} (hp : p.Inv) (rest : List Byte) :
    loadCounters q (saveCounters p ++ rest) =
      .ok { q with phase := p.phase, dot := p.dot, scanline := p.scanline, frameOdd := p.frameOdd } rest := by
  obtain ⟨⟨hline, hdot, hphase⟩, -⟩ := hp
  have hdot16 := @readLe_leBytes 2 p.dot (hdot.trans (by decide))
  have hline16 := @readLe_leBytes 2 p.scanline (hline.trans (by decide))
  have hgood : (decide (p.scanline < Config.scanlines) && decide (p.phase = phaseOf p.scanline)) = true :=
    Bool.and_eq_true_iff.2 ⟨decide_eq_true hline, decide_eq_true hphase⟩
  simp only [loadCounters, saveCounters, le16, List.append_assoc, List.cons_append, List.nil_append, readPhase_code,
    ReadResult.andThen_ok, ReadResult.check_ok, hdot16, hline16, decide_eq_true hdot, hgood, if_true, readBool_boolByte]

theorem loadPpuRegisters_savePpuRegisters (q : Ppu) {p : Ppu} (hp : p.Inv) (rest : List Byte) :
    loadPpuRegisters q (savePpuRegisters p ++ rest) =
      .ok { q with ctrl := p.ctrl, mask := p.mask, status := p.status, busLatch := p.busLatch, readBuffer := p.readBuffer,
                   oamAddr := p.oamAddr, v := p.v, t := p.t, fineX := p.fineX, w := p.w } rest := by
  obtain ⟨-, hstatus, -⟩ := hp
  have word := fun (v : BitVec 15) => readBits_leBytes 2 (by decide : 2 ^ 15 ≤ 256 ^ 2) v
  have fine := readBits_setWidth (by decide : 3 ≤ 8) p.fineX
  simp only [loadPpuRegisters, savePpuRegisters, le16, List.append_assoc, List.cons_append, List.nil_append,
    ReadResult.andThen_ok, ReadResult.check_ok, readByte_cons, decide_eq_true hstatus, if_true, word, fine, readBool_boolByte]

theorem loadPpu_savePpu (u : State) {p : Ppu} (m : Mirroring) (hp : p.Inv) (rest : List Byte) :
    loadPpu u (savePpu m p ++ rest) =
      .ok { u with
        mirroring := m
        ppu := { p with secOam := u.ppu.secOam, spr := u.ppu.spr, work := u.ppu.work, front := u.ppu.front, rgb := u.ppu.rgb } }
        rest := by
  obtain ⟨-, -, ⟨hnt, hpal, hoam⟩, -⟩ := id hp
  simp only [loadPpu, savePpu_eq, List.append_assoc, List.cons_append, List.nil_append, readMemory_toBytes hnt,
    readMemory_toBytes hpal, readMemory_toBytes hoam, readMirroring_code, ReadResult.andThen_ok, loadCounters_saveCounters _ hp,
    loadPpuRegisters_savePpuRegisters _ hp, loadBackground_saveBackground]

theorem readBytes_append {n : Nat} {bytes : List Byte} (h : bytes.length = n) (rest : List Byte) :
    readBytes n (bytes ++ rest) = .ok bytes rest := by
  rw [readBytes, if_neg (by rw [List.length_append, h]; omega), List.take_left' h, List.drop_left' h]

/-- Which registers are read depends on the mapper's number alone. -/
theorem loadMapperRegisters_congr {m k : Mapper} (h : k.number = m.number) : loadMapperRegisters k = loadMapperRegisters m := by
  cases m <;> cases k <;> simp_all [Mapper.number, loadMapperRegisters, funext_iff]

theorem loadMapperRegisters_saveMapper {m : Mapper} (hm : m.registersOk = true) (rest : List Byte) :
    loadMapperRegisters m (saveMapper m ++ rest) = .ok m rest := by
  cases m with
  | nrom | unrom bank | axrom bank => rfl
  | mmc1 r =>
    have hn : r.writeN ≤ 4 := of_decide_eq_true hm
    have hbyte : (BitVec.ofNat 8 r.writeN).toNat = r.writeN := Nat.mod_eq_of_lt (by omega)
    have five := fun (v : BitVec 5) => readBits_setWidth (by decide : 5 ≤ 8) v
    simp only [loadMapperRegisters, loadMmc1, saveMapper, List.cons_append, List.nil_append, readByte_cons, ReadResult.check_ok,
      hbyte, decide_eq_true hn, if_true, ReadResult.andThen_ok, five]
  | mmc3 r =>
    have hregs : r.regs.length = 8 := of_decide_eq_true hm
    simp only [loadMapperRegisters, loadMmc3, saveMapper, List.cons_append, List.nil_append, List.append_assoc, readByte_cons,
      ReadResult.andThen_ok, readBytes_append hregs, readBool_boolByte]

theorem applyLoaded_of_mirroring {m : Mapper} {s : State} (h : m.mirroring s.mirroring = s.mirroring) (bytes : List Byte) :
    applyLoaded m s bytes = .ok (s.applyMapper m) bytes := if_pos h

/-- The mapper part over a machine with a cartridge of the same kind and the mirroring that the PPU part left. -/
theorem loadCart_saveCart {u s : State} (hs : s.Inv) (hkind : u.cartKind = s.cartKind) (hmirroring : u.mirroring = s.mirroring)
    (hprgRam : s.cart.prgRamSize < 2 ^ 64) (hchr : s.cart.chrSize < 2 ^ 64) (rest : List Byte) :
    loadCart u (saveCart s.mapper s.cart ++ rest) = .ok
      (({ u with cart := { u.cart with prgRam := s.cart.prgRam, chr := if s.cart.chrIsRam then s.cart.chr else u.cart.chr } } :
        State).applyMapper s.mapper) rest := by
  obtain ⟨-, -, ⟨-, -, -, -, hchrInside, hprgRamInside⟩, hregisters, ⟨-, hcurrent⟩, -⟩ := hs
  obtain ⟨hnumber, hprgSize, hchrSize, hisRam, hprgRamSize⟩ := CartKind.mk.inj hkind
  have hkept : s.mapper.mirroring u.mirroring = u.mirroring := by rw [hmirroring, ← hcurrent]
  rw [loadCart, saveCart, loadMapperRegisters_congr hnumber, List.append_assoc, List.append_assoc,
    loadMapperRegisters_saveMapper hregisters, ReadResult.andThen_ok, hprgRamSize, readVector_saveVector hprgRam hprgRamInside,
    ReadResult.andThen_ok, hisRam]
  cases hram : s.cart.chrIsRam
  case false =>
    simp only [Bool.false_eq_true, if_false, List.nil_append]
    refine applyLoaded_of_mirroring ?_ _
    exact hkept
  case true =>
    simp only [if_true, hchrSize, readVector_saveVector hchr hchrInside, ReadResult.andThen_ok]
    refine applyLoaded_of_mirroring ?_ _
    exact hkept

theorem loadController_saveController (u : State) (c : Controller) (rest : List Byte) :
    loadController u (saveController c ++ rest) =
      .ok { u with ctl := { u.ctl with shift0 := c.shift0, shift1 := c.shift1, strobe := c.strobe } } rest := by
  simp only [loadController, saveController, List.cons_append, List.nil_append, readByte_cons, readBool_boolByte,
    ReadResult.andThen_ok]

/-- The machine that a snapshot of `s` leaves of `u`, the sprite buffers apart. -/
def State.restored (s u : State) : State :=
  { s with
    palette := u.palette
    ctl := { s.ctl with buttons0 := u.ctl.buttons0, buttons1 := u.ctl.buttons1 }
    cart := { u.cart with prgRam := s.cart.prgRam, chr := if s.cart.chrIsRam then s.cart.chr else u.cart.chr }
    ppu := { s.ppu with secOam := u.ppu.secOam, spr := u.ppu.spr, work := u.ppu.work, front := u.ppu.front, rgb := u.ppu.rgb } }

theorem loadParts_snapshotBytes {u s : State} (hs : s.Inv) (hkind : u.cartKind = s.cartKind) (hrun : u.run = s.run)
    (hcycles : s.cycleCount < 2 ^ 64) (hprgRam : s.cart.prgRamSize < 2 ^ 64) (hchr : s.cart.chrSize < 2 ^ 64) :
    loadParts u (snapshotBytes s) = .ok (s.restored u) [] := by
  obtain ⟨hram, hppu, -, -, ⟨hbanks, hcurrent⟩, -⟩ := id hs
  obtain ⟨-, hprgSize, hchrSize, -, -⟩ := CartKind.mk.inj hkind
  rw [← hprgSize, ← hchrSize] at hbanks
  have hcontroller : saveController s.ctl = saveController s.ctl ++ [] := (List.append_nil _).symm
  rw [loadParts, snapshotBytes, hcontroller, List.append_assoc, List.append_assoc, loadCpu_saveCpu u hram hcycles,
    ReadResult.andThen_ok, loadPpu_savePpu _ s.mirroring hppu, ReadResult.andThen_ok,
    loadCart_saveCart hs ?kind ?mirroring hprgRam hchr, ReadResult.andThen_ok, loadController_saveController]
  · simp only [State.applyMapper, State.restored, ← hbanks, ← hcurrent, hrun]
  case kind => exact hkind
  case mirroring => rfl

/-! ## The lengths (R582 to R586) -/

theorem length_saveCpu (s : State) : (saveCpu s).length = 2065 := by
  simp only [saveCpu, le16, le64, List.length_append, List.length_cons, List.length_nil, length_leBytes, Memory.length_toBytes]
  rfl

theorem length_savePpu (m : Mirroring) (p : Ppu) : (savePpu m p).length = 2369 := by
  simp only [savePpu, le16, List.length_append, List.length_cons, List.length_nil, length_leBytes, Memory.length_toBytes]
  rfl

theorem length_saveMapper {m : Mapper} (hm : m.registersOk = true) : (saveMapper m).length = mapperRegistersSize m := by
  cases m with
  | nrom | mmc1 r | unrom bank | axrom bank => rfl
  | mmc3 r =>
    have hregs : r.regs.length = 8 := of_decide_eq_true hm
    simp only [saveMapper, List.length_append, List.length_cons, hregs]
    rfl

@[simp] theorem length_saveVector (n : Nat) (m : Memory) : (saveVector n m).length = 8 + n := by
  rw [saveVector, le64, List.length_append, length_leBytes, Memory.length_toBytes]

theorem mapperRegistersSize_eq_lookup (m : Mapper) :
    mapperRegistersSize m = ([(0, 0), (1, 6), (2, 1), (4, 13), (7, 1)].lookup m.number).getD 0 := by
  cases m <;> rfl

theorem foldr_leBytes {n v : Nat} (h : v < 256 ^ n) :
    (leBytes n v).foldr (fun b n => b.toNat + 256 * n) 0 = v := by
  induction n generalizing v with
  | zero => rw [Nat.lt_one_iff.1 h]; rfl
  | succ n ih =>
    have hrest : v / 256 < 256 ^ n := Nat.div_lt_of_lt_mul (by rwa [← Nat.pow_succ'])
    rw [leBytes, List.foldr_cons, ih hrest]
    exact Nat.mod_add_div v 256

/-- A length field, read where it was written. -/
theorem u64At_append {before : List Byte} {n k : Nat} (hk : before.length = k) (hn : n < 2 ^ 64) (after : List Byte) :
    u64At (before ++ (le64 n ++ after)) k = n := by
  rw [u64At, List.drop_left' hk, le64, List.take_left' (length_leBytes 8 n)]
  exact foldr_leBytes hn

/-- The bytes of a snapshot before the length field of `cart.prg_ram`. -/
def snapshotHead (s : State) : List Byte := saveCpu s ++ savePpu s.mirroring s.ppu ++ saveMapper s.mapper

/-- The bytes of a snapshot after `cart.prg_ram`. -/
def snapshotTail (s : State) : List Byte :=
  (if s.cart.chrIsRam then saveVector s.cart.chrSize s.cart.chr else []) ++ saveController s.ctl

theorem snapshotBytes_eq (s : State) :
    snapshotBytes s = snapshotHead s ++ saveVector s.cart.prgRamSize s.cart.prgRam ++ snapshotTail s := by
  simp only [snapshotBytes, saveCart, snapshotHead, snapshotTail, List.append_assoc]

theorem length_snapshotTail (s : State) :
    (snapshotTail s).length = (if s.cart.chrIsRam then 8 + s.cart.chrSize else 0) + 3 := by
  rw [snapshotTail, List.length_append, apply_ite List.length, length_saveVector]
  rfl

section
variable {u s : State} (hregisters : s.mapper.registersOk = true) (hkind : u.cartKind = s.cartKind)
include hregisters hkind

theorem length_snapshotHead : (snapshotHead s).length = prgRamPrefixAt u := by
  obtain ⟨hnumber, -⟩ := CartKind.mk.inj hkind
  rw [snapshotHead, List.length_append, List.length_append, length_saveCpu, length_savePpu, length_saveMapper hregisters,
    mapperRegistersSize_eq_lookup, ← hnumber, ← mapperRegistersSize_eq_lookup, prgRamPrefixAt, fixedPartsSize]

theorem length_snapshotHead_prgRam :
    (snapshotHead s ++ saveVector s.cart.prgRamSize s.cart.prgRam).length = chrPrefixAt u := by
  obtain ⟨-, -, -, -, hprgRamSize⟩ := CartKind.mk.inj hkind
  rw [List.length_append, length_snapshotHead hregisters hkind, length_saveVector, chrPrefixAt, hprgRamSize, Nat.add_assoc]

theorem length_snapshotBytes : (snapshotBytes s).length = snapshotSize u := by
  obtain ⟨-, -, hchrSize, hisRam, -⟩ := CartKind.mk.inj hkind
  rw [snapshotBytes_eq, List.length_append, length_snapshotHead_prgRam hregisters hkind, length_snapshotTail, snapshotSize, hisRam,
    hchrSize, Nat.add_assoc]

theorem u64At_prgRamPrefix (hprgRam : s.cart.prgRamSize < 2 ^ 64) :
    u64At (snapshotBytes s) (prgRamPrefixAt u) = s.cart.prgRamSize := by
  rw [snapshotBytes_eq, saveVector, List.append_assoc, List.append_assoc]
  exact u64At_append (length_snapshotHead hregisters hkind) hprgRam _

theorem u64At_chrPrefix (hchr : s.cart.chrSize < 2 ^ 64) (hram : s.cart.chrIsRam = true) :
    u64At (snapshotBytes s) (chrPrefixAt u) = s.cart.chrSize := by
  have htail : snapshotTail s = le64 s.cart.chrSize ++ (s.cart.chr.toBytes s.cart.chrSize ++ saveController s.ctl) := by
    rw [snapshotTail, if_pos hram, saveVector, List.append_assoc]
  rw [snapshotBytes_eq, htail]
  exact u64At_append (length_snapshotHead_prgRam hregisters hkind) hchr _

/-- The file of a machine with a cartridge of the same kind has the length and the length fields of one. -/
theorem isShortSnapshot_snapshotBytes (hprgRam : s.cart.prgRamSize < 2 ^ 64) (hchr : s.cart.chrSize < 2 ^ 64) :
    isShortSnapshot u (snapshotBytes s) = false := by
  obtain ⟨-, -, hchrSize, hisRam, hprgRamSize⟩ := CartKind.mk.inj hkind
  rw [isShortSnapshot, length_snapshotBytes hregisters hkind, u64At_prgRamPrefix hregisters hkind hprgRam, hisRam]
  cases hram : s.cart.chrIsRam
  case false => simp [hprgRamSize]
  case true => simp [hprgRamSize, u64At_chrPrefix hregisters hkind hchr hram, hchrSize]

end

theorem loadSnapshot_some {u : State} (hu : u.run = .running) (file : SnapshotFile) :
    loadSnapshot (some file) u = loadFile file u := by
  simp only [loadSnapshot, hu]

/-- Settles O60, by the parts read back over the machine, the lengths of a file, and the order of the loader's checks. -/
theorem snapshotRoundTrip : Obligations.SnapshotRoundTrip := by
  refine ⟨fun s u hs hu hrun hurun hcycles hkind hprgRam hchr => ?restores,
    fun file u hu => ⟨fun hshort => ?short, fun hforeign => ?foreign⟩, fun u hu => ?absent⟩
  case restores =>
    obtain ⟨-, -, -, hregisters, -⟩ := id hs
    refine ⟨snapshotBytes s, by simp only [saveSnapshot, hrun], ?_⟩
    rw [loadSnapshot_some hurun, loadFile, isShortSnapshot_snapshotBytes hregisters hkind hprgRam hchr, if_neg Bool.false_ne_true,
      if_neg (not_not.2 hkind.symm), loadParts_snapshotBytes hs hkind (hurun.trans hrun.symm) hcycles hprgRam hchr]
    rfl
  case short =>
    rw [← mapperRegistersSize_eq_lookup] at hshort
    have hsize : file.bytes.length < snapshotSize u := by
      simpa only [snapshotSize, chrPrefixAt, prgRamPrefixAt, fixedPartsSize, Nat.add_assoc] using hshort
    rw [loadSnapshot_some hu, loadFile, if_pos (by simp [isShortSnapshot, hsize])]
  case foreign =>
    rw [loadSnapshot_some hu, loadFile]
    by_cases hshort : isShortSnapshot u file.bytes = true
    · exact .inl (if_pos hshort)
    · exact .inr ((if_neg hshort).trans (if_pos hforeign))
  case absent => simp only [loadSnapshot, hu]

end Sys2Proof.Machine
end
